-- ==== Sys2Proof/Word.lean ====
section
/-! DEFINITION. The machine's words: 64-bit registers (R58) and bytes. -/

namespace Sys2Proof

/-- A 64-bit register value (R58). -/
abbrev Word := BitVec 64

/-- One byte of memory or of the unified register space. -/
abbrev Byte := BitVec 8

/-- The canonical list form of a byte memory: addresses rising, no zero byte listed. -/
abbrev Memory := List (Nat × Byte)

end Sys2Proof
end

