-- ==== Sys2Proof/Machine/Bits.lean ====
section
/-! DEFINITION. Bit fields, little-endian bytes (R2) and the byte memories in their canonical list form. -/

namespace Sys2Proof.Machine

/-- Bits lo+n-1 : lo of a number (R3). -/
def bitsAt (w lo n : Nat) : Nat := w / 2 ^ lo % 2 ^ n

/-- Bit i of a number. -/
def bitAt (w i : Nat) : Bool := w / 2 ^ i % 2 == 1

/-- The n low bits of a number read as two's complement. -/
def signedOf (n v : Nat) : Int :=
  if bitAt v (n - 1) then (v % 2 ^ n : Nat) - (2 ^ n : Nat) else (v % 2 ^ n : Nat)

/-- An integer modulo 2^n, as a number. -/
def wrapTo (n : Nat) (v : Int) : Nat := (v % (2 ^ n : Nat)).toNat

/-- Sign extension of the n low bits to 64 bits. -/
def sextW (n v : Nat) : Word := BitVec.ofInt 64 (signedOf n v)

/-- 1 for true. -/
def b2n (b : Bool) : Nat := if b then 1 else 0

/-- The low n bytes of a number, least significant first (R2). -/
def leBytes : Nat → Nat → List Byte
  | 0, _ => []
  | n + 1, v => BitVec.ofNat 8 v :: leBytes n (v / 256)

/-- The number that little-endian bytes hold (R2). -/
def leNat : List Byte → Nat
  | [] => 0
  | b :: bs => b.toNat + 256 * leNat bs

/-- A 64-bit word's bytes. -/
def wordBytes (w : Word) : List Byte := leBytes 8 w.toNat

/-- The 64-bit word that up to eight bytes hold, zero-extended. -/
def bytesWord (bs : List Byte) : Word := BitVec.ofNat 64 (leNat bs)

/-- n zero bytes. -/
def zeroBytes (n : Nat) : List Byte := List.replicate n 0

/-- The first n bytes, padded with zero bytes to n. -/
def fitBytes : Nat → List Byte → List Byte
  | 0, _ => []
  | n + 1, [] => 0 :: fitBytes n []
  | n + 1, b :: bs => b :: fitBytes n bs

/-- One byte of a memory; an unlisted address reads as zero (log entry 5). -/
def memGet : Memory → Nat → Byte
  | [], _ => 0
  | (b, v) :: m, a => if a = b then v else memGet m a

/-- One byte written, the list kept in its canonical form. -/
def memSet : Memory → Nat → Byte → Memory
  | [], a, v => if v = 0 then [] else [(a, v)]
  | (b, w) :: m, a, v =>
    if a < b then (if v = 0 then (b, w) :: m else (a, v) :: (b, w) :: m)
    else if a = b then (if v = 0 then m else (a, v) :: m)
    else (b, w) :: memSet m a v

/-- n bytes from an address. -/
def memRead (m : Memory) (a : Nat) : Nat → List Byte
  | 0 => []
  | n + 1 => memGet m a :: memRead m (a + 1) n

/-- Bytes written from an address upwards. -/
def memWrite (m : Memory) (a : Nat) : List Byte → Memory
  | [] => m
  | b :: bs => memWrite (memSet m a b) (a + 1) bs

/-- Bytes written at the addresses listed. -/
def memWriteAll (m : Memory) : List (Nat × Byte) → Memory
  | [] => m
  | (a, b) :: cs => memWriteAll (memSet m a b) cs

/-- The cells of [lo, lo + n). -/
def memCells (m : Memory) (lo n : Nat) : Memory := m.filter (fun c => lo ≤ c.1 && c.1 < lo + n)

/-- Cells moved by an offset: from base `from_` to base `to_`. -/
def memShift (m : Memory) (from_ to_ : Nat) : Memory := m.map (fun c => (c.1 - from_ + to_, c.2))

/-- All bytes of [lo, lo + n) zero. -/
def memClear (m : Memory) (lo n : Nat) : Memory := m.filter (fun c => !(lo ≤ c.1 && c.1 < lo + n))

/-- Whether addresses rise strictly and no zero byte is listed. -/
def memWfFrom : Nat → Memory → Bool
  | _, [] => true
  | lo, (a, v) :: m => lo ≤ a && v != 0 && memWfFrom (a + 1) m

/-- The canonical form of a memory. -/
def memWf (m : Memory) : Bool := memWfFrom 0 m

/-- A little-endian 64-bit word of a memory. -/
def memWord (m : Memory) (a : Nat) : Word := bytesWord (memRead m a 8)

/-- Number of bits of a number: 0 for 0. -/
def bitLen (n : Nat) : Nat := if n = 0 then 0 else Nat.log2 n + 1

/-- Number of one bits among the n low bits. -/
def popCount : Nat → Nat → Nat
  | 0, _ => 0
  | n + 1, v => v % 2 + popCount n (v / 2)

/-- Bitwise combinations of numbers, through a fixed width. -/
def natAnd (n a b : Nat) : Nat := (BitVec.ofNat n a &&& BitVec.ofNat n b).toNat
def natOr (n a b : Nat) : Nat := (BitVec.ofNat n a ||| BitVec.ofNat n b).toNat
def natXor (n a b : Nat) : Nat := (BitVec.ofNat n a ^^^ BitVec.ofNat n b).toNat
def natNot (n a : Nat) : Nat := (~~~ BitVec.ofNat n a).toNat

/-- A list cut into pieces of n elements, the last shorter ones dropped; `k` bounds the pieces. -/
def chunksOf {α : Type} (n : Nat) : Nat → List α → List (List α)
  | 0, _ => []
  | k + 1, l => l.take n :: chunksOf n k (l.drop n)

/-- Element i of a list with a default. -/
def nth {α : Type} (l : List α) (i : Nat) (d : α) : α := (l[i]?).getD d

end Sys2Proof.Machine
end

