-- ==== Sys2Proof/Syntax.lean ====
section
/-! DEFINITION. The abstract syntax: one constructor of `Instr` per row of spec/opcode_table.json.
The first 128 constructors are instructions of R259; `illegalOpc` is the row for words that encode none; the other
constructors are the steps of the part's units, of its keystones, lintels and capstone, and of its host. -/

namespace Sys2Proof

/-- A scalar or vector operand (R253): codes 0-31 name a register, 32-39 a stream. -/
inductive Opd where
  | reg (n : Fin 32)
  | str (n : Fin 8)
  deriving DecidableEq, Repr

/-- Element types (R80), the reserved codes 7 and 15 left out. -/
inductive ElemTy where
  | i8 | n8 | i16 | n16 | i32 | n32 | i64 | bf16 | fp16 | fp32 | e4m3 | e5m2 | bfp | lut8
  deriving DecidableEq, Repr

/-- Scope codes 0-6 (R15). -/
inductive Scope where
  | core | quad | tile | die | pkg | pod | host
  deriving DecidableEq, Repr

/-- Ordering codes 0-6 of format M (R152, R255). -/
inductive AccOrd where
  | plain | acq | rel | acqrel | lock | unlock | nt
  deriving DecidableEq, Repr

/-- Branch conditions 0-11 (R256). -/
inductive Cond where
  | eq | ne | lt | ge | ltn | gen | zero | nz | neg | nneg | alw | sne
  deriving DecidableEq, Repr

/-- The MOD field of the integer mould (R281): width code and the unsigned bit. -/
structure IMod where
  w : Fin 4
  n : Bool
  deriving DecidableEq, Repr

/-- The address and access fields of format M (R250, R255). -/
structure MArgs where
  base  : Opd
  idx   : Opd
  sz    : Fin 7
  ord   : AccOrd
  scope : Scope
  xs    : Fin 3
  off   : BitVec 25
  deriving DecidableEq, Repr

/-- ATOM functions (R287). -/
inductive AtomOp where
  | add | and | or | xor | smin | smax | nmin | nmax | xchg | cas | fadd
  deriving DecidableEq, Repr

/-- ATOM ordering codes (R287). -/
inductive AtomOrd where
  | none | acq | rel | acqrel
  deriving DecidableEq, Repr

/-- VCMP conditions (R368). -/
inductive VCond where
  | eq | ne | lt | le | gt | ge | unord | ord
  deriving DecidableEq, Repr

/-- VCMP destination: a vector, or a predicate when TOP = 1 (R368). -/
inductive VCmpDst where
  | vec (d : Opd)
  | pred (p : Fin 8)
  deriving DecidableEq, Repr

/-- VRED and VSCAN operators (R372). -/
inductive RedOp where
  | sum | min | max | and | or | xor
  deriving DecidableEq, Repr

/-- VSRP modes (R373); BUCKET has no B or C operand. -/
inductive SrpOp where
  | proj (b c : Opd)
  | bucket
  deriving DecidableEq, Repr

/-- SBIND kinds 0-2 (R350). -/
inductive BindKind where
  | pattern | queue | expander
  deriving DecidableEq, Repr

/-- TAGCTL actions (R361). -/
inductive TagAct where
  | config | setEn | clrEn | setPend | clrPend
  deriving DecidableEq, Repr

/-- GMAP maps (R110, R114). -/
inductive GMapOp where
  | cvt | fmulc | faddc | iaddc | rowdot
  deriving DecidableEq, Repr

/-- GPOS queries (R110, R113). -/
inductive GQuery where
  | prefixSum | scan | elem
  deriving DecidableEq, Repr

/-- FENCE kinds (R160). -/
inductive FenceKind where
  | none | rel | acq | ar
  deriving DecidableEq, Repr

/-- TLBI kinds (R363). -/
inductive TlbiKind where
  | page | asid | all
  deriving DecidableEq, Repr

/-- Why a word encodes no instruction (R260): ILLEGAL_OPC or ILLEGAL_LEN. -/
inductive IllegalKind where
  | opc | len
  deriving DecidableEq, Repr

/-- A CORE value (R9): DIE 14:12, TILE 11:6, SLOT 5:0. -/
abbrev CoreId := BitVec 15

/-- A package tile number, DIE * 64 + TILE (R242). -/
abbrev TileId := BitVec 9

/-- The fields of an ashlar block header (R168), as the load pipe reads them. -/
structure BlockHdr where
  addr  : Nat
  opc   : BitVec 6
  exp   : BitVec 2
  fmt   : BitVec 4
  bw    : BitVec 3
  delta : Bool
  tgen  : Bool
  route : BitVec 16
  succ  : BitVec 48
  base  : BitVec 48
  hintp : BitVec 48
  word4 : BitVec 32
  plen  : BitVec 32
  /-- some must-be-zero bit of the header is set (R172) -/
  bad   : Bool
  deriving DecidableEq, Repr

/-- What the scrubber finds in one 8-byte word (R244). -/
inductive ScrubFind where
  | clean | corrected | uncorrectable
  /-- a register of a core fails its parity (R243, R244); the table has no row of its own for it (log entry 49) -/
  | parity (c : CoreId)
  deriving DecidableEq, Repr

/-- One constructor per row of the opcode table. -/
inductive Instr where
  -- control
  | skipWord
  | nop (pg : Fin 8)
  | pbr (pg : Fin 8) (d : Fin 4) (reg : Bool) (a : Opd) (imm : BitVec 32)
  | br (c : Cond) (hint : Fin 3) (bt : Fin 4) (a b : Opd)
  | bri (c : Cond) (hint : Fin 3) (bt : Fin 4) (a b : Opd) (off : BitVec 34)
  | jmpr (pg : Fin 8) (a : Opd)
  | call (reg : Bool) (d a : Opd) (imm : BitVec 34)
  | ret (pg : Fin 8) (a : Opd)
  | rep (step fmask : BitVec 4) (km1 : BitVec 12) (nm1 : BitVec 4)
  | endTask (pg : Fin 8)
  | brk (code : BitVec 34)
  | trap (code : BitVec 34)
  | eret (pg : Fin 8)
  | fmt (v : BitVec 19)
  | phase (n : BitVec 6)
  | wait (ld st job mx gr : BitVec 6)
  -- integer mould
  | add (m : IMod) (pg : Fin 8) (d a b : Opd)
  | addImm (m : IMod) (d a : Opd) (imm : BitVec 34)
  | sub (m : IMod) (pg : Fin 8) (d a b : Opd)
  | mul (m : IMod) (pg : Fin 8) (d a b : Opd)
  | mulh (m : IMod) (pg : Fin 8) (d a b : Opd)
  | div (m : IMod) (pg : Fin 8) (d a b : Opd)
  | rem (m : IMod) (pg : Fin 8) (d a b : Opd)
  | and (m : IMod) (pg : Fin 8) (d a b : Opd)
  | andImm (m : IMod) (d a : Opd) (imm : BitVec 34)
  | or (m : IMod) (pg : Fin 8) (d a b : Opd)
  | orImm (m : IMod) (d a : Opd) (imm : BitVec 34)
  | xor (m : IMod) (pg : Fin 8) (d a b : Opd)
  | xorImm (m : IMod) (d a : Opd) (imm : BitVec 34)
  | andn (m : IMod) (pg : Fin 8) (d a b : Opd)
  | shl (m : IMod) (pg : Fin 8) (d a b : Opd)
  | shlImm (m : IMod) (d a : Opd) (imm : BitVec 34)
  | shr (m : IMod) (pg : Fin 8) (d a b : Opd)
  | shrImm (m : IMod) (d a : Opd) (imm : BitVec 34)
  | rot (m : IMod) (pg : Fin 8) (d a b : Opd)
  | rotImm (m : IMod) (d a : Opd) (imm : BitVec 34)
  | min (m : IMod) (pg : Fin 8) (d a b : Opd)
  | minImm (m : IMod) (d a : Opd) (imm : BitVec 34)
  | max (m : IMod) (pg : Fin 8) (d a b : Opd)
  | maxImm (m : IMod) (d a : Opd) (imm : BitVec 34)
  | cmp (m : IMod) (pg : Fin 8) (d a b : Opd)
  | cmpImm (m : IMod) (d a : Opd) (imm : BitVec 34)
  | sel (m : IMod) (pg : Fin 8) (d a b c : Opd)
  | clz (m : IMod) (pg : Fin 8) (d a : Opd)
  | popc (m : IMod) (pg : Fin 8) (d a : Opd)
  | bfx (m : IMod) (pg : Fin 8) (d a b c : Opd)
  | bfi (m : IMod) (pg : Fin 8) (d a b c : Opd)
  | madd (m : IMod) (pg : Fin 8) (d a b c : Opd)
  | lea (m : IMod) (pg : Fin 8) (d a b c : Opd)
  | leaImm (m : IMod) (d : Opd) (imm : BitVec 34)
  | li (pg : Fin 8) (d : Opd) (imm : BitVec 32)
  | liLong (pg : Fin 8) (d : Opd) (imm : BitVec 64)
  -- scalar floating point
  | fadd (t : ElemTy) (pg : Fin 8) (d a b : Opd)
  | fsub (t : ElemTy) (pg : Fin 8) (d a b : Opd)
  | fmul (t : ElemTy) (pg : Fin 8) (d a b : Opd)
  | ffma (t : ElemTy) (pg : Fin 8) (d a b c : Opd)
  | fdiv (t : ElemTy) (pg : Fin 8) (d a b : Opd)
  | fsqrt (t : ElemTy) (pg : Fin 8) (d a : Opd)
  | fmin (t : ElemTy) (pg : Fin 8) (d a b : Opd)
  | fmax (t : ElemTy) (pg : Fin 8) (d a b : Opd)
  | fcmp (t : ElemTy) (pg : Fin 8) (d a b : Opd)
  | fcvt (td ts : ElemTy) (pg : Fin 8) (d a : Opd)
  -- memory and ordering
  | ld (d : Opd) (m : MArgs)
  | st (d : Opd) (m : MArgs)
  | ldv (d : Opd) (m : MArgs)
  | stv (d : Opd) (m : MArgs)
  | ldg (et : ElemTy) (bytes : Bool) (pg : Fin 8) (d a b : Opd)
  | sts (et : ElemTy) (bytes : Bool) (pg : Fin 8) (d a b : Opd)
  | pref (m : MArgs)
  | atom (op : AtomOp) (s4 : Bool) (ord : AtomOrd) (scope : Scope) (pg : Fin 8) (d a b c : Opd)
  | acq (d : Opd) (m : MArgs)
  | rel (d : Opd) (m : MArgs)
  | bind (mod : BitVec 8) (pg : Fin 8) (d a b c : Opd)
  | fence (k : FenceKind) (scope : Scope)
  | bar (scope : Scope) (idx : Fin 4)
  -- tasks and messages
  | fork (inh : Bool) (ss : Scope) (pg : Fin 8) (d a b c : Opd) (imm : BitVec 32)
  | join (d : Opd) (m : MArgs)
  | send (queue rel : Bool) (scope : Scope) (target : Fin 64) (pg : Fin 8) (a b : Opd)
  | sendImm (queue rel : Bool) (scope : Scope) (target : Fin 64) (pg : Fin 8) (a : Opd) (imm : BitVec 32)
  | tagctl (act : TagAct) (d a : Opd) (tag : Fin 64) (prio : BitVec 7)
  | cont (pg : Fin 8) (d a b c : Opd) (imm : BitVec 32)
  -- streams and control registers
  | sbind (k : BindKind) (out : Bool) (esz : Fin 4) (pg : Fin 8) (d : Fin 8) (a b : Opd)
  | sunb (pg : Fin 8) (d : Fin 8)
  | sstat (pg : Fin 8) (d : Opd) (s : Fin 8)
  | crr (d : Opd) (reg : Fin 26)
  | crw (reg : Fin 26) (a : Opd)
  -- vector
  | vadd (et : ElemTy) (pg : Fin 8) (d a b : Opd)
  | vsub (et : ElemTy) (pg : Fin 8) (d a b : Opd)
  | vmul (et : ElemTy) (pg : Fin 8) (d a b : Opd)
  | vfma (et : ElemTy) (pg : Fin 8) (d a b c : Opd)
  | vmin (et : ElemTy) (pg : Fin 8) (d a b : Opd)
  | vmax (et : ElemTy) (pg : Fin 8) (d a b : Opd)
  | vand (et : ElemTy) (pg : Fin 8) (d a b : Opd)
  | vor (et : ElemTy) (pg : Fin 8) (d a b : Opd)
  | vxor (et : ElemTy) (pg : Fin 8) (d a b : Opd)
  | vshl (et : ElemTy) (pg : Fin 8) (d a b : Opd)
  | vshr (et : ElemTy) (pg : Fin 8) (d a b : Opd)
  | vcmp (cond : VCond) (et : ElemTy) (pg : Fin 8) (d : VCmpDst) (a b : Opd)
  | vsel (et : ElemTy) (pg : Fin 8) (d a b c : Opd)
  | vabs (et : ElemTy) (pg : Fin 8) (d a : Opd)
  | vneg (et : ElemTy) (pg : Fin 8) (d a : Opd)
  | vsadd (et : ElemTy) (pg : Fin 8) (d a b : Opd)
  | vrcp (et : ElemTy) (pg : Fin 8) (d a : Opd)
  | vexp2 (et : ElemTy) (pg : Fin 8) (d a : Opd)
  | vmov (et : ElemTy) (pg : Fin 8) (d a : Opd)
  | vbcast (et : ElemTy) (pg : Fin 8) (d a : Opd)
  | vred (op : RedOp) (et : ElemTy) (pg : Fin 8) (d a : Opd)
  | vscan (op : RedOp) (et : ElemTy) (pg : Fin 8) (d a : Opd)
  | vperm (et : ElemTy) (pg : Fin 8) (d a b c : Opd)
  | vcvt (td ts : ElemTy) (pg : Fin 8) (d a : Opd)
  | vlut (et : ElemTy) (part : Fin 4) (pg : Fin 8) (d a : Opd)
  | vsrp (op : SrpOp) (et : ElemTy) (pg : Fin 8) (d a : Opd)
  -- matrix
  | mma (eta etb : ElemTy) (pg : Fin 8) (d : Fin 4) (a b c : Opd) (sa sb : BitVec 32)
  | mxst (d : Fin 4) (m : MArgs)
  | mxld (d : Fin 8) (m : MArgs)
  | mxz (pg : Fin 8) (d : Fin 4)
  -- grammar
  | gred (op : Fin 15) (mod : Fin 16) (pg : Fin 8) (d a b c : Opd)
  | gmap (op : GMapOp) (mod : Fin 16) (pg : Fin 8) (d a b c : Opd)
  | gpos (q : GQuery) (mod : Fin 16) (pg : Fin 8) (d a b c : Opd)
  | gexp (scan : Bool) (mod : Fin 16) (pg : Fin 8) (d a b c : Opd)
  -- jobs, gathers, weight-driven mode, service
  | post (d : Opd) (m : MArgs)
  | rgath (pg : Fin 8) (d a b c : Opd)
  | jstat (d : Opd) (m : MArgs)
  | wdenter (abase acntm1 : Fin 4) (pg : Fin 8) (d a b c : Opd) (exit : BitVec 48) (aet : BitVec 4) (abw : BitVec 3)
  | wdexit (pg : Fin 8) (a : Opd)
  | tlbi (k : TlbiKind) (part : Bool) (pg : Fin 8) (a : Opd)
  | ctxsv (d : Opd) (m : MArgs)
  | ctxld (d : Opd) (m : MArgs)
  -- steps of the task machinery
  | taskSelect (c : CoreId)
  | stealRequest (thief victim : CoreId)
  | tileTaskRecordArrive (i : Nat)
  | messageArrival (i : Nat)
  | pendingSignalRecord (c : CoreId) (tag : Fin 64)
  | barrierComplete (i : Nat)
  | courseEnd (i : Nat)
  -- steps of a core's units
  | fetchDeliver (c : CoreId)
  | farLoadReturn (c : CoreId)
  | farStoreDrain (c : CoreId)
  | remoteNearAccess (write : Bool) (addr : Nat) (data : List Byte)
  | mmaKblockComplete (c : CoreId)
  | mxOpComplete (c : CoreId)
  | ruleEvaluate (c : CoreId)
  | grammarOpComplete (c : CoreId)
  | streamTransfer (c : CoreId) (s : Fin 8)
  | gatherElementReply (c : CoreId)
  | pageWalkComplete (c : CoreId) (va : Nat) (write : Bool)
  | asyncFaultTake (c : CoreId)
  | trapMigrate (c : CoreId)
  | serviceTaskCreate (t : TileId) (slot : Fin 64)
  | contextReturn (i : Nat)
  | settleRequest (c : CoreId)
  | timeSliceSwitch (lintel : Fin 4)
  -- jobs of a tile's engines
  | jobCopy (t : TileId) (seq : Nat)
  | jobGather (t : TileId) (seq : Nat)
  | jobColl (t : TileId) (seq : Nat)
  | jobConvert (t : TileId) (seq : Nat)
  | jobTload (t : TileId) (seq : Nat)
  | jobGbuild (t : TileId) (seq : Nat)
  | jobExpand (t : TileId) (seq : Nat)
  | jobComplete (t : TileId) (seq : Nat)
  | collPacket (group : BitVec 32) (block : Nat)
  -- weight-driven mode
  | blockMac (h : BlockHdr)
  | blockMacz (h : BlockHdr)
  | wdKblock (h : BlockHdr)
  | blockEmit (h : BlockHdr)
  | blockLink (h : BlockHdr)
  | blockCallb (h : BlockHdr)
  | blockRetb (h : BlockHdr)
  | blockHint (h : BlockHdr)
  | blockSync (h : BlockHdr)
  | blockExit (h : BlockHdr)
  | blockTrapb (h : BlockHdr)
  | loadpipePrefetch (c : CoreId)
  | stagingEntryExpire (t : TileId) (i : Nat)
  -- observation, soft errors, power
  | plumbPulse (t : TileId)
  | traceRecordWrite (c : CoreId)
  | powerWindow (die : Fin 8) (hot : Bool)
  | scrubStep (addr : Nat) (f : ScrubFind)
  | thermalFault (die : Fin 8)
  | ioDieOverheat (die : Fin 2)
  | packageReset (firmwareOk : Bool)
  -- host and capstone
  | hleaseWrite (port : Fin 2) (v : Word)
  | lperiodWrite (port : Fin 2) (v : Word)
  | leaseExpire
  | notifyWrite (port : Fin 2) (q : Nat)
  | registerWrite (port : Fin 2) (off : Nat) (data : List Byte)
  | createVd (port : Fin 2)
  | destroyVd (port : Fin 2)
  | mapHandle (port : Fin 2)
  | schedule (port : Fin 2)
  | pause (port : Fin 2)
  | resume (port : Fin 2)
  | evict (port : Fin 2)
  | restore (port : Fin 2)
  | leaseRenew (port : Fin 2)
  | claim (port : Fin 2)
  | resync (port : Fin 2)
  | attest (port : Fin 2)
  | setPolicy (port : Fin 2)
  | health (port : Fin 2)
  | mailboxBadOpcode (port : Fin 2)
  | launchPacket (q : Nat)
  | copyPacket (q : Nat)
  | barrierPacket (q : Nat)
  | barrierPacketComplete (q : Nat)
  | signalPacket (q : Nat)
  | nvmeWindowAccess (port : Fin 2) (write : Bool) (off : Nat) (data : List Byte)
  | nvmeInterruptWrite (port : Fin 2) (off : Nat) (data : BitVec 32)
  -- words and headers that name nothing
  | illegalOpc (k : IllegalKind)
  | reservedTypePacket (q : Nat)
  | blockIllegal (h : BlockHdr)
  deriving DecidableEq, Repr

end Sys2Proof
end

