-- ==== Sys2Proof/Machine/Num.lean ====
section
/-! DEFINITION. Number formats and arithmetic (04_numbers, R80-R100): exact values, the one rounding rnd_ne, IEEE
operations with their flags, block formats and conversions. -/

namespace Sys2Proof.Machine

/-- FPF flags (R79): bit 0 invalid, 1 divide-by-zero, 2 overflow, 3 underflow, 4 inexact. -/
abbrev Flags := BitVec 5
def flInvalid : Flags := 1
def flDivZero : Flags := 2
def flOverflow : Flags := 4
def flUnderflow : Flags := 8
def flInexact : Flags := 16

/-- An IEEE value: a NaN (signalling or quiet), an infinity, or (-1)^neg * m * 2^e exactly. -/
inductive FV where
  | nan (signalling : Bool)
  | inf (neg : Bool)
  | fin (neg : Bool) (m : Nat) (e : Int)
  deriving DecidableEq, Repr

/-- A binary format by exponent and fraction bits (R82). -/
structure Fmt where
  eb : Nat
  mb : Nat
  deriving DecidableEq, Repr

def fp32 : Fmt := ⟨8, 23⟩
def fp16 : Fmt := ⟨5, 10⟩
def bf16 : Fmt := ⟨8, 7⟩

def fmtBias (f : Fmt) : Nat := 2 ^ (f.eb - 1) - 1
/-- Exponent of the least significant bit of a subnormal. -/
def fmtQmin (f : Fmt) : Int := 1 - (fmtBias f : Int) - f.mb
def fmtInf (f : Fmt) : Nat := (2 ^ f.eb - 1) * 2 ^ f.mb
/-- The canonical NaN (R83). -/
def fmtNan (f : Fmt) : Nat := fmtInf f + 2 ^ (f.mb - 1)
def fmtBits (f : Fmt) : Nat := 1 + f.eb + f.mb

/-- The value of a format's bits (R82). -/
def unpack (f : Fmt) (bits : Nat) : FV :=
  let m := bitsAt bits 0 f.mb
  let e := bitsAt bits f.mb f.eb
  let neg := bitAt bits (f.eb + f.mb)
  if e = 2 ^ f.eb - 1 then
    if m = 0 then .inf neg else .nan (!bitAt m (f.mb - 1))
  else if e = 0 then .fin neg m (fmtQmin f)
  else .fin neg (m + 2 ^ f.mb) (fmtQmin f + (e - 1))

/-- Round to nearest, ties to even, of (m + eps) * 2^e to a multiple of 2^q, 0 < eps < 1 when `sticky` (R3); also whether
the value changed. -/
def rneAt (m : Nat) (e : Int) (sticky : Bool) (q : Int) : Nat × Bool :=
  if q ≤ e then (m * 2 ^ (e - q).toNat, sticky)
  else
    let s := (q - e).toNat
    let r := m % 2 ^ s
    let t := m / 2 ^ s
    let half := 2 ^ (s - 1)
    let up := half < r || (r == half && (sticky || t % 2 == 1))
    (if up then t + 1 else t, r != 0 || sticky)

/-- rnd_ne to a binary format, with the flags of R83 (tininess after rounding, underflow only when inexact). -/
def roundPack (f : Fmt) (neg : Bool) (m : Nat) (e : Int) (sticky : Bool) : Nat × Flags :=
  let sgn := b2n neg * 2 ^ (f.eb + f.mb)
  if m = 0 then (sgn, 0)
  else
    let top : Int := e + bitLen m - 1
    let emin : Int := fmtQmin f + f.mb
    let q := max (top - f.mb) (fmtQmin f)
    let (sig, inex) := rneAt m e sticky q
    let bits := ((q - fmtQmin f).toNat) * 2 ^ f.mb + sig
    if fmtInf f ≤ bits then (sgn + fmtInf f, flOverflow ||| flInexact)
    else
      let free := (rneAt m e sticky (top - f.mb)).1
      let tiny := top < emin - 1 || (top == emin - 1 && free < 2 ^ (f.mb + 1))
      (sgn + bits, (if inex then flInexact else 0) ||| (if inex && tiny then flUnderflow else 0))

/-- An exact signed value as sign and magnitude. -/
def roundInt (f : Fmt) (v : Int) (e : Int) (zeroNeg : Bool) : Nat × Flags :=
  if v = 0 then (b2n zeroNeg * 2 ^ (f.eb + f.mb), 0) else roundPack f (v < 0) v.natAbs e false

/-- A value put into a format (exact or rounded once), every NaN canonical (R83, R90). -/
def packFV (f : Fmt) : FV → Nat × Flags
  | .nan s => (fmtNan f, if s then flInvalid else 0)
  | .inf n => (b2n n * 2 ^ (f.eb + f.mb) + fmtInf f, 0)
  | .fin n m e => roundPack f n m e false

/-- The signed integer m * 2^(e - q) of a finite value at a common exponent q ≤ e. -/
def alignInt (neg : Bool) (m : Nat) (e q : Int) : Int :=
  let v : Int := (m * 2 ^ (e - q).toNat : Nat)
  if neg then -v else v

def fvIsNan : FV → Bool
  | .nan _ => true
  | _ => false
def fvIsSnan : FV → Bool
  | .nan s => s
  | _ => false
def snanFlag (vs : List FV) : Flags := if vs.any fvIsSnan then flInvalid else 0

/-- Exact sum of two values, before rounding; `inv` when infinities of both signs meet. -/
def addFV (f : Fmt) (a b : FV) : Nat × Flags :=
  if fvIsNan a || fvIsNan b then (fmtNan f, snanFlag [a, b])
  else match a, b with
    | .inf n, .inf k => if n = k then packFV f (.inf n) else (fmtNan f, flInvalid)
    | .inf n, _ => packFV f (.inf n)
    | _, .inf n => packFV f (.inf n)
    | .fin n1 m1 e1, .fin n2 m2 e2 =>
      let q := min e1 e2
      roundInt f (alignInt n1 m1 e1 q + alignInt n2 m2 e2 q) q (if m1 = 0 ∧ m2 = 0 then n1 && n2 else false)
    | _, _ => (fmtNan f, 0)

def negFV : FV → FV
  | .nan s => .nan s
  | .inf n => .inf (!n)
  | .fin n m e => .fin (!n) m e

def subFV (f : Fmt) (a b : FV) : Nat × Flags := addFV f a (negFV b)

/-- Exact product of two values (R83); the flag is invalid for 0 times infinity. -/
def mulExact (a b : FV) : FV × Flags :=
  if fvIsNan a || fvIsNan b then (.nan false, snanFlag [a, b])
  else match a, b with
    | .inf n, .inf k => (.inf (n != k), 0)
    | .inf n, .fin k m _ => if m = 0 then (.nan false, flInvalid) else (.inf (n != k), 0)
    | .fin k m _, .inf n => if m = 0 then (.nan false, flInvalid) else (.inf (n != k), 0)
    | .fin n1 m1 e1, .fin n2 m2 e2 => (.fin (n1 != n2) (m1 * m2) (e1 + e2), 0)
    | _, _ => (.nan false, 0)

def mulFV (f : Fmt) (a b : FV) : Nat × Flags :=
  let (p, fl) := mulExact a b
  let (r, fl2) := packFV f p
  (r, fl ||| fl2)

/-- a * b + c with one rounding; 0 times infinity is invalid even when c is a quiet NaN (R311). -/
def fmaFV (f : Fmt) (a b c : FV) : Nat × Flags :=
  let (p, fl) := mulExact a b
  let (r, fl2) := addFV f p c
  (r, fl ||| fl2)

/-- Quotient with one rounding (R311). -/
def divFV (f : Fmt) (a b : FV) : Nat × Flags :=
  if fvIsNan a || fvIsNan b then (fmtNan f, snanFlag [a, b])
  else match a, b with
    | .inf _, .inf _ => (fmtNan f, flInvalid)
    | .inf n, .fin k _ _ => packFV f (.inf (n != k))
    | .fin n _ _, .inf k => (b2n (n != k) * 2 ^ (f.eb + f.mb), 0)
    | .fin n m1 e1, .fin k m2 e2 =>
      if m2 = 0 then
        if m1 = 0 then (fmtNan f, flInvalid)
        else ((packFV f (.inf (n != k))).1, flDivZero)
      else if m1 = 0 then (b2n (n != k) * 2 ^ (f.eb + f.mb), 0)
      else
        let s := f.mb + 3 + bitLen m2
        let num := m1 * 2 ^ s
        roundPack f (n != k) (num / m2) (e1 - e2 - s) (num % m2 != 0)
    | _, _ => (fmtNan f, 0)

/-- Integer square root, bit by bit from bit i - 1 down. -/
def isqrtFrom (n : Nat) : Nat → Nat → Nat
  | 0, r => r
  | i + 1, r => if (r + 2 ^ i) * (r + 2 ^ i) ≤ n then isqrtFrom n i (r + 2 ^ i) else isqrtFrom n i r

def isqrt (n : Nat) : Nat := isqrtFrom n (bitLen n / 2 + 1) 0

/-- Square root with one rounding (R311). -/
def sqrtFV (f : Fmt) : FV → Nat × Flags
  | .nan s => (fmtNan f, if s then flInvalid else 0)
  | .inf n => if n then (fmtNan f, flInvalid) else (fmtInf f, 0)
  | .fin n m e =>
    if m = 0 then (b2n n * 2 ^ (f.eb + f.mb), 0)
    else if n then (fmtNan f, flInvalid)
    else
      let s := 2 * (f.mb + 3)
      let s := if (e - s) % 2 = 0 then s else s + 1
      let big := m * 2 ^ s
      let r := isqrt big
      roundPack f false r ((e - s) / 2) (r * r != big)

/-- Order of two numbers: -1, 0 or 1; -0 equals +0. -/
def cmpFV (a b : FV) : Int :=
  match a, b with
  | .inf n, .inf k => if n = k then 0 else if n then -1 else 1
  | .inf n, _ => if n then -1 else 1
  | _, .inf k => if k then 1 else -1
  | .fin n1 m1 e1, .fin n2 m2 e2 =>
    let q := min e1 e2
    let x := alignInt n1 m1 e1 q
    let y := alignInt n2 m2 e2 q
    if x < y then -1 else if x = y then 0 else 1
  | _, _ => 0

def fvNeg : FV → Bool
  | .nan _ => false
  | .inf n => n
  | .fin n _ _ => n

/-- minimumNumber (isMax = false) and maximumNumber (R84). -/
def minmaxFV (f : Fmt) (isMax : Bool) (a b : FV) : Nat × Flags :=
  let fl := snanFlag [a, b]
  if fvIsNan a then
    if fvIsNan b then (fmtNan f, fl) else ((packFV f b).1, fl)
  else if fvIsNan b then ((packFV f a).1, fl)
  else
    let c := cmpFV a b
    let less := c < 0 || (c == 0 && fvNeg a && !fvNeg b)
    ((packFV f (if less != isMax then a else b)).1, fl)

/-- Element types by code (R80). -/
def elemOfCode : Nat → Option ElemTy
  | 0 => some .i8 | 1 => some .n8 | 2 => some .i16 | 3 => some .n16 | 4 => some .i32 | 5 => some .n32 | 6 => some .i64
  | 8 => some .bf16 | 9 => some .fp16 | 10 => some .fp32 | 11 => some .e4m3 | 12 => some .e5m2 | 13 => some .bfp
  | 14 => some .lut8 | _ => none

def elemCode : ElemTy → Nat
  | .i8 => 0 | .n8 => 1 | .i16 => 2 | .n16 => 3 | .i32 => 4 | .n32 => 5 | .i64 => 6
  | .bf16 => 8 | .fp16 => 9 | .fp32 => 10 | .e4m3 => 11 | .e5m2 => 12 | .bfp => 13 | .lut8 => 14

/-- size(T) in bytes (R80); 0 for BFP, which has none. -/
def elemSize : ElemTy → Nat
  | .i8 | .n8 | .e4m3 | .e5m2 | .lut8 => 1
  | .i16 | .n16 | .bf16 | .fp16 => 2
  | .i32 | .n32 | .fp32 => 4
  | .i64 => 8
  | .bfp => 0

def elemIsInt : ElemTy → Bool
  | .i8 | .n8 | .i16 | .n16 | .i32 | .n32 | .i64 => true
  | _ => false
def elemIsFp : ElemTy → Bool
  | .bf16 | .fp16 | .fp32 => true
  | _ => false
/-- Types 0-6 and 8-10. -/
def elemIsScal (t : ElemTy) : Bool := elemIsInt t || elemIsFp t
def elemSigned : ElemTy → Bool
  | .i8 | .i16 | .i32 | .i64 => true
  | _ => false
/-- The binary format of a floating-point element type. -/
def elemFmt : ElemTy → Fmt
  | .fp16 => fp16
  | .bf16 => bf16
  | _ => fp32

/-- An integer element's value. -/
def intOf (t : ElemTy) (bits : Nat) : Int :=
  if elemSigned t then signedOf (8 * elemSize t) bits else (bits % 2 ^ (8 * elemSize t) : Nat)

def intMin (t : ElemTy) : Int := if elemSigned t then -(2 ^ (8 * elemSize t - 1) : Nat) else 0
def intMax (t : ElemTy) : Int :=
  if elemSigned t then (2 ^ (8 * elemSize t - 1) : Nat) - 1 else (2 ^ (8 * elemSize t) : Nat) - 1

/-- A value saturated to an integer type's range. -/
def saturate (t : ElemTy) (v : Int) : Int := max (intMin t) (min (intMax t) v)

/-- rnd_ne of a finite value to an integer; also whether it changed. -/
def fvToInt (neg : Bool) (m : Nat) (e : Int) : Int × Bool :=
  let (r, inex) := rneAt m e false 0
  (if neg then -(r : Int) else r, inex)

/-- Conversion of a value to an integer type (R90). -/
def cvtToInt (t : ElemTy) : FV → Nat × Flags
  | .nan _ => (0, flInvalid)
  | .inf n => (wrapTo (8 * elemSize t) (if n then intMin t else intMax t), flInvalid)
  | .fin n m e =>
    let (v, inex) := fvToInt n m e
    let s := saturate t v
    (wrapTo (8 * elemSize t) s, if s ≠ v then flInvalid else if inex then flInexact else 0)

/-- Conversion between scalar types, from and to 0-6 and 8-10 (R90). An integer that goes to a wider type of the other signedness
saturates: R90's row "across signedness" is taken before its row "wider integer" (DEDUCED, log entry 87). -/
def cvtScal (td ts : ElemTy) (bits : Nat) : Nat × Flags :=
  if elemIsInt ts then
    let v := intOf ts bits
    if elemIsInt td then (wrapTo (8 * elemSize td) (saturate td v), 0)
    else roundInt (elemFmt td) v 0 false
  else
    let v := unpack (elemFmt ts) bits
    if elemIsInt td then cvtToInt td v else packFV (elemFmt td) v

/-- The value of a scalar floating-point or integer element as an exact value. -/
def scalFV (t : ElemTy) (bits : Nat) : FV :=
  if elemIsFp t then unpack (elemFmt t) bits
  else let v := intOf t bits; .fin (v < 0) v.natAbs 0

/-- An OCP element under a block scale X (R85). -/
def mxDecode (t : ElemTy) (x code : Nat) : FV :=
  let neg := bitAt code 7
  if x = 255 then .nan false
  else
    let sc : Int := (x : Int) - 127
    match t with
    | .e5m2 =>
      let e := bitsAt code 2 5
      let m := bitsAt code 0 2
      if e = 31 then (if m = 0 then .inf neg else .nan false)
      else if e = 0 then .fin neg m (-16 + sc) else .fin neg (m + 4) (-16 + (e - 1) + sc)
    | _ =>
      let e := bitsAt code 3 4
      let m := bitsAt code 0 3
      if bitsAt code 0 7 = 127 then .nan false
      else if e = 0 then .fin neg m (-9 + sc) else .fin neg (m + 8) (-9 + (e - 1) + sc)

/-- A BFPn element with block exponent E (R87). -/
def bfpDecode (n e code : Nat) : FV :=
  if e = 255 then .nan false
  else let m := signedOf n code; .fin (m < 0) m.natAbs ((e : Int) - 127 - (n - 2))

/-- floor(log2) of the greatest magnitude among finite values, none when all are zero. -/
def maxLog2 : List FV → Option Int
  | [] => none
  | .fin _ m e :: vs =>
    let r := maxLog2 vs
    if m = 0 then r
    else match r with
      | none => some (e + bitLen m - 1)
      | some k => some (max k (e + bitLen m - 1))
  | _ :: vs => maxLog2 vs

def fvIsFin : FV → Bool
  | .fin _ _ _ => true
  | _ => false

def clampI (lo hi v : Int) : Int := max lo (min hi v)

/-- One element of the MXFP8 conversion: its code and whether it changed (R86). -/
def mxEncode1 (t : ElemTy) (x : Nat) : FV → Nat × Bool
  | .fin neg m e =>
    let mb : Nat := match t with | .e5m2 => 2 | _ => 3
    let qmin : Int := match t with | .e5m2 => -16 | _ => -9
    let top : Nat := match t with | .e5m2 => 0x7B | _ => 0x7E
    let e' := e - ((x : Int) - 127)
    if m = 0 then (b2n neg * 128, false)
    else
      let q := max (e' + bitLen m - 1 - mb) qmin
      let (sig, inex) := rneAt m e' false q
      let bits := (q - qmin).toNat * 2 ^ mb + sig
      if top < bits then (b2n neg * 128 + top, true) else (b2n neg * 128 + bits, inex)
  | _ => (0, false)

/-- Conversion of a block of values to MXFP8 (R86): scale, codes, flags. -/
def mxQuant (t : ElemTy) (vs : List FV) : Nat × List Nat × Flags :=
  if vs.all fvIsFin then
    let emax : Int := match t with | .e5m2 => 15 | _ => 8
    let x : Nat := match maxLog2 vs with
      | none => 0
      | some k => (clampI 0 254 (k - emax + 127)).toNat
    let rs := vs.map (mxEncode1 t x)
    (x, rs.map (·.1), if rs.any (·.2) then flInexact else 0)
  else (255, vs.map (fun _ => match t with | .e5m2 => 0x7E | _ => 0x7F), flInvalid)

/-- One mantissa of the BFPn conversion and whether the decoded value differs (R88). -/
def bfpEncode1 (n e : Nat) : FV → Int × Bool
  | .fin neg m ex =>
    let (r, inex) := rneAt m (ex - ((e : Int) - 127 - (n - 2))) false 0
    let v : Int := if neg then -(r : Int) else r
    let c := clampI (-(2 ^ (n - 1) : Nat)) ((2 ^ (n - 1) : Nat) - 1) v
    (c, inex || c != v)
  | _ => (0, false)

/-- Conversion of a block of values to BFPn (R88): exponent, mantissa codes, flags. -/
def bfpQuant (n : Nat) (vs : List FV) : Nat × List Nat × Flags :=
  if vs.all fvIsFin then
    match maxLog2 vs with
    | none => (0, vs.map (fun _ => 0), 0)
    | some k =>
      let e := (clampI 1 254 (k + 127)).toNat
      let rs := vs.map (bfpEncode1 n e)
      let ms := rs.map (fun r => wrapTo n r.1)
      (if ms.all (· == 0) then 0 else e, ms, if rs.any (·.2) then flInexact else 0)
  else (255, vs.map (fun _ => 0), flInvalid)

/-- Codes of n bits packed from bit 0 of a row's first byte (R62, R87). -/
def packCodes (n : Nat) : List Nat → Nat
  | [] => 0
  | c :: cs => c % 2 ^ n + 2 ^ n * packCodes n cs

/-- k codes of n bits unpacked from a row. -/
def unpackCodes (n : Nat) : Nat → Nat → List Nat
  | 0, _ => []
  | k + 1, v => v % 2 ^ n :: unpackCodes n k (v / 2 ^ n)

/-- Width of an element code in bits: n = BW + 2 for BFP (R80). -/
def elemBits (t : ElemTy) (bw : Nat) : Nat := if t = .bfp then bw + 2 else 8 * elemSize t

/-- One element of a block row under its scale or exponent (R85, R87). -/
def blockDecode (t : ElemTy) (bw scale code : Nat) : FV :=
  if t = .bfp then bfpDecode (bw + 2) scale code else mxDecode t scale code

/-- The 32 values of a packed block row. -/
def rowDecode (t : ElemTy) (bw scale : Nat) (row : List Byte) : List FV :=
  (unpackCodes (elemBits t bw) 32 (leNat row)).map (blockDecode t bw scale)

/-- Bytes of one packed row of 32 elements. -/
def rowBytes (t : ElemTy) (bw : Nat) : Nat := 4 * elemBits t bw

/-- A block of 32 values quantised to MXFP8 or BFPn: scale, packed row, flags. -/
def blockQuant (t : ElemTy) (bw : Nat) (vs : List FV) : Nat × List Byte × Flags :=
  let (s, cs, fl) := if t = .bfp then bfpQuant (bw + 2) vs else mxQuant t vs
  (s, leBytes (rowBytes t bw) (packCodes (elemBits t bw) cs), fl)

/-- A block type: MXFP8 or BFP. -/
def elemIsBlock : ElemTy → Bool
  | .e4m3 | .e5m2 | .bfp => true
  | _ => false

/-- Exact sum of finite values at their least exponent. -/
def sumExact (vs : List FV) : Int × Int :=
  let q := vs.foldl (fun q v => match v with | .fin _ _ e => min q e | _ => q) (4096 : Int)
  (vs.foldl (fun s v => match v with | .fin n m e => s + alignInt n m e q | _ => s) 0, q)

/-- One exact dot-product sum rounded to FP32 with the special values of R93: products first, then rnd_ne; a zero sum is +0. -/
def sumRound (ps : List (FV × Flags)) : Nat × Flags :=
  let fl := ps.foldl (fun f p => f ||| p.2) 0
  let vs := ps.map (·.1)
  let pos := vs.any (· == FV.inf false)
  let neg := vs.any (· == FV.inf true)
  let both : Flags := if pos && neg then flInvalid else 0
  if vs.any fvIsNan then (fmtNan fp32, fl ||| both)
  else
    if pos && neg then (fmtNan fp32, fl ||| both)
    else if pos then (fmtInf fp32, fl)
    else if neg then (2 ^ 31 + fmtInf fp32, fl)
    else
      let (s, q) := sumExact vs
      let (r, fl2) := roundInt fp32 s q false
      (r, fl ||| fl2)

/-- The k-block step of R93 on one accumulator element. -/
def kblockStep (acc : Nat) (as bs : List FV) : Nat × Flags :=
  let (b, fl) := sumRound (List.zipWith mulExact as bs)
  let (r, fl2) := addFV fp32 (unpack fp32 acc) (unpack fp32 b)
  (r, fl ||| fl2)

/-- The 24-bit significand of rnd_ne(2^(j/64), FP32), bit by bit: the largest s with (2s - 1)^64 ≤ 2^(64*24 + j) (R98). -/
def exp2SigFrom (j : Nat) : Nat → Nat → Nat
  | 0, s => s
  | i + 1, s =>
    let t := s + 2 ^ i
    if (2 * t - 1) ^ 64 ≤ 2 ^ (64 * 24 + j) then exp2SigFrom j i t else exp2SigFrom j i s

/-- T[j] of R98. -/
def exp2T (j : Nat) : Nat := (roundPack fp32 false (exp2SigFrom j 24 0) (-23) false).1

/-- C1, C2 and C3 of R98: rnd_ne of ln 2, (ln 2)^2 / 2 and (ln 2)^3 / 6. -/
def exp2C1 : Nat := 0x3F317218
def exp2C2 : Nat := 0x3E75FDF0
def exp2C3 : Nat := 0x3D635847

/-- D[j] of R98. -/
def rcpD (j : Nat) : Nat := (divFV fp32 (.fin false 256 0) (.fin false (257 + 2 * j) 0)).1

/-- VEXP2 of one FP32 lane (R99). -/
def vexp2Lane (bits : Nat) : Nat × Flags :=
  match unpack fp32 bits with
  | .nan s => (fmtNan fp32, if s then flInvalid else 0)
  | .inf n => (if n then 0 else fmtInf fp32, 0)
  | .fin n m e =>
    let v := FV.fin n m e
    if 0 ≤ cmpFV v (.fin false 128 0) then (fmtInf fp32, flOverflow ||| flInexact)
    else if cmpFV v (.fin true 160 0) ≤ 0 then (0, flUnderflow ||| flInexact)
    else
      let k := (fvToInt n m (e + 6)).1
      let j := (k % 64).toNat
      let ex := (k - j) / 64
      let f := unpack fp32 (subFV fp32 v (.fin (k < 0) k.natAbs (-6))).1
      let u (x : Nat) : FV := unpack fp32 x
      let q := (fmaFV fp32 (u exp2C3) f (u exp2C2)).1
      let q := (fmaFV fp32 (u q) f (u exp2C1)).1
      let p := (mulFV fp32 (u q) f).1
      let y := (fmaFV fp32 (u (exp2T j)) (u p) (u (exp2T j))).1
      let r := match u y with
        | .fin n m e => roundPack fp32 n m (e + ex) false
        | w => packFV fp32 w
      let isInt := k % 64 = 0 && cmpFV f (.fin false 0 0) == 0
      let exact := isInt && (-149 * 64 ≤ k && k ≤ 127 * 64)
      let sub := r.1 < 2 ^ 23
      (r.1, (if exact then 0 else flInexact) ||| (if sub && !exact then flUnderflow else 0)
        ||| (if r.1 = fmtInf fp32 then flOverflow else 0))

/-- VRCP of one FP32 lane (R100). -/
def vrcpLane (bits : Nat) : Nat × Flags :=
  match unpack fp32 bits with
  | .nan s => (fmtNan fp32, if s then flInvalid else 0)
  | .inf n => (b2n n * 2 ^ 31, 0)
  | .fin n m e =>
    if m = 0 then (b2n n * 2 ^ 31 + fmtInf fp32, flDivZero)
    else
      let l := bitLen m - 1
      -- the value is (-1)^n * mm * 2^g with 1 <= mm < 2, mm = m / 2^l, g = e + l
      let mm := FV.fin false m (-(l : Int))
      let g := e + l
      let j := (m - 2 ^ l) * 128 / 2 ^ l
      let u (x : Nat) : FV := unpack fp32 x
      let one := FV.fin false 1 0
      let stp (y : Nat) : Nat :=
        let h := (fmaFV fp32 (negFV mm) (u y) one).1
        (fmaFV fp32 (u y) (u h) (u y)).1
      let y := stp (stp (rcpD j))
      let r := match u y with
        | .fin _ m e => roundPack fp32 n m (e - g) false
        | w => packFV fp32 w
      (r.1, r.2 ||| (if m = 2 ^ l then 0 else flInexact))

end Sys2Proof.Machine
end

