-- ==== Sys2Proof/WellFormed.lean ====
section
/-! DEFINITION. Which instruction terms have an encoding: the bits that the operands of a term leave must-be-zero or
reserved (R252, R253 and the entries of 20 to 24). The steps of units, hosts and capstone have no encoding and no
constraint of this kind. -/

namespace Sys2Proof

/-- The element types that FALU functions 0-8 accept (R310). -/
def elemFloat : ElemTy → Bool
  | .bf16 | .fp16 | .fp32 => true
  | .i8 | .n8 | .i16 | .n16 | .i32 | .n32 | .i64 | .e4m3 | .e5m2 | .bfp | .lut8 => false

/-- The element types that FCVT accepts (R314). -/
def elemScal : ElemTy → Bool
  | .bf16 | .fp16 | .fp32 | .i8 | .n8 | .i16 | .n16 | .i32 | .n32 | .i64 => true
  | .e4m3 | .e5m2 | .bfp | .lut8 => false

/-- A format value that FMT accepts (R73): no ET field holds 7 and BW is not 7. -/
def fmtOk (v : Nat) : Bool :=
  v % 16 != 7 && v / 16 % 16 != 7 && v / 256 % 16 != 7 && v / 4096 % 16 != 7 && v / 65536 % 8 != 7

/-- Whether an instruction has an encoding that decodes to it. -/
def Instr.wf : Instr → Bool
  | .skipWord => true
  | .nop _ => true
  | .pbr _ _ reg a imm => imm.toNat % 4 == 0 && (reg || a == .reg 0)
  | .br _ _ _ _ _ => true
  | .bri _ _ _ _ _ _ => true
  | .jmpr _ _ => true
  | .call reg _ a _ => reg || a == .reg 0
  | .ret _ _ => true
  | .rep _ _ _ _ => true
  | .endTask _ => true
  | .brk _ => true
  | .trap _ => true
  | .eret _ => true
  | .fmt v => fmtOk v.toNat
  | .phase _ => true
  | .wait _ _ _ _ _ => true
  | .add _ _ _ _ _ => true
  | .addImm _ _ _ _ => true
  | .sub _ _ _ _ _ => true
  | .mul _ _ _ _ _ => true
  | .mulh _ _ _ _ _ => true
  | .div _ _ _ _ _ => true
  | .rem _ _ _ _ _ => true
  | .and _ _ _ _ _ => true
  | .andImm _ _ _ _ => true
  | .or _ _ _ _ _ => true
  | .orImm _ _ _ _ => true
  | .xor _ _ _ _ _ => true
  | .xorImm _ _ _ _ => true
  | .andn _ _ _ _ _ => true
  | .shl _ _ _ _ _ => true
  | .shlImm _ _ _ _ => true
  | .shr _ _ _ _ _ => true
  | .shrImm _ _ _ _ => true
  | .rot _ _ _ _ _ => true
  | .rotImm _ _ _ _ => true
  | .min _ _ _ _ _ => true
  | .minImm _ _ _ _ => true
  | .max _ _ _ _ _ => true
  | .maxImm _ _ _ _ => true
  | .cmp _ _ _ _ _ => true
  | .cmpImm _ _ _ _ => true
  | .sel _ _ _ _ _ _ => true
  | .clz _ _ _ _ => true
  | .popc _ _ _ _ => true
  | .bfx _ _ _ _ _ _ => true
  | .bfi _ _ _ _ _ _ => true
  | .madd _ _ _ _ _ _ => true
  | .lea _ _ _ _ _ _ => true
  | .leaImm _ _ _ => true
  | .li _ _ _ => true
  | .liLong _ _ _ => true
  | .fadd t _ _ _ _ => elemFloat t
  | .fsub t _ _ _ _ => elemFloat t
  | .fmul t _ _ _ _ => elemFloat t
  | .ffma t _ _ _ _ _ => elemFloat t
  | .fdiv t _ _ _ _ => elemFloat t
  | .fsqrt t _ _ _ => elemFloat t
  | .fmin t _ _ _ _ => elemFloat t
  | .fmax t _ _ _ _ => elemFloat t
  | .fcmp t _ _ _ _ => elemFloat t
  | .fcvt td ts _ _ _ => elemScal td && elemScal ts
  | .ld _ _ => true
  | .st _ _ => true
  | .ldv _ _ => true
  | .stv _ _ => true
  | .ldg _ _ _ _ _ _ => true
  | .sts _ _ _ _ _ _ => true
  | .pref _ => true
  | .atom op s4 ord scope _ _ _ _ c => (op == .cas || c == .reg 0) && !(op == .fadd && s4) && (ord != .none || scope == .core)
  | .acq _ _ => true
  | .rel _ _ => true
  | .bind _ _ _ _ _ _ => true
  | .fence _ _ => true
  | .bar _ _ => true
  | .fork inh _ _ _ _ _ c imm => imm.toNat % 4 == 0 && (!inh || c == .reg 0)
  | .join _ _ => true
  | .send queue _ _ target _ _ _ => !queue || target.val < 8
  | .sendImm queue _ _ target _ _ _ => !queue || target.val < 8
  | .tagctl act _ a _ prio => act == .config || (a == .reg 0 && prio == 0)
  | .cont _ _ _ _ _ imm => imm.toNat % 4 == 0
  | .sbind k _ _ _ _ _ b => k == .pattern || b == .reg 0
  | .sunb _ _ => true
  | .sstat _ _ _ => true
  | .crr _ _ => true
  | .crw _ _ => true
  | .vadd _ _ _ _ _ => true
  | .vsub _ _ _ _ _ => true
  | .vmul _ _ _ _ _ => true
  | .vfma _ _ _ _ _ _ => true
  | .vmin _ _ _ _ _ => true
  | .vmax _ _ _ _ _ => true
  | .vand _ _ _ _ _ => true
  | .vor _ _ _ _ _ => true
  | .vxor _ _ _ _ _ => true
  | .vshl _ _ _ _ _ => true
  | .vshr _ _ _ _ _ => true
  | .vcmp _ _ _ _ _ _ => true
  | .vsel _ _ _ _ _ _ => true
  | .vabs _ _ _ _ => true
  | .vneg _ _ _ _ => true
  | .vsadd _ _ _ _ _ => true
  | .vrcp _ _ _ _ => true
  | .vexp2 _ _ _ _ => true
  | .vmov _ _ _ _ => true
  | .vbcast _ _ _ _ => true
  | .vred _ _ _ _ _ => true
  | .vscan _ _ _ _ _ => true
  | .vperm _ _ _ _ _ _ => true
  | .vcvt _ _ _ _ _ => true
  | .vlut _ _ _ _ _ => true
  | .vsrp _ _ _ _ _ => true
  | .mma _ _ _ _ _ _ _ _ _ => true
  | .mxst _ _ => true
  | .mxld _ _ => true
  | .mxz _ _ => true
  | .gred _ _ _ _ _ _ _ => true
  | .gmap _ _ _ _ _ _ _ => true
  | .gpos q mod _ _ _ _ _ => q == .elem || mod.val != 15
  | .gexp scan mod _ _ _ _ _ => !scan || mod.val != 15
  | .post _ _ => true
  | .rgath _ _ _ _ _ => true
  | .jstat _ _ => true
  | .wdenter _ _ _ _ _ _ _ exit _ _ => exit.toNat % 4 == 0
  | .wdexit _ _ => true
  | .tlbi _ _ _ _ => true
  | .ctxsv _ _ => true
  | .ctxld _ _ => true
  | .taskSelect _ => true
  | .stealRequest _ _ => true
  | .tileTaskRecordArrive _ => true
  | .messageArrival _ => true
  | .pendingSignalRecord _ _ => true
  | .barrierComplete _ => true
  | .courseEnd _ => true
  | .fetchDeliver _ => true
  | .farLoadReturn _ => true
  | .farStoreDrain _ => true
  | .remoteNearAccess _ _ _ => true
  | .mmaKblockComplete _ => true
  | .mxOpComplete _ => true
  | .ruleEvaluate _ => true
  | .grammarOpComplete _ => true
  | .streamTransfer _ _ => true
  | .gatherElementReply _ => true
  | .pageWalkComplete _ _ _ => true
  | .asyncFaultTake _ => true
  | .trapMigrate _ => true
  | .serviceTaskCreate _ _ => true
  | .contextReturn _ => true
  | .settleRequest _ => true
  | .timeSliceSwitch _ => true
  | .jobCopy _ _ => true
  | .jobGather _ _ => true
  | .jobColl _ _ => true
  | .jobConvert _ _ => true
  | .jobTload _ _ => true
  | .jobGbuild _ _ => true
  | .jobExpand _ _ => true
  | .jobComplete _ _ => true
  | .collPacket _ _ => true
  | .blockMac _ => true
  | .blockMacz _ => true
  | .wdKblock _ => true
  | .blockEmit _ => true
  | .blockLink _ => true
  | .blockCallb _ => true
  | .blockRetb _ => true
  | .blockHint _ => true
  | .blockSync _ => true
  | .blockExit _ => true
  | .blockTrapb _ => true
  | .loadpipePrefetch _ => true
  | .stagingEntryExpire _ _ => true
  | .plumbPulse _ => true
  | .traceRecordWrite _ => true
  | .powerWindow _ _ => true
  | .scrubStep _ _ => true
  | .thermalFault _ => true
  | .ioDieOverheat _ => true
  | .packageReset _ => true
  | .hleaseWrite _ _ => true
  | .lperiodWrite _ _ => true
  | .leaseExpire => true
  | .notifyWrite _ _ => true
  | .registerWrite _ _ _ => true
  | .createVd _ => true
  | .destroyVd _ => true
  | .mapHandle _ => true
  | .schedule _ => true
  | .pause _ => true
  | .resume _ => true
  | .evict _ => true
  | .restore _ => true
  | .leaseRenew _ => true
  | .claim _ => true
  | .resync _ => true
  | .attest _ => true
  | .setPolicy _ => true
  | .health _ => true
  | .mailboxBadOpcode _ => true
  | .launchPacket _ => true
  | .copyPacket _ => true
  | .barrierPacket _ => true
  | .barrierPacketComplete _ => true
  | .signalPacket _ => true
  | .nvmeWindowAccess _ _ _ _ => true
  | .nvmeInterruptWrite _ _ _ => true
  | .illegalOpc _ => true
  | .reservedTypePacket _ => true
  | .blockIllegal _ => true

end Sys2Proof
end

