-- ==== Sys2Proof/Decode.lean ====
section
/-! DEFINITION. The decoder (13_encoding, R246-R260, and the field tables of the instruction entries), total on any bytes
and rejecting by name, and after it the encoder. -/

namespace Sys2Proof

open Machine

/-- Why a word is no instruction (R203, R260). -/
inductive DecErr where
  | illegalOpc | illegalLen | reservedBits
  deriving DecidableEq, Repr

/-- Fields of formats R, V, X and L (R250); in format V the low four bits of `mod` are ET. -/
structure RF where
  d : Nat
  a : Nat
  b : Nat
  c : Nat
  fn : Nat
  mod : Nat
  pg : Nat
  top : Nat
  deriving DecidableEq, Repr

/-- Fields of format I. -/
structure IF where
  d : Nat
  a : Nat
  fn : Nat
  mod : Nat
  imm : Nat
  deriving DecidableEq, Repr

/-- Fields of format M. -/
structure MF where
  d : Nat
  a : Nat
  x : Nat
  sz : Nat
  ord : Nat
  scope : Nat
  xs : Nat
  off : Nat
  deriving DecidableEq, Repr

/-- Fields of format B. -/
structure BF where
  a : Nat
  b : Nat
  cond : Nat
  bt : Nat
  hint : Nat
  off : Nat
  deriving DecidableEq, Repr

def RF.dec (w : Nat) : RF :=
  { d := w / 2 ^ 10 % 64, a := w / 2 ^ 16 % 64, b := w / 2 ^ 22 % 64, c := w / 2 ^ 28 % 64, fn := w / 2 ^ 34 % 256,
    mod := w / 2 ^ 42 % 256, pg := w / 2 ^ 50 % 8, top := w / 2 ^ 53 % 2 ^ 11 }
def RF.enc (len maj : Nat) (f : RF) : Nat :=
  len + 4 * maj + 2 ^ 10 * f.d + 2 ^ 16 * f.a + 2 ^ 22 * f.b + 2 ^ 28 * f.c + 2 ^ 34 * f.fn + 2 ^ 42 * f.mod
    + 2 ^ 50 * f.pg + 2 ^ 53 * f.top

def IF.dec (w : Nat) : IF :=
  { d := w / 2 ^ 10 % 64, a := w / 2 ^ 16 % 64, fn := w / 2 ^ 22 % 16, mod := w / 2 ^ 26 % 16,
    imm := w / 2 ^ 30 % 2 ^ 34 }
def IF.enc (maj : Nat) (f : IF) : Nat :=
  4 * maj + 2 ^ 10 * f.d + 2 ^ 16 * f.a + 2 ^ 22 * f.fn + 2 ^ 26 * f.mod + 2 ^ 30 * f.imm

def MF.dec (w : Nat) : MF :=
  { d := w / 2 ^ 10 % 64, a := w / 2 ^ 16 % 64, x := w / 2 ^ 22 % 64, sz := w / 2 ^ 28 % 8, ord := w / 2 ^ 31 % 8,
    scope := w / 2 ^ 34 % 8, xs := w / 2 ^ 37 % 4, off := w / 2 ^ 39 % 2 ^ 25 }
def MF.enc (maj : Nat) (f : MF) : Nat :=
  4 * maj + 2 ^ 10 * f.d + 2 ^ 16 * f.a + 2 ^ 22 * f.x + 2 ^ 28 * f.sz + 2 ^ 31 * f.ord + 2 ^ 34 * f.scope
    + 2 ^ 37 * f.xs + 2 ^ 39 * f.off

def BF.dec (w : Nat) : BF :=
  { a := w / 2 ^ 10 % 64, b := w / 2 ^ 16 % 64, cond := w / 2 ^ 22 % 16, bt := w / 2 ^ 26 % 4, hint := w / 2 ^ 28 % 4,
    off := w / 2 ^ 30 % 2 ^ 34 }
def BF.enc (maj : Nat) (f : BF) : Nat :=
  4 * maj + 2 ^ 10 * f.a + 2 ^ 16 * f.b + 2 ^ 22 * f.cond + 2 ^ 26 * f.bt + 2 ^ 28 * f.hint + 2 ^ 30 * f.off

/-- A number below n as a field value. -/
def finOf (n k : Nat) : Option (Fin n) := if h : k < n then some ⟨k, h⟩ else none

/-- Operand codes (R253). -/
def opdOf (k : Nat) : Option Opd :=
  if h : k < 32 then some (.reg ⟨k, h⟩) else if h : k < 40 then some (.str ⟨k - 32, by omega⟩) else none
def Opd.code : Opd → Nat
  | .reg n => n.val
  | .str n => 32 + n.val

def pgOf (k : Nat) : Fin 8 := Fin.ofNat 8 k

/-- Scope codes (R15). -/
def scopeOf : Nat → Option Scope
  | 0 => some .core | 1 => some .quad | 2 => some .tile | 3 => some .die | 4 => some .pkg | 5 => some .pod
  | 6 => some .host | _ => none
def Scope.code : Scope → Nat
  | .core => 0 | .quad => 1 | .tile => 2 | .die => 3 | .pkg => 4 | .pod => 5 | .host => 6

/-- Ordering codes (R152). -/
def accOrdOf : Nat → Option AccOrd
  | 0 => some .plain | 1 => some .acq | 2 => some .rel | 3 => some .acqrel | 4 => some .lock | 5 => some .unlock
  | 6 => some .nt | _ => none
def AccOrd.code : AccOrd → Nat
  | .plain => 0 | .acq => 1 | .rel => 2 | .acqrel => 3 | .lock => 4 | .unlock => 5 | .nt => 6

/-- Branch conditions (R256). -/
def condOf : Nat → Option Cond
  | 0 => some .eq | 1 => some .ne | 2 => some .lt | 3 => some .ge | 4 => some .ltn | 5 => some .gen | 6 => some .zero
  | 7 => some .nz | 8 => some .neg | 9 => some .nneg | 10 => some .alw | 11 => some .sne | _ => none
def Cond.code : Cond → Nat
  | .eq => 0 | .ne => 1 | .lt => 2 | .ge => 3 | .ltn => 4 | .gen => 5 | .zero => 6 | .nz => 7 | .neg => 8 | .nneg => 9
  | .alw => 10 | .sne => 11

/-- ATOM functions (R287). -/
def atomOpOf : Nat → Option AtomOp
  | 0 => some .add | 1 => some .and | 2 => some .or | 3 => some .xor | 4 => some .smin | 5 => some .smax
  | 6 => some .nmin | 7 => some .nmax | 8 => some .xchg | 9 => some .cas | 10 => some .fadd | _ => none
def AtomOp.code : AtomOp → Nat
  | .add => 0 | .and => 1 | .or => 2 | .xor => 3 | .smin => 4 | .smax => 5 | .nmin => 6 | .nmax => 7 | .xchg => 8
  | .cas => 9 | .fadd => 10
def atomOrdOf (k : Nat) : AtomOrd :=
  if k = 0 then .none else if k = 1 then .acq else if k = 2 then .rel else .acqrel
def AtomOrd.code : AtomOrd → Nat
  | .none => 0 | .acq => 1 | .rel => 2 | .acqrel => 3

/-- VCMP conditions (R368). -/
def vcondOf (k : Nat) : VCond :=
  if k = 0 then .eq else if k = 1 then .ne else if k = 2 then .lt else if k = 3 then .le else if k = 4 then .gt
  else if k = 5 then .ge else if k = 6 then .unord else .ord
def VCond.code : VCond → Nat
  | .eq => 0 | .ne => 1 | .lt => 2 | .le => 3 | .gt => 4 | .ge => 5 | .unord => 6 | .ord => 7

/-- VRED and VSCAN operators (R372). -/
def redOpOf : Nat → Option RedOp
  | 0 => some .sum | 1 => some .min | 2 => some .max | 3 => some .and | 4 => some .or | 5 => some .xor | _ => none
def RedOp.code : RedOp → Nat
  | .sum => 0 | .min => 1 | .max => 2 | .and => 3 | .or => 4 | .xor => 5

/-- SBIND kinds (R350). -/
def bindKindOf : Nat → Option BindKind
  | 0 => some .pattern | 1 => some .queue | 2 => some .expander | _ => none
def BindKind.code : BindKind → Nat
  | .pattern => 0 | .queue => 1 | .expander => 2

/-- TAGCTL actions (R361). -/
def tagActOf : Nat → Option TagAct
  | 0 => some .config | 1 => some .setEn | 2 => some .clrEn | 3 => some .setPend | 4 => some .clrPend | _ => none
def TagAct.code : TagAct → Nat
  | .config => 0 | .setEn => 1 | .clrEn => 2 | .setPend => 3 | .clrPend => 4

/-- GMAP maps and GPOS queries (R110). -/
def gmapOf : Nat → Option GMapOp
  | 0 => some .cvt | 1 => some .fmulc | 2 => some .faddc | 3 => some .iaddc | 4 => some .rowdot | _ => none
def GMapOp.code : GMapOp → Nat
  | .cvt => 0 | .fmulc => 1 | .faddc => 2 | .iaddc => 3 | .rowdot => 4
def gqueryOf : Nat → Option GQuery
  | 0 => some .prefixSum | 1 => some .scan | 2 => some .elem | _ => none
def GQuery.code : GQuery → Nat
  | .prefixSum => 0 | .scan => 1 | .elem => 2

/-- FENCE kinds (R160). -/
def fenceOf (k : Nat) : FenceKind := if k = 0 then .none else if k = 1 then .rel else if k = 2 then .acq else .ar
def FenceKind.code : FenceKind → Nat
  | .none => 0 | .rel => 1 | .acq => 2 | .ar => 3

/-- TLBI kinds (R363). -/
def tlbiOf : Nat → Option TlbiKind
  | 0 => some .page | 1 => some .asid | 2 => some .all | _ => none
def TlbiKind.code : TlbiKind → Nat
  | .page => 0 | .asid => 1 | .all => 2

/-- The MOD field of the integer mould (R281). -/
def imodOf (k : Nat) : IMod := ⟨Fin.ofNat 4 k, k / 4 % 2 == 1⟩
def IMod.code (m : IMod) : Nat := m.w.val + 4 * b2n m.n

/-- The verdict on one encoding: ILLEGAL_OPC comes before RESERVED_BITS (R203). -/
def verdict (reserved : Bool) : Option Instr → Except DecErr Instr
  | none => .error .illegalOpc
  | some i => if reserved then .error .reservedBits else .ok i

/-- Format R shapes: how many of the operand fields the function uses; the others must hold 0 (R252). -/
def shapeD (f : RF) (rsv : Bool) (k : Opd → Instr) : Except DecErr Instr :=
  verdict (rsv || f.top != 0 || f.a != 0 || f.b != 0 || f.c != 0) ((opdOf f.d).map k)
def shapeA (f : RF) (rsv : Bool) (k : Opd → Instr) : Except DecErr Instr :=
  verdict (rsv || f.top != 0 || f.d != 0 || f.b != 0 || f.c != 0) ((opdOf f.a).map k)
def shapeDA (f : RF) (rsv : Bool) (k : Opd → Opd → Instr) : Except DecErr Instr :=
  verdict (rsv || f.top != 0 || f.b != 0 || f.c != 0) do
    let d ← opdOf f.d
    let a ← opdOf f.a
    return k d a
def shapeDAB (f : RF) (rsv : Bool) (k : Opd → Opd → Opd → Instr) : Except DecErr Instr :=
  verdict (rsv || f.top != 0 || f.c != 0) do
    let d ← opdOf f.d
    let a ← opdOf f.a
    let b ← opdOf f.b
    return k d a b
def shapeDABC (f : RF) (rsv : Bool) (k : Opd → Opd → Opd → Opd → Instr) : Except DecErr Instr :=
  verdict (rsv || f.top != 0) do
    let d ← opdOf f.d
    let a ← opdOf f.a
    let b ← opdOf f.b
    let c ← opdOf f.c
    return k d a b c
/-- No operand at all. -/
def shapeNone (f : RF) (rsv : Bool) (i : Instr) : Except DecErr Instr :=
  verdict (rsv || f.top != 0 || f.d != 0 || f.a != 0 || f.b != 0 || f.c != 0) (some i)

/-- IALU (R281). -/
def decIalu (f : RF) : Except DecErr Instr :=
  let m := imodOf f.mod
  let pg := pgOf f.pg
  let rsv := f.mod / 8 != 0
  match f.fn with
  | 0 => shapeDAB f rsv (.add m pg)
  | 1 => shapeDAB f rsv (.sub m pg)
  | 2 => shapeDAB f rsv (.mul m pg)
  | 3 => shapeDAB f rsv (.mulh m pg)
  | 4 => shapeDAB f rsv (.div m pg)
  | 5 => shapeDAB f rsv (.rem m pg)
  | 6 => shapeDAB f rsv (.and m pg)
  | 7 => shapeDAB f rsv (.or m pg)
  | 8 => shapeDAB f rsv (.xor m pg)
  | 9 => shapeDAB f rsv (.andn m pg)
  | 10 => shapeDAB f rsv (.shl m pg)
  | 11 => shapeDAB f rsv (.shr m pg)
  | 12 => shapeDAB f rsv (.rot m pg)
  | 13 => shapeDAB f rsv (.min m pg)
  | 14 => shapeDAB f rsv (.max m pg)
  | 15 => shapeDAB f rsv (.cmp m pg)
  | 16 => shapeDABC f rsv (.sel m pg)
  | 17 => shapeDA f rsv (.clz m pg)
  | 18 => shapeDA f rsv (.popc m pg)
  | 19 => shapeDABC f rsv (.bfx m pg)
  | 20 => shapeDABC f rsv (.bfi m pg)
  | 21 => shapeDABC f rsv (.madd m pg)
  | 22 => shapeDABC f rsv (.lea m pg)
  | _ => .error .illegalOpc

/-- IALUI (R282). -/
def decIalui (f : IF) : Except DecErr Instr :=
  let m := imodOf f.mod
  let imm := BitVec.ofNat 34 f.imm
  let da (k : IMod → Opd → Opd → BitVec 34 → Instr) : Except DecErr Instr :=
    verdict (f.mod / 8 != 0) do
      let d ← opdOf f.d
      let a ← opdOf f.a
      return k m d a imm
  match f.fn with
  | 0 => da .addImm
  | 1 => da .andImm
  | 2 => da .orImm
  | 3 => da .xorImm
  | 4 => da .shlImm
  | 5 => da .shrImm
  | 6 => da .rotImm
  | 7 => da .cmpImm
  | 8 => da .minImm
  | 9 => da .maxImm
  | 10 => verdict (f.mod / 8 != 0 || f.a != 0) ((opdOf f.d).map fun d => .leaImm m d imm)
  | _ => .error .illegalOpc

/-- FALU (R310, R312, R314). -/
def decFalu (f : RF) : Except DecErr Instr :=
  let pg := pgOf f.pg
  let rsv := f.mod / 16 != 0
  match elemOfCode (f.mod % 16) with
  | none => .error .illegalOpc
  | some t =>
    if f.fn = 9 then
      match elemOfCode (f.mod / 16) with
      | none => .error .illegalOpc
      | some td => if elemScal td && elemScal t then shapeDA f false (.fcvt td t pg) else .error .illegalOpc
    else if elemFloat t then
      match f.fn with
      | 0 => shapeDAB f rsv (.fadd t pg)
      | 1 => shapeDAB f rsv (.fsub t pg)
      | 2 => shapeDAB f rsv (.fmul t pg)
      | 3 => shapeDABC f rsv (.ffma t pg)
      | 4 => shapeDAB f rsv (.fdiv t pg)
      | 5 => shapeDA f rsv (.fsqrt t pg)
      | 6 => shapeDAB f rsv (.fmin t pg)
      | 7 => shapeDAB f rsv (.fmax t pg)
      | 8 => shapeDAB f rsv (.fcmp t pg)
      | _ => .error .illegalOpc
    else .error .illegalOpc

/-- VALU (R365, R368). -/
def decValu (f : RF) : Except DecErr Instr :=
  let pg := pgOf f.pg
  let rsv := f.mod / 16 != 0
  match elemOfCode (f.mod % 16) with
  | none => .error .illegalOpc
  | some t =>
    match f.fn with
    | 0 => shapeDAB f rsv (.vadd t pg)
    | 1 => shapeDAB f rsv (.vsub t pg)
    | 2 => shapeDAB f rsv (.vmul t pg)
    | 3 => shapeDABC f rsv (.vfma t pg)
    | 4 => shapeDAB f rsv (.vmin t pg)
    | 5 => shapeDAB f rsv (.vmax t pg)
    | 6 => shapeDAB f rsv (.vand t pg)
    | 7 => shapeDAB f rsv (.vor t pg)
    | 8 => shapeDAB f rsv (.vxor t pg)
    | 9 => shapeDAB f rsv (.vshl t pg)
    | 10 => shapeDAB f rsv (.vshr t pg)
    | 11 =>
      verdict (f.top != 0 || f.c != 0) do
        let d ← if f.mod / 16 % 2 = 1 then (finOf 8 f.d).map VCmpDst.pred else (opdOf f.d).map VCmpDst.vec
        let a ← opdOf f.a
        let b ← opdOf f.b
        return .vcmp (vcondOf (f.mod / 32)) t pg d a b
    | 12 => shapeDABC f rsv (.vsel t pg)
    | 13 => shapeDA f rsv (.vabs t pg)
    | 14 => shapeDA f rsv (.vneg t pg)
    | 15 => shapeDAB f rsv (.vsadd t pg)
    | 16 => shapeDA f rsv (.vrcp t pg)
    | 17 => shapeDA f rsv (.vexp2 t pg)
    | 18 => shapeDA f rsv (.vmov t pg)
    | 19 => shapeDA f rsv (.vbcast t pg)
    | _ => .error .illegalOpc

/-- VXL (R369-R373). -/
def decVxl (f : RF) : Except DecErr Instr :=
  let pg := pgOf f.pg
  let md := f.mod / 16
  match elemOfCode (f.mod % 16) with
  | none => .error .illegalOpc
  | some t =>
    match f.fn with
    | 0 => match redOpOf md with
      | none => .error .illegalOpc
      | some op => shapeDA f false (.vred op t pg)
    | 1 => match redOpOf md with
      | none => .error .illegalOpc
      | some op => shapeDA f false (.vscan op t pg)
    | 2 => shapeDABC f (md != 0) (.vperm t pg)
    | 3 => match elemOfCode md with
      | none => .error .illegalOpc
      | some td => shapeDA f false (.vcvt td t pg)
    | 4 => shapeDA f (md / 4 != 0) (.vlut t (Fin.ofNat 4 md) pg)
    | 5 =>
      if md % 4 = 0 then shapeDABC f (md / 4 != 0) (fun d a b c => .vsrp (.proj b c) t pg d a)
      else if md % 4 = 1 then shapeDA f (md / 4 != 0) (.vsrp .bucket t pg)
      else .error .illegalOpc
    | _ => .error .illegalOpc

/-- The address and access fields of format M (R255). -/
def mArgsOf (f : MF) : Option MArgs := do
  let base ← opdOf f.a
  let idx ← opdOf f.x
  let sz ← finOf 7 f.sz
  let ord ← accOrdOf f.ord
  let scope ← scopeOf f.scope
  let xs ← finOf 3 f.xs
  return { base, idx, sz, ord, scope, xs, off := BitVec.ofNat 25 f.off }

/-- A format M instruction whose D is a scalar or vector operand. -/
def decM (f : MF) (k : Opd → MArgs → Instr) : Except DecErr Instr :=
  verdict false do
    let d ← opdOf f.d
    let m ← mArgsOf f
    return k d m

/-- MMA (R331). -/
def decMma (f : RF) (imm : Nat) : Except DecErr Instr :=
  if f.fn ≠ 0 then .error .illegalOpc
  else verdict (f.top != 0) do
    let d ← finOf 4 f.d
    let a ← opdOf f.a
    let b ← opdOf f.b
    let c ← opdOf f.c
    let ta ← elemOfCode (f.mod % 16)
    let tb ← elemOfCode (f.mod / 16)
    return .mma ta tb (pgOf f.pg) d a b c (BitVec.ofNat 32 imm) (BitVec.ofNat 32 (imm / 2 ^ 32))

/-- WDENTER (R186). -/
def decWdenter (f : RF) (imm : Nat) : Except DecErr Instr :=
  if f.fn ≠ 0 then .error .illegalOpc
  else verdict (f.top != 0 || f.mod / 16 != 0 || imm % 4 != 0 || imm / 2 ^ 55 != 0) do
    let d ← opdOf f.d
    let a ← opdOf f.a
    let b ← opdOf f.b
    let c ← opdOf f.c
    return .wdenter (Fin.ofNat 4 f.mod) (Fin.ofNat 4 (f.mod / 4)) (pgOf f.pg) d a b c (BitVec.ofNat 48 imm)
      (BitVec.ofNat 4 (imm / 2 ^ 48)) (BitVec.ofNat 3 (imm / 2 ^ 52))

/-- ATOM (R287). -/
def decAtom (f : RF) : Except DecErr Instr :=
  match atomOpOf f.fn, scopeOf (f.mod / 4 % 8) with
  | some op, some sc =>
    let o := atomOrdOf (f.mod % 4)
    let s4 := f.mod / 32 % 2 == 1
    verdict (f.top != 0 || f.mod / 64 != 0 || (op == .fadd && s4) || (o == .none && sc != .core) || (op != .cas && f.c != 0)) do
      let d ← opdOf f.d
      let a ← opdOf f.a
      let b ← opdOf f.b
      let c ← if op = .cas then opdOf f.c else some (.reg 0)
      return .atom op s4 o sc (pgOf f.pg) d a b c
  | _, _ => .error .illegalOpc

/-- SEND in its two formats (R354). -/
def decSend (f : RF) (imm : Option Nat) : Except DecErr Instr :=
  let queue := f.mod % 2 == 1
  if f.fn ≠ 0 || (queue && 8 ≤ f.d) then .error .illegalOpc
  else verdict (f.top != 0 || f.mod / 32 != 0 || f.c != 0 || (imm.isSome && f.b != 0)) do
    let sc ← scopeOf (f.mod / 4 % 8)
    let a ← opdOf f.a
    match imm with
    | some v => return .sendImm queue (f.mod / 2 % 2 == 1) sc (Fin.ofNat 64 f.d) (pgOf f.pg) a (BitVec.ofNat 32 v)
    | none =>
      let b ← opdOf f.b
      return .send queue (f.mod / 2 % 2 == 1) sc (Fin.ofNat 64 f.d) (pgOf f.pg) a b

/-- SBIND (R350). -/
def decSbind (f : RF) : Except DecErr Instr :=
  match bindKindOf (f.mod % 4) with
  | none => .error .illegalOpc
  | some k =>
    verdict (f.top != 0 || f.mod / 32 != 0 || f.c != 0 || (k != .pattern && f.b != 0)) do
      let d ← if 32 ≤ f.d then finOf 8 (f.d - 32) else none
      let a ← opdOf f.a
      let b ← if k = .pattern then opdOf f.b else some (.reg 0)
      return .sbind k (f.mod / 4 % 2 == 1) (Fin.ofNat 4 (f.mod / 8)) (pgOf f.pg) d a b

/-- A grammar instruction (R110): MOD bits 7:4 must be zero; `opbad` when MOD bits 3:0 name operator 15. -/
def decG (f : RF) (opbad : Bool) (k : Fin 16 → Fin 8 → Opd → Opd → Opd → Opd → Instr) : Except DecErr Instr :=
  if opbad then .error .illegalOpc else shapeDABC f (f.mod / 16 != 0) (k (Fin.ofNat 16 f.mod) (pgOf f.pg))

/-- Format R with LEN 00 (R259). -/
def decR (maj : Nat) (f : RF) : Except DecErr Instr :=
  let pg := pgOf f.pg
  if maj = 0x10 then decIalu f
  else if maj = 0x14 then decFalu f
  else if maj = 0x1F then decAtom f
  else if maj = 0x2A then decSend f none
  else if maj = 0x40 then decValu f
  else if maj = 0x41 then decVxl f
  else if maj = 0x50 then
    match finOf 15 f.fn with
    | none => .error .illegalOpc
    | some op => decG f false (.gred op)
  else if maj = 0x51 then
    match gmapOf f.fn with
    | none => .error .illegalOpc
    | some op => decG f false (.gmap op)
  else if maj = 0x52 then
    match gqueryOf f.fn with
    | none => .error .illegalOpc
    | some q => decG f (q != .elem && f.mod % 16 == 15) (.gpos q)
  else if maj = 0x53 then
    if f.fn < 2 then decG f (f.fn == 1 && f.mod % 16 == 15) (.gexp (f.fn == 1)) else .error .illegalOpc
  else if f.fn ≠ 0 then .error .illegalOpc
  else match maj with
    | 0x01 => shapeNone f (f.mod != 0) (.nop pg)
    | 0x05 => shapeA f (f.mod != 0) (.jmpr pg)
    | 0x07 => shapeA f (f.mod != 0) (.ret pg)
    | 0x09 => shapeNone f (f.mod != 0) (.endTask pg)
    | 0x0C => shapeNone f (f.mod != 0) (.eret pg)
    | 0x1C => match elemOfCode (f.mod % 16) with
      | none => .error .illegalOpc
      | some t => shapeDAB f (f.mod / 32 != 0) (.ldg t (f.mod / 16 % 2 == 1) pg)
    | 0x1D => match elemOfCode (f.mod % 16) with
      | none => .error .illegalOpc
      | some t => shapeDAB f (f.mod / 32 != 0) (.sts t (f.mod / 16 % 2 == 1) pg)
    | 0x22 => shapeDABC f false (.bind (BitVec.ofNat 8 f.mod) pg)
    | 0x30 => decSbind f
    | 0x31 => verdict (f.top != 0 || f.mod != 0 || f.a != 0 || f.b != 0 || f.c != 0)
        ((if 32 ≤ f.d then finOf 8 (f.d - 32) else none).map (.sunb pg))
    | 0x32 => verdict (f.top != 0 || f.mod != 0 || f.b != 0 || f.c != 0) do
        let d ← opdOf f.d
        let s ← if 32 ≤ f.a then finOf 8 (f.a - 32) else none
        return .sstat pg d s
    | 0x4B => verdict (f.top != 0 || f.mod != 0 || f.a != 0 || f.b != 0 || f.c != 0) ((finOf 4 f.d).map (.mxz pg))
    | 0x59 => shapeDABC f (f.mod != 0) (.rgath pg)
    | 0x61 => shapeA f (f.mod != 0) (.wdexit pg)
    | 0x70 => match tlbiOf (f.mod % 4) with
      | none => .error .illegalOpc
      | some k => shapeA f (f.mod / 8 != 0) (.tlbi k (f.mod / 4 % 2 == 1) pg)
    | _ => .error .illegalOpc

/-- Format I (R259). -/
def decI (maj : Nat) (f : IF) : Except DecErr Instr :=
  if maj = 0x11 then decIalui f
  else if maj = 0x23 then
    -- R160: a nonzero D, A, FN or MOD is ILLEGAL_OPC
    if f.d ≠ 0 || f.a ≠ 0 || f.fn ≠ 0 || f.mod ≠ 0 then .error .illegalOpc
    else verdict (f.imm / 32 != 0) ((scopeOf (f.imm / 4 % 8)).map (.fence (fenceOf (f.imm % 4))))
  else if f.fn ≠ 0 then .error .illegalOpc
  else
    let bare := f.d != 0 || f.a != 0 || f.mod != 0
    match maj with
    | 0x06 => verdict (f.mod / 2 != 0 || (f.mod == 0 && f.a != 0)) do
        let d ← opdOf f.d
        let a ← if f.mod % 2 = 1 then opdOf f.a else some (.reg 0)
        return .call (f.mod % 2 == 1) d a (BitVec.ofNat 34 f.imm)
    | 0x08 => verdict (bare || f.imm / 2 ^ 24 != 0) (some (.rep (BitVec.ofNat 4 (f.imm / 2 ^ 20))
        (BitVec.ofNat 4 (f.imm / 2 ^ 16)) (BitVec.ofNat 12 (f.imm / 16)) (BitVec.ofNat 4 f.imm)))
    | 0x0A => verdict bare (some (.brk (BitVec.ofNat 34 f.imm)))
    | 0x0B => verdict bare (some (.trap (BitVec.ofNat 34 f.imm)))
    | 0x0D => if fmtOk f.imm then verdict (bare || f.imm / 2 ^ 19 != 0) (some (.fmt (BitVec.ofNat 19 f.imm)))
        else .error .illegalOpc
    | 0x0E => verdict (bare || f.imm / 64 != 0) (some (.phase (BitVec.ofNat 6 f.imm)))
    | 0x0F => verdict (bare || f.imm / 2 ^ 30 != 0) (some (.wait (BitVec.ofNat 6 f.imm) (BitVec.ofNat 6 (f.imm / 2 ^ 6))
        (BitVec.ofNat 6 (f.imm / 2 ^ 12)) (BitVec.ofNat 6 (f.imm / 2 ^ 18)) (BitVec.ofNat 6 (f.imm / 2 ^ 24))))
    | 0x24 => verdict (bare || f.imm / 32 != 0)
        ((scopeOf (f.imm / 4 % 8)).map (fun sc => .bar sc (Fin.ofNat 4 f.imm)))
    | 0x2B => match tagActOf f.mod with
      | none => .error .illegalOpc
      | some act => verdict (f.imm / 2 ^ 13 != 0 || (act != .config && (f.a != 0 || f.imm / 64 != 0))) do
          let d ← opdOf f.d
          let a ← if act = .config then opdOf f.a else some (.reg 0)
          return .tagctl act d a (Fin.ofNat 64 f.imm) (BitVec.ofNat 7 (f.imm / 64))
    | 0x34 => verdict (f.mod != 0 || f.a != 0 || f.imm / 64 != 0) do
        let d ← opdOf f.d
        let r ← finOf 26 (f.imm % 64)
        return .crr d r
    | 0x35 => verdict (f.mod != 0 || f.d != 0 || f.imm / 64 != 0) do
        let a ← opdOf f.a
        let r ← finOf 26 (f.imm % 64)
        return .crw r a
    | _ => .error .illegalOpc

/-- Format M (R259). -/
def decMm (maj : Nat) (f : MF) : Except DecErr Instr :=
  match maj with
  | 0x18 => decM f .ld
  | 0x19 => decM f .st
  | 0x1A => decM f .ldv
  | 0x1B => decM f .stv
  | 0x1E => verdict (f.d != 0) ((mArgsOf f).map .pref)
  | 0x20 => decM f .acq
  | 0x21 => decM f .rel
  | 0x29 => decM f .join
  | 0x49 => verdict false do
      let d ← finOf 4 f.d
      let m ← mArgsOf f
      return .mxst d m
  | 0x4A => verdict false do
      let d ← finOf 8 f.d
      let m ← mArgsOf f
      return .mxld d m
  | 0x58 => decM f .post
  | 0x5A => decM f .jstat
  | 0x71 => decM f .ctxsv
  | 0x72 => decM f .ctxld
  | _ => .error .illegalOpc

/-- Format B (R256, R293). -/
def decB (maj : Nat) (f : BF) : Except DecErr Instr :=
  verdict (maj == 0x03 && f.off != 0) do
    let c ← condOf f.cond
    let h ← finOf 3 f.hint
    let a ← opdOf f.a
    let b ← opdOf f.b
    if maj = 0x03 then return .br c h (Fin.ofNat 4 f.bt) a b
    else return .bri c h (Fin.ofNat 4 f.bt) a b (BitVec.ofNat 34 f.off)

/-- Format X, LEN 01 (R259). -/
def decX (maj : Nat) (f : RF) (imm : Nat) : Except DecErr Instr :=
  let pg := pgOf f.pg
  let v := BitVec.ofNat 32 imm
  if f.fn ≠ 0 then .error .illegalOpc
  else match maj with
    | 0x02 => verdict (f.top != 0 || f.b != 0 || f.c != 0 || f.mod / 2 != 0 || imm % 4 != 0 || (f.mod == 0 && f.a != 0)) do
        let d ← finOf 4 f.d
        let a ← if f.mod % 2 = 1 then opdOf f.a else some (.reg 0)
        return .pbr pg d (f.mod % 2 == 1) a v
    | 0x12 => shapeD f (f.mod != 0) (fun d => .li pg d v)
    | 0x28 => match scopeOf (f.mod % 8) with
      | none => .error .illegalOpc
      | some ss =>
        let inh := f.mod / 8 % 2 == 1
        let rsv := f.mod / 16 != 0 || imm % 4 != 0
        if inh then shapeDAB f rsv (fun d a b => .fork true ss pg d a b (.reg 0) v)
        else shapeDABC f rsv (fun d a b c => .fork false ss pg d a b c v)
    | 0x2A => decSend f (some imm)
    | 0x2C => shapeDABC f (f.mod != 0 || imm % 4 != 0) (fun d a b c => .cont pg d a b c v)
    | _ => .error .illegalOpc

/-- Format L, LEN 10 (R259). -/
def decL (maj : Nat) (f : RF) (imm : Nat) : Except DecErr Instr :=
  match maj with
  | 0x12 => if f.fn ≠ 0 then .error .illegalOpc
      else shapeD f (f.mod != 0) (fun d => .liLong (pgOf f.pg) d (BitVec.ofNat 64 imm))
  | 0x48 => decMma f imm
  | 0x60 => decWdenter f imm
  | _ => .error .illegalOpc

/-- Major opcodes of formats I and B; every other listed one with LEN 00 is R, V or M (R259). -/
def majIsI (maj : Nat) : Bool :=
  maj == 0x06 || maj == 0x08 || (0x0A ≤ maj && maj ≤ 0x0B) || (0x0D ≤ maj && maj ≤ 0x0F) || maj == 0x11 || maj == 0x23
    || maj == 0x24 || maj == 0x2B || maj == 0x34 || maj == 0x35
def majIsM (maj : Nat) : Bool :=
  (0x18 ≤ maj && maj ≤ 0x1B) || maj == 0x1E || maj == 0x20 || maj == 0x21 || maj == 0x29 || maj == 0x49 || maj == 0x4A
    || maj == 0x58 || maj == 0x5A || maj == 0x71 || maj == 0x72
def majIsB (maj : Nat) : Bool := maj == 0x03 || maj == 0x04

/-- The length of an instruction in bytes, from LEN (R246). -/
def lenOf (w : Nat) : Nat :=
  if w % 4 = 0 then 8 else if w % 4 = 1 then 12 else if w % 4 = 2 then 16 else 4

/-- The instruction in the low bits of w (R246-R260). -/
def decodeBits (w : Nat) : Except DecErr Instr :=
  let maj := w / 4 % 256
  if w % 4 = 3 then (if w % 2 ^ 32 = 0x3FF then .ok .skipWord else .error .illegalLen)
  else if w % 4 = 0 then
    if majIsI maj then decI maj (IF.dec w)
    else if majIsM maj then decMm maj (MF.dec w)
    else if majIsB maj then decB maj (BF.dec w)
    else decR maj (RF.dec w)
  else if w % 4 = 1 then decX maj (RF.dec w) (w / 2 ^ 64 % 2 ^ 32)
  else decL maj (RF.dec w) (w / 2 ^ 64 % 2 ^ 64)

/-- The instruction that the bytes at an address hold; bytes not given read as zero. -/
def decode (bs : List Byte) : Except DecErr Instr := decodeBits (leNat (fitBytes 16 bs))

/-- What the decoder reads: an instruction, or the row for words that encode none (R260); none for RESERVED_BITS. -/
def decodeRow (bs : List Byte) : Option Instr :=
  match decode bs with
  | .ok i => some i
  | .error .illegalOpc => some (.illegalOpc .opc)
  | .error .illegalLen => some (.illegalOpc .len)
  | .error .reservedBits => none

/-- The bytes of a word numbered as the opcode table numbers it: bit 0 is bit 0 of the byte at the lowest address. -/
def tableBytes (nbits w : Nat) : List Byte := leBytes 16 (w % 2 ^ nbits)

/-- The instruction the decoder reads from a word of the opcode table. -/
def decodeTableWord (nbits w : Nat) : Option Instr := decodeRow (tableBytes nbits w)

/-! The encoder, from the same tables. -/

/-- Format R fields of an instruction. -/
def rfOf (d a b c fn mod pg : Nat) : RF := ⟨d, a, b, c, fn, mod, pg, 0⟩
def encR (maj d a b c fn mod pg : Nat) : Option (Nat × Nat) := some (RF.enc 0 maj (rfOf d a b c fn mod pg), 8)
def encX (maj d a b c mod pg imm : Nat) : Option (Nat × Nat) :=
  some (RF.enc 1 maj (rfOf d a b c 0 mod pg) + 2 ^ 64 * imm, 12)
def encL (maj d a b c mod pg imm : Nat) : Option (Nat × Nat) :=
  some (RF.enc 2 maj (rfOf d a b c 0 mod pg) + 2 ^ 64 * imm, 16)
def encI (maj d a fn mod imm : Nat) : Option (Nat × Nat) := some (IF.enc maj ⟨d, a, fn, mod, imm⟩, 8)
def encM (maj d : Nat) (m : MArgs) : Option (Nat × Nat) :=
  some (MF.enc maj ⟨d, m.base.code, m.idx.code, m.sz.val, m.ord.code, m.scope.code, m.xs.val, m.off.toNat⟩, 8)
def encB (maj : Nat) (c : Cond) (h : Fin 3) (bt : Fin 4) (a b : Opd) (off : Nat) : Option (Nat × Nat) :=
  some (BF.enc maj ⟨a.code, b.code, c.code, bt.val, h.val, off⟩, 8)

/-- The word of an instruction and its length in bytes; none for the rows that are no instruction. -/
def encode : Instr → Option (Nat × Nat)
  | .skipWord => some (0x3FF, 4)
  | .nop pg => encR 0x01 0 0 0 0 0 0 pg.val
  | .pbr pg d reg a imm => encX 0x02 d.val a.code 0 0 (b2n reg) pg.val imm.toNat
  | .br c hint bt a b => encB 0x03 c hint bt a b 0
  | .bri c hint bt a b off => encB 0x04 c hint bt a b off.toNat
  | .jmpr pg a => encR 0x05 0 a.code 0 0 0 0 pg.val
  | .call reg d a imm => encI 0x06 d.code a.code 0 (b2n reg) imm.toNat
  | .ret pg a => encR 0x07 0 a.code 0 0 0 0 pg.val
  | .rep step fmask km1 nm1 => encI 0x08 0 0 0 0 (nm1.toNat + 16 * km1.toNat + 2 ^ 16 * fmask.toNat + 2 ^ 20 * step.toNat)
  | .endTask pg => encR 0x09 0 0 0 0 0 0 pg.val
  | .brk code => encI 0x0A 0 0 0 0 code.toNat
  | .trap code => encI 0x0B 0 0 0 0 code.toNat
  | .eret pg => encR 0x0C 0 0 0 0 0 0 pg.val
  | .fmt v => encI 0x0D 0 0 0 0 v.toNat
  | .phase n => encI 0x0E 0 0 0 0 n.toNat
  | .wait ld st job mx gr => encI 0x0F 0 0 0 0 (ld.toNat + 2 ^ 6 * st.toNat + 2 ^ 12 * job.toNat + 2 ^ 18 * mx.toNat + 2 ^ 24 * gr.toNat)
  | .add m pg d a b => encR 0x10 d.code a.code b.code 0 0 m.code pg.val
  | .addImm m d a imm => encI 0x11 d.code a.code 0 m.code imm.toNat
  | .sub m pg d a b => encR 0x10 d.code a.code b.code 0 1 m.code pg.val
  | .mul m pg d a b => encR 0x10 d.code a.code b.code 0 2 m.code pg.val
  | .mulh m pg d a b => encR 0x10 d.code a.code b.code 0 3 m.code pg.val
  | .div m pg d a b => encR 0x10 d.code a.code b.code 0 4 m.code pg.val
  | .rem m pg d a b => encR 0x10 d.code a.code b.code 0 5 m.code pg.val
  | .and m pg d a b => encR 0x10 d.code a.code b.code 0 6 m.code pg.val
  | .andImm m d a imm => encI 0x11 d.code a.code 1 m.code imm.toNat
  | .or m pg d a b => encR 0x10 d.code a.code b.code 0 7 m.code pg.val
  | .orImm m d a imm => encI 0x11 d.code a.code 2 m.code imm.toNat
  | .xor m pg d a b => encR 0x10 d.code a.code b.code 0 8 m.code pg.val
  | .xorImm m d a imm => encI 0x11 d.code a.code 3 m.code imm.toNat
  | .andn m pg d a b => encR 0x10 d.code a.code b.code 0 9 m.code pg.val
  | .shl m pg d a b => encR 0x10 d.code a.code b.code 0 10 m.code pg.val
  | .shlImm m d a imm => encI 0x11 d.code a.code 4 m.code imm.toNat
  | .shr m pg d a b => encR 0x10 d.code a.code b.code 0 11 m.code pg.val
  | .shrImm m d a imm => encI 0x11 d.code a.code 5 m.code imm.toNat
  | .rot m pg d a b => encR 0x10 d.code a.code b.code 0 12 m.code pg.val
  | .rotImm m d a imm => encI 0x11 d.code a.code 6 m.code imm.toNat
  | .min m pg d a b => encR 0x10 d.code a.code b.code 0 13 m.code pg.val
  | .minImm m d a imm => encI 0x11 d.code a.code 8 m.code imm.toNat
  | .max m pg d a b => encR 0x10 d.code a.code b.code 0 14 m.code pg.val
  | .maxImm m d a imm => encI 0x11 d.code a.code 9 m.code imm.toNat
  | .cmp m pg d a b => encR 0x10 d.code a.code b.code 0 15 m.code pg.val
  | .cmpImm m d a imm => encI 0x11 d.code a.code 7 m.code imm.toNat
  | .sel m pg d a b c => encR 0x10 d.code a.code b.code c.code 16 m.code pg.val
  | .clz m pg d a => encR 0x10 d.code a.code 0 0 17 m.code pg.val
  | .popc m pg d a => encR 0x10 d.code a.code 0 0 18 m.code pg.val
  | .bfx m pg d a b c => encR 0x10 d.code a.code b.code c.code 19 m.code pg.val
  | .bfi m pg d a b c => encR 0x10 d.code a.code b.code c.code 20 m.code pg.val
  | .madd m pg d a b c => encR 0x10 d.code a.code b.code c.code 21 m.code pg.val
  | .lea m pg d a b c => encR 0x10 d.code a.code b.code c.code 22 m.code pg.val
  | .leaImm m d imm => encI 0x11 d.code 0 10 m.code imm.toNat
  | .li pg d imm => encX 0x12 d.code 0 0 0 0 pg.val imm.toNat
  | .liLong pg d imm => encL 0x12 d.code 0 0 0 0 pg.val imm.toNat
  | .fadd t pg d a b => encR 0x14 d.code a.code b.code 0 0 (elemCode t) pg.val
  | .fsub t pg d a b => encR 0x14 d.code a.code b.code 0 1 (elemCode t) pg.val
  | .fmul t pg d a b => encR 0x14 d.code a.code b.code 0 2 (elemCode t) pg.val
  | .ffma t pg d a b c => encR 0x14 d.code a.code b.code c.code 3 (elemCode t) pg.val
  | .fdiv t pg d a b => encR 0x14 d.code a.code b.code 0 4 (elemCode t) pg.val
  | .fsqrt t pg d a => encR 0x14 d.code a.code 0 0 5 (elemCode t) pg.val
  | .fmin t pg d a b => encR 0x14 d.code a.code b.code 0 6 (elemCode t) pg.val
  | .fmax t pg d a b => encR 0x14 d.code a.code b.code 0 7 (elemCode t) pg.val
  | .fcmp t pg d a b => encR 0x14 d.code a.code b.code 0 8 (elemCode t) pg.val
  | .fcvt td ts pg d a => encR 0x14 d.code a.code 0 0 9 (elemCode ts + 16 * elemCode td) pg.val
  | .ld d m => encM 0x18 d.code m
  | .st d m => encM 0x19 d.code m
  | .ldv d m => encM 0x1A d.code m
  | .stv d m => encM 0x1B d.code m
  | .ldg et bytes pg d a b => encR 0x1C d.code a.code b.code 0 0 (elemCode et + 16 * b2n bytes) pg.val
  | .sts et bytes pg d a b => encR 0x1D d.code a.code b.code 0 0 (elemCode et + 16 * b2n bytes) pg.val
  | .pref m => encM 0x1E 0 m
  | .atom op s4 ord scope pg d a b c => encR 0x1F d.code a.code b.code c.code op.code (ord.code + 4 * scope.code + 32 * b2n s4) pg.val
  | .acq d m => encM 0x20 d.code m
  | .rel d m => encM 0x21 d.code m
  | .bind mod pg d a b c => encR 0x22 d.code a.code b.code c.code 0 mod.toNat pg.val
  | .fence k scope => encI 0x23 0 0 0 0 (k.code + 4 * scope.code)
  | .bar scope idx => encI 0x24 0 0 0 0 (idx.val + 4 * scope.code)
  | .fork inh ss pg d a b c imm => encX 0x28 d.code a.code b.code c.code (ss.code + 8 * b2n inh) pg.val imm.toNat
  | .join d m => encM 0x29 d.code m
  | .send queue rel scope target pg a b => encR 0x2A target.val a.code b.code 0 0 (b2n queue + 2 * b2n rel + 4 * scope.code) pg.val
  | .sendImm queue rel scope target pg a imm => encX 0x2A target.val a.code 0 0 (b2n queue + 2 * b2n rel + 4 * scope.code) pg.val imm.toNat
  | .tagctl act d a tag prio => encI 0x2B d.code a.code 0 act.code (tag.val + 64 * prio.toNat)
  | .cont pg d a b c imm => encX 0x2C d.code a.code b.code c.code 0 pg.val imm.toNat
  | .sbind k out esz pg d a b => encR 0x30 (32 + d.val) a.code b.code 0 0 (k.code + 4 * b2n out + 8 * esz.val) pg.val
  | .sunb pg d => encR 0x31 (32 + d.val) 0 0 0 0 0 pg.val
  | .sstat pg d s => encR 0x32 d.code (32 + s.val) 0 0 0 0 pg.val
  | .crr d reg => encI 0x34 d.code 0 0 0 reg.val
  | .crw reg a => encI 0x35 0 a.code 0 0 reg.val
  | .vadd et pg d a b => encR 0x40 d.code a.code b.code 0 0 (elemCode et) pg.val
  | .vsub et pg d a b => encR 0x40 d.code a.code b.code 0 1 (elemCode et) pg.val
  | .vmul et pg d a b => encR 0x40 d.code a.code b.code 0 2 (elemCode et) pg.val
  | .vfma et pg d a b c => encR 0x40 d.code a.code b.code c.code 3 (elemCode et) pg.val
  | .vmin et pg d a b => encR 0x40 d.code a.code b.code 0 4 (elemCode et) pg.val
  | .vmax et pg d a b => encR 0x40 d.code a.code b.code 0 5 (elemCode et) pg.val
  | .vand et pg d a b => encR 0x40 d.code a.code b.code 0 6 (elemCode et) pg.val
  | .vor et pg d a b => encR 0x40 d.code a.code b.code 0 7 (elemCode et) pg.val
  | .vxor et pg d a b => encR 0x40 d.code a.code b.code 0 8 (elemCode et) pg.val
  | .vshl et pg d a b => encR 0x40 d.code a.code b.code 0 9 (elemCode et) pg.val
  | .vshr et pg d a b => encR 0x40 d.code a.code b.code 0 10 (elemCode et) pg.val
  | .vcmp cond et pg d a b => match d with
    | .vec v => encR 0x40 v.code a.code b.code 0 11 (elemCode et + 32 * cond.code) pg.val
    | .pred p => encR 0x40 p.val a.code b.code 0 11 (elemCode et + 16 + 32 * cond.code) pg.val
  | .vsel et pg d a b c => encR 0x40 d.code a.code b.code c.code 12 (elemCode et) pg.val
  | .vabs et pg d a => encR 0x40 d.code a.code 0 0 13 (elemCode et) pg.val
  | .vneg et pg d a => encR 0x40 d.code a.code 0 0 14 (elemCode et) pg.val
  | .vsadd et pg d a b => encR 0x40 d.code a.code b.code 0 15 (elemCode et) pg.val
  | .vrcp et pg d a => encR 0x40 d.code a.code 0 0 16 (elemCode et) pg.val
  | .vexp2 et pg d a => encR 0x40 d.code a.code 0 0 17 (elemCode et) pg.val
  | .vmov et pg d a => encR 0x40 d.code a.code 0 0 18 (elemCode et) pg.val
  | .vbcast et pg d a => encR 0x40 d.code a.code 0 0 19 (elemCode et) pg.val
  | .vred op et pg d a => encR 0x41 d.code a.code 0 0 0 (elemCode et + 16 * op.code) pg.val
  | .vscan op et pg d a => encR 0x41 d.code a.code 0 0 1 (elemCode et + 16 * op.code) pg.val
  | .vperm et pg d a b c => encR 0x41 d.code a.code b.code c.code 2 (elemCode et) pg.val
  | .vcvt td ts pg d a => encR 0x41 d.code a.code 0 0 3 (elemCode ts + 16 * elemCode td) pg.val
  | .vlut et part pg d a => encR 0x41 d.code a.code 0 0 4 (elemCode et + 16 * part.val) pg.val
  | .vsrp op et pg d a => match op with
    | .proj b c => encR 0x41 d.code a.code b.code c.code 5 (elemCode et) pg.val
    | .bucket => encR 0x41 d.code a.code 0 0 5 (elemCode et + 16) pg.val
  | .mma eta etb pg d a b c sa sb => encL 0x48 d.val a.code b.code c.code (elemCode eta + 16 * elemCode etb) pg.val (sa.toNat + 2 ^ 32 * sb.toNat)
  | .mxst d m => encM 0x49 d.val m
  | .mxld d m => encM 0x4A d.val m
  | .mxz pg d => encR 0x4B d.val 0 0 0 0 0 pg.val
  | .gred op mod pg d a b c => encR 0x50 d.code a.code b.code c.code op.val mod.val pg.val
  | .gmap op mod pg d a b c => encR 0x51 d.code a.code b.code c.code op.code mod.val pg.val
  | .gpos q mod pg d a b c => encR 0x52 d.code a.code b.code c.code q.code mod.val pg.val
  | .gexp scan mod pg d a b c => encR 0x53 d.code a.code b.code c.code (b2n scan) mod.val pg.val
  | .post d m => encM 0x58 d.code m
  | .rgath pg d a b c => encR 0x59 d.code a.code b.code c.code 0 0 pg.val
  | .jstat d m => encM 0x5A d.code m
  | .wdenter abase acntm1 pg d a b c exit aet abw => encL 0x60 d.code a.code b.code c.code (abase.val + 4 * acntm1.val) pg.val (exit.toNat + 2 ^ 48 * aet.toNat + 2 ^ 52 * abw.toNat)
  | .wdexit pg a => encR 0x61 0 a.code 0 0 0 0 pg.val
  | .tlbi k part pg a => encR 0x70 0 a.code 0 0 0 (k.code + 4 * b2n part) pg.val
  | .ctxsv d m => encM 0x71 d.code m
  | .ctxld d m => encM 0x72 d.code m
  | .taskSelect _ => none
  | .stealRequest _ _ => none
  | .tileTaskRecordArrive _ => none
  | .messageArrival _ => none
  | .pendingSignalRecord _ _ => none
  | .barrierComplete _ => none
  | .courseEnd _ => none
  | .fetchDeliver _ => none
  | .farLoadReturn _ => none
  | .farStoreDrain _ => none
  | .remoteNearAccess _ _ _ => none
  | .mmaKblockComplete _ => none
  | .mxOpComplete _ => none
  | .ruleEvaluate _ => none
  | .grammarOpComplete _ => none
  | .streamTransfer _ _ => none
  | .gatherElementReply _ => none
  | .pageWalkComplete _ _ _ => none
  | .asyncFaultTake _ => none
  | .trapMigrate _ => none
  | .serviceTaskCreate _ _ => none
  | .contextReturn _ => none
  | .settleRequest _ => none
  | .timeSliceSwitch _ => none
  | .jobCopy _ _ => none
  | .jobGather _ _ => none
  | .jobColl _ _ => none
  | .jobConvert _ _ => none
  | .jobTload _ _ => none
  | .jobGbuild _ _ => none
  | .jobExpand _ _ => none
  | .jobComplete _ _ => none
  | .collPacket _ _ => none
  | .blockMac _ => none
  | .blockMacz _ => none
  | .wdKblock _ => none
  | .blockEmit _ => none
  | .blockLink _ => none
  | .blockCallb _ => none
  | .blockRetb _ => none
  | .blockHint _ => none
  | .blockSync _ => none
  | .blockExit _ => none
  | .blockTrapb _ => none
  | .loadpipePrefetch _ => none
  | .stagingEntryExpire _ _ => none
  | .plumbPulse _ => none
  | .traceRecordWrite _ => none
  | .powerWindow _ _ => none
  | .scrubStep _ _ => none
  | .thermalFault _ => none
  | .ioDieOverheat _ => none
  | .packageReset _ => none
  | .hleaseWrite _ _ => none
  | .lperiodWrite _ _ => none
  | .leaseExpire => none
  | .notifyWrite _ _ => none
  | .registerWrite _ _ _ => none
  | .createVd _ => none
  | .destroyVd _ => none
  | .mapHandle _ => none
  | .schedule _ => none
  | .pause _ => none
  | .resume _ => none
  | .evict _ => none
  | .restore _ => none
  | .leaseRenew _ => none
  | .claim _ => none
  | .resync _ => none
  | .attest _ => none
  | .setPolicy _ => none
  | .health _ => none
  | .mailboxBadOpcode _ => none
  | .launchPacket _ => none
  | .copyPacket _ => none
  | .barrierPacket _ => none
  | .barrierPacketComplete _ => none
  | .signalPacket _ => none
  | .nvmeWindowAccess _ _ _ _ => none
  | .nvmeInterruptWrite _ _ _ => none
  | .illegalOpc _ => none
  | .reservedTypePacket _ => none
  | .blockIllegal _ => none

/-- The bytes of an instruction as the hardware stores them (R246); none for the rows that are no instruction. -/
def encodeBytes (i : Instr) : Option (List Byte) := (encode i).map fun p => leBytes p.2 p.1

/-- Whether a row of the table is an instruction that has an encoding. -/
def Instr.encodable (i : Instr) : Bool := (encode i).isSome

end Sys2Proof
end

