-- ==== Sys2Proof/Config.lean ====
section
/-! DEFINITION. What an implementation or a key fixes and the manual does not: opaque constants without a body, so that
no proof can rest on a value of one (log entries 2, 14, 15 and 16). -/

namespace Sys2Proof.Config

/-- The bank-local lock-bit hash of address bits 19:6 (R145): defined by the implementation. -/
opaque lockHash : BitVec 14 → BitVec 6

/-- The byte that the n-th read of peer windows finds at a physical address of one, which the peer decides (R127). -/
opaque peerByte : (n pa : Nat) → Byte

/-- The byte that the n-th access finds in a word whose ECC or MAC fails (R128, R244): the manual gives none. -/
opaque badByte : (n a : Nat) → Byte

/-- Silicon revision and firmware version, IDENT bits 31:0 (R214). -/
opaque ident : BitVec 32

/-- The package serial number of an ATTEST report (R225). -/
opaque serial : Word

/-- SHA-512 of a byte string (R224, R225), 64 bytes. -/
opaque sha512 : List Byte → Nat → Byte

/-- Whether an Ed25519 and an ML-DSA-65 signature block verify over a message under the two public keys (R223). -/
opaque signaturesVerify : (ed25519Key mldsaKey message block : List Byte) → Bool

/-- The signature block that the device keys make over a message (R225), by byte position. -/
opaque deviceSignature : List Byte → Nat → Byte

/-- The plaintext executable that the ML-KEM ciphertext, the policy hash and the located bytes yield (R224); none when the
GCM tag does not verify. -/
opaque decryptImage : (kemCiphertext policy located : List Byte) → Option (List Byte)

/-- The physical base of the bytes that an extent tag names, and their length (R127, R222, R224). -/
opaque extentOf : (tag : List Byte) → Option (Nat × Nat)

/-- The physical frame numbers the capstone takes for a device's page tables and image copies (R121, R224). -/
opaque frameOf : (vdid n : Nat) → BitVec 40

/-- The HEALTH indicators of R245, by byte position, at a main-clock time. -/
opaque healthByte : (time : Word) → Nat → Byte

/-- The mask that turns the number of a created device into its VDID, opaque to the host (R218, R226). -/
opaque vdidMask : BitVec 32

/-- Where the capstone begins to look for the value of the n-th handle given out (R130); opaque to the host (R226). -/
opaque handleOf : (n : Nat) → BitVec 24

/-- SHA-512 of the running firmware (R225), by byte position. -/
opaque firmwareHash : Nat → Byte

/-- The mask that turns the number of a created device into its ASID (R224): distinct devices get distinct ASIDs. -/
opaque asidMask : BitVec 14

end Sys2Proof.Config
end

