-- ==== Sys2Proof/Machine/State.lean ====
section
/-! DEFINITION. The state of the package as plain data: every piece of state the manual names (INVENTORY.md, State), with
the reset state. Nothing here computes: the operations stand in Machine/Ops.lean and its neighbours. -/

namespace Sys2Proof.Machine

/-- Why the machine stops. -/
inductive Fault where
  /-- Raised by `step` when the package has no power (R19, R20): nothing runs. Safe. -/
  | unpowered
  deriving DecidableEq, Repr

/-- Why an instruction is given no meaning. -/
inductive Refusal where
  /-- Raised by an arm of `exec` that has no meaning yet. Safe. -/
  | notModelled (mnemonic : String)
  deriving DecidableEq, Repr

/-- Trap causes 1-17 (R202). -/
inductive Cause where
  | illegalOpc | illegalLen | fetchCross | reservedBits | priv | pageNp | pageProt | nearBounds | align
  | streamExh | streamDir | grammarBad | blockIllegal | mcheck | brk | step | trapi
  deriving DecidableEq, Repr

/-- A trap as it is found: the bits of FAULT (R201), FADDR and whether the saved PC is the next instruction's (R202). -/
structure Trap where
  cause : Cause
  faddr : Word
  unit  : BitVec 3 := 0
  bx    : Bool := false
  x     : Bool := false
  w     : Bool := false
  async : Bool := false
  deriving DecidableEq, Repr

/-- Stall reasons (R23), by code. A walk ends in the step that asks for it, so no step waits with `translation` (log entry 71). -/
inductive Stall where
  | stream | counter | barrier | acquire | interlock | translation | lock | full63 | fetch | backpressure | service
  deriving DecidableEq, Repr

/-- Task kinds (R24); a service task is no record kind of R25 and is marked by SR.SVC. -/
inductive Kind where
  | tile | fork | handler | completion | continuation
  deriving DecidableEq, Repr

/-- A task record (R25). -/
structure TaskRec where
  kind   : Kind
  wait   : Bool := false
  sscope : BitVec 3 := 0
  prio   : BitVec 7
  entry  : BitVec 48
  mark   : Word
  arg0   : Word
  arg1   : Word
  /-- XID register of a completion handler (R27) -/
  xid    : BitVec 32 := 0
  /-- route tag a waiting handler record waits on (R48) -/
  tag    : BitVec 6 := 0
  /-- WARN.COMBO that a clamped priority gives the created task (R38) -/
  combo  : Bool := false
  /-- when a fork record became ready (R39) -/
  born   : Word := 0
  deriving DecidableEq, Repr

/-- One route tag (R47). -/
structure Tag where
  handler : BitVec 48 := 0
  prio    : BitVec 7 := 0
  en      : Bool := false
  /-- a pending signal is recorded (R49) -/
  signal  : Bool := false
  course  : BitVec 16 := 0
  deriving DecidableEq, Repr

/-- What a stream is bound to (R64, R348). -/
inductive StreamKind where
  | pattern | queue | expander | gather
  deriving DecidableEq, Repr

/-- A stream register (R64-R67): its binding, the transfer unit's progress and the buffered elements, oldest first. -/
structure Stream where
  bound  : Bool := false
  out    : Bool := false
  kind   : StreamKind := .pattern
  /-- element size in bytes -/
  esz    : Nat := 1
  base   : Word := 0
  counts : List Nat := []
  strides : List Int := []
  /-- elements of the whole binding, when it ends -/
  total  : Nat := 0
  /-- elements the transfer unit has fetched or drained -/
  moved  : Nat := 0
  /-- elements popped or pushed since the binding (R356) -/
  done   : Nat := 0
  buf    : List (List Byte) := []
  /-- the arrival queue, or the XID of the expander job -/
  arg    : Nat := 0
  /-- an expander job or a gather has delivered its last element -/
  closed : Bool := false
  /-- a fault held on prefetched data (R204) -/
  held   : Option Trap := none
  /-- in an image: the number of the bytes past the 256 that R210 gives the stream (log entry 72) -/
  ticket : Option Nat := none
  deriving DecidableEq, Repr

/-- A binding-table entry (R158). -/
structure Binding where
  sync : Word
  base : Word
  len  : Word
  deriving DecidableEq, Repr

/-- The repetition state (R70): REP's immediate, the pass and instruction index, and the buffered body with each
instruction's address. -/
structure Rep where
  imm  : BitVec 34
  pass : Nat
  idx  : Nat
  body : List (BitVec 128)
  pcs  : List Word
  deriving DecidableEq, Repr

/-- A conversion table bank (R177): its KIND and 512 bytes. -/
structure Bank where
  kind  : ElemTy := .bf16
  bytes : Memory := []
  deriving DecidableEq, Repr

/-- The table that the codes of a LUT8 block under way are read through: the block, the number of its bank, and the bank as it stood when
the block's first code was read (R179). -/
structure LutTable where
  block : Word
  gen   : Bool
  bank  : Bank
  deriving DecidableEq, Repr

/-- The mode state of weight-driven mode (R187). -/
structure WdState where
  exit   : Word := 0
  dst    : Opd := .reg 0
  aet    : BitVec 4 := 0
  abw    : BitVec 3 := 0
  abase  : Nat := 0
  acnt   : Nat := 0
  /-- activation source stream, or none for an address -/
  src    : Option (Fin 8) := none
  base   : Word := 0
  stride : Word := 0
  link   : List Word := []
  /-- elements the load pipe has popped for an image that is not yet whole (R190), newest last -/
  part   : List (List Byte) := []
  /-- the table of a LUT8 block under way (R179) -/
  table  : Option LutTable := none
  /-- in an image: the number of the bytes of `part` and `table` (log entry 72) -/
  ticket : Option Nat := none
  deriving DecidableEq, Repr

/-- Where a far load's data goes when it arrives (R71). -/
inductive LoadDst where
  | x (n : Fin 32)
  | urs (off : Nat)
  | none
  deriving DecidableEq, Repr

/-- A far load or prefetch counted in LD (R71). -/
structure FarLoad where
  dst   : LoadDst
  data  : List Byte
  /-- flags that enter FPF when the data arrives (R302) -/
  fl    : BitVec 5 := 0
  deriving DecidableEq, Repr

/-- A far store counted in ST (R71): physical byte addresses with their new bytes. -/
structure FarStore where
  /-- the address of the access -/
  va    : Nat
  cells : List (Nat × Byte)
  deriving DecidableEq, Repr

/-- A matrix operation counted in MX (R71). -/
inductive MxOp where
  /-- MMA: accumulator offset in the URS, next k-block, k-blocks, operand addresses, types and strides, view offsets when
  BV = 1 -/
  | mma (acc kb kc : Nat) (a b : Word) (eta etb : ElemTy) (bw : BitVec 3) (sa sb : Word) (views : List Nat)
  /-- MXLD, MXST and MXZ have done their work when they issue and are counted until they complete, when their flags enter
  FPF (R302, R338) -/
  | done (fl : BitVec 5)
  deriving DecidableEq, Repr

/-- A grammar operation queued behind issue (R116). -/
structure GOp where
  /-- 0 GRED, 1 GMAP, 2 GPOS, 3 GEXP -/
  major : Nat
  fn    : Nat
  mod   : Nat
  d     : Fin 32
  a     : Word
  b     : Word
  /-- destination stream of GEXP -/
  bs    : Option (Fin 8)
  c     : Word
  /-- next rule of GRED or GEXP, next element or row of GMAP, the rule a GPOS descent stands at -/
  cur   : Nat := 0
  /-- rules evaluated, or values emitted -/
  count : Nat := 0
  /-- GEXP: descent stack, top first: (rule, what remains of it) -/
  stack : List (Nat × Nat) := []
  /-- running value of SCAN and of a GPOS accumulation: payload and R96 flags -/
  acc   : Int := 0
  accFl : BitVec 4 := 0
  started : Bool := false
  /-- position left of a GPOS descent, column of a GEXP row -/
  pos   : Nat := 0
  /-- floating-point flags gathered so far (R109) -/
  fl    : BitVec 5 := 0
  /-- the value D will receive, once known, and the WARN bit it sets -/
  result : Option (Word × BitVec 8) := none
  deriving DecidableEq, Repr

/-- An indexed gather under way (R141, R348). -/
structure Gather where
  /-- index values read at issue -/
  idx   : List Nat
  base  : Word
  size  : Nat
  count : Nat
  next  : Nat := 0
  /-- destination stream, or the buffer address -/
  dst   : Option (Fin 8)
  buf   : Word := 0
  deriving DecidableEq, Repr

/-- A task context: everything the context image of R210 carries. -/
structure Ctx where
  x      : Vector Word 32 := Vector.replicate 32 0
  /-- URS bytes 0x0100-0x7FFF; x0-x31 stand in `x` (R58, R61) -/
  urs    : Memory := []
  pc     : Word := 0
  b      : Vector Word 4 := Vector.replicate 4 0
  pfx    : Bool := false
  pfxv   : BitVec 32 := 0
  svc    : Bool := false
  wd     : Bool := false
  warn   : BitVec 8 := 0
  fpf    : BitVec 5 := 0
  xid    : BitVec 32 := 0
  mark   : Word := 0
  coord  : Word := 0
  vwV    : Word := 0x00400100
  vwM    : Word := 0x04200900
  vwA    : Word := 0x10003000
  vwP    : Word := 0x00082A00
  mxprog : Word := 0
  mxfaddr : Word := 0
  wdblk  : Word := 0
  fault  : Word := 0
  faddr  : Word := 0
  prio   : BitVec 7 := 0
  phaseid : BitVec 6 := 0
  lutsel : BitVec 1 := 0
  ld     : BitVec 6 := 0
  st     : BitVec 6 := 0
  job    : BitVec 6 := 0
  mx     : BitVec 6 := 0
  gr     : BitVec 6 := 0
  rep    : Option Rep := none
  /-- barriers this task has arrived at, as (scope, index, generation) still awaited (R206) -/
  arrived : List (Scope × Fin 4 × Bool) := []
  wdst   : WdState := {}
  binds  : List Binding := []
  streams : Vector Stream 8 := Vector.replicate 8 {}
  loads  : List FarLoad := []
  stores : List FarStore := []
  mxops  : List MxOp := []
  gops   : List GOp := []
  gathers : List Gather := []
  asyncs : List Trap := []
  /-- BREAK was taken at the context's own PC or block, and is not taken there again (R209) -/
  resumed : Bool := false
  stall  : Option Stall := none
  /-- number of the held faults that its image has no place for (log entry 72) -/
  ticket : Option Nat := none
  /-- service task: the migration slot of the context under service (R208) -/
  under  : Option (Fin 64) := none
  deriving DecidableEq, Repr

/-- A page translation held by a TLB (R122, R125): page base, size in bytes, the leaf entry with its G bit, the device, and the
level-1 table of the walk. -/
structure TlbEntry where
  vpage : Nat
  size  : Nat
  pte   : Word
  dev   : Nat
  root  : Nat
  deriving DecidableEq, Repr

/-- Phase counts of one course in one phase on one core (R55, R56). -/
structure PhaseCount where
  course : BitVec 16
  phase  : BitVec 6
  busy   : Word := 0
  stall  : Word := 0
  idle   : Word := 0
  tasks  : Word := 0
  deriving DecidableEq, Repr

/-- A trace record (R240). -/
structure TraceRec where
  time  : Word
  mark  : Word
  event : BitVec 8
  data  : Word
  deriving DecidableEq, Repr

/-- What a core is doing (R22, R207, R238). -/
inductive Mode where
  | idle
  | running
  /-- a trapped context waits for a free migration slot (R207) -/
  | trapped
  /-- a debug stop holds the context; the slot is its window (R238) -/
  | held (slot : Fin 64)
  deriving DecidableEq, Repr

/-- One core: a small core (slot 0-31) or the keystone (slot 32) of a tile. -/
structure Core where
  id     : CoreId
  mode   : Mode := .idle
  ctx    : Ctx := {}
  /-- run queue with its spill area, oldest first (R37) -/
  runq   : List TaskRec := []
  /-- contexts returned by ERET or resumed, ready at the head of their level (R39) -/
  back   : List Ctx := []
  /-- service tasks that wait for the keystone: slot and entry context (R208) -/
  svcq   : List Ctx := []
  /-- deque, owner end first (R41) -/
  deque  : List TaskRec := []
  creations : BitVec 18 := 0
  tags   : Vector Tag 64 := Vector.replicate 64 {}
  arrq   : Vector (List Word) 8 := Vector.replicate 8 []
  bkpt   : Vector Word 4 := Vector.replicate 4 0
  bank0  : Bank := {}
  bank1  : Bank := {}
  /-- the last victims tried in the quad, the tile and the die (R43) -/
  victimQ : Nat := 0
  victimT : Nat := 0
  victimD : Nat := 0
  /-- a full round of steal requests has failed, and no record has arrived since (R43) -/
  resting : Bool := false
  phases : List PhaseCount := []
  /-- the current phase of each course on the core (R342) -/
  curPhase : List (BitVec 16 × BitVec 6) := []
  lastCourse : Option (BitVec 16) := none
  mtlb   : List TlbEntry := []
  /-- the fetch block delivered last: its address / 32 and its bytes (R53) -/
  fblock : Option (Nat × List Byte) := none
  /-- TIME since which the core has waited for its next fetch block (R53) -/
  asked  : Option Word := none
  traceBuf : List TraceRec := []
  deriving DecidableEq, Repr

/-- A held lock bit (R145): slice, bank, bit, and the core and mark of the task that holds it. -/
structure Lock where
  slice : Nat
  bank  : Nat
  bit   : BitVec 6
  holder : CoreId
  mark  : Word
  deriving DecidableEq, Repr

/-- A class 2 message (R10, R166). -/
inductive MsgBody where
  /-- to a route tag, with payload -/
  | tag (t : Fin 64) (payload : Word)
  /-- to an arrival queue -/
  | queue (q : Fin 8) (payload : Word)
  /-- a tile-task record of the lintel (R34) -/
  | tileTask (r : TaskRec)
  /-- a record made on its core that waits for room in the run queue: a continuation (R46) or a completion handler (R51) -/
  | record (r : TaskRec)
  | bounce (payload : Word)
  deriving DecidableEq, Repr

structure Msg where
  src  : CoreId
  dst  : CoreId
  vd   : Nat
  body : MsgBody
  /-- course of the sending task, which does not end while the message is in flight (R36) -/
  course : BitVec 16 := 0
  /-- taken from a message log at RESUME or RESTORE, and delivered before what arrived later (R166) -/
  logged : Bool := false
  deriving DecidableEq, Repr

/-- A byte range of near memory or of physical memory, for footprints (R137). -/
structure Range where
  near : Bool
  lo   : Nat
  len  : Nat
  deriving DecidableEq, Repr

/-- A consumed packet whose completion signal is still to be decremented (R230, R232): its queue, packet number, SEQ, the
engine address CSIG (0 for none) and IRQ. -/
structure PacketRef where
  queue : Nat
  num   : Nat
  seq   : BitVec 16
  csig  : Nat
  irq   : Bool
  deriving DecidableEq, Repr

/-- The state of an accepted job (R138, R321). -/
inductive JobState where
  | waiting | ready | running | ended
  deriving DecidableEq, Repr

/-- An accepted job (R135-R139). -/
structure Job where
  seq    : Nat
  vd     : Nat
  /-- the posting core, or none for a COPY packet of a lintel (R230) -/
  poster : Option CoreId
  mark   : Word
  card   : List Byte
  descs  : List Byte
  reads  : List Range
  writes : List Range
  state  : JobState := .waiting
  status : BitVec 32 := 0
  count  : Word := 0
  /-- output bytes still to write, in DST order, with their engine addresses; set when the engine has started -/
  out    : List (Nat × Byte) := []
  /-- how many of them are written, though the stream has still to take them (R140) -/
  ahead  : Nat := 0
  /-- the address of the access that failed its check, when the status is MCHECK (R128) -/
  bad    : Nat := 0
  /-- stream that an expander job feeds (R352) -/
  stream : Option (CoreId × Fin 8) := none
  /-- the mark of the task whose stream it is -/
  smark  : Word := 0
  /-- the COPY packet that posted it -/
  packet : Option PacketRef := none
  deriving DecidableEq, Repr

/-- What a migration slot holds (R207, R238, R304). -/
inductive Slot where
  | free
  | image (vd : Nat)
  | window (c : CoreId)
  deriving DecidableEq, Repr

/-- Granules of 256 bytes from number `lo` on, sealed under keys of one number (R128). -/
structure Seal where
  lo  : Nat
  n   : Nat
  key : Nat
  deriving DecidableEq, Repr

/-- A staged block prefetched by the load pipe (R193): its header and payload as they are stored. -/
structure Staged where
  vd   : Nat
  addr : Nat
  bytes : List Byte
  at_  : Word
  /-- offsets and lengths of what could not be fetched (R278) -/
  gone : List (Nat × Nat) := []
  /-- the table the quarry-port expander reads a LUT8 payload marked EXP 0 through: the bank as it stood at the fetch (R174, R179) -/
  table : Option Bank := none
  deriving DecidableEq, Repr

/-- A line of a quad's instruction cache (R7, R53, R249): the quad, the device, the block's address / 32 and its bytes. -/
structure CodeLine where
  quad  : Fin 8
  vd    : Nat
  block : Nat
  bytes : List Byte
  deriving DecidableEq, Repr

/-- The units of one tile (R7). -/
structure Tile where
  id    : TileId
  /-- number of the virtual device resident on the tile's cores (R29, R211) -/
  vd    : Option Nat := none
  jobs  : List Job := []
  seq   : Nat := 0
  tlb   : List TlbEntry := []
  /-- far cache: line number (physical address / 64) and its 64 bytes (R129) -/
  fcache : List (Nat × List Byte) := []
  xbank0 : Bank := {}
  xbank1 : Bank := {}
  staging : List Staged := []
  slots : Vector Slot 64 := Vector.replicate 64 .free
  /-- where the next plumb record goes in its ring (R239) -/
  ppos  : Nat := 0
  /-- TIME of the last plumb pulse (R241) -/
  plast : Option Word := none
  /-- the instruction caches of the eight quads, newest line first -/
  icache : List CodeLine := []
  /-- page-in advice of hint prefetches at the keystone, oldest first (R194) -/
  advice : List Nat := []
  deriving DecidableEq, Repr

/-- A pinned handle of a device (R130, R219). -/
structure Handle where
  val   : BitVec 24
  entry : Nat
  base  : Nat
  len   : Nat
  r     : Bool
  w     : Bool
  shared : Bool
  launch : Bool
  live  : Bool := true
  deriving DecidableEq, Repr

/-- A queue of a device (R227). -/
structure Queue where
  num   : Nat
  lintel : Fin 4
  /-- physical base of the ring's control block -/
  ring  : Nat
  log2  : Nat
  head  : Word := 0
  /-- a NOTIFY is remembered (R221, R229) -/
  notified : Bool := false
  /-- numbers of consumed packets whose completion is outstanding -/
  pending : List Nat := []
  /-- a BARRIER packet that holds the queue -/
  barrier : Option PacketRef := none
  deriving DecidableEq, Repr

/-- A launched course (R31-R36). -/
structure Course where
  num    : BitVec 16
  vd     : Nat
  dims   : Nat × Nat × Nat
  bitmap : Nat
  ptab   : Nat
  /-- the CORE of each tile task -/
  place  : List CoreId
  /-- tile tasks delivered and not yet ended; records still to deliver are in the mortar -/
  undone : Nat
  span   : Scope
  /-- the LAUNCH packet -/
  packet : Option PacketRef := none
  deriving DecidableEq, Repr

/-- A barrier instance (R52): course, scope, group, index, generation, arrivals so far and the expected count. -/
structure Barrier where
  course : BitVec 16
  vd     : Nat
  scope  : Scope
  group  : Nat
  idx    : Fin 4
  gen    : Bool := false
  count  : Nat := 0
  expect : Nat
  deriving DecidableEq, Repr

/-- Device states (R219, R233). -/
inductive VdState where
  | running | paused | evicted | faulted
  deriving DecidableEq, Repr

/-- The fields of a policy the package acts on (R222), resolved to die and tile. -/
structure Policy where
  version : BitVec 32 := 0
  edKey   : List Byte := []
  mlKey   : List Byte := []
  cmds    : Word := 0
  maxprio : BitVec 8 := 0
  debug   : Bool := false
  tileq   : Nat := 0
  nvbase  : Nat := 0
  nvlen   : Nat := 0
  /-- physical base, length limit, rights -/
  handles : List (Nat × Nat × BitVec 8) := []
  peers   : List (Nat × Nat) := []
  routes  : List (CoreId × Fin 64) := []
  bytes   : List Byte := []
  deriving DecidableEq, Repr

/-- A core's save record (R212) and message log (R166). -/
structure SaveRec where
  core  : Core
  locks : List Lock
  log   : List Msg := []
  /-- what the migration slots hold, in a keystone's record -/
  slots : Vector Slot 64 := Vector.replicate 64 .free
  /-- poisoned words of the slice, in a record that EVICT wrote -/
  poison : List Nat := []
  /-- the plumb position of the tile, in a keystone's record that EVICT wrote (R239) -/
  ppos  : Nat := 0
  /-- the record's bytes before the slice, at the offsets of R212 -/
  bytes : Memory := []
  /-- the slice, which EVICT writes at 0x20000 of the record: its cells by near address -/
  slice : Memory := []
  deriving DecidableEq, Repr

/-- A tag record of the image (R271). -/
structure TagRec where
  desc : Nat
  core : CoreId
  tag  : Fin 64
  prio : BitVec 7
  en   : Bool
  handler : BitVec 48
  deriving DecidableEq, Repr

/-- A virtual device (R219). -/
structure Device where
  num    : Nat
  state  : VdState := .running
  /-- CAUSE of the trap that faulted it, 0xFF for a thermal fault (R233) -/
  why    : BitVec 8 := 0
  tiles  : List TileId
  policy : Policy := {}
  /-- physical address of the level-1 table (R121) -/
  root   : Nat := 0
  /-- address of the service table (R208), 0 for none -/
  svctab : Nat := 0
  /-- frames taken so far for page tables -/
  frames : Nat := 0
  /-- the number of its XTS and MAC keys (R128, R224) -/
  key    : Nat := 0
  /-- lowest far address of the image and the physical base of the LAUNCH extent that mirrors it (R379) -/
  vbase  : Nat := 0
  lbase  : Nat := 0
  tagRecs : List TagRec := []
  handles : List Handle := []
  queues : List Queue := []
  courses : List Course := []
  barriers : List Barrier := []
  nextCourse : BitVec 16 := 1
  saves  : List SaveRec := []
  slice  : Word := 8000000
  /-- TIME at which its lintel last switched it in (R11, log entry 57) -/
  sliceAt : Word := 0
  deriving DecidableEq, Repr

/-- Bytes of a saved context that the image of R210 has no place for (log entry 72): their number, the device and the bytes. -/
structure Over where
  num   : Nat
  vd    : Nat
  bytes : List Byte
  deriving DecidableEq, Repr

/-- Lease states (R215). -/
inductive LeaseState where
  | vacant | held | expired
  deriving DecidableEq, Repr

/-- An entry of a port's MSI-X table as PCIe defines it (R214): address, data and mask. -/
structure MsixEntry where
  addr : Word := 0
  data : BitVec 32 := 0
  mask : Bool := true
  deriving DecidableEq, Repr

/-- A host port (R214). -/
structure Port where
  mailbox : Memory := []
  busy    : Bool := false
  opcode  : BitVec 16 := 0
  vdid    : BitVec 32 := 0
  /-- TIME at which the command in the mailbox arrived (R216, R218) -/
  arrived : Word := 0
  /-- LPERIOD as it stood then (R216) -/
  period  : Word := 0
  /-- the port held the lease when the command arrived, which therefore runs to its end (R217) -/
  holder  : Bool := false
  /-- entries of the MSI-X table of 1,025 vectors that the host has programmed, by vector -/
  msix    : List (Fin 1025 × MsixEntry) := []
  deriving DecidableEq, Repr

/-- The host side (R214-R217, R233). -/
structure HostSide where
  lease    : LeaseState := .vacant
  hostid   : BitVec 32 := 0
  port     : Fin 2 := 0
  deadline : Word := 0
  lperiod  : Word := 1000
  /-- TIME at which what took the lease last had arrived (R216) -/
  taken    : Word := 0
  ports    : Vector Port 2 := Vector.replicate 2 {}
  /-- vectors raised on a port, oldest first, and vectors pending while EXPIRED -/
  raised   : List (Fin 2 × Nat) := []
  pending  : List Nat := []
  capReady : Bool := false
  lintelsReady : Bool := false
  thermal  : Bool := false
  lostHlease : Word := 0
  lostNotify : Word := 0
  lostBounce : Word := 0
  lostService : Word := 0
  /-- answers to BAR2 accesses: none for Unsupported Request -/
  bar2     : List (Option (List Byte)) := []
  deriving DecidableEq, Repr

/-- A collective under way (R142-R144): its shape, its participants, and the 64-byte packets of R182. -/
structure Coll where
  group : BitVec 32
  vd    : Nat
  shape : List Byte
  /-- participant index, tile and job -/
  parts : List (Nat × TileId × Nat)
  /-- the leaf packets that have been sent -/
  leaves : List (List Byte) := []
  /-- the root packets of the blocks already combined -/
  roots : List (List Byte) := []
  /-- NPART of each card that has joined, the first one's first -/
  nparts : List Nat := []
  /-- a participant's card differed from the others' (R142) -/
  mismatch : Bool := false
  deriving DecidableEq, Repr

/-- An item of the agenda: a step that is due, or the core that moves next (log entry 1). -/
inductive Due where
  | event (i : Instr)
  | turn (c : CoreId)
  deriving DecidableEq, Repr

/-- The whole package: `time` is TIME (R76); `core` is the core in focus. -/
structure State where
  powered : Bool
  time    : Word
  fresh   : Nat
  agenda  : List Due
  /-- steps the core in focus has moved since it came into focus (log entry 1) -/
  turn    : Nat
  /-- place in the list of due steps where the next choice is made (log entry 1) -/
  rotor   : Nat
  /-- something has moved since the core in focus stalled, which therefore tries again -/
  retry   : Bool
  near    : Memory
  quarry  : Memory
  peerOut : List (Nat × List Byte)
  poison  : List Nat
  /-- the keys that sealed the quarry's granules last, the newest first (R128) -/
  sealed  : List Seal
  /-- numbers of keys given out -/
  keyCount : Nat
  overs   : List Over
  locks   : List Lock
  mortar  : List Msg
  /-- contexts on their way back from a keystone: home core and context (R209) -/
  returning : List (CoreId × Ctx)
  colls   : List Coll
  throttle : List (Fin 8)
  /-- ECC corrections since boot, per die (R245) -/
  eccDie  : Vector Word 8
  core    : Core
  others  : List Core
  tiles   : List Tile
  devs    : List Device
  devCount : Nat
  handleCount : Nat
  host    : HostSide
  deriving DecidableEq, Repr

/-- The package right after reset (R19-R20, R76, R215): powered, nothing resident, TIME zero, no memory listed. -/
def State.reset : State where
  powered := true
  time := 0
  fresh := 0
  agenda := []
  turn := 0
  rotor := 0
  retry := false
  near := []
  quarry := []
  peerOut := []
  poison := []
  sealed := []
  keyCount := 0
  overs := []
  locks := []
  mortar := []
  returning := []
  colls := []
  throttle := []
  eccDie := Vector.replicate 8 0
  core := { id := 0 }
  others := []
  tiles := []
  devs := []
  devCount := 0
  handleCount := 0
  host := { capReady := true, lintelsReady := true }

end Sys2Proof.Machine
end

