-- ==== Sys2Proof/Machine/Flags.lean ====
section
/-! DEFINITION. The two sticky flag registers of a task, WARN (R78) and FPF (R79): their bits and how hardware sets them. -/

namespace Sys2Proof.Machine

/-- WARN bits (R78). -/
abbrev Warn := BitVec 8
def wCombo : Warn := 0x01
def wPfx : Warn := 0x02
def wOrder : Warn := 0x04
def wLift : Warn := 0x08
def wScope : Warn := 0x10
def wFmttgt : Warn := 0x20
def wPattern : Warn := 0x40
def wView : Warn := 0x80

/-- WARN bits set; hardware only sets them (R78). -/
def Ctx.warnOr (c : Ctx) (w : Warn) : Ctx := { c with warn := c.warn ||| w }

/-- FPF flags set; operations never clear them (R79). -/
def Ctx.fpfOr (c : Ctx) (f : Flags) : Ctx := { c with fpf := c.fpf ||| f }

/-- A WARN bit when a condition holds. -/
def warnIf (c : Bool) (w : Warn) : Warn := if c then w else 0

/-- A pending prefix discarded by an instruction that is no target (R74). -/
def Ctx.dropPrefix (c : Ctx) : Ctx :=
  if c.pfx then { (c.warnOr wPfx) with pfx := false } else c

/-- A prefix consumed by its target (R74, R75). -/
def Ctx.usePrefix (c : Ctx) : Ctx := { c with pfx := false }

/-- The SR register (R77). -/
def Ctx.sr (c : Ctx) : Word :=
  BitVec.ofNat 64 (bitsAt c.mark.toNat 50 14 * 2 ^ 50 + c.prio.toNat * 2 ^ 43 + b2n c.svc * 2 ^ 34 + b2n c.wd * 2 ^ 33
    + b2n c.pfx * 2 ^ 32 + c.pfxv.toNat)

/-- Course number of a mark, MARK[49:34] (R26). -/
def markCourse (m : Word) : BitVec 16 := BitVec.ofNat 16 (m.toNat / 2 ^ 34)

/-- A mason's mark from its ASID, course and serial (R26). -/
def mkMark (asid : BitVec 14) (course : BitVec 16) (serial : Nat) : Word :=
  BitVec.ofNat 64 (asid.toNat * 2 ^ 50 + course.toNat * 2 ^ 34 + serial % 2 ^ 34)

/-- Whether a mark belongs to a tile task: serial bit 33 clear (R26). -/
def markIsTile (m : Word) : Bool := !bitAt m.toNat 33

/-- The FAULT register of a trap (R201). -/
def causeCode : Cause → Nat
  | .illegalOpc => 1 | .illegalLen => 2 | .fetchCross => 3 | .reservedBits => 4 | .priv => 5 | .pageNp => 6
  | .pageProt => 7 | .nearBounds => 8 | .align => 9 | .streamExh => 10 | .streamDir => 11 | .grammarBad => 12
  | .blockIllegal => 13 | .mcheck => 14 | .brk => 15 | .step => 16 | .trapi => 17

def Trap.word (t : Trap) : Word :=
  BitVec.ofNat 64 (causeCode t.cause + b2n t.async * 2 ^ 7 + b2n t.w * 2 ^ 8 + b2n t.x * 2 ^ 9 + b2n t.bx * 2 ^ 10
    + t.unit.toNat * 2 ^ 11)

/-- Reason codes of R23. -/
def Stall.code : Stall → Nat
  | .stream => 1 | .counter => 2 | .barrier => 3 | .acquire => 4 | .interlock => 5 | .translation => 6 | .lock => 8
  | .full63 => 9 | .fetch => 10 | .backpressure => 12 | .service => 13

end Sys2Proof.Machine
end

