-- ==== Sys2Proof/Machine/Parts.lean ====
section
/-! DEFINITION. The parts of the package and their numbering: cores, tiles, devices, near addresses, scopes, the phase
counts; how each is found in State and put back. -/

namespace Sys2Proof.Machine

/-! Numbers (R5, R9, R15, R119). -/

def coreSlot (c : CoreId) : Nat := c.toNat % 64
def coreTile (c : CoreId) : TileId := BitVec.ofNat 9 (c.toNat / 64)
def coreDie (c : CoreId) : Nat := c.toNat / 4096
def mkCore (t : TileId) (slot : Nat) : CoreId := BitVec.ofNat 15 (t.toNat * 64 + slot)
/-- The keystone of a tile (R9). -/
def keystoneOf (t : TileId) : CoreId := mkCore t 32
def tileDie (t : TileId) : Nat := t.toNat / 64

def nearLo : Nat := 0x800000000
def nearHi : Nat := 0x1000000000
/-- The near window (R118). -/
def isNear (a : Nat) : Bool := nearLo ≤ a && a < nearHi
def isNull (a : Nat) : Bool := a < nearLo
def isFar (a : Nat) : Bool := nearHi ≤ a && a < 2 ^ 48
def nearTile (a : Nat) : TileId := BitVec.ofNat 9 (a / 2 ^ 26)
def nearSlot (a : Nat) : Nat := a / 2 ^ 20 % 64
def nearByteOff (a : Nat) : Nat := a % 2 ^ 20
def nearAddr (t : TileId) (slot off : Nat) : Nat := nearLo + t.toNat * 2 ^ 26 + slot * 2 ^ 20 + off
/-- The address of byte i of an access that starts at a: it wraps within its slot (R119). -/
def nearWrap (a i : Nat) : Nat := a / 2 ^ 20 * 2 ^ 20 + (a + i) % 2 ^ 20
def nearSpan (a : Nat) : Nat → List Nat
  | 0 => []
  | n + 1 => nearSpan a n ++ [nearWrap a n]

/-- Whether TILE and SLOT exist (R119). -/
def nearExists (a : Nat) : Bool := (nearTile a).toNat % 64 < 48 && nearSlot a < 36
/-- A run-queue spill area (R37). -/
def isSpill (a : Nat) : Bool := nearSlot a < 32 && 0xE0000 ≤ nearByteOff a
/-- Byte of the keystone slice. -/
def keyByte (a : Nat) : Nat := (nearSlot a - 32) * 2 ^ 20 + nearByteOff a
def slotSize : Nat := 0xB000
/-- The migration slots of a keystone (R207). -/
def isMigSlot (a : Nat) : Bool := 32 ≤ nearSlot a && keyByte a < 64 * slotSize
def migSlotOf (a : Nat) : Nat := keyByte a / slotSize
/-- The observation block (R239). -/
def isObs (a : Nat) : Bool := 32 ≤ nearSlot a && 0x3FF000 ≤ keyByte a
/-- The near address of a migration slot. -/
def slotAddr (t : TileId) (k : Nat) : Nat := nearAddr t 32 0 + k * slotSize
/-- The core whose slice holds a near address: slot 0 of the tile for a keystone slice (R46). -/
def ownerCore (a : Nat) : CoreId := mkCore (nearTile a) (if nearSlot a < 32 then nearSlot a else 0)

/-- Whether two cores lie in one group of a scope (R9, R15). -/
def sameGroup (sc : Scope) (a b : CoreId) : Bool :=
  match sc with
  | .core => a == b
  | .quad => a == b || (coreTile a == coreTile b && coreSlot a < 32 && coreSlot b < 32 && coreSlot a / 4 == coreSlot b / 4)
  | .tile => coreTile a == coreTile b
  | .die => coreDie a == coreDie b
  | .pkg | .pod | .host => true

def scopeNum : Scope → Nat
  | .core => 0 | .quad => 1 | .tile => 2 | .die => 3 | .pkg => 4 | .pod => 5 | .host => 6
/-- DIE scope or wider. -/
def atDie (sc : Scope) : Bool := 3 ≤ scopeNum sc

/-- The narrowest scope that contains both cores (R15). -/
def narrowest (a b : CoreId) : Scope :=
  if sameGroup .core a b then .core else if sameGroup .quad a b then .quad else if sameGroup .tile a b then .tile
  else if sameGroup .die a b then .die else .pkg

/-- The narrowest scope that contains every listed core: the span of a course (R33). -/
def spanOf : List CoreId → Scope
  | [] => .core
  | c :: cs =>
    if cs.all (sameGroup .core c) then .core else if cs.all (sameGroup .quad c) then .quad
    else if cs.all (sameGroup .tile c) then .tile else if cs.all (sameGroup .die c) then .die else .pkg

/-! Cores, tiles and devices of the state. -/

def State.coreOf (s : State) (c : CoreId) : Core :=
  if s.core.id = c then s.core else ((s.others.find? (·.id == c)).getD { id := c })

def putCore (co : Core) : List Core → List Core
  | [] => [co]
  | x :: xs => if x.id = co.id then co :: xs else x :: putCore co xs

def State.setCore (s : State) (co : Core) : State :=
  if s.core.id = co.id then { s with core := co } else { s with others := putCore co s.others }
def State.updCore (s : State) (c : CoreId) (f : Core → Core) : State := s.setCore (f (s.coreOf c))

/-- The same package with another core in focus (log entry 1). -/
def State.focusOn (s : State) (c : CoreId) : State :=
  if s.core.id = c then s
  else { s with core := s.coreOf c, others := s.others.filter (·.id != c) ++ [s.core] }

/-- The state with a core in focus, changed, and the focus put back. -/
def onCore (s : State) (c : CoreId) (f : State → State) : State := (f (s.focusOn c)).focusOn s.core.id

def State.allCores (s : State) : List Core := s.core :: s.others

def State.tileOf (s : State) (t : TileId) : Tile := (s.tiles.find? (·.id == t)).getD { id := t }
def putTile (tl : Tile) : List Tile → List Tile
  | [] => [tl]
  | x :: xs => if x.id = tl.id then tl :: xs else x :: putTile tl xs
def State.setTile (s : State) (tl : Tile) : State := { s with tiles := putTile tl s.tiles }
def State.updTile (s : State) (t : TileId) (f : Tile → Tile) : State := s.setTile (f (s.tileOf t))

def State.devOf (s : State) (n : Nat) : Option Device := s.devs.find? (·.num == n)
def State.updDev (s : State) (n : Nat) (f : Device → Device) : State :=
  { s with devs := s.devs.map (fun d => if d.num = n then f d else d) }
/-- The number of the device resident on a core. -/
def State.vdOf (s : State) (c : CoreId) : Option Nat := (s.tileOf (coreTile c)).vd
/-- The number of the device resident on the core in focus, and the device. -/
def State.vd (s : State) : Option Nat := s.vdOf s.core.id
def State.dev (s : State) : Option Device := s.vd.bind s.devOf

/-- ASID and VDID of a device number (log entry 19). -/
def asidOf (n : Nat) : BitVec 14 := BitVec.ofNat 14 n ^^^ Config.asidMask
def vdidOf (n : Nat) : BitVec 32 := BitVec.ofNat 32 n ^^^ Config.vdidMask

def Core.mapCtx (co : Core) (f : Ctx → Ctx) : Core := { co with ctx := f co.ctx }
/-- The context of the core in focus. -/
def State.ctx (s : State) : Ctx := s.core.ctx
def State.mapCtx (s : State) (f : Ctx → Ctx) : State := { s with core := s.core.mapCtx f }

/-- Whether a tile belongs to the partition of the device resident on the core in focus. -/
def State.inPartition (s : State) (t : TileId) : Bool :=
  match s.dev with
  | none => false
  | some d => d.tiles.contains t

/-- The course of the running task, when the device still holds it. -/
def State.courseOf (s : State) (vd : Nat) (course : BitVec 16) : Option Course :=
  (s.devOf vd).bind fun d => d.courses.find? (·.num == course)

/-- The span that a task's course gives its barriers, steal scopes and its own releases: PKG when the course is gone. -/
def State.spanOfTask (s : State) : Scope :=
  match s.vd with
  | none => .pkg
  | some n => match s.courseOf n (markCourse s.core.ctx.mark) with
    | none => .pkg
    | some c => c.span

/-! Registers of a context. -/

/-- x_n; x0 reads as zero (R59). -/
def Ctx.getX (c : Ctx) (n : Fin 32) : Word := if n = 0 then 0 else c.x[n]
/-- A write of x_n; x0 discards it (R59). -/
def Ctx.setX (c : Ctx) (n : Fin 32) (v : Word) : Ctx := if n = 0 then c else { c with x := c.x.set n v }
/-- Bytes of the unified register space beyond x0-x31. -/
def Ctx.ursRead (c : Ctx) (off n : Nat) : List Byte := memRead c.urs off n
def Ctx.ursWrite (c : Ctx) (off : Nat) (bs : List Byte) : Ctx := { c with urs := memWrite c.urs off bs }

/-- Offset of register n of a view (R60). -/
def viewOff (vw : Word) (n : Nat) : Nat := vw.toNat % 2 ^ 15 + n * (vw.toNat / 2 ^ 16 % 2 ^ 15)
def Ctx.vOff (c : Ctx) (n : Nat) : Nat := viewOff c.vwV n
def Ctx.mOff (c : Ctx) (n : Nat) : Nat := viewOff c.vwM n
def Ctx.aOff (c : Ctx) (n : Nat) : Nat := viewOff c.vwA n
def Ctx.pOff (c : Ctx) (n : Nat) : Nat := viewOff c.vwP n

/-- A predicate register: p0 reads as all ones (R59). -/
def Ctx.getP (c : Ctx) (n : Fin 8) : Word :=
  if n = 0 then BitVec.allOnes 64 else bytesWord (c.ursRead (c.pOff n.val) 8)
def Ctx.setP (c : Ctx) (n : Fin 8) (v : Word) : Ctx := if n = 0 then c else c.ursWrite (c.pOff n.val) (wordBytes v)

/-! The phase table counts of a core (R55, R56). -/

def bumpPhase (course : BitVec 16) (ph : BitVec 6) (f : PhaseCount → PhaseCount) : List PhaseCount → List PhaseCount
  | [] => [f { course := course, phase := ph }]
  | p :: ps => if p.course = course ∧ p.phase = ph then f p :: ps else p :: bumpPhase course ph f ps
def Core.bump (co : Core) (f : PhaseCount → PhaseCount) : Core :=
  { co with phases := bumpPhase (markCourse co.ctx.mark) co.ctx.phaseid f co.phases }
/-- A cycle in which the task issues. -/
def Core.busy (co : Core) : Core := co.bump fun p => { p with busy := p.busy + 1 }
/-- A stalled cycle. -/
def Core.stalled (co : Core) : Core := co.bump fun p => { p with stall := p.stall + 1 }

/-! Near bytes. -/

/-- Fields of the observation block that software may write (R239), as stored. -/
def obsStored (off : Nat) (b : Byte) : Option Byte :=
  if off = 0 then
    let k := b.toNat % 32
    some (if (1 ≤ k ∧ k ≤ 9) ∨ k = 31 then 0 else BitVec.ofNat 8 k)
  else if off = 0x20 then some b
  else if (0x08 ≤ off ∧ off < 0x18) ∨ (0x28 ≤ off ∧ off < 0x38) then some b
  else none

/-- Writing PRBASE or TRBASE restarts the head that counts from it (R239). -/
def obsReset (a : Nat) (m : Memory) : Memory :=
  let off := keyByte a - 0x3FF000
  if 0x08 ≤ off ∧ off < 0x10 then memClear m (a - off + 0x18) 8
  else if 0x28 ≤ off ∧ off < 0x30 then memClear m (a - off + 0x38) 8
  else m

/-- One byte of near memory written by an access. -/
def nearSet (m : Memory) (a : Nat) (b : Byte) : Memory :=
  if isObs a then
    match obsStored (keyByte a - 0x3FF000) b with
    | none => m
    | some v => memSet (obsReset a m) a v
  else memSet m a b

def nearWriteCells (m : Memory) : List (Nat × Byte) → Memory
  | [] => m
  | (a, b) :: cs => nearWriteCells (nearSet m a b) cs

/-- Bytes read from a near address, wrapping within the slot. -/
def State.nearRead (s : State) (a n : Nat) : List Byte := (nearSpan a n).map (memGet s.near)
/-- Bytes written at a near address, wrapping within the slot. -/
def State.nearWrite (s : State) (a : Nat) (bs : List Byte) : State :=
  { s with near := nearWriteCells s.near ((nearSpan a bs.length).zip bs) }
def State.nearWord (s : State) (a : Nat) : Word := bytesWord (s.nearRead a 8)
def State.nearWriteWord (s : State) (a : Nat) (v : Word) : State := s.nearWrite a (wordBytes v)
/-- A hardware field of the observation block raised by n; an uncorrectable one gives nothing to count from and stays (R244, log entry
97). -/
def State.obsAdd (s : State) (t : TileId) (off n : Nat) : State :=
  let a := nearAddr t 35 (0xFF000 + off)
  { s with near := if s.poison.contains a then s.near else memWrite s.near a (wordBytes (memWord s.near a + BitVec.ofNat 64 n)) }

/-- One record of the trace (R240): kept in the core's buffer of 64, or lost. -/
def State.traceAt (s : State) (c : CoreId) (ev : Nat) (mark data : Word) : State :=
  let t := coreTile c
  if bitAt (memWord s.near (nearAddr t 35 0xFF020)).toNat ev then
    if (s.coreOf c).traceBuf.length < 64 then
      s.updCore c fun co => { co with traceBuf := co.traceBuf ++
        [{ time := s.time, mark := mark, event := BitVec.ofNat 8 ev, data := data }] }
    else s.obsAdd t 0x48 1
  else s
def State.trace (s : State) (ev : Nat) (data : Word) : State := s.traceAt s.core.id ev s.core.ctx.mark data

end Sys2Proof.Machine
end

