-- ==== Sys2Proof/Machine/Image.lean ====
section
/-! DEFINITION. The context image of R210: a task context written as bytes and read back. The areas whose layout R210
leaves to the package have the layout given here (log entry 8). -/

namespace Sys2Proof.Machine

/-- TAGEN and TAGPEND: bit t mirrors tag t (R47, R49); `waiting` says whether waiting records of the tag exist. -/
def tagEnFrom (tags : Vector Tag 64) : Nat → Nat
  | 0 => 0
  | n + 1 => tagEnFrom tags n + (if h : n < 64 then b2n tags[n].en else 0) * 2 ^ n
def Core.waits (co : Core) (t : Nat) : Bool := co.runq.any fun r => r.wait && r.tag.toNat == t
def Core.pendBit (co : Core) (t : Fin 64) : Bool := co.tags[t].signal || co.waits t.val
def tagPendFrom (co : Core) : Nat → Nat
  | 0 => 0
  | n + 1 => tagPendFrom co n + (if h : n < 64 then b2n (co.pendBit ⟨n, h⟩) else 0) * 2 ^ n

/-- MXPROG (R198): the stored word. -/
def ctxCounters (c : Ctx) (ld st mx : Nat) : Word :=
  BitVec.ofNat 64 (ld + st * 2 ^ 6 + c.job.toNat * 2 ^ 12 + mx * 2 ^ 18 + c.gr.toNat * 2 ^ 24)

/-- Control register number n of a context on a core (R76); in weight-driven mode MXPROG reads with its WD bit (R198). -/
def crValue (time : Word) (co : Core) (c : Ctx) (n : Nat) : Word :=
  match n with
  | 0 => c.sr
  | 1 => c.warn.setWidth 64
  | 2 => c.fpf.setWidth 64
  | 3 => c.xid.setWidth 64
  | 4 => c.mark
  | 5 => c.coord
  | 6 => co.id.setWidth 64
  | 7 => c.vwV
  | 8 => c.vwM
  | 9 => c.vwA
  | 10 => c.vwP
  | 11 => if c.wd then c.mxprog ||| 0x10000 else c.mxprog
  | 12 => c.mxfaddr
  | 13 => c.wdblk
  | 14 => c.fault
  | 15 => c.faddr
  | 16 => BitVec.ofNat 64 (tagEnFrom co.tags 64)
  | 17 => BitVec.ofNat 64 (tagPendFrom co 64)
  | 18 => c.prio.setWidth 64
  | 19 => c.phaseid.setWidth 64
  | 20 => time
  | 21 => co.bkpt[0]
  | 22 => co.bkpt[1]
  | 23 => co.bkpt[2]
  | 24 => co.bkpt[3]
  | 25 => c.lutsel.setWidth 64
  | _ => 0

/-- Bytes placed at an offset. -/
def pieceAt (off : Nat) (bs : List Byte) : List (Nat × Byte) := (List.range' off bs.length).zip bs
def wordAt (off : Nat) (v : Word) : List (Nat × Byte) := pieceAt off (wordBytes v)
def natAt (off n v : Nat) : List (Nat × Byte) := pieceAt off (leBytes n v)
/-- Items laid out at a fixed distance. -/
def itemsAt {α : Type} (f : Nat → α → List (Nat × Byte)) (step : Nat) : Nat → List α → List (Nat × Byte)
  | _, [] => []
  | off, x :: xs => f off x ++ itemsAt f step (off + step) xs

def streamKindCode : StreamKind → Nat
  | .pattern => 0 | .queue => 1 | .expander => 2 | .gather => 3
def streamKindOf (k : Nat) : StreamKind :=
  if k = 0 then .pattern else if k = 1 then .queue else if k = 2 then .expander else .gather

def causeOf (k : Nat) : Cause :=
  match k with
  | 1 => .illegalOpc | 2 => .illegalLen | 3 => .fetchCross | 4 => .reservedBits | 5 => .priv | 6 => .pageNp
  | 7 => .pageProt | 8 => .nearBounds | 9 => .align | 10 => .streamExh | 11 => .streamDir | 12 => .grammarBad
  | 13 => .blockIllegal | 14 => .mcheck | 15 => .brk | 16 => .step | _ => .trapi

def trapOfWord (w : Nat) (fa : Word) : Trap :=
  { cause := causeOf (w % 64), faddr := fa, unit := BitVec.ofNat 3 (w / 2 ^ 11), bx := bitAt w 10, x := bitAt w 9,
    w := bitAt w 8, async := bitAt w 7 }

/-- One stream's 256 bytes of state. -/
def streamCells (off : Nat) (t : Stream) : List (Nat × Byte) :=
  natAt off 8 (b2n t.bound + 2 * b2n t.out + 4 * streamKindCode t.kind + 16 * t.esz + 2 ^ 40 * b2n t.closed
      + 256 * t.counts.length + 2 ^ 16 * t.buf.length)
    ++ wordAt (off + 8) t.base ++ natAt (off + 16) 8 t.total ++ natAt (off + 24) 8 t.moved ++ natAt (off + 32) 8 t.done
    ++ natAt (off + 40) 8 t.arg
    ++ itemsAt (fun o n => natAt o 4 n) 4 (off + 48) t.counts
    ++ itemsAt (fun o i => natAt o 8 (wrapTo 64 i)) 8 (off + 96) t.strides
    ++ (match t.held with
      | none => []
      | some h => wordAt (off + 184) h.word ++ wordAt (off + 192) h.faddr)
    ++ natAt (off + 248) 8 (match t.ticket with | none => 0 | some k => k + 1)
/-- How many held faults an image has a place for (log entry 72). -/
def heldMax : Nat := 24
/-- Held asynchronous faults, three to a stream's area (R204). -/
def asyncCells : Nat → List Trap → List (Nat × Byte)
  | _, [] => []
  | i, t :: ts =>
    let off := 0x8600 + 256 * (i / 3) + 200 + 16 * (i % 3)
    (if i < heldMax then wordAt off t.word ++ wordAt (off + 8) t.faddr else []) ++ asyncCells (i + 1) ts
def streamDataCells (off : Nat) (t : Stream) : List (Nat × Byte) := pieceAt off (t.buf.flatten.take 256)

/-- A queued grammar operation, 48 bytes. -/
def gopCells (off : Nat) (g : GOp) : List (Nat × Byte) :=
  natAt off 8 (g.major + 4 * g.fn + 2 ^ 10 * g.mod + 2 ^ 16 * g.d.val
      + 2 ^ 22 * (match g.bs with | none => 0 | some b => 1 + b.val) + 2 ^ 31)
    ++ wordAt (off + 8) g.a ++ wordAt (off + 16) g.b ++ wordAt (off + 24) g.c ++ natAt (off + 32) 8 g.count
/-- Progress of the operation at the head of the queue, 64 bytes. -/
def gprogCells (off : Nat) (g : GOp) : List (Nat × Byte) :=
  natAt off 4 g.cur ++ natAt (off + 4) 4 g.pos
    ++ natAt (off + 8) 8 (2 ^ 33 * g.fl.toNat + 2 ^ 38 * g.accFl.toNat + 2 ^ 42 * b2n g.started
      + 2 ^ 43 * (match g.result with | none => 0 | some r => 1 + 2 * r.2.toNat))
    ++ natAt (off + 16) 40 (wrapTo 320 g.acc)
    ++ (match g.result with | none => [] | some r => wordAt (off + 56) r.1)

def wdCells (off : Nat) (w : WdState) : List (Nat × Byte) :=
  wordAt off w.exit
    ++ natAt (off + 8) 8 (opdCodeOf w.dst + 2 ^ 8 * w.aet.toNat + 2 ^ 12 * w.abw.toNat + 2 ^ 16 * w.abase + 2 ^ 20 * w.acnt
      + 2 ^ 24 * (match w.src with | none => 0 | some b => 1 + b.val) + 2 ^ 32 * w.link.length + 2 ^ 40 * b2n w.table.isSome)
    ++ natAt (off + 64) 8 (match w.ticket with | none => 0 | some k => k + 1)
    ++ wordAt (off + 16) w.base ++ wordAt (off + 24) w.stride
    ++ itemsAt wordAt 8 (off + 32) w.link
where opdCodeOf : Opd → Nat
  | .reg n => n.val
  | .str n => 32 + n.val

/-- Barrier arrivals: bit 4 * (scope - 1) + index arrived, bit 32 + same the generation (R210). -/
def barrierWord : List (Scope × Fin 4 × Bool) → Nat
  | [] => 0
  | (sc, i, g) :: rest =>
    let k := 4 * (scopeNum sc - 1) + i.val
    natOr 64 (2 ^ k + b2n g * 2 ^ (32 + k)) (barrierWord rest)

def repCells : Option Rep → List (Nat × Byte)
  | none => []
  | some r =>
    natAt 0x8100 8 (r.pass + 2 ^ 16 * r.idx + 2 ^ 20) ++ natAt 0x8108 8 r.imm.toNat
      ++ itemsAt (fun o w => natAt o 16 w.toNat) 16 0x8110 r.body

/-- The cells of a context's image, by image offset; LD, ST and MX have completed (R207). -/
def imageCells (time : Word) (co : Core) (c : Ctx) (ld st mx : Nat) : List (Nat × Byte) :=
  itemsAt wordAt 8 0 c.x.toList ++ c.urs
    ++ itemsAt (fun o n => wordAt o (crValue time co c n)) 8 0x8000 (List.range 26)
    ++ wordAt 0x80D0 c.pc ++ itemsAt wordAt 8 0x80D8 c.b.toList
    ++ wordAt 0x80F8 (ctxCounters c ld st mx)
    ++ repCells c.rep
    ++ natAt 0x8210 8 (barrierWord c.arrived)
    ++ wdCells 0x8218 c.wdst
    ++ natAt 0x8260 8 (if c.resumed then (if c.wd then c.wdblk else c.pc).toNat + 1 else 0)
    ++ itemsAt (fun o (b : Binding) => wordAt o b.sync ++ wordAt (o + 8) b.base ++ wordAt (o + 16) b.len) 32 0x8400 c.binds
    ++ itemsAt streamCells 256 0x8600 c.streams.toList
    ++ itemsAt streamDataCells 256 0x8E00 c.streams.toList
    ++ asyncCells 0 c.asyncs ++ natAt 0x8658 8 (match c.ticket with | none => 0 | some k => k + 1)
    ++ itemsAt gopCells 48 0x9600 c.gops
    ++ (match c.gops with
      | [] => []
      | g :: _ => gprogCells 0xA200 g
        ++ itemsAt (fun o (p : Nat × Nat) => natAt o 4 p.1 ++ natAt (o + 4) 4 p.2) 8 0xA240 g.stack)

/-- An image written at a near or far-free base of a byte memory. -/
def imageWrite (m : Memory) (base : Nat) (cells : List (Nat × Byte)) : Memory :=
  memWriteAll (memClear m base slotSize) (cells.map fun p => (base + p.1, p.2))

/-! Reading an image back. `rd off n` gives the number that n bytes of the image hold. -/

def streamOf (rd : Nat → Nat → Nat) (off doff : Nat) : Stream :=
  let h := rd off 8
  let esz := max 1 (bitsAt h 4 4)
  let nd := min (bitsAt h 8 8) 10
  let nb := min (bitsAt h 16 16) (256 / esz)
  let counts := (List.range nd).map fun i => rd (off + 48 + 4 * i) 4
  let total := if bitsAt h 2 2 = 0 && !counts.isEmpty then counts.foldl (· * ·) 1 else rd (off + 16) 8
  { bound := bitAt h 0, out := bitAt h 1, kind := streamKindOf (bitsAt h 2 2), esz := esz, closed := bitAt h 40
    base := BitVec.ofNat 64 (rd (off + 8) 8), total := total, moved := rd (off + 24) 8
    done := rd (off + 32) 8, arg := rd (off + 40) 8
    counts := counts
    strides := (List.range nd).map fun i => signedOf 64 (rd (off + 96 + 8 * i) 8)
    buf := (List.range nb).map fun i => leBytes esz (rd (doff + esz * i) esz)
    held := if rd (off + 184) 8 = 0 then none
      else some (trapOfWord (rd (off + 184) 8) (BitVec.ofNat 64 (rd (off + 192) 8)))
    ticket := if rd (off + 248) 8 = 0 then none else some (rd (off + 248) 8 - 1) }
/-- The held asynchronous faults of an image. -/
def asyncsOf (rd : Nat → Nat → Nat) : List Trap :=
  (List.range heldMax).filterMap fun i =>
    let off := 0x8600 + 256 * (i / 3) + 200 + 16 * (i % 3)
    if rd off 8 = 0 then none else some (trapOfWord (rd off 8) (BitVec.ofNat 64 (rd (off + 8) 8)))

def gopOf (rd : Nat → Nat → Nat) (off : Nat) : Option GOp :=
  let h := rd off 8
  if bitAt h 31 then
    let bs := bitsAt h 22 6
    some { major := h % 4, fn := bitsAt h 2 8, mod := bitsAt h 10 6, d := Fin.ofNat 32 (bitsAt h 16 6)
           a := BitVec.ofNat 64 (rd (off + 8) 8), b := BitVec.ofNat 64 (rd (off + 16) 8)
           bs := if bs = 0 then none else some (Fin.ofNat 8 (bs - 1))
           c := BitVec.ofNat 64 (rd (off + 24) 8), count := rd (off + 32) 8 }
  else none

/-- Queue slots up to the first empty one. -/
def gopsFrom (rd : Nat → Nat → Nat) : Nat → Nat → List GOp
  | 0, _ => []
  | n + 1, off => match gopOf rd off with
    | none => []
    | some g => g :: gopsFrom rd n (off + 48)

/-- Descent-stack entries: a stored depth is where the first (0, 0) pair stands. -/
def stackFrom (rd : Nat → Nat → Nat) : Nat → Nat → List (Nat × Nat)
  | 0, _ => []
  | n + 1, off =>
    let r := rd off 4
    let k := rd (off + 4) 4
    if r = 0 ∧ k = 0 then [] else (r, k) :: stackFrom rd n (off + 8)

def gprogOf (rd : Nat → Nat → Nat) (g : GOp) : GOp :=
  let h := rd 0xA208 8
  { g with
    cur := rd 0xA200 4, pos := rd 0xA204 4, fl := BitVec.ofNat 5 (h / 2 ^ 33)
    accFl := BitVec.ofNat 4 (h / 2 ^ 38), started := bitAt h 42, acc := signedOf 320 (rd 0xA210 40)
    result := if bitAt h 43 then some (BitVec.ofNat 64 (rd 0xA238 8), BitVec.ofNat 8 (h / 2 ^ 44)) else none
    stack := stackFrom rd 256 0xA240 }

def wdOf (rd : Nat → Nat → Nat) (off : Nat) : WdState :=
  let h := rd (off + 8) 8
  let d := h % 2 ^ 8
  let src := bitsAt h 24 8
  { exit := BitVec.ofNat 64 (rd off 8)
    dst := if d < 32 then .reg (Fin.ofNat 32 d) else .str (Fin.ofNat 8 (d - 32))
    aet := BitVec.ofNat 4 (h / 2 ^ 8), abw := BitVec.ofNat 3 (h / 2 ^ 12), abase := bitsAt h 16 4, acnt := bitsAt h 20 4
    src := if src = 0 then none else some (Fin.ofNat 8 (src - 1))
    base := BitVec.ofNat 64 (rd (off + 16) 8), stride := BitVec.ofNat 64 (rd (off + 24) 8)
    link := (List.range (min (bitsAt h 32 8) 4)).map fun i => BitVec.ofNat 64 (rd (off + 32 + 8 * i) 8)
    ticket := if rd (off + 64) 8 = 0 then none else some (rd (off + 64) 8 - 1)
    table := if bitAt h 40 then some { block := 0, gen := false, bank := {} } else none }

def barriersOf (w : Nat) : List (Scope × Fin 4 × Bool) :=
  ([(Scope.quad, 0), (.tile, 4), (.die, 8), (.pkg, 12)].map fun p =>
    ((List.range 4).filter fun i => bitAt w (p.2 + i)).map fun i => (p.1, Fin.ofNat 4 i, bitAt w (32 + p.2 + i))).flatten

/-- The stored value of a view register for a written one (R61). -/
def viewClamp (cnt sz al : Nat) (v : Nat) : Nat :=
  let base := v % 2 ^ 15 / al * al
  let stride := v / 2 ^ 16 % 2 ^ 15 / al * al
  let stride := max stride sz
  let base := max base 0x100
  if base + (cnt - 1) * stride + sz > 0x8000 then
    let base := if base + cnt * sz > 0x8000 then 0x8000 - cnt * sz else base
    sz * 2 ^ 16 + base
  else stride * 2 ^ 16 + base
def clampV (w : Word) : Word := BitVec.ofNat 64 (viewClamp 32 64 64 w.toNat)
def clampM (w : Word) : Word := BitVec.ofNat 64 (viewClamp 8 1056 32 w.toNat)
def clampA (w : Word) : Word := BitVec.ofNat 64 (viewClamp 4 4096 64 w.toNat)
def clampP (w : Word) : Word := BitVec.ofNat 64 (viewClamp 8 8 8 w.toNat)

/-- Length of the instruction a buffered word holds (R246). -/
def wordLen (w : Nat) : Nat := if w % 4 = 0 then 8 else if w % 4 = 1 then 12 else if w % 4 = 2 then 16 else 4

/-- Skip words passed over (R248); `peek a` gives the word at a. -/
def skipOver (peek : Nat → Nat) : Nat → Nat → Nat
  | 0, a => a
  | n + 1, a => if peek a = 0x3FF then skipOver peek n (a + 4) else a
/-- The addresses of a buffered body that starts at a. -/
def bodyPcs (peek : Nat → Nat) : List (BitVec 128) → Nat → List Nat
  | [], _ => []
  | w :: ws, a => let a := skipOver peek 8 a; a :: bodyPcs peek ws (a + wordLen w.toNat)
/-- Where the instruction after the buffered ones lies. -/
def bodyEnd (peek : Nat → Nat) : List (BitVec 128) → Nat → Nat
  | [], a => skipOver peek 8 a
  | w :: ws, a => bodyEnd peek ws (skipOver peek 8 a + wordLen w.toNat)
/-- The start of the buffered instructions that precede the one at pc: the nearest address from which they stand in memory
up to pc, or else they are taken to stand without skip words (log entry 17). -/
def bodyStart (peek : Nat → Nat) (ws : List (BitVec 128)) (pc : Nat) : Nat :=
  let n := pc - (ws.map fun w => wordLen w.toNat).sum
  let fits (a : Nat) : Bool :=
    bodyEnd peek ws a == pc && (ws.zip (bodyPcs peek ws a)).all fun p => p.1.toNat % 2 ^ 32 == peek p.2
  (((List.range 128).map fun i => n - 4 * i).find? fits).getD n

/-- The repetition an image holds; `pc` is the saved PC, that of the instruction at its index. In the first pass that instruction has
been fetched when its slot holds a word (log entry 17). -/
def repOf (rd : Nat → Nat → Nat) (peek : Nat → Nat) (pc : Nat) : Option Rep :=
  let h := rd 0x8100 8
  if bitAt h 20 then
    let imm := BitVec.ofNat 34 (rd 0x8108 8)
    let pass := bitsAt h 0 12
    let idx := bitsAt h 16 4
    let n := if pass ≠ 0 then imm.toNat % 16 + 1 else if rd (0x8110 + 16 * idx) 16 = 0 then idx else idx + 1
    let body := (List.range n).map fun i => BitVec.ofNat 128 (rd (0x8110 + 16 * i) 16)
    some { imm := imm, pass := pass, idx := idx, body := body
           pcs := (bodyPcs peek body (bodyStart peek (body.take idx) pc)).map (BitVec.ofNat 64) }
  else none

def vec4Of (f : Nat → Word) : Vector Word 4 := Vector.ofFn fun i => f i.val

/-- The context an image holds, as ERET and RESTORE take it in: counters come from the work carried (R210). -/
def imageCtx (rd : Nat → Nat → Nat) (peek : Nat → Nat) (urs : Memory) (job : BitVec 6) : Ctx :=
  let cr (n : Nat) : Nat := rd (0x8000 + 8 * n) 8
  let w (n : Nat) : Word := BitVec.ofNat 64 (cr n)
  let pc := rd 0x80D0 8
  let gops := match gopsFrom rd 63 0x9600 with
    | [] => []
    | g :: gs => gprogOf rd g :: gs
  let ss : Vector Stream 8 := Vector.ofFn fun i => streamOf rd (0x8600 + 256 * i.val) (0x8E00 + 256 * i.val)
  { x := Vector.ofFn fun i => BitVec.ofNat 64 (rd (8 * i.val) 8)
    urs := urs
    pc := BitVec.ofNat 64 (pc / 4 * 4)
    b := vec4Of fun i => BitVec.ofNat 64 (rd (0x80D8 + 8 * i) 8)
    pfx := bitAt (cr 0) 32, pfxv := BitVec.ofNat 32 (cr 0), wd := bitAt (cr 0) 33
    warn := BitVec.ofNat 8 (cr 1), fpf := BitVec.ofNat 5 (cr 2), xid := BitVec.ofNat 32 (cr 3)
    mark := w 4, coord := w 5, vwV := clampV (w 7), vwM := clampM (w 8), vwA := clampA (w 9), vwP := clampP (w 10)
    mxprog := w 11, mxfaddr := w 12, wdblk := w 13, fault := w 14, faddr := w 15
    prio := BitVec.ofNat 7 (cr 18), phaseid := BitVec.ofNat 6 (cr 19), lutsel := BitVec.ofNat 1 (cr 25)
    job := job, gr := BitVec.ofNat 6 gops.length
    rep := repOf rd peek pc
    arrived := barriersOf (rd 0x8210 8)
    wdst := wdOf rd 0x8218
    binds := ((List.range 16).map fun i => ({ sync := BitVec.ofNat 64 (rd (0x8400 + 32 * i) 8)
                                              base := BitVec.ofNat 64 (rd (0x8408 + 32 * i) 8)
                                              len := BitVec.ofNat 64 (rd (0x8410 + 32 * i) 8) } : Binding)).filter
      fun b => b.len != 0
    streams := ss
    gops := gops
    asyncs := asyncsOf rd
    ticket := if rd 0x8658 8 = 0 then none else some (rd 0x8658 8 - 1)
    resumed := rd 0x8260 8 == (if bitAt (cr 0) 33 then cr 13 else pc / 4 * 4) + 1 }

/-- The bytes of an image at a near address as a reader, and its URS part. -/
def nearRd (s : State) (base off n : Nat) : Nat := leNat (memRead s.near (base + off) n)
def nearUrs (s : State) (base : Nat) : Memory := memShift (memCells s.near (base + 0x100) 0x7F00) (base + 0x100) 0x100

end Sys2Proof.Machine
end

