-- ==== Sys2Proof/Machine/Ops.lean ====
section
/-! DEFINITION. The shared operations of the machine: the meaning monad, address checks and translation (R118-R126, R378),
memory accesses near and far (R119-R129), drains and acquires (R156-R160), interlocks (R63), how an instruction issues and
retires, and the one operation that takes a trap (R201-R209) with the return from it. -/

namespace Sys2Proof.Machine

/-- Why a meaning ends before it issues: nothing it did is kept, except by `trapIn` and `stallIn`, which carry the state
they leave (R205, R206), and by `stallDo`, which says what the wait does to the state the instruction was met in (R66, R75). -/
inductive Stop where
  | trap (t : Trap)
  | trapIn (t : Trap) (s : State)
  | stall (r : Stall)
  | stallIn (r : Stall) (s : State)
  | stallDo (r : Stall) (f : State → State)

/-- The meaning of an instruction on the core in focus: a state change that may stop before it issues. -/
abbrev M (α : Type) := StateT State (Except Stop) α

def stopTrap {α : Type} (t : Trap) : M α := fun _ => .error (.trap t)
def stopStall {α : Type} (r : Stall) : M α := fun _ => .error (.stall r)
def stopStallIn {α : Type} (r : Stall) : M α := fun s => .error (.stallIn r s)
def stopStallDo {α : Type} (r : Stall) (f : State → State) : M α := fun _ => .error (.stallDo r f)
def stopTrapHere {α : Type} (t : Trap) : M α := fun s => .error (.trapIn t s)
def getS : M State := fun s => .ok (s, s)
def setS (s : State) : M Unit := fun _ => .ok ((), s)
def modS (f : State → State) : M Unit := fun s => .ok ((), f s)
def getC : M Ctx := fun s => .ok (s.core.ctx, s)
def modC (f : Ctx → Ctx) : M Unit := fun s => .ok ((), s.mapCtx f)
def whenM (c : Bool) (m : M Unit) : M Unit := if c then m else modS id
def warn (c : Bool) (w : Warn) : M Unit := modC fun x => if c then x.warnOr w else x
def raiseFp (f : Flags) : M Unit := modC fun x => x.fpfOr f
/-- A meaning run over a list in order. -/
def eachM {α : Type} (f : α → M Unit) : List α → M Unit
  | [] => modS id
  | x :: xs => do f x; eachM f xs
def mapM' {α β : Type} (f : α → M β) : List α → M (List β)
  | [] => pure []
  | x :: xs => do
    let y ← f x
    let ys ← mapM' f xs
    return y :: ys

/-- A trap of the instruction itself, FADDR the given value (R202). -/
def trapAt (c : Cause) (fa : Word) : Trap := { cause := c, faddr := fa }
def trapNat (c : Cause) (fa : Nat) (w : Bool := false) (unit : BitVec 3 := 0) : Trap :=
  { cause := c, faddr := BitVec.ofNat 64 fa, w := w, unit := unit }
/-- A fault found after issue, held for the task's next instruction boundary (R204). -/
def Ctx.hold (c : Ctx) (t : Trap) : Ctx :=
  let t := { t with async := true }
  if c.asyncs.contains t then c else { c with asyncs := c.asyncs ++ [t] }
/-- The faults that a meaning holds, found on a list of their own, whatever is held already; the state it leaves holds what was held
before. -/
def judged {α : Type} (m : M α) (s : State) : Except Stop (α × List Trap × State) :=
  match m (s.mapCtx fun c => { c with asyncs := [] }) with
  | .ok (a, s') => .ok (a, s'.core.ctx.asyncs, s'.mapCtx fun c => { c with asyncs := s.core.ctx.asyncs })
  | .error e => .error e
/-- Faults added to those held. -/
def Ctx.holdAll (c : Ctx) (ts : List Trap) : Ctx := ts.foldl Ctx.hold c
/-- A meaning whose failed check, found by the given unit, is a precise trap: nothing of it is kept (R337, R343, log entry 78). -/
def precise {α : Type} (unit : BitVec 3) (m : M α) : M α := fun s => match judged m s with
  | .ok (a, ts, s') => match ts.find? (·.unit == unit) with
    | some t => .error (.trap { t with async := false })
    | none => .ok (a, s'.mapCtx (·.holdAll ts))
  | .error e => .error e
/-- A machine check of the task's own access: it is asynchronous, and the access goes on (R202, R128, R244). -/
def holdCheck (fa : Nat) (w : Bool) (unit : BitVec 3) : M Unit := modC fun c => c.hold (trapNat .mcheck fa w unit)

/-- The end of the quarry; peer windows lie above (R127). -/
def quarryHi : Nat := 2 ^ 51

/-! Encryption (R128): granules carry the number of the keys that sealed them last. A granule that nothing has written since
boot carries none, and any device reads it (log entry 73). -/

/-- Whether a byte lies in a SHARED extent, which is neither encrypted nor MACed (R222). -/
def sharedAt (s : State) (pa : Nat) : Bool :=
  s.devs.any fun d => d.policy.handles.any fun h => bitAt h.2.2.toNat 2 && h.1 ≤ pa && pa < h.1 + h.2.1
def State.sealOf (s : State) (g : Nat) : Option Nat := (s.sealed.find? fun r => r.lo ≤ g && g < r.lo + r.n).map (·.key)
/-- The MAC of a granule does not match under a key. -/
def sealFails (s : State) (key g : Nat) : Bool :=
  match s.sealOf g with
  | none => false
  | some k => k != key && !sharedAt s (256 * g)
def granulesOf (pas : List Nat) : List Nat := ((pas.filter (· < quarryHi)).map (· / 256)).eraseDups
/-- The key of the device resident on the core in focus. -/
def State.key (s : State) : Nat := (s.dev.map (·.key)).getD 0
/-- A written granule is sealed under a key. -/
def sealOne (key : Nat) (s : State) (g : Nat) : State :=
  if s.sealOf g = some key || sharedAt s (256 * g) then s else { s with sealed := { lo := g, n := 1, key := key } :: s.sealed }
/-- Granules that a write changes only in part, and that fail their check (R128). -/
def partFails (s : State) (key : Nat) (pas : List Nat) : List Nat :=
  (granulesOf pas).filter fun g => sealFails s key g && !((List.range' (256 * g) 256).all pas.contains)

/-! Translation (R121-R126, R378). -/

/-- What an access asks of the leaf entry (R124). -/
structure Need where
  r : Bool := false
  w : Bool := false
  x : Bool := false
  bx : Bool := false
  deriving DecidableEq, Repr

/-- A walk's leaf: page base, size, the entry and its physical address. -/
structure Leaf where
  vpage : Nat
  size : Nat
  pte : Word
  at_ : Nat
  deriving DecidableEq, Repr

def pteV (e : Nat) : Bool := bitAt e 0
def pteBad (e : Nat) : Bool := e / 2 ^ 52 != 0 || bitsAt e 10 2 != 0
def pteFrame (e : Nat) : Nat := bitsAt e 12 40

/-- A table entry read from the quarry, not through the far cache (R125). -/
def pteAt (q : Memory) (a : Nat) : Nat := (memWord q a).toNat

/-- A leaf of the given size, its frame aligned to it (R123). -/
def leafAt (va e a sz : Nat) : Except Cause Leaf :=
  if pteBad e then .error .pageProt
  else if pteFrame e * 4096 % sz ≠ 0 then .error .pageProt
  else .ok { vpage := va / sz * sz, size := sz, pte := BitVec.ofNat 64 e, at_ := a }

/-- Level 4 with its group entries (R378). No table lies in a peer window (R127). -/
def walkLast (q : Memory) (va tbl : Nat) : Except Cause Leaf :=
  let i := va / 2 ^ 12 % 512
  let gi := i / 16 * 16
  let ga := tbl + 8 * gi
  if quarryHi ≤ tbl then .error .pageProt
  else
  let g := pteAt q ga
  if pteV g && bitAt g 9 then leafAt va g ga 65536
  else
    let a := tbl + 8 * i
    let e := pteAt q a
    if !pteV e then .error .pageNp
    else if bitAt e 9 then .error .pageProt
    else leafAt va e a 4096

/-- Levels 1 to 3, by the shift of their index. -/
def walkFrom (q : Memory) (va : Nat) : List Nat → Nat → Except Cause Leaf
  | [], tbl => walkLast q va tbl
  | sh :: rest, tbl =>
    let a := tbl + 8 * (va / 2 ^ sh % 512)
    if quarryHi ≤ a then .error .pageProt
    else
      let e := pteAt q a
      if !pteV e then .error .pageNp
      else if pteBad e then .error .pageProt
      else if bitAt e 9 then (if sh = 39 then .error .pageProt else leafAt va e a (2 ^ sh))
      else walkFrom q va rest (pteFrame e * 4096)

def walk (q : Memory) (root va : Nat) : Except Cause Leaf := walkFrom q va [39, 30, 21] root

/-- The addresses of the entries that a walk reads, in its order. -/
def walkReads (q : Memory) (va : Nat) : List Nat → Nat → List Nat
  | [], tbl =>
    let ga := tbl + 8 * (va / 2 ^ 12 % 512 / 16 * 16)
    if quarryHi ≤ tbl then []
    else if pteV (pteAt q ga) && bitAt (pteAt q ga) 9 then [ga] else [ga, tbl + 8 * (va / 2 ^ 12 % 512)]
  | sh :: rest, tbl =>
    let a := tbl + 8 * (va / 2 ^ sh % 512)
    if quarryHi ≤ a then []
    else
      let e := pteAt q a
      a :: if pteV e && !pteBad e && !bitAt e 9 then walkReads q va rest (pteFrame e * 4096) else []
/-- A granule of a table on the way of a walk whose MAC does not match: the tables lie under the tenant's key (R121, R128). -/
def walkSealed (s : State) (d : Device) (va : Nat) : Bool :=
  (walkReads s.quarry va [39, 30, 21] d.root).any fun a => sealFails s d.key (a / 256)
/-- The walk of a device's tables. -/
def walkDev (s : State) (d : Device) (va : Nat) : Except Cause Leaf :=
  if walkSealed s d va then .error .mcheck else walk s.quarry d.root va

/-- A and D set in a leaf entry (R122). -/
def pteTouched (e : Word) (write : Bool) : Word := e ||| 0x80 ||| (if write then 0x100 else 0)

/-- Whether an entry serves a device: it is tagged with its ASID, or it is global under the same table root (R122, R125). -/
def TlbEntry.serves (t : TlbEntry) (dev root : Nat) : Bool := t.dev == dev || (bitAt t.pte.toNat 6 && t.root == root)
def tlbHit (tlb : List TlbEntry) (dev root va : Nat) : Option TlbEntry :=
  tlb.find? fun t => t.serves dev root && t.vpage ≤ va && va < t.vpage + t.size
/-- The set of the tile TLB that a translation falls into (R125, log entry 12). -/
def TlbEntry.set (t : TlbEntry) : Nat := t.vpage / t.size % 512
def TlbEntry.same (t u : TlbEntry) : Bool := u.dev == t.dev && u.vpage == t.vpage && u.size == t.size
/-- A translation added to a fully associative TLB of n entries; the oldest one goes (log entry 12). -/
def tlbAdd (n : Nat) (t : TlbEntry) (tlb : List TlbEntry) : List TlbEntry := (t :: tlb.filter fun u => !t.same u).take n
/-- A translation added to the tile TLB, 8-way in 512 sets; the oldest one of its set goes. -/
def tlbAddSet (t : TlbEntry) (tlb : List TlbEntry) : List TlbEntry :=
  let others := tlb.filter fun u => !t.same u
  t :: (others.filter fun u => u.set != t.set) ++ (others.filter fun u => u.set == t.set).take 7

/-- Whether an approved peer window holds a physical address (R127). -/
def peerOk (d : Device) (pa : Nat) : Bool := d.policy.peers.any fun p => p.1 ≤ pa && pa < p.1 + p.2
/-- The same for n bytes from it; quarry addresses need no approval. -/
def peerSpanOk (d : Device) (pa n : Nat) : Bool := decide (pa + n ≤ quarryHi) || (List.range' pa n).all (peerOk d)

def needOk (n : Need) (svc : Bool) (e : Nat) : Bool :=
  (svc || bitAt e 5) && (!n.r || bitAt e 1) && (!n.w || bitAt e 2) && (!n.x || bitAt e 3) && (!n.bx || bitAt e 4)

/-- The physical address a leaf gives. -/
def leafPa (vpage : Nat) (e : Word) (va : Nat) : Nat := pteFrame e.toNat * 4096 + (va - vpage)

/-- The translation of a far address: through the TLBs, else by a walk, which sets A and D and fills them (R121-R126). -/
def translate (va : Nat) (need : Need) (write : Bool) : State → Except Cause (Nat × State) := fun s =>
  match s.dev with
  | none => .error .pageNp
  | some d =>
    let t := coreTile s.core.id
    let use (vp : Nat) (e : Word) (s' : State) : Except Cause (Nat × State) :=
      if !needOk need s.core.ctx.svc e.toNat then .error .pageProt
      else
        let pa := leafPa vp e va
        if quarryHi ≤ pa && !peerOk d pa then .error .pageProt else .ok (pa, s')
    let hit := match tlbHit s.core.mtlb d.num d.root va with
      | some h => some h
      | none => tlbHit (s.tileOf t).tlb d.num d.root va
    let fill (h : TlbEntry) (s' : State) : State :=
      (s'.updTile t fun tl => { tl with tlb := tlbAddSet h tl.tlb }).updCore s.core.id
        fun co => { co with mtlb := tlbAdd 32 h co.mtlb }
    let usable := match hit with
      | none => none
      | some h => if write && !bitAt h.pte.toNat 8 then none else some h
    match usable with
    | some h => use h.vpage h.pte (if (tlbHit s.core.mtlb d.num d.root va).isSome then s else fill h s)
    | none =>
      match walkDev s d va with
      | .error c => .error c
      | .ok l =>
        let e := pteTouched l.pte write
        match use l.vpage e s with
        | .error c => .error c
        | .ok (pa, s1) =>
          .ok (pa, fill { vpage := l.vpage, size := l.size, pte := e, dev := d.num, root := d.root }
            { s1 with quarry := memWriteAll s1.quarry ((List.range' l.at_ 8).zip (wordBytes e)) })

/-! Places: an access after its checks. -/

/-- Where the bytes of an access lie: near addresses, or physical addresses. -/
inductive Place where
  | near (a n : Nat)
  | far (va : Nat) (pas : List Nat)
  deriving DecidableEq, Repr

def Place.isFar : Place → Bool
  | .near _ _ => false
  | .far _ _ => true

/-- R119, R37, R207, R239: whether a near byte is in bounds for the task. -/
def nearOk (s : State) (a : Nat) : Bool :=
  nearExists a && s.inPartition (nearTile a) && !isSpill a && (s.core.ctx.svc || !(isMigSlot a || isObs a))
/-- Whether a near access of n bytes is in bounds: at its first byte, and, unless it runs past the end of its slot, at its last
one too (R119, R37). -/
def nearSpanOk (s : State) (a n : Nat) : Bool :=
  nearOk s a && (decide (n ≤ 1) || decide (2 ^ 20 < nearByteOff a + n) || nearOk s (a + n - 1))

/-- The lowest faulting address of a near access that is out of bounds (R324). -/
def nearFault (s : State) (a n : Nat) : Nat := ((List.range' a n).find? fun b => !nearOk s b).getD a

/-- The trap of a translation that fails. A table whose MAC does not match is a machine check, taken before the instruction, which
cannot issue (R128, R202). -/
def pageTrap (c : Cause) (va : Nat) (w : Bool) (unit : BitVec 3) : Trap := { trapNat c va w unit with async := c == .mcheck }

/-- How far into n bytes from a physical address the first one lies that no approved peer window holds. -/
def peerFault (s : State) (pa n : Nat) : Nat :=
  match s.dev with
  | none => 0
  | some d => ((List.range n).find? fun i => decide (quarryHi ≤ pa + i) && !peerOk d (pa + i)).getD 0
/-- The physical addresses of n bytes, page by page; `fuel` bounds the 4 KiB pieces. FADDR of a failure is the lowest faulting
address: that of a piece whose page cannot be used, or of the first byte outside every approved peer window (R324, R127). -/
def farPlace (va n : Nat) (need : Need) (write : Bool) (unit : BitVec 3) : Nat → M (List Nat)
  | 0 => pure []
  | fuel + 1 =>
    if n = 0 then pure []
    else if 2 ^ 48 ≤ va then stopTrap (trapNat .pageProt va write unit)
    else do
      let s ← getS
      match translate va need write s with
      | .error c => stopTrap (pageTrap c va write unit)
      | .ok (pa, s') =>
        let k := min n (4096 - va % 4096)
        if !(match s.dev with | some d => peerSpanOk d pa k | none => true) then
          stopTrap (trapNat .pageProt (va + peerFault s pa k) write unit)
        else do
          setS s'
          let rest ← farPlace (va + k) (n - k) need write unit fuel
          return List.range' pa k ++ rest

/-- The checks of R118 on an access of n bytes at ea. -/
def place (ea : Word) (n : Nat) (need : Need) (write : Bool) (unit : BitVec 3 := 0) : M Place := do
  let a := ea.toNat
  if 2 ^ 48 ≤ a then stopTrap (trapNat .pageProt a write unit)
  else if isNull a then stopTrap (trapNat .pageNp a write unit)
  else if isNear a then
    let s ← getS
    if nearSpanOk s a n then pure (.near a n) else stopTrap (trapNat .nearBounds (nearFault s a n) write unit)
  else
    let pas ← farPlace a n need write unit (n / 4096 + 2)
    return .far a pas

def needR : Need := { r := true }
def needW : Need := { w := true }
def needRW : Need := { r := true, w := true }

/-- ALIGN unless ea is a multiple of k. -/
def aligned (ea : Word) (k : Nat) (write : Bool := false) (unit : BitVec 3 := 0) : M Unit :=
  if ea.toNat % k = 0 then modS id else stopTrap { cause := .align, faddr := ea, w := write, unit := unit }

/-- The near address rule of instructions that accept nothing else: a near address of a slice in the partition, outside
every spill area, and outside migration slots and the observation block (R299, R320). -/
def nearPlain (s : State) (a : Nat) : Bool :=
  isNear a && nearExists a && s.inPartition (nearTile a) && !isSpill a && !isMigSlot a && !isObs a

/-! The far cache (R129). -/

/-- A line brought into a far cache of 1,024 sets and 16 ways; the oldest one of its set goes (log entry 13). -/
def cacheFill (q : Memory) (line : Nat) (fc : List (Nat × List Byte)) : List (Nat × List Byte) :=
  if fc.any fun l => l.1 == line then fc
  else
    (line, memRead q (line * 64) 64) :: (fc.filter fun l => l.1 % 1024 != line % 1024)
      ++ (fc.filter fun l => l.1 % 1024 == line % 1024).take 15
def cacheGet (fc : List (Nat × List Byte)) (q : Memory) (pa : Nat) : Byte :=
  match fc.find? fun l => l.1 == pa / 64 with
  | some l => nth l.2 (pa % 64) 0
  | none => memGet q pa
/-- A store updates a line that is present. -/
def cacheSet (pa : Nat) (b : Byte) (fc : List (Nat × List Byte)) : List (Nat × List Byte) :=
  fc.map fun l => if l.1 = pa / 64 then (l.1, l.2.set (pa % 64) b) else l
def cacheDrop (lines : List Nat) (fc : List (Nat × List Byte)) : List (Nat × List Byte) :=
  fc.filter fun l => !lines.contains l.1

/-- Distinct lines of a list of physical addresses, quarry only. -/
def linesOf (pas : List Nat) : List Nat := ((pas.filter (· < quarryHi)).map (· / 64)).eraseDups

/-- Far bytes read: through the tile's far cache, or past it (R129); a read past it leaves no line behind that an earlier
write could still be read from (R148). A peer decides the bytes of its window (R127); a byte whose MAC fails is not given, and no line
of its granule brought in (R128). -/
def farRead (s : State) (pas : List Nat) (cached : Bool) : List Byte × State :=
  let t := coreTile s.core.id
  let bad := (granulesOf pas).filter (sealFails s s.key)
  let good := (linesOf pas).filter fun l => !bad.contains (l / 4)
  let s1 := s.updTile t fun tl =>
    { tl with fcache := if cached then good.foldl (fun fc l => cacheFill s.quarry l fc) tl.fcache
                        else cacheDrop (linesOf pas) tl.fcache }
  let fc := if cached then (s1.tileOf t).fcache else []
  let bs := pas.map fun pa =>
    if quarryHi ≤ pa then Config.peerByte s.fresh pa
    else if bad.contains (pa / 256) then Config.badByte s.fresh pa else cacheGet fc s.quarry pa
  (bs, if pas.any (quarryHi ≤ ·) || !bad.isEmpty then { s1 with fresh := s1.fresh + 1 } else s1)

/-- Cells gathered into runs of consecutive addresses. -/
def cellRuns : List (Nat × Byte) → List (Nat × List Byte)
  | [] => []
  | (a, b) :: cs => match cellRuns cs with
    | (x, bs) :: rest => if x = a + 1 then (a, b :: bs) :: rest else (a, [b]) :: (x, bs) :: rest
    | [] => [(a, [b])]

/-- Far bytes written under a key to the quarry, to the line of the tile when present, and to peers, one write for each run of
consecutive addresses (R129, R127). A granule that fails its check takes nothing (R128). -/
def farWrite (s : State) (t : TileId) (key : Nat) (cells : List (Nat × Byte)) : State :=
  let bad := partFails s key (cells.map (·.1))
  let q := cells.filter fun c => c.1 < quarryHi && !bad.contains (c.1 / 256)
  let p := cells.filter fun c => quarryHi ≤ c.1
  let s1 := (granulesOf (q.map (·.1))).foldl (sealOne key) { s with quarry := memWriteAll s.quarry q }
  let s2 := if q.isEmpty then s1 else
    s1.updTile t fun tl => { tl with fcache := q.foldl (fun fc c => cacheSet c.1 c.2 fc) tl.fcache }
  if p.isEmpty then s2 else { s2 with peerOut := s2.peerOut ++ cellRuns p }
/-- A far write of the task in focus, with the machine check it may meet (R128). -/
def taskFarWrite (s : State) (va : Nat) (cells : List (Nat × Byte)) (unit : BitVec 3 := 0) : State :=
  let s1 := farWrite s (coreTile s.core.id) s.key cells
  if (partFails s s.key (cells.map (·.1))).isEmpty then s1 else s1.mapCtx fun c => c.hold (trapNat .mcheck va true unit)

/-! Debug windows (R238): a migration slot that shows the held context of a core. -/

def windowSlots (tl : Tile) : List (Nat × CoreId) :=
  ((List.range 64).zip tl.slots.toList).filterMap fun p => match p.2 with
    | .window c => some (p.1, c)
    | _ => none
/-- The 4 bytes of code at an address of the device resident on a tile. -/
def peekCode (s : State) (t : TileId) (a : Nat) : Nat :=
  if isNear a then leNat (memRead s.near a 4)
  else match (s.tileOf t).vd.bind s.devOf with
    | none => 0
    | some d => match walk s.quarry d.root a with
      | .ok l => leNat (memRead s.quarry (leafPa l.vpage l.pte a) 4)
      | .error _ => 0

/-- The held contexts of a tile written into their windows. -/
def windowsOut (t : TileId) (s : State) : State :=
  (windowSlots (s.tileOf t)).foldl (fun s p =>
    let co := s.coreOf p.2
    let c := co.ctx
    { s with near := imageWrite s.near (slotAddr t p.1) (imageCells s.time co c c.ld.toNat c.st.toNat c.mx.toNat) }) s
/-- A repetition read from a window: what the window left as it was keeps its addresses. -/
def Rep.keepPcs (old new : Option Rep) : Option Rep :=
  match old, new with
  | some r, some q => if { q with pcs := r.pcs } = r then some r else some q
  | _, q => q
/-- What a service routine stored in a window goes into the held context; its outstanding work stays. -/
def windowsIn (t : TileId) (s : State) : State :=
  (windowSlots (s.tileOf t)).foldl (fun s p =>
    let base := slotAddr t p.1
    s.updCore p.2 fun co =>
      let c := co.ctx
      let n := imageCtx (nearRd s base) (peekCode s t) (nearUrs s base) c.job
      { co with
        ctx := { n with ld := c.ld, st := c.st, mx := c.mx, gr := c.gr, loads := c.loads, stores := c.stores
                        mxops := c.mxops, gops := c.gops, gathers := c.gathers, asyncs := c.asyncs, streams := c.streams
                        rep := Rep.keepPcs c.rep n.rep
                        wdst := { n.wdst with part := c.wdst.part, table := c.wdst.table, ticket := none } }
        bkpt := vec4Of fun i => BitVec.ofNat 64 (nearRd s base (0x8000 + 8 * (21 + i)) 8) }) s
def touchesWindow (s : State) (a : Nat) : Bool := s.core.ctx.svc && isMigSlot a

/-! Poison (R244). -/

def poisoned (s : State) (a n : Nat) : Bool := (nearSpan a n).any fun b => s.poison.contains (b / 8 * 8)
/-- A store that covers all 8 bytes of a word clears its poison. -/
def clearPoison (a n : Nat) (ps : List Nat) : List Nat :=
  ps.filter fun w => !((List.range' w 8).all fun b => (nearSpan a n).contains b)
/-- The same for consecutive bytes that do not wrap: an engine's burst, a drive's write. -/
def clearRange (a n : Nat) (ps : List Nat) : List Nat := ps.filter fun w => !(a ≤ w && w + 8 ≤ a + n)
/-- Near bytes that hardware writes at consecutive addresses: the fields of the observation block keep what software may not write
(R239), and a covered word loses its poison (R244). -/
def State.hwWrite (s : State) (a : Nat) (bs : List Byte) : State :=
  { s with near := nearWriteCells s.near ((List.range' a bs.length).zip bs), poison := clearRange a bs.length s.poison }
/-- Some poisoned word is written only in part. -/
def partPoison (s : State) (a n : Nat) : Bool :=
  s.poison.any fun w => (nearSpan a n).any (fun b => b / 8 * 8 == w) && !((List.range' w 8).all fun b => (nearSpan a n).contains b)

/-! Reading and writing places. -/

/-- Near bytes as an access finds them: an uncorrectable word gives none that the manual names (R244). -/
def nearBytes (s : State) (a n : Nat) : List Byte :=
  (nearSpan a n).map fun b => if s.poison.contains (b / 8 * 8) then Config.badByte s.fresh b else memGet s.near b

/-- Near bytes as a task reads them: a service task finds a held context in its window (R238). -/
def State.nearSeen (s : State) (a n : Nat) : List Byte := (if touchesWindow s a then windowsOut (nearTile a) s else s).nearRead a n
/-- Bytes that a task reads, plainly or past the far cache. An uncorrectable word and a granule whose MAC fails raise MCHECK
at the next instruction boundary (R128, R202, R244). -/
def readPlace (pl : Place) (cached : Bool := true) (unit : BitVec 3 := 0) : M (List Byte) := do
  let s ← getS
  match pl with
  | .near a n =>
    if poisoned s a n then do
      holdCheck a false unit
      modS fun s => { s with fresh := s.fresh + 1 }
      return nearBytes s a n
    else pure (s.nearSeen a n)
  | .far va pas =>
    -- R149: a load waits for the task's own overlapping store to drain
    if s.core.ctx.stores.any fun st => st.cells.any fun c => pas.contains c.1 then stopStall .interlock
    else do
      let (bs, s') := farRead s pas cached
      setS s'
      whenM ((granulesOf pas).any (sealFails s s.key)) (holdCheck va false unit)
      return bs

/-- Near bytes written by an access: the fields of the observation block that software may write (R239), the poison of covered
words cleared (R244), and a held context changed under its window (R238). -/
def State.putNear (s : State) (a : Nat) (bs : List Byte) : State :=
  let s1 := (if touchesWindow s a then windowsOut (nearTile a) s else s).nearWrite a bs
  let s2 := { s1 with poison := clearPoison a bs.length s1.poison }
  if touchesWindow s a then windowsIn (nearTile a) s2 else s2
/-- A near store; a poisoned word that it covers only in part raises MCHECK (R244). -/
def writeNear (a : Nat) (bs : List Byte) (unit : BitVec 3 := 0) : M Unit := do
  let s ← getS
  whenM (partPoison s a bs.length) (holdCheck a true unit)
  modS fun s => s.putNear a bs

/-- What follows a read only where no check held since then has failed: a word that gives no value is not written back (R244,
R128). -/
def ifClean (before : Ctx) (m : M Unit) : M Unit := do
  let c ← getC
  whenM (c.asyncs.length == before.asyncs.length) m

/-- A read whose failed check ends the step: only the check is kept, for the task's next instruction boundary. -/
def checked {α : Type} (m : M α) : M α := fun s => match judged m s with
  | .ok (a, [], s') => .ok (a, s')
  | .ok (_, ts, _) => .error (.stallDo .interlock fun s0 => s0.mapCtx fun c => c.holdAll ts)
  | .error e => .error e

/-- A counter that stands at 63 stalls the instruction that would raise it (R71). -/
def countable (v : BitVec 6) : M Unit := if v = 63 then stopStall .full63 else modS id

/-- A store by the task: near at once, far counted in ST until it drains (R71). -/
def writePlace (pl : Place) (bs : List Byte) : M Unit := do
  match pl with
  | .near a _ => writeNear a bs
  | .far va pas =>
    let c ← getC
    countable c.st
    modC fun c => { c with st := c.st + 1, stores := c.stores ++ [{ va := va, cells := pas.zip bs }] }


/-- Checks, then the bytes. -/
def loadBytes (ea : Word) (n : Nat) (unit : BitVec 3 := 0) : M (List Byte) := do
  let pl ← place ea n needR false unit
  readPlace pl true unit

/-! Outstanding far stores (R71, R156). -/

/-- The oldest far store of a core drained to its destination. -/
def drainOne (s : State) : State :=
  match s.core.ctx.stores with
  | [] => s
  | st :: rest =>
    (taskFarWrite s st.va st.cells).mapCtx fun c => { c with stores := rest, st := c.st - 1 }
def drainStores : Nat → State → State
  | 0, s => s
  | n + 1, s => if s.core.ctx.stores.isEmpty then s else drainStores n (drainOne s)
/-- Every earlier far store of the task drained. -/
def drainAll (s : State) : State := drainStores s.core.ctx.stores.length s

/-- A write that no counter counts and that is performed at once, after the task's earlier stores. -/
def writeNow (pl : Place) (bs : List Byte) (unit : BitVec 3 := 0) : M Unit := do
  match pl with
  | .near a _ => writeNear a bs unit
  | .far va pas => modS fun s => taskFarWrite (drainAll s) va (pas.zip bs) unit

/-! Bound regions and acquires (R157, R158, R160). -/

/-- Physical line numbers of the mapped pages of [base, base + len), n pages of 4 KiB at most. -/
def regionLines (s : State) (d : Device) (hi : Nat) : Nat → Nat → List Nat
  | 0, _ => []
  | n + 1, va =>
    if hi ≤ va then []
    else
      let next := va / 4096 * 4096 + 4096
      let here := match walk s.quarry d.root va with
        | .ok l => List.range' (leafPa l.vpage l.pte va / 64) ((min next hi - va + 63) / 64)
        | .error _ => []
      here ++ regionLines s d hi n next

def bindingLines (s : State) (b : Binding) : List Nat :=
  match s.dev with
  | none => []
  | some d => regionLines s d (b.base.toNat + b.len.toNat) (b.len.toNat / 4096 + 2) (max b.base.toNat nearHi)

/-- Lines of the tile's far cache that the bindings of a sync word cover are invalidated (R157). -/
def invalidateBound (s : State) (sync : Nat) : State :=
  let lines := ((s.core.ctx.binds.filter fun b => b.sync.toNat == sync).map (bindingLines s)).flatten
  s.updTile (coreTile s.core.id) fun tl => { tl with fcache := cacheDrop lines tl.fcache }
def invalidateAllBound (s : State) : State :=
  let lines := (s.core.ctx.binds.map (bindingLines s)).flatten
  s.updTile (coreTile s.core.id) fun tl => { tl with fcache := cacheDrop lines tl.fcache }
/-- A completed acquire or FENCE.ACQ at DIE or wider drops the device's staged blocks of the tile (R193). -/
def dropStaged (s : State) : State :=
  match s.vd with
  | none => s
  | some n => s.updTile (coreTile s.core.id) fun tl => { tl with staging := tl.staging.filter (·.vd != n) }

/-- The far side of an acquire on a near sync word (R157); a narrow acquire names the 8-byte word that holds it. -/
def acquireAt (sc : Scope) (ea : Word) : M Unit :=
  modS fun s => if atDie sc then dropStaged (invalidateBound s (ea.toNat / 8 * 8)) else s

/-! Interlocks (R63). -/

def rangesMeet (a n b m : Nat) : Bool := 0 < n && 0 < m && a < b + m && b < a + n

/-- Bytes of the register space that an outstanding far load has still to write. -/
def loadHits (off n : Nat) (l : FarLoad) : Bool :=
  match l.dst with
  | .urs o => rangesMeet off n o l.data.length
  | _ => false
def mxWrites (off n : Nat) : MxOp → Bool
  | .mma acc _ _ _ _ _ _ _ _ _ _ => rangesMeet off n acc 4096
  | .done _ => false
def mxReads (off n : Nat) : MxOp → Bool
  | .mma _ _ _ _ _ _ _ _ _ _ vs => vs.any fun o => rangesMeet off n o 1056
  | .done _ => false

/-- A read of x_n waits for an outstanding write of it. -/
def Ctx.pendingX (c : Ctx) (n : Fin 32) : Bool :=
  n != 0 && ((c.loads.any fun l => l.dst == .x n) || c.gops.any fun g => g.d == n)
/-- A read of register-space bytes waits for outstanding writes of them. -/
def Ctx.pendingRead (c : Ctx) (off n : Nat) : Bool := c.loads.any (loadHits off n) || c.mxops.any (mxWrites off n)
/-- A write also waits for outstanding matrix reads of the bytes (R336). -/
def Ctx.pendingWrite (c : Ctx) (off n : Nat) : Bool := c.pendingRead off n || c.mxops.any (mxReads off n)

def readX (n : Fin 32) : M Word := do
  let c ← getC
  if c.pendingX n then stopStall .interlock else pure (c.getX n)
def writeX (n : Fin 32) (v : Word) : M Unit := do
  let c ← getC
  if c.pendingX n then stopStall .interlock else modC fun c => c.setX n v
def readUrs (off n : Nat) : M (List Byte) := do
  let c ← getC
  if c.pendingRead off n then stopStall .interlock else pure (c.ursRead off n)
def writeUrs (off : Nat) (bs : List Byte) : M Unit := do
  let c ← getC
  if c.pendingWrite off bs.length then stopStall .interlock else modC fun c => c.ursWrite off bs

/-- A predicate register (R59). -/
def readP (n : Fin 8) : M Word := do
  let c ← getC
  if n ≠ 0 && c.pendingRead (c.pOff n.val) 8 then stopStall .interlock else pure (c.getP n)

/-! Completing outstanding work, one piece at a time or all at once (R71, R207). -/

/-- The data of a far load written to its destination. -/
def Ctx.deliver (c : Ctx) (l : FarLoad) : Ctx :=
  match l.dst with
  | .x n => c.setX n (bytesWord l.data)
  | .urs off => c.ursWrite off l.data
  | .none => c

/-- The oldest far load's data arrives, and its flags enter FPF (R71, R302). -/
def returnOne (c : Ctx) : Ctx :=
  match c.loads with
  | [] => c
  | l :: rest => { ((c.deliver l).fpfOr l.fl) with loads := rest, ld := c.ld - 1 }
def returnLoads : Nat → Ctx → Ctx
  | 0, c => c
  | n + 1, c => if c.loads.isEmpty then c else returnLoads n (returnOne c)

/-! The matrix unit's k-blocks (R93, R333, R334). -/

/-- The number a byte source gives for n bytes. -/
abbrev ByteSrc := Nat → Nat → List Byte

/-- Row values of a 16-bit, MXFP8 or BFPn A operand: 32 values of k-block kb of row i. -/
def aRow (t : ElemTy) (bw : Nat) (rec_ : List Byte) : List FV :=
  match t with
  | .bf16 | .fp16 => (unpackCodes 16 32 (leNat rec_)).map (unpack (elemFmt t))
  | _ => rowDecode t bw (nth rec_ 0 0).toNat (rec_.drop 1)
/-- Bytes of one k-block record of a row of A. -/
def aRecBytes (t : ElemTy) (bw : Nat) : Nat :=
  match t with
  | .bf16 | .fp16 => 64
  | _ => 1 + rowBytes t bw

/-- The columns of B for one k-block from a tile image: row j holds column j, the scales follow the rows (R170). -/
def bImageCols (t : ElemTy) (bw : Nat) (img : List Byte) : List (List FV) :=
  let rb := rowBytes t bw
  (List.range 32).map fun j => rowDecode t bw (nth img (32 * rb + j) 0).toNat ((img.drop (j * rb)).take rb)
def bImageBytes (t : ElemTy) (bw : Nat) : Nat := 32 * rowBytes t bw + 32
/-- The same from a tile view (R62). -/
def bViewCols (t : ElemTy) (bw : Nat) (img : List Byte) : List (List FV) :=
  (List.range 32).map fun j => rowDecode t bw (nth img (1024 + j) 0).toNat ((img.drop (32 * j)).take (rowBytes t bw))
/-- The same from BF16 rows: row t holds the 32 columns of k index t. -/
def bRowsCols (rows : List (List Byte)) : List (List FV) :=
  let vs := rows.map fun r => (unpackCodes 16 32 (leNat r)).map (unpack bf16)
  (List.range 32).map fun j => vs.map fun r => nth r j (.fin false 0 0)

/-- One k-block applied to a 32 by 32 accumulator held as 4,096 bytes: its new bytes and flags (R93). -/
def kblock (acc : List Byte) (as bs : List (List FV)) : List Byte × Flags :=
  let cells := (List.range 32).map fun i => (List.range 32).map fun j =>
    kblockStep (leNat ((acc.drop (128 * i + 4 * j)).take 4)) (nth as i []) (nth bs j [])
  let flat := cells.flatten
  ((flat.map fun r => leBytes 4 r.1).flatten, flat.foldl (fun f r => f ||| r.2) 0)

/-- The address of element bytes, modulo 2^64. -/
def addrPlus (base : Word) (off : Nat) : Word := base + BitVec.ofNat 64 off

/-- The accesses of one k-block of an MMA in their order, A records before B: address, bytes, and whether the elements are 16
bits wide and so must be 2-byte aligned (R333). -/
def mmaAccesses (eta etb : ElemTy) (bw : Nat) (a b sa sb : Word) (views : List Nat) (kb : Nat) : List (Word × Nat × Bool) :=
  let ar := aRecBytes eta bw
  ((List.range 32).map fun i => (a + BitVec.ofNat 64 i * sa + BitVec.ofNat 64 (kb * ar), ar, eta == .bf16 || eta == .fp16))
    ++ (if !views.isEmpty then []
        else if etb = .bf16 then (List.range 32).map fun t => (b + BitVec.ofNat 64 (32 * kb + t) * sb, 64, true)
        else [(b + BitVec.ofNat 64 kb * sb, bImageBytes etb bw, false)])
/-- The check of one access of the matrix unit (R118, R333). -/
def mmaPlace (q : Word × Nat × Bool) : M Place := do
  whenM q.2.2 (aligned q.1 2 false 1)
  place q.1 q.2.1 needR false 1
/-- The operands of one k-block, read as plain loads. `bw` is the BFP width code of both; `views` gives the tile views of a BV
operand. -/
def mmaOperands (eta etb : ElemTy) (bw : Nat) (a b sa sb : Word) (views : List Nat) (kb : Nat) :
    M (List (List FV) × List (List FV)) := do
  let rs ← mapM' (fun q => do
    let pl ← mmaPlace q
    readPlace pl true 1) (mmaAccesses eta etb bw a b sa sb views kb)
  let c ← getC
  let bs := rs.drop 32
  return ((rs.take 32).map (aRow eta bw),
    if !views.isEmpty then bViewCols etb bw (c.ursRead (nth views kb 0) 1056)
    else if etb = .bf16 then bRowsCols bs else bImageCols etb bw (nth bs 0 []))

/-- Bit-steps of a B type (R91). -/
def bitSteps (t : ElemTy) (bw : Nat) : Nat :=
  match t with
  | .bf16 => 8
  | .bfp => bw + 2
  | _ => 4
/-- Cycles that the matrix unit of a die over its share of current loses; they count as stalled (R18). -/
def State.lose (s : State) (n : Nat) : State :=
  if s.throttle.contains (Fin.ofNat 8 (coreDie s.core.id)) then
    { s with core := s.core.bump fun p => { p with stall := p.stall + BitVec.ofNat 64 n } }
  else s
/-- MXPROG once a matrix operation has ended: a fault of the matrix unit that is held keeps the k-block it stands for until it is
taken (R198, R335). -/
def Ctx.mxEnd (c : Ctx) (kb : Nat) : Word :=
  if c.asyncs.any (·.unit == 1) then c.mxprog else BitVec.ofNat 64 kb
/-- A matrix operation ends at k-block kb with an asynchronous fault (R335). -/
def mxBreak (s : State) (rest : List MxOp) (kb : Nat) (t : Trap) : State :=
  s.mapCtx fun c => { c.hold { t with unit := 1 } with mxops := rest, mx := c.mx - 1, mxprog := c.mxEnd kb }

/-- The next k-block of the oldest matrix operation: its effect on the accumulator and on FPF (R93, R334). An uncorrectable
word, or an operand error found now, is asynchronous, and the k-block is not applied (R335); a read that waits for the task's
own store waits. -/
def mxStep (s : State) : State :=
  match s.core.ctx.mxops with
  | .mma acc kb kc a b eta etb bw sa sb vs :: rest =>
    match judged (mmaOperands eta etb bw.toNat a b sa sb vs kb) s with
    | .error (.trap t) => mxBreak s rest kb t
    | .error _ => s
    | .ok (_, t :: _, _) => mxBreak s rest kb t
    | .ok ((as, bs), [], s1) =>
      let r := kblock (s1.core.ctx.ursRead acc 4096) as bs
      (s1.lose (4 * bitSteps etb bw.toNat)).mapCtx fun c =>
        let c := (c.ursWrite acc r.1).fpfOr r.2
        if kb + 1 < kc then { c with mxops := .mma acc (kb + 1) kc a b eta etb bw sa sb vs :: rest }
        else { c with mxops := rest, mx := c.mx - 1, mxprog := c.mxEnd 0 }
  | .done fl :: rest => s.mapCtx fun c => { (c.fpfOr fl) with mxops := rest, mx := c.mx - 1 }
  | [] => s

/-- All matrix operations run to their end. -/
def mxFinish : Nat → State → State
  | 0, s => s
  | n + 1, s => if s.core.ctx.mxops.isEmpty then s else mxFinish n (mxStep s)

/-! Activation images (R190). -/

/-- Bytes of an image of 32 rows: an activation image, or EMIT's output. -/
def imageBytes (t : ElemTy) (bw : Nat) : Nat :=
  match t with
  | .bf16 | .fp16 => 2048
  | .fp32 => 4096
  | _ => bImageBytes t bw
/-- Bytes a stream's buffer takes (R67). -/
def bufLimit : Nat := 256

/-! Indexed gathers (R141, R349). -/

/-- The address of the next element's place in the buffer of a gather. -/
def Gather.putAt (g : Gather) : Nat := g.buf.toNat + g.next * g.size
/-- An element delivered to the stream or the buffer of a gather; a poisoned word that it covers only in part raises MCHECK (R244). -/
def gatherPut (s : State) (g : Gather) (bs : List Byte) : State :=
  match g.dst with
  | some n => s.mapCtx fun c =>
    let t := c.streams[n]
    { c with streams := c.streams.set n.val { t with buf := t.buf ++ [bs], moved := t.moved + 1 } }
  | none =>
    let s1 := if partPoison s g.putAt bs.length then s.mapCtx fun c => c.hold (trapNat .mcheck g.putAt true 4) else s
    s1.putNear g.putAt bs

/-- A gather ends: LD falls and a destination stream has its last element. -/
def gatherEnd (s : State) (i : Nat) (g : Gather) : State :=
  s.mapCtx fun c =>
    let ss := match g.dst with
      | none => c.streams
      | some n => c.streams.set n.val { c.streams[n] with closed := true }
    { c with gathers := c.gathers.eraseIdx i, ld := c.ld - 1, streams := ss }

/-- Whether the destination stream's buffer has no room for an element. -/
def gatherFull (s : State) (g : Gather) : Bool :=
  match g.dst with
  | none => false
  | some n => bufLimit < (s.core.ctx.streams[n].buf.length + 1) * g.size

/-- The address of element i of a gather. -/
def Gather.elemAt (g : Gather) (i : Nat) : Nat := (addrPlus g.base (nth g.idx i 0 * g.size)).toNat
/-- The fault of the next element of a gather: read near in the partition, and written in bounds of the buffer (R141, R119, R244). -/
def gatherFault (s : State) (g : Gather) : Option Trap :=
  let ea := g.elemAt g.next
  if !(isNear ea && nearSpanOk s ea g.size) then some (trapNat .nearBounds (if isNear ea then nearFault s ea g.size else ea) false 4)
  else if poisoned s ea g.size then some (trapNat .mcheck ea false 4)
  else if g.dst.isNone && !(isNear g.putAt && nearSpanOk s g.putAt g.size) then
    some (trapNat .nearBounds (if isNear g.putAt then nearFault s g.putAt g.size else g.putAt) true 4)
  else none
/-- The next element of gather i (R141): a gather that meets a fault stops there. -/
def gatherMove (i : Nat) (s : State) : State :=
  match s.core.ctx.gathers[i]? with
  | none => s
  | some g =>
    if g.count ≤ g.next then gatherEnd s i g
    else match gatherFault s g with
      | some t => (gatherEnd s i g).mapCtx fun c => c.hold t
      | none =>
        let s1 := gatherPut s g (s.nearSeen (g.elemAt g.next) g.size)
        let g1 := { g with next := g.next + 1 }
        let s2 := s1.mapCtx fun c => { c with gathers := c.gathers.set i g1 }
        if g1.next = g1.count then gatherEnd s2 i g1 else s2
/-- The oldest gather that can move does, unless every one waits for room in its stream's buffer. -/
def gatherStep (s : State) : State :=
  match s.core.ctx.gathers.findIdx? fun g => decide (g.count ≤ g.next) || !gatherFull s g with
  | some i => gatherMove i s
  | none => s
/-- Gathers run to their end whether or not their streams have room: the network interface keeps what does not fit (log entry
72). -/
def gatherFinish : Nat → State → State
  | 0, s => s
  | n + 1, s => if s.core.ctx.gathers.isEmpty then s else gatherFinish n (gatherMove 0 s)
def gatherAll (s : State) : State := gatherFinish ((s.core.ctx.gathers.map fun g => g.count - g.next + 1).foldl (· + ·) 0) s

/-- Every matrix operation run to its end, after the stores that its reads could wait for. -/
def mxAll (s : State) : State :=
  let n := s.core.ctx.mxops.foldl (fun k o => k + match o with | .mma _ kb kc _ _ _ _ _ _ _ _ => kc - kb | .done _ => 1) 0
  if n = 0 then s else mxFinish n (drainAll s)

/-! Reads of the task that are still to be made (R148): those of an outstanding MMA (R336) and of a gather under way (R349). -/

/-- The bytes of an access: those of a near one that runs past the end of its slot go on at its start (R119). -/
def piecesOf (a n : Nat) : List (Nat × Nat) :=
  if isNear a && 2 ^ 20 < nearByteOff a + n then
    [(a, 2 ^ 20 - nearByteOff a), (a / 2 ^ 20 * 2 ^ 20, nearByteOff a + n - 2 ^ 20)]
  else [(a, n)]
/-- Whether two accesses meet in a naturally aligned 8-byte word. -/
def wordsMeet (a n b m : Nat) : Bool :=
  (piecesOf a n).any fun p => (piecesOf b m).any fun q =>
    decide (0 < p.2 ∧ 0 < q.2) && (decide (p.1 / 8 ≤ (q.1 + q.2 - 1) / 8) && decide (q.1 / 8 ≤ (p.1 + p.2 - 1) / 8))
def MxOp.toRead (va n : Nat) : MxOp → Bool
  | .mma _ kb kc a b eta etb bw sa sb vs =>
    (List.range' kb (kc - kb)).any fun k => (mmaAccesses eta etb bw.toNat a b sa sb vs k).any fun q => wordsMeet va n q.1.toNat q.2.1
  | .done _ => false
def Gather.toRead (va n : Nat) (g : Gather) : Bool :=
  (List.range' g.next (g.count - g.next)).any fun i => wordsMeet va n (g.elemAt i) g.size
def gatherUnread (s : State) (va n : Nat) : Bool := s.core.ctx.gathers.any (·.toRead va n)
/-- A later read of a word waits until the earlier ones have been made, so that none of them finds a newer value (R148). -/
def readsDone (s : State) (va n : Nat) : State :=
  if gatherUnread s va n || s.core.ctx.mxops.any (·.toRead va n) then gatherAll (mxAll s) else s
def orderReads (ea : Word) (n : Nat) : M Unit := modS fun s => readsDone s ea.toNat n

/-- Steps 1 and 2 of R207: loads complete, stores drain, matrix operations and gathers run to their end. -/
def settle (s : State) : State :=
  gatherAll (mxAll (drainAll (s.mapCtx fun c => returnLoads c.loads.length c)))

/-! Taking a trap (R201-R209). -/

/-- A grammar operation that met GRAMMAR_BAD is abandoned once its trap is taken: D will receive BAD (R111, R116). -/
def abandonOp (t : Trap) : List GOp → List GOp
  | [] => []
  | g :: gs => if t.cause = .grammarBad then { g with result := some (0x8000000000000004, wCombo) } :: gs else g :: gs

/-- FAULT, FADDR and, for UNIT 1, MXFADDR latched (R201, R202, R198). A second asynchronous fault of the rule unit or of a
stream's drain, or one held on prefetched data, is found again when its operation resumes (R204); one whose operation has ended
stays held. -/
def Ctx.latch (c : Ctx) (t : Trap) : Ctx :=
  { c with fault := t.word, faddr := t.faddr, mxfaddr := if t.unit = 1 then t.faddr else c.mxfaddr, stall := none
           resumed := c.resumed || t.cause == .brk
           asyncs := (c.asyncs.erase t).filter fun u => u.unit != 2 && u.unit != 3
           gops := abandonOp t c.gops
           streams := c.streams.map fun x => { x with held := none } }

/-- A word of a device's near or far memory as hardware reads it: an uncorrectable word or a granule whose MAC fails gives none that
the manual names (R244, R128). -/
def devWord (s : State) (d : Device) (a : Nat) : Word :=
  if isNear a then bytesWord (nearBytes s a 8)
  else match walkDev s d a with
    | .ok l =>
      let pa := leafPa l.vpage l.pte a
      if sealFails s d.key (pa / 256) then bytesWord ((List.range' pa 8).map (Config.badByte s.fresh)) else memWord s.quarry pa
    | .error _ => 0
/-- Whether hardware gets no word there. -/
def devBad (s : State) (d : Device) (a : Nat) : Bool :=
  if isNear a then poisoned s a 8
  else match walkDev s d a with
    | .ok l => sealFails s d.key (leafPa l.vpage l.pte a / 256)
    | .error _ => false
/-- The leaf entry that a walk to an address uses gets A, and D for a write (R122). -/
def devTouch (d : Device) (write : Bool) (s : State) (a : Nat) : State :=
  if isNear a || isNull a || 2 ^ 48 ≤ a then s
  else match walkDev s d a with
    | .ok l => { s with quarry := memWriteAll s.quarry ((List.range' l.at_ 8).zip (wordBytes (pteTouched l.pte write))) }
    | .error _ => s
/-- The word of a service table for a cause (R208). -/
def serviceEntry (s : State) (d : Device) (cause : Nat) : Word :=
  if d.svctab = 0 then 0 else devWord s d (d.svctab + 8 * cause)
/-- What reading that word leaves behind: A in the leaf entry of a far table (R122), and a word given for one that fails its check. -/
def serviceRead (s : State) (d : Device) (cause : Nat) : State :=
  if d.svctab = 0 then s
  else
    let a := d.svctab + 8 * cause
    devTouch d false (if devBad s d a then { s with fresh := s.fresh + 1 } else s) a

/-- The URS bytes a finished task leaves (R29, R212). -/
def Ctx.leftover (c : Ctx) : Ctx := { x := c.x, urs := c.urs }

/-- The core becomes free; the course that ran last is remembered for idle cycles (R55). -/
def Core.free (co : Core) : Core :=
  { co with mode := .idle, ctx := co.ctx.leftover, lastCourse := some (markCourse co.ctx.mark)
            fblock := none, asked := none, resting := false }

/-- Lock bits of a task released (R145, R307). -/
def dropLocks (s : State) (c : CoreId) (mark : Word) : State :=
  { s with locks := s.locks.filter fun l => !(l.holder == c && l.mark == mark) }

/-- The device stops without a save (R208): a trap inside a service task. -/
def faultDevice (s : State) (cause : BitVec 8) : State :=
  match s.vd with
  | none => s
  | some n => s.updDev n fun d => { d with state := .faulted, why := cause }

/-- A tile task of a course is no more (R36). -/
def State.endTile (s : State) (vd : Nat) (mark : Word) : State :=
  let f (k : Course) : Course := if k.num = markCourse mark then { k with undone := k.undone - 1 } else k
  s.updDev vd fun d => { d with courses := d.courses.map f }

/-- Expander jobs detached from the streams, or from one stream, of a core's task (R352, R360, R208). -/
def detachJobs (s : State) (c : CoreId) (mark : Word) (n : Option (Fin 8)) : State :=
  s.updTile (coreTile c) fun tl => { tl with jobs := tl.jobs.map fun j => match j.stream with
    | some (k, m) => if k = c ∧ j.smark = mark ∧ (n = none ∨ n = some m) then { j with stream := none } else j
    | none => j }

/-- A context's serviced image is destroyed as an entry of 0 destroys it, and the loss is counted (R208). The lock bits
its home core holds are released as END releases them. -/
def destroyImage (s : State) (t : TileId) (k : Fin 64) : State :=
  let home := BitVec.ofNat 15 (nearRd s (slotAddr t k.val) 0x8030 8)
  let mark := BitVec.ofNat 64 (nearRd s (slotAddr t k.val) 0x8020 8)
  let s := detachJobs (dropLocks s home mark) home mark none
  let s := match (s.tileOf t).vd with
    | some n => if markIsTile mark then s.endTile n mark else s
    | none => s
  let s := match (s.tileOf t).slots[k] with
    | .window c => s.updCore c (·.free)
    | _ => s
  let s := s.updTile t fun tl => { tl with slots := tl.slots.set k.val .free }
  { s with host := { s.host with lostService := s.host.lostService + 1 } }

/-- A service task for the image in a slot (R208): service mode, priority 124, x1 the slot's near address, x2 FAULT. An
entry of 0 destroys the faulting task. -/
def serviceTask (s : State) (t : TileId) (k : Fin 64) : State :=
  match (s.tileOf t).vd.bind s.devOf with
  | none => s
  | some d =>
    let base := slotAddr t k.val
    let fault := BitVec.ofNat 64 (nearRd s base 0x8070 8)
    let mark := BitVec.ofNat 64 (nearRd s base 0x8020 8)
    let entry := serviceEntry s d (fault.toNat % 64)
    let s := serviceRead s d (fault.toNat % 64)
    if entry.toNat % 2 ^ 48 / 4 = 0 then destroyImage s t k
    else
      let key := keystoneOf t
      let co := s.coreOf key
      let serial := 2 ^ 33 + key.toNat * 2 ^ 18 + co.creations.toNat
      let c : Ctx := { pc := BitVec.ofNat 64 (entry.toNat % 2 ^ 48 / 4 * 4), svc := true, prio := 124, under := some k
                       mark := mkMark (asidOf d.num) (markCourse mark) serial, coord := BitVec.allOnes 64 }
      let c := (c.setX 1 (BitVec.ofNat 64 base)).setX 2 fault
      s.setCore { co with svcq := co.svcq ++ [c], creations := co.creations + 1 }

/-- The lowest free migration slot (log entry 20). -/
def freeSlot (tl : Tile) : Option (Fin 64) :=
  (List.finRange 64).find? fun i => tl.slots[i] == .free

/-! Bytes that the image of R210 has no place for (log entry 72): a stream holds up to 256 bytes there, and the load pipe's
elements none. They are kept by number, and the image carries the number. -/

/-- Bytes put aside for a device under a number of their own, which nothing changes any more: the number, and the package. -/
def putOver (s : State) (vd : Nat) (bs : List Byte) : Nat × State :=
  (s.fresh, { s with overs := { num := s.fresh, vd := vd, bytes := bs } :: s.overs, fresh := s.fresh + 1 })
/-- The bytes that a number in an image stands for, where they are the device's own: an image that names others' gets none (R210). -/
def State.overBytes (s : State) (vd : Option Nat) (ticket : Option Nat) : List Byte :=
  match ticket.bind fun i => s.overs.find? fun o => o.num == i && some o.vd == vd with
  | some o => o.bytes
  | none => []
def spillStream (s : State) (n : Fin 8) : State :=
  let t := s.core.ctx.streams[n]
  let k := bufLimit / t.esz
  if t.buf.length ≤ k then s
  else
    let q := putOver s (s.vd.getD 0) (t.buf.drop k).flatten
    q.2.mapCtx fun c => { c with streams := c.streams.set n.val { t with buf := t.buf.take k, ticket := some q.1 } }
/-- The table of a block under way as 521 bytes: the block, its KIND and bank number, and its entries. -/
def lutBytes (t : LutTable) : List Byte :=
  wordBytes t.block ++ BitVec.ofNat 8 (elemCode t.bank.kind + 16 * b2n t.gen) :: memRead t.bank.bytes 0 512
def lutSize : Nat := 521
def lutOf (bs : List Byte) : LutTable :=
  let k := (nth bs 8 0).toNat
  { block := bytesWord (bs.take 8), gen := bitAt k 4
    bank := { kind := (elemOfCode (k % 16)).getD .bf16, bytes := memWrite [] 0 (bs.drop 9) } }
/-- The load pipe's elements, and the table of the LUT8 block it is inside (R179), in one record. -/
def spillPart (s : State) : State :=
  let w := s.core.ctx.wdst
  if w.part.isEmpty && w.table.isNone then s
  else
    let q := putOver s (s.vd.getD 0) (w.part.flatten ++ ((w.table.map lutBytes).getD []))
    q.2.mapCtx fun c => { c with wdst := { w with part := [], ticket := some q.1 } }
def trapBytes (t : Trap) : List Byte := wordBytes t.word ++ wordBytes t.faddr
def trapsOf (bs : List Byte) : List Trap :=
  (chunksOf 16 (bs.length / 16) bs).map fun r => trapOfWord (leNat (r.take 8)) (bytesWord (r.drop 8))
/-- Held faults beyond the 24 that an image has a place for (R204). -/
def spillTraps (s : State) : State :=
  let c := s.core.ctx
  if c.asyncs.length ≤ heldMax then s
  else
    let q := putOver s (s.vd.getD 0) ((c.asyncs.drop heldMax).map trapBytes).flatten
    q.2.mapCtx fun c => { c with asyncs := c.asyncs.take heldMax, ticket := some q.1 }
/-- The context in focus fits its image. -/
def spillOver (s : State) : State := spillTraps (spillPart ((List.finRange 8).foldl spillStream s))

/-- A context of a device read from an image takes its bytes back. -/
def rejoin (s : State) (vd : Option Nat) (x : Ctx) : Ctx :=
  let bytes := s.overBytes vd
  let els (esz : Nat) (bs : List Byte) : List (List Byte) := chunksOf esz (bs.length / esz) bs
  let ss := x.streams.map fun t => { t with buf := t.buf ++ els t.esz (bytes t.ticket), ticket := none }
  let e := match x.wdst.src with | some n => x.streams[n].esz | none => 1
  let more := bytes x.wdst.ticket
  let n := if x.wdst.table.isSome then more.length - lutSize else more.length
  { x with streams := ss, asyncs := x.asyncs ++ trapsOf (bytes x.ticket), ticket := none
           wdst := { x.wdst with part := els e (more.take n), ticket := none, table := x.wdst.table.map fun _ => lutOf (more.drop n) } }

/-- An image written over a whole migration slot, which clears the poison of its words (R244). -/
def State.putSlot (s : State) (t : TileId) (k : Nat) (cells : List (Nat × Byte)) : State :=
  let base := slotAddr t k
  { s with near := imageWrite s.near base cells, poison := clearRange base slotSize s.poison }

/-- Migration (R207): the settled context becomes an image in a free slot of the keystone and the core is free; with every
slot full the context waits on its core. -/
def migrate (s : State) : State :=
  let t := coreTile s.core.id
  match s.vd, freeSlot (s.tileOf t) with
  | some n, some k =>
    let s := spillOver s
    let co := s.core
    let s := s.putSlot t k.val (imageCells s.time co co.ctx 0 0 0)
    let s := s.updTile t fun tl => { tl with slots := tl.slots.set k.val (.image n) }
    serviceTask { s with core := co.free } t k
  | _, _ => { s with core := { s.core with mode := .trapped } }

/-- A debug stop (R238): stores drain, the context is held on its core and a slot becomes its window. -/
def debugHold (s : State) : State :=
  let t := coreTile s.core.id
  let s := drainAll s
  match freeSlot (s.tileOf t) with
  | none => { s with core := { s.core with mode := .trapped } }
  | some k =>
    let s := s.updTile t fun tl => { tl with slots := tl.slots.set k.val (.window s.core.id) }
    let s := { s with core := { s.core with mode := .held k } }
    let co := s.core
    let cells := imageCells s.time co co.ctx co.ctx.ld.toNat co.ctx.st.toNat co.ctx.mx.toNat
    serviceTask (s.putSlot t k.val cells) t k

/-- Whether a cause stops under the debugger (R238). -/
def isDebugStop (s : State) (c : Cause) : Bool :=
  (c == .brk || c == .step) && (match s.dev with | none => false | some d => d.policy.debug)

/-- The work of a trapped context run to its end (R207); MXPROG keeps the k-block that an asynchronous fault of the matrix unit just
latched stands for (R198, R335). -/
def settleTrap (t : Trap) (s : State) : State :=
  let u := settle s
  if t.async && t.unit == 1 then u.mapCtx fun c => { c with mxprog := s.core.ctx.mxprog } else u
/-- Taking a trap on the core in focus: FAULT, FADDR and the PC are latched in the context, and then the context goes to
the keystone, is held for the debugger, or, in a service task, faults the device (R202, R207, R208, R238). -/
def takeTrap (t : Trap) (s : State) : State :=
  let s := s.mapCtx (·.latch t)
  let s := s.trace 2 t.word
  if s.core.ctx.svc then faultDevice s (BitVec.ofNat 8 (causeCode t.cause))
  else if isDebugStop s t.cause then debugHold s
  else migrate (settleTrap t s)

/-- A context returned to its core (R209): ready at the head of its priority level, after those that returned before (R39). -/
def giveBack (s : State) (c : CoreId) (x : Ctx) : State := s.updCore c fun co => { co with back := co.back ++ [x], resting := false }

/-- Jobs of a task still outstanding on a tile: what its JOB counter counts (R71, R210). -/
def State.jobsOf (s : State) (t : TileId) (home : CoreId) (mark : Word) : Nat :=
  ((s.tileOf t).jobs.filter fun j => j.poster == some home && j.mark == mark).length

/-- The uncorrectable words of n bytes of near memory. -/
def poisonIn (s : State) (a n : Nat) : List Nat := s.poison.filter fun w => a ≤ w && w < a + n
/-- Near memory as a reader of the given uncorrectable words finds it: they give no bytes that the manual names (R244). -/
def wordsFound (s : State) (ws : List Nat) : State :=
  match ws with
  | [] => s
  | ws => { s with near := memWriteAll s.near ((ws.map fun w => (List.range' w 8).map fun a => (a, Config.badByte s.fresh a)).flatten)
                   fresh := s.fresh + 1 }
/-- The uncorrectable words of a migration slot, and its near memory as a reader of its image finds it. -/
def slotPoison (s : State) (t : TileId) (k : Nat) : List Nat := poisonIn s (slotAddr t k) slotSize
def slotFound (s : State) (t : TileId) (k : Nat) : State := wordsFound s (slotPoison s t k)
/-- The image of a slot read back, and its home core; the slot becomes free. BKPT0-BKPT3 return with it (R237). An uncorrectable word
of the image raises MCHECK in the context it belongs to (R21, R244, log entry 91). -/
def takeImage (s : State) (t : TileId) (k : Fin 64) : State :=
  let ts := (slotPoison s t k.val).map fun w => trapNat .mcheck w
  let s := slotFound s t k.val
  let base := slotAddr t k.val
  let home := BitVec.ofNat 15 (nearRd s base 0x8030 8)
  let mark := BitVec.ofNat 64 (nearRd s base 0x8020 8)
  let job := BitVec.ofNat 6 (s.jobsOf t home mark)
  let y := imageCtx (nearRd s base) (peekCode s t) (nearUrs s base) job
  let x := (rejoin s (s.tileOf t).vd y).holdAll ts
  let s := s.updTile t fun tl => { tl with slots := tl.slots.set k.val .free }
  let s := s.updCore home fun co => { co with bkpt := vec4Of fun i => BitVec.ofNat 64 (nearRd s base (0x80A8 + 8 * i) 8) }
  { s with returning := s.returning ++ [(home, x)] }

/-! Issue and retirement. -/

/-- Busy cycle counted, the resume mark and the stall cleared. -/
def retireCore (s : State) : State :=
  { s with core := (s.core.busy).mapCtx fun c => { c with resumed := false, stall := none } }

/-- BKPT0 bit 48: single-step (R237), in a device that allows it (R222). -/
def stepping (s : State) : Bool :=
  bitAt s.core.bkpt[0].toNat 48 && (match s.dev with | none => false | some d => d.policy.debug)

/-- The PC and the repetition state after an instruction of len bytes that does not transfer control (R70, R249). -/
def Ctx.advance (c : Ctx) (len : Nat) : Ctx :=
  let next := c.pc + BitVec.ofNat 64 len
  match c.rep with
  | none => { c with pc := next }
  | some r =>
    let n := r.imm.toNat % 16 + 1
    let k := r.imm.toNat / 16 % 4096 + 1
    if r.idx + 1 < n then
      { c with pc := if r.pass = 0 then next else nth r.pcs (r.idx + 1) next, rep := some { r with idx := r.idx + 1 } }
    else if r.pass + 1 < k then
      { c with pc := nth r.pcs 0 next, rep := some { r with idx := 0, pass := r.pass + 1 } }
    else { c with pc := next, rep := none }

/-- A transfer of control ends a repetition with WARN.COMBO (R70). -/
def Ctx.endRep (c : Ctx) : Ctx :=
  match c.rep with
  | none => c
  | some _ => { (c.warnOr wCombo) with rep := none }

/-- After an instruction that raised nothing else, STEP when single-step is on (R203, R213). -/
def stepTrap (s : State) : State :=
  if stepping s && s.core.ctx.asyncs.isEmpty then takeTrap (trapAt .step s.core.ctx.pc) s else s

/-- The core in focus waits: a stalled cycle, and its reason (R23, R55). -/
def State.stalled (s : State) (r : Stall) : State := { s with core := s.core.stalled.mapCtx fun c => { c with stall := some r } }

/-- The outcome of a meaning: a stop keeps the state it was issued in, or the one it carries. -/
def outcome (s0 : State) : Except Stop (Unit × State) → Host.Outcome State Fault Refusal
  | .ok (_, s) => .next s
  | .error (.trap t) => .next (takeTrap t s0)
  | .error (.trapIn t s) => .next (takeTrap t s)
  | .error (.stall r) => .next (s0.stalled r)
  | .error (.stallIn r s) => .next (s.stalled r)
  | .error (.stallDo r f) => .next ((f s0).stalled r)

/-- Retirement of an instruction that does not transfer control. -/
def retire (len : Nat) : M Unit := modS fun s =>
  stepTrap ((retireCore s).mapCtx fun c => c.advance len)

/-- An instruction that is no prefix target: the pending prefix is discarded before it acts (R74, R302). -/
def issue (s : State) (len : Nat) (body : M Unit) : Host.Outcome State Fault Refusal :=
  outcome s ((do modC Ctx.dropPrefix; body; retire len) s)

/-- A prefix target: the prefix is consumed when it completes issue (R74, R75). -/
def issueTarget (s : State) (len : Nat) (body : M Unit) : Host.Outcome State Fault Refusal :=
  outcome s ((do body; modC Ctx.usePrefix; retire len) s)

/-- A control transfer: the body gives the next PC; a repetition ends (R70). -/
def issueJump (s : State) (body : M Word) : Host.Outcome State Fault Refusal :=
  outcome s ((do
    modC Ctx.dropPrefix
    let pc ← body
    modS fun s => stepTrap ((retireCore s).mapCtx fun c => { c.endRep with pc := pc })) s)

/-- PRIV outside service mode (R203, R208). -/
def privileged : M Unit := do
  let c ← getC
  if c.svc then modS id else stopTrap (trapAt .priv c.pc)

/-- A step of a unit: it always has an outcome. -/
def eventStep (s : State) : Host.Outcome State Fault Refusal := .next s

end Sys2Proof.Machine
end

