-- ==== Sys2Proof/Machine/Fetch.lean ====
section
/-! DEFINITION. Fetching an instruction (R53, R203, R246-R249): the fetch block, the repetition buffer with its staggered
fields (R70, R346), the breakpoints (R237) and the order of the checks before decode. -/

namespace Sys2Proof.Machine

/-- Kinds of register that the four operand positions of format R may name (R346). -/
inductive RegKind where
  | x | v | m | a | p | none
  deriving DecidableEq, Repr

def rep4 (k : RegKind) : List RegKind := [k, k, k, k]

/-- Kinds of the fields of VALU and VXL by FN: a field that the function does not use holds 0 and no register number (R252,
R346). -/
def vectorKinds (xl : Bool) (fn w : Nat) : List RegKind :=
  let one : List RegKind := [.v, .v, .none, .none]
  if xl then
    if fn = 2 ∨ (fn = 5 ∧ w / 2 ^ 46 % 4 = 0) then rep4 .v else one
  else if fn = 3 ∨ fn = 12 then rep4 .v
  else if fn = 11 then [if bitAt w 46 then .p else .v, .v, .v, .none]
  else if fn = 19 then [.v, .x, .none, .none]
  else if fn = 13 ∨ fn = 14 ∨ (16 ≤ fn ∧ fn ≤ 18) then one
  else [.v, .v, .v, .none]
/-- The kinds at bits 15:10, 21:16, 27:22 and 33:28 for a word (R250, R346). -/
def fieldKinds (w : Nat) : List RegKind :=
  let maj := w / 4 % 256
  let fn := w / 2 ^ 34 % 256
  if maj = 0x40 ∨ maj = 0x41 then vectorKinds (maj == 0x41) fn w
  else if maj = 0x1C ∨ maj = 0x1D then [.v, .v, .x, .none]
  else if maj = 0x1A ∨ maj = 0x1B then [.v, .x, .x, .none]
  else if maj = 0x49 then [.a, .x, .x, .none]
  else if maj = 0x4A then [.m, .x, .x, .none]
  else if maj = 0x4B then [.a, .none, .none, .none]
  else if maj = 0x48 then [.a, .x, .x, .x]
  else if maj = 0x1E then [.none, .x, .x, .none]
  else if maj = 0x02 then [.none, .x, .none, .none]
  else if maj = 0x2A then [.none, .x, .x, .none]
  else if majIsM maj then [.x, .x, .x, .none]
  else if majIsI maj then (if maj = 0x23 ∨ maj = 0x24 then rep4 .none else [.x, .x, .none, .none])
  else if majIsB maj then [.x, .x, .none, .none]
  else rep4 .x

/-- One register field staggered by n places (R70): stream codes, x0 and a code that names no register stay. -/
def staggerField (k : RegKind) (f n : Nat) : Nat :=
  match k with
  | .x => if f = 0 ∨ 32 ≤ f then f else (f + n) % 32
  | .v => if 32 ≤ f then f else (f + n) % 32
  | .m | .p => if 8 ≤ f then f else (f + n) % 8
  | .a => if 4 ≤ f then f else (f + n) % 4
  | .none => f

def setField (w lo v : Nat) : Nat := w - w / 2 ^ lo % 64 * 2 ^ lo + v * 2 ^ lo

/-- The fields a REP immediate selects, staggered for a pass. -/
def staggerFrom (n fmask : Nat) : Nat → List RegKind → Nat → Nat
  | _, [], w => w
  | i, k :: ks, w =>
    let lo := 10 + 6 * i
    staggerFrom n fmask (i + 1) ks (if bitAt fmask i then setField w lo (staggerField k (w / 2 ^ lo % 64) n) else w)
def stagger (imm pass w : Nat) : Nat := staggerFrom (pass * bitsAt imm 20 4) (bitsAt imm 16 4) 0 (fieldKinds w) w

/-! The quad's fetch unit (R7, R53, R249, log entry 74). -/

/-- The quad of a small core in its tile. -/
def quadOf (c : CoreId) : Fin 8 := Fin.ofNat 8 (coreSlot c / 4)
/-- A small core takes its fetch blocks from its quad's unit; a keystone core has none and reads memory itself (R7). -/
def isSmall (c : CoreId) : Bool := coreSlot c < 32
/-- Whether a core waits for its next fetch block: in weight-driven mode it does not (R188). -/
def Core.asking (co : Core) : Bool := co.mode == .running && !co.ctx.wd && co.asked.isSome
def Core.block (co : Core) : Nat := co.ctx.pc.toNat / 32
/-- Cycles a core has waited. -/
def Core.waited (now : Word) (co : Core) : Nat := match co.asked with | some t => (now - t).toNat | none => 0
/-- Which of two waiting cores is served first: one that has waited 8 cycles, the longer the sooner, else the lower address. -/
def servedFirst (now : Word) (a b : Core) : Bool :=
  if 8 ≤ a.waited now ∨ 8 ≤ b.waited now then b.waited now ≤ a.waited now else a.block ≤ b.block
/-- The core that the unit of a quad serves next. -/
def quadTurn (s : State) (c : CoreId) : Option Core :=
  (s.allCores.filter fun co => sameGroup .quad co.id c && co.asking).foldl (fun best co => match best with
    | none => some co
    | some b => some (if servedFirst s.time b co then b else co)) none

/-- A line added to a quad's cache of 64 KiB; its oldest line goes. -/
def codeAdd (l : CodeLine) (ls : List CodeLine) : List CodeLine :=
  l :: (ls.filter (·.quad != l.quad)) ++ (ls.filter (·.quad == l.quad)).take 2047
def codeFind (s : State) (c : CoreId) (block : Nat) : Option CodeLine :=
  (s.tileOf (coreTile c)).icache.find? fun l => l.quad == quadOf c && some l.vd == s.vdOf c && l.block == block

/-- What the fetch of the bytes at the PC gives: at most 16 of their block, a wait for the quad's unit, or a trap. -/
inductive FetchRes where
  | got (bs : List Byte) (s : State)
  | wait (s : State)
  | trap (t : Trap)
  deriving DecidableEq, Repr

/-- The bytes of the fetch block from the PC on (R53, R247). A fault on a block that the core has not been given comes first
(R203); a poisoned word of it, or a granule whose MAC fails, is a machine check (R128, R202, R244). -/
def fetchBytes (s : State) : FetchRes :=
  let pc := s.core.ctx.pc.toNat
  let n := min 16 (32 - pc % 32)
  let bad (c : Cause) : FetchRes := .trap { cause := c, faddr := s.core.ctx.pc, unit := 6, x := true, async := c == .mcheck }
  let rest (bs : List Byte) (s' : State) : FetchRes := .got ((bs.drop (pc % 32)).take n) s'
  let missed (s' : State) : FetchRes := .wait { s' with core := { s'.core with asked := some (s'.core.asked.getD s'.time) } }
  let small := isSmall s.core.id
  match s.core.fblock.filter fun l => small && l.1 == pc / 32 with
  | some l => rest l.2 s
  | none =>
    if 2 ^ 48 ≤ pc then bad .pageProt
    else if isNull pc then bad .pageNp
    else if isNear pc then
      if !nearOk s pc then bad .nearBounds
      else if small && (codeFind s s.core.id (pc / 32)).isSome then missed s
      else if poisoned s (pc / 32 * 32) 32 then bad .mcheck
      else if small then missed s
      else .got (s.nearRead pc n) s
    else match translate pc { x := true } false s with
      | .error c => bad c
      | .ok (pa, s') =>
        if small && (codeFind s s.core.id (pc / 32)).isSome then missed s'
        else if sealFails s s.key (pa / 256) then bad .mcheck
        else if small then missed s'
        else .got ((List.range' pa n).map fun a => if a < quarryHi then memGet s.quarry a else Config.peerByte s.fresh a)
          (if pa < quarryHi then s' else { s' with fresh := s'.fresh + 1 })

/-- The bytes of a block that the core in focus asks for, from its quad's cache or from memory, which then holds them. -/
def blockBytes (s : State) : Except Cause (List Byte × State) :=
  let c := s.core.id
  let b := s.core.block
  match codeFind s c b with
  | some l => .ok (l.bytes, s)
  | none =>
    let keep (bs : List Byte) (s : State) : List Byte × State :=
      (bs, s.updTile (coreTile c) fun tl =>
        { tl with icache := codeAdd { quad := quadOf c, vd := (s.vdOf c).getD 0, block := b, bytes := bs } tl.icache })
    if isNear (b * 32) then if poisoned s (b * 32) 32 then .error .mcheck else .ok (keep (s.nearRead (b * 32) 32) s)
    else match translate (b * 32) { x := true } false s with
      | .error e => .error e
      | .ok (pa, s') => if sealFails s s.key (pa / 256) then .error .mcheck else .ok (keep ((List.range' pa 32).map fun a =>
          if a < quarryHi then memGet s.quarry a else Config.peerByte s.fresh a)
          (if pa < quarryHi then s' else { s' with fresh := s'.fresh + 1 }))

/-- Whether a core takes the block that its quad's unit delivers to another (R53, R188). -/
def takesBlock (s : State) (c : Core) (k : Core) : Bool :=
  sameGroup .quad k.id c.id && k.mode == .running && !k.ctx.wd && s.vdOf k.id == s.vdOf c.id && k.block == c.block
/-- A fetch block delivered to every core of a quad that is next at it (R53). A block that cannot be fetched is left to the core,
which finds the fault. -/
def deliverBlock (s : State) (c : CoreId) : State :=
  match quadTurn s c with
  | none => s
  | some k =>
    if k.id = c then
      let f := s.core.id
      let s1 := s.focusOn c
      match blockBytes s1 with
      | .error _ => (s1.updCore c fun k => { k with asked := none }).focusOn f
      | .ok (bs, s2) =>
        ((s2.allCores.filter (takesBlock s2 k)).foldl (fun s j => s.updCore j.id fun j =>
          { j with fblock := some (k.block, bs), asked := none }) s2).focusOn f
    else s

/-- Whether a breakpoint of the core matches an address (R237). -/
def bkptMatch (co : Core) (addr : Nat) : Bool :=
  (List.range 4).any fun n =>
    let b := (nth co.bkpt.toList n 0).toNat
    let below := (nth co.bkpt.toList (n - 1) 0).toNat
    bitAt b 0 && bitsAt b 2 46 == bitsAt addr 2 46 && addr < 2 ^ 48
      && (n % 2 == 0 || !bitAt below 1)
      && (n % 2 == 1 || !bitAt b 1 || (nth co.bkpt.toList (n + 1) 0) == co.ctx.mark)

/-- What fetch and decode give (R203, steps 2 to 4). -/
inductive Fetched where
  | run (i : Instr) (s : State)
  | trap (t : Trap) (s : State)
  | wait (s : State)
  deriving DecidableEq, Repr

/-- The opcodes of the matrix unit, which a keystone has not: MMA, MXST, MXLD, MXZ and WDENTER (R8, R375). -/
def matrixMajor (w : Nat) : Bool := (0x48 ≤ w / 4 % 256 && w / 4 % 256 ≤ 0x4B) || w / 4 % 256 == 0x60
/-- The checks on a fetched word before and in decode, in the order of R203. -/
def examine (w : Nat) (s : State) : Fetched :=
  let c := s.core.ctx
  let len := lenOf w
  let pc := c.pc.toNat
  if pc % 32 + len > 32 then .trap (trapAt .fetchCross c.pc) s
  else if w % 4 = 3 ∧ w % 2 ^ 32 ≠ 0x3FF then .run (.illegalOpc .len) s
  else if w % 4 ≠ 3 ∧ !c.resumed ∧ bkptMatch s.core pc then .trap (trapAt .brk c.pc) s
  else match decodeBits (w % 2 ^ (8 * len)) with
    | .ok i => .run i s
    | .error .illegalOpc => .run (.illegalOpc .opc) s
    | .error .illegalLen => .run (.illegalOpc .len) s
    | .error .reservedBits =>
      if !isSmall s.core.id && matrixMajor w then .run (.illegalOpc .opc) s else .trap (trapAt .reservedBits c.pc) s

/-- A body word placed in the repetition buffer when it is fetched; skip words are not (R70, R248). -/
def bufferWord (w : Nat) (c : Ctx) : Ctx :=
  match c.rep with
  | some r =>
    if w % 4 = 3 then c
    else { c with rep := some { r with body := r.body ++ [BitVec.ofNat 128 (w % 2 ^ (8 * lenOf w))], pcs := r.pcs ++ [c.pc] } }
  | none => c

/-- The next instruction of the core in focus: from the repetition buffer, or fetched (R53, R70). -/
def fetch (s : State) : Fetched :=
  let fromMemory : Fetched :=
    match fetchBytes s with
    | .trap t => .trap t s
    | .wait s' => .wait s'
    | .got bs s' =>
      let w := leNat bs
      if w % 4 ≠ 3 ∧ s.core.ctx.pc.toNat % 32 + lenOf w > 32 then examine w s' else examine w (s'.mapCtx (bufferWord w))
  match s.core.ctx.rep with
  | some r =>
    match r.body[r.idx]? with
    | some w => examine (stagger r.imm.toNat r.pass w.toNat) s
    | none => fromMemory
  | none => fromMemory

end Sys2Proof.Machine
end

