-- ==== Sys2Proof/Machine/Operands.lean ====
section
/-! DEFINITION. Operands (R250-R258): scalar and vector registers, stream registers with their directions and ends
(R64-R69), predicates (R257), the effective address of format M (R255), the orderings of format M (R152, R262), the pending
prefix (R73, R74), releases (R156) and lock bits (R145). -/

namespace Sys2Proof.Machine

/-! Streams (R64-R66). -/

def exhTrap (n : Fin 8) : Trap := trapNat .streamExh n.val
def dirTrap (n : Fin 8) : Trap := trapNat .streamDir n.val

/-- Elements that can be popped now. -/
def Core.available (co : Core) (t : Stream) : Nat :=
  match t.kind with
  | .queue => t.buf.length + (co.arrq[Fin.ofNat 8 t.arg]).length
  | _ => t.buf.length

/-- Whether the stream will never hold k more elements: the end of its pattern, or a job or gather that has ended. -/
def Stream.ends (t : Stream) (k : Nat) : Bool :=
  match t.kind with
  | .pattern => t.total < t.done + k
  | .gather => t.total < t.done + k || (t.closed && t.buf.length < k)
  | .expander => t.closed && t.buf.length < k
  | .queue => false

/-- Direction of a source field (R66). -/
def srcDir (c : Ctx) : Opd → Option (Fin 8)
  | .reg _ => none
  | .str n => if c.streams[n].bound && !c.streams[n].out then none else some n
/-- Direction of a destination field. -/
def dstDir (c : Ctx) : Opd → Option (Fin 8)
  | .reg _ => none
  | .str n => if c.streams[n].bound && c.streams[n].out then none else some n

/-- STREAM_DIR on any field, in the order A, B, C, D. -/
def dirCheck (srcs dsts : List Opd) : M Unit := do
  let c ← getC
  match (srcs.filterMap (srcDir c) ++ dsts.filterMap (dstDir c)).head? with
  | some n => stopTrap (dirTrap n)
  | none => modS id
/-- Elements of a stream that an operand moves: one, or those of 64 bytes for a vector (R65). -/
def Stream.moves (t : Stream) (vec : Bool) : Nat := if vec then 64 / t.esz else 1
/-- The first source field, in order, whose elements the stream will never hold, those of the fields before it counted; `taken` gives
what they take. -/
def srcEnd (c : Ctx) : List (Opd × Bool) → (Fin 8 → Nat) → Option (Fin 8)
  | [], _ => none
  | (.reg _, _) :: rest, taken => srcEnd c rest taken
  | (.str n, vec) :: rest, taken =>
    let k := taken n + (c.streams[n]).moves vec
    if (c.streams[n]).ends k then some n else srcEnd c rest fun m => if m = n then k else taken m
/-- STREAM_EXH on a source, before anything a pop finds (R203). -/
def endCheck (srcs : List (Opd × Bool)) : M Unit := do
  let c ← getC
  match srcEnd c srcs (fun _ => 0) with
  | some n => stopTrap (exhTrap n)
  | none => modS id
/-- STREAM_DIR on any field, before STREAM_EXH on a source (R203). `wide` tells of each source whether it is a vector. -/
def checkDirs (srcs dsts : List Opd) (wide : List Bool := []) : M Unit := do
  dirCheck srcs dsts
  endCheck (srcs.zip (wide ++ List.replicate srcs.length false))
/-- A field that only an x register may fill (R299, R318, R186). -/
def noStream : Opd → M Unit
  | .reg _ => modS id
  | .str n => stopTrap (dirTrap n)
/-- The same checks with D such a field: its STREAM_DIR comes before STREAM_EXH of a source (R203). -/
def checkDirsX (srcs : List Opd) (d : Opd) : M Unit := do
  dirCheck srcs []
  noStream d
  endCheck (srcs.zip (List.replicate srcs.length false))

def modStream (n : Fin 8) (f : Stream → Stream) : M Unit :=
  modC fun c => { c with streams := c.streams.set n.val (f c.streams[n]) }

/-- k elements popped, oldest first (R65, R66); the pop of an arrival-queue entry is an acquire at PKG (R162). A fault held on prefetched data is raised by the pop that reaches it (R204). -/
def popN (n : Fin 8) (k : Nat) : M (List (List Byte)) := do
  let s ← getS
  let t := s.core.ctx.streams[n]
  if t.ends k then stopTrap (exhTrap n)
  else if s.core.available t < k then
    match t.held with
    | some h => stopTrap { h with async := false, unit := 3 }
    | none => stopStall .stream
  else match t.kind with
    | .queue =>
      let q := Fin.ofNat 8 t.arg
      let m := k - t.buf.length
      modS fun s => { s with core := { s.core with arrq := s.core.arrq.set q.val (s.core.arrq[q].drop m) } }
      modStream n fun t => { t with buf := t.buf.drop k, done := t.done + k }
      modS dropStaged
      return t.buf.take k ++ (s.core.arrq[q].take m).map fun w => (wordBytes w).take t.esz
    | _ =>
      modStream n fun t => { t with buf := t.buf.drop k, done := t.done + k }
      return t.buf.take k

/-- Elements pushed: a full 256-byte buffer stalls, and a pattern has an end (R66, R67). -/
def pushN (n : Fin 8) (es : List (List Byte)) : M Unit := do
  let c ← getC
  let t := c.streams[n]
  if t.total < t.done + es.length then stopTrap (exhTrap n)
  else if 256 < (t.buf.length + es.length) * t.esz then stopStall .stream
  else modStream n fun t => { t with buf := t.buf ++ es, done := t.done + es.length }

/-- STREAM_EXH on an output pattern named in D, judged before anything a pop finds and before any address (R66, R203). -/
def dstEnd (vec : Bool) : Opd → M Unit
  | .reg _ => modS id
  | .str n => do
    let c ← getC
    let t := c.streams[n]
    if t.total < t.done + t.moves vec then stopTrap (exhTrap n) else modS id

/-! Scalar operands. -/

/-- A scalar source: a register, or one element zero-extended (R65). -/
def readOpd : Opd → M Word
  | .reg n => readX n
  | .str n => do
    let es ← popN n 1
    return bytesWord es.flatten
/-- A scalar destination: a register, or the low element-size bytes pushed (R65). -/
def writeOpd : Opd → Word → M Unit
  | .reg n, v => writeX n v
  | .str n, v => do
    let c ← getC
    pushN n [(wordBytes v).take c.streams[n].esz]
def readOpds : List Opd → M (List Word)
  | [] => pure []
  | o :: os => do
    let v ← readOpd o
    let vs ← readOpds os
    return v :: vs

/-- Bit 0 of a predicate (R257). -/
def predBit (pg : Fin 8) : M Bool := do
  let p ← readP pg
  return bitAt p.toNat 0

/-- The same for an instruction that gives D a value when the bit is 1 (R66, R203). -/
def predEnd (pg : Fin 8) (d : Opd) : M Bool := do
  let p ← predBit pg
  whenM p (dstEnd false d)
  return p

/-- PG where it is ignored (R257). -/
def ignoredPg (pg : Fin 8) : M Unit := warn (pg != 0) wCombo

/-! Vector operands (R62, R65). -/

/-- A stream whose element size does not divide 64 gives whole elements, and zero bytes after them (log entry 75). -/
def readVec : Opd → M (List Byte)
  | .reg n => do
    let c ← getC
    readUrs (c.vOff n.val) 64
  | .str n => do
    let c ← getC
    let es ← popN n (64 / c.streams[n].esz)
    return fitBytes 64 es.flatten
def writeVec : Opd → List Byte → M Unit
  | .reg n, bs => do
    let c ← getC
    writeUrs (c.vOff n.val) bs
  | .str n, bs => do
    let c ← getC
    let e := c.streams[n].esz
    pushN n (chunksOf e (64 / e) bs)

/-- Elements of `sz` bytes as numbers, and back. -/
def lanesOf (sz : Nat) (bs : List Byte) : List Nat := (chunksOf sz (bs.length / sz) bs).map leNat
def ofLanes (sz : Nat) (vs : List Nat) : List Byte := (vs.map (leBytes sz)).flatten
/-- The active lanes of a predicate (R257). -/
def activeLanes (p : Word) (n : Nat) : List Bool := (List.range n).map fun i => bitAt p.toNat i

/-- The 64 bytes a destination receives: inactive lanes are unchanged in a register and zero bytes in a stream (R257, R366).
Bytes past the lanes are zero. -/
def laneBytes (d : Opd) (sz : Nat) (act : List Bool) (vs : List Nat) : M (List Byte) :=
  match d with
  | .reg n => do
    let c ← getC
    let old ← if act.all id then pure (zeroBytes 64) else readUrs (c.vOff n.val) 64
    return fitBytes 64 (ofLanes sz ((act.zip (vs.zip (lanesOf sz old))).map fun t => if t.1 then t.2.1 else t.2.2))
  | .str _ => pure (fitBytes 64 (ofLanes sz ((act.zip vs).map fun t => if t.1 then t.2 else 0)))
def writeLanes (d : Opd) (sz : Nat) (act : List Bool) (vs : List Nat) : M Unit := do
  let bs ← laneBytes d sz act vs
  writeVec d bs

/-! The pending prefix as a target sees it (R73, R74). -/

/-- The code of one ET field of the pending prefix; none when it keeps the operand's format. -/
def Ctx.pfxEt (c : Ctx) (lo : Nat) : Option Nat :=
  if c.pfx then (let k := bitsAt c.pfxv.toNat lo 4; if k = 15 then none else some k) else none
def Ctx.pfxA (c : Ctx) : Option Nat := c.pfxEt 0
def Ctx.pfxB (c : Ctx) : Option Nat := c.pfxEt 4
def Ctx.pfxC (c : Ctx) : Option Nat := c.pfxEt 8
def Ctx.pfxD (c : Ctx) : Option Nat := c.pfxEt 12
/-- BW of every BFP operand: the prefix's, else BFP8 (R73, R80). -/
def Ctx.pfxBw (c : Ctx) : Nat := if c.pfx then bitsAt c.pfxv.toNat 16 3 else 6

/-- A target that accepts none of the overrides given: any one of them sets WARN.FMTTGT. -/
def noOverride : M Unit := do
  let c ← getC
  warn (c.pfxA.isSome || c.pfxB.isSome || c.pfxC.isSome || c.pfxD.isSome) wFmttgt
/-- A target that accepts no prefix at all: a pending one is consumed with WARN.FMTTGT (R325, R358). -/
def noPrefix : M Unit := do
  let c ← getC
  warn c.pfx wFmttgt

/-! Format M (R255). -/

def szBytes (sz : Fin 7) : Nat := 2 ^ sz.val
/-- The effective address; the base is read before the index. -/
def effAddr (m : MArgs) (size : Nat) : M Word := do
  let base ← readOpd m.base
  let idx ← readOpd m.idx
  let scale : Nat := if m.xs = 0 then 1 else if m.xs = 1 then size else 64
  return base + idx * BitVec.ofNat 64 scale + BitVec.ofInt 64 (signedOf 25 m.off.toNat)

/-- SZ 16, 32 or 64 where sizes up to 8 are accepted (R262). -/
def smallSize (sz : Fin 7) : Nat := min (szBytes sz) 8
def bigSize (sz : Fin 7) : Bool := 8 < szBytes sz

/-- Which orderings keep their meaning: `load` for LD and LDV, `scalar` for LD and ST (R152). -/
def ordAccepted (load scalar : Bool) : AccOrd → Bool
  | .plain | .nt | .acqrel => true
  | .acq => load
  | .rel => !load
  | .lock => load && scalar
  | .unlock => !load && scalar

def ordIs15 : AccOrd → Bool
  | .acq | .rel | .acqrel | .lock | .unlock => true
  | .plain | .nt => false

/-- The ordering an access is performed with after the fallbacks of R152 and R262, and their WARN bits. `far` keeps the
ordering within the task (R152): it is told by the caller. -/
def ordAfter (load scalar big far : Bool) (o : AccOrd) : AccOrd :=
  if !ordAccepted load scalar o then .plain else if ordIs15 o && (big || far) then .plain else o
def ordWarn (load scalar big far : Bool) (m : MArgs) : Warn :=
  warnIf (!ordAccepted load scalar m.ord) wCombo ||| warnIf (ordIs15 m.ord && (big || far)) wOrder
    ||| warnIf (m.scope != .core && !(m.ord == .acq || m.ord == .rel || m.ord == .acqrel)) wCombo

/-- Instructions whose ORD and SCOPE have no meaning beyond ORD 0 or, where `nt` is accepted, 6 (R262). -/
def plainOrd (nt : Bool) (m : MArgs) : M Unit :=
  warn (!(m.ord == .plain || (nt && m.ord == .nt)) || m.scope != .core) wCombo

/-! Draining output streams (R67, R156). -/

/-- The address of element i of a pattern (R134): dimension 0 innermost. -/
def patternOff : List Nat → List Int → Nat → Int
  | n :: ns, st :: sts, i => (i % n : Nat) * st + patternOff ns sts (i / n)
  | _, _, _ => 0
def Stream.addrOf (t : Stream) (i : Nat) : Word := t.base + BitVec.ofInt 64 (patternOff t.counts t.strides i)

/-- The oldest pushed element of an output stream written; a fault is held for the task (R204). -/
def drainElem (n : Fin 8) (s : State) : Except Trap State :=
  let t := s.core.ctx.streams[n]
  match t.buf with
  | [] => .ok s
  | e :: rest =>
    let m : M Unit := do
      let pl ← place (t.addrOf t.moved) t.esz needW true 3
      writeNow pl e
      modStream n fun t => { t with buf := rest, moved := t.moved + 1 }
    match m s with
    | .ok (_, s') => .ok s'
    | .error (.trap tr) => .error tr
    | .error _ => .ok s
/-- All pushed elements of one output stream written. -/
def drainStream (n : Fin 8) : Nat → State → Except Trap State
  | 0, s => .ok s
  | k + 1, s =>
    if s.core.ctx.streams[n].out && !s.core.ctx.streams[n].buf.isEmpty then
      match drainElem n s with
      | .ok s' => drainStream n k s'
      | .error t => .error t
    else .ok s
def drainOutputs : List (Fin 8) → State → Except (Trap × State) State
  | [], s => .ok s
  | n :: ns, s => match drainStream n (s.core.ctx.streams[n].buf.length) s with
    | .ok s' => drainOutputs ns s'
    | .error t => .error (t, s)

/-- Everything written before a release, drained; a fault of a stream is held for the task (R204). -/
def drainForRelease (s : State) : State × Bool :=
  match drainOutputs (List.finRange 8) (drainAll s) with
  | .ok s' => (s', true)
  | .error (t, s') => (s'.mapCtx fun c => c.hold { t with unit := 3 }, false)

/-! The image of a grammar operation (R101, R108, R111). -/

/-- Whether an operator takes elements of a type (R108). -/
def opTakes (op : Nat) (et : ElemTy) : Bool :=
  if op ≤ 7 || op == 12 then elemIsInt et else if op == 11 then elemIsScal et else elemIsFp et
def opLifts (op : Nat) : Bool := op < 12


structure GHdr where
  et     : ElemTy
  w      : Nat
  nrules : Nat
  nterm  : Nat
  start  : Nat
  matrix : Bool
  rowlen : Nat
  /-- addresses of the rule table and of the data area -/
  rules  : Word
  data   : Word
  deriving DecidableEq, Repr

def badAt (at_ : Word) : Trap := { cause := .grammarBad, faddr := at_, unit := 2 }

/-- A header's fields, when it passes the checks of R103. -/
def hdrOf (at_ : Word) (bs : List Byte) : Option GHdr :=
  let f (off n : Nat) : Nat := leNat ((bs.drop off).take n)
  let rules := at_ + BitVec.ofNat 64 (f 24 8)
  let flags := f 20 4
  match elemOfCode (f 6 1) with
  | none => none
  | some et =>
    let ok := f 0 4 == 0x47594B56 && f 4 2 == 1 && elemIsScal et && 1 ≤ f 7 1 && f 7 1 ≤ 32
      && 1 ≤ f 8 4 && f 8 4 ≤ 2 ^ 31 && f 16 4 < f 8 4 && flags < 2 && rules.toNat % 16 == 0 && f 44 20 == 0
      && (if flags = 1 then 1 ≤ f 40 4 && f 40 4 ≤ 2 ^ 20 else f 40 4 == 0)
    if ok then some { et := et, w := f 7 1, nrules := f 8 4, nterm := f 12 4, start := f 16 4, matrix := flags == 1
                      rowlen := f 40 4, rules := rules, data := at_ + BitVec.ofNat 64 (f 32 8) }
    else none


def ruleAddr (h : GHdr) (r : Nat) : Word := addrPlus h.rules (16 * r)
/-- The output type of a map (R114). -/
def mapType (h : GHdr) (g : GOp) : ElemTy :=
  match g.fn with
  | 0 => (elemOfCode g.mod).getD h.et
  | 3 => h.et
  | _ => .fp32
/-- Bytes of a value that GEXP yields (R115). -/
def yieldSize (h : GHdr) (g : GOp) : Nat :=
  if g.fn = 0 then elemSize h.et
  else if g.mod = 0 || g.mod = 11 then 8 else if g.mod ≤ 7 || g.mod = 12 then elemSize h.et else 4
/-- The rejection of an operation whose header is good, in the order of R111: the value D receives and its WARN bit. -/
def rejectOf (h : GHdr) (g : GOp) : Option (Word × BitVec 8) :=
  let lift : Word × BitVec 8 := (0x8000000000000001, wLift)
  let type : Word × BitVec 8 := (0x8000000000000002, wCombo)
  let range : Word × BitVec 8 := (0x8000000000000003, wCombo)
  let first := g.c.toNat % 2 ^ 32
  let last := g.c.toNat / 2 ^ 32
  let badRange := last < first || h.nrules ≤ last
  match g.major with
  | 0 =>
    if h.matrix then some type else if !opLifts g.fn then some lift else if !opTakes g.fn h.et then some type
    else if badRange then some range else none
  | 1 =>
    if h.matrix != (g.fn == 4) then some type
    else match g.fn with
      | 0 => match elemOfCode g.mod with
        | some t => if elemIsScal t then none else some type
        | none => some type
      | 1 | 2 | 4 => if elemIsFp h.et then none else some type
      | _ => if elemIsInt h.et then none else some type
  | 2 =>
    if h.matrix then some type
    else if g.fn = 2 then none
    else if !opLifts g.mod then some lift else if !opTakes g.mod h.et then some type else none
  | _ =>
    if g.fn = 1 && h.matrix then some type else if g.fn = 1 && !opTakes g.mod h.et then some type
    else if badRange then some range else none


/-! Writes of the task that are not performed yet and that its later accesses see (R149): elements pushed to output streams,
and what queued grammar operations write. -/

def Stream.pendingHits (t : Stream) (va n : Nat) : Bool :=
  t.bound && t.out && (List.range t.buf.length).any fun i => rangesMeet va n (t.addrOf (t.moved + i)).toNat t.esz
/-- The package as the rule unit finds it once the task's far stores and pushes have been performed. -/
def ownView (s : State) : State := (drainForRelease s).1
/-- What the rule unit reads there; nothing where its access would fault. -/
def unitSees (v : State) (ea : Word) (n : Nat) : Option (List Byte) :=
  match judged (loadBytes ea n 2) v with
  | .ok (bs, [], _) => some bs
  | _ => none
/-- The header of the image of a queued operation, when the operation is not refused (R103, R111). -/
def GOp.header (v : State) (g : GOp) : Option GHdr :=
  match (unitSees v g.a 64).bind (hdrOf g.a) with
  | none => none
  | some h => if (rejectOf h g).isSome then none else some h
/-- The rules of a GEXP: the first, and how many. -/
def GOp.rules (g : GOp) : Nat × Nat := (g.c.toNat % 2 ^ 32, g.c.toNat / 2 ^ 32 + 1 - g.c.toNat % 2 ^ 32)
/-- How many values an expansion yields: the LEN words of its rules, and the columns of a row (R102, R115). -/
def GOp.yields (v : State) (h : GHdr) (g : GOp) : Nat :=
  let lens := (List.range' g.rules.1 g.rules.2).map fun r => ((unitSees v (addrPlus (ruleAddr h r) 12) 4).map leNat).getD 0
  lens.foldl (· + ·) 0 * (if h.matrix then h.rowlen else 1)
/-- Everything from an address to the end of near memory, or of the address space. -/
def toEnd (a : Nat) : Nat × Nat := (a, (if isNear a then nearHi else 2 ^ 48) - a)
/-- Places left of a stream that a GEXP fills, for at most `left` more elements. -/
def GOp.streamPlaces (v : State) (k : Fin 8) (left : Nat) : List (Nat × Nat) :=
  let t := v.core.ctx.streams[k]
  (List.range' t.done (min left (t.total - t.done))).map fun i => ((t.addrOf i).toNat, t.esz)
/-- What a queued operation may write whatever its image holds. -/
def GOp.anyPlaces (v : State) (g : GOp) : List (Nat × Nat) :=
  match g.bs with
  | some k => GOp.streamPlaces v k (2 ^ 64)
  | none => [toEnd g.b.toNat]
/-- Where a queued GMAP or GEXP has still to write: its image, its header last (R114), or its buffer or stream (R115). Where an
operation queued before it, which writes at `earlier`, may still change what the image says of that, it may be anywhere from its
destination on. -/
def GOp.places (v : State) (earlier : List (Nat × Nat)) (g : GOp) : List (Nat × Nat) :=
  let changes (a : Word) (n : Nat) : Bool := earlier.any fun r => rangesMeet a.toNat n r.1 r.2
  if !((g.major == 1 || g.major == 3) && g.result.isNone) then []
  else if changes g.a 64 then g.anyPlaces v
  else match g.header v with
  | none => []
  | some h =>
    if g.major = 1 then
      let sz := elemSize (mapType h g)
      [(g.b.toNat, 64), (g.b.toNat + 64 + g.cur * sz, (h.nterm - g.cur) * sz)]
    else if changes (ruleAddr h g.rules.1) (16 * g.rules.2) then g.anyPlaces v
    else
      let left := g.yields v h - g.count
      match g.bs with
      | none => let sz := yieldSize h g; [(g.b.toNat + g.count * sz, left * sz)]
      | some k => GOp.streamPlaces v k left
/-- Where the queued operations of the task have still to write, the oldest one's places first. -/
def gopPlaces (s : State) : List (Nat × Nat) :=
  s.core.ctx.gops.foldl (fun places g => places ++ g.places (ownView s) places) []
/-- Whether n bytes meet an element that the task has pushed to an output stream. -/
def pushPending (s : State) (va n : Nat) : Bool := s.core.ctx.streams.toList.any (·.pendingHits va n)
def ownPending (s : State) (va n : Nat) : Bool :=
  pushPending s va n || (gopPlaces s).any fun r => rangesMeet va n r.1 r.2
/-- An access waits for such writes. -/
def awaitOwn (ea : Word) (n : Nat) : M Unit := do
  let s ← getS
  if ownPending s ea.toNat n then stopStall .interlock else modS id

/-- The same for a load, before which the task's earlier reads of its words are made (R148). -/
def awaitLoad (ea : Word) (n : Nat) : M Unit := do
  awaitOwn ea n
  orderReads ea n

/-- A release's drain (R156): far stores, pushes of output streams and what queued grammar operations write. The scope is
performed as named; quarry data drains to its port at every scope (log entry 9). A fault the drain finds is taken before
the releasing instruction issues again (R204). -/
def releaseDrain (_sc : Scope) : M Unit := do
  let s ← getS
  if s.core.ctx.gops.any fun g => g.major == 1 || g.major == 3 then stopStall .acquire
  else
    let r := drainForRelease s
    if r.2 then setS r.1 else stopStallDo .acquire fun s0 => (drainForRelease s0).1

/-- Earlier loads of the task have returned (R156, R160): far loads, the reads of matrix operations (R336) and the element reads
of a gather (R349). -/
def awaitLoads : M Unit := modS fun s => gatherAll (mxAll (s.mapCtx fun c => returnLoads c.loads.length c))

/-! Lock bits (R145). -/

def lockSlice (a : Nat) : Nat := (nearTile a).toNat * 64 + min (nearSlot a) 32
def lockBank (a : Nat) : Nat := bitsAt a 3 3
def lockBit (a : Nat) : BitVec 6 := Config.lockHash (BitVec.ofNat 14 (a / 64))
def lockHeld (s : State) (a : Nat) : Option Lock :=
  s.locks.find? fun l => l.slice == lockSlice a && l.bank == lockBank a && l.bit == lockBit a
def lockMine (s : State) (l : Lock) : Bool := l.holder == s.core.id && l.mark == s.core.ctx.mark
/-- The lock bit of a near word set, or a stall while another task holds it. -/
def lockTake (a : Nat) : M Unit := do
  let s ← getS
  match lockHeld s a with
  | some _ => stopStall .lock
  | none => setS { s with locks := s.locks ++ [{ slice := lockSlice a, bank := lockBank a, bit := lockBit a
                                                 holder := s.core.id, mark := s.core.ctx.mark }] }
/-- An ATOM waits while another task holds the bit (R289). -/
def lockWait (a : Nat) : M Unit := do
  let s ← getS
  match lockHeld s a with
  | some l => if lockMine s l then modS id else stopStall .lock
  | none => modS id
/-- The unlock of ST with ORD unlock (R145): WARN.COMBO when the task does not hold the bit. -/
def lockDrop (a : Nat) : M Unit := do
  let s ← getS
  match lockHeld s a with
  | some l =>
    if lockMine s l then
      setS { s with locks := s.locks.filter fun k => !(k.slice == l.slice && k.bank == l.bank && k.bit == l.bit) }
    else warn true wCombo
  | none => warn true wCombo

/-! Load destinations (R71). -/

/-- A load counted in LD until it returns, when its flags enter FPF. -/
def countLoad (l : FarLoad) : M Unit := do
  let c ← getC
  countable c.ld
  modC fun c => { c with ld := c.ld + 1, loads := c.loads ++ [l] }
/-- The bytes of a load given to a scalar destination: a far plain load is outstanding until its data arrives. One into a stream
is counted as well, and its element takes its place in the stream at issue. -/
def loadScalar (d : Opd) (bs : List Byte) (outstanding : Bool) (fl : Flags := 0) : M Unit := do
  if outstanding then
    match d with
    | .reg n => do
      let c ← getC
      if c.pendingX n then stopStall .interlock else countLoad { dst := if n = 0 then .none else .x n, data := bs, fl := fl }
    | .str _ => do
      writeOpd d (bytesWord bs)
      countLoad { dst := .none, data := [], fl := fl }
  else do
    raiseFp fl
    writeOpd d (bytesWord bs)
/-- The same for a vector destination of 64 bytes. -/
def loadVector (d : Opd) (bs : List Byte) (outstanding : Bool) (fl : Flags := 0) : M Unit := do
  if outstanding then
    match d with
    | .reg n => do
      let c ← getC
      if c.pendingWrite (c.vOff n.val) 64 then stopStall .interlock
      else countLoad { dst := .urs (c.vOff n.val), data := bs, fl := fl }
    | .str _ => do
      writeVec d bs
      countLoad { dst := .none, data := [], fl := fl }
  else do
    raiseFp fl
    writeVec d bs

/-- Issue priority clamp (R38). -/
def clampPrio (p : Nat) : BitVec 7 := BitVec.ofNat 7 (min p 119)

end Sys2Proof.Machine
end

