-- ==== Sys2Proof/Machine/TaskOps.lean ====
section
/-! DEFINITION. Shared operations on tasks: how a task starts (R29), is selected (R39, R43) and ends (R30), how records and
marks are made (R25-R27), and what a route tag does with a message (R47-R49). -/

namespace Sys2Proof.Machine

/-- Records a run queue and its spill area hold (R37). -/
def runqCap : Nat := 64 + 4096
def Core.hasRoom (co : Core) : Bool := co.runq.length < runqCap
/-- Pending signals that are due to become handler records: each has the next free place of the run queue (R49). -/
def Core.signalsDue (co : Core) : Nat := (co.tags.toList.filter fun g => g.en && g.signal).length
/-- Whether the run queue has room for another record than those. -/
def Core.hasRoomLeft (co : Core) : Bool := co.runq.length + co.signalsDue < runqCap

/-- A fresh mark of a non-tile record made on a core (R26). -/
def freshMark (s : State) (c : CoreId) (vd : Nat) (course : BitVec 16) : Word :=
  mkMark (asidOf vd) course (2 ^ 33 + c.toNat * 2 ^ 18 + (s.coreOf c).creations.toNat)
def countCreation (s : State) (c : CoreId) : State := s.updCore c fun co => { co with creations := co.creations + 1 }

/-- A record appended to a core's run queue. -/
def queueRec (s : State) (c : CoreId) (r : TaskRec) : State :=
  s.updCore c fun co => { co with runq := co.runq ++ [r], resting := false }

/-- Bits 1:0 of an entry are taken as zero (R25). -/
def entryOf (v : Nat) : BitVec 48 := BitVec.ofNat 48 (v % 2 ^ 48 / 4 * 4)

/-! Route tags (R47-R49). -/

/-- ARG1 of a handler record (R27). -/
def handlerArg (src : CoreId) (t : Fin 64) (signal : Bool) : Word :=
  BitVec.ofNat 64 (src.toNat + t.val * 2 ^ 16 + b2n signal * 2 ^ 24)

/-- A ready handler record takes entry, priority and course from the tag (R362). -/
def readyRec (g : Tag) (r : TaskRec) : TaskRec :=
  { r with wait := false, entry := g.handler, prio := g.prio,
           mark := mkMark (BitVec.ofNat 14 (r.mark.toNat / 2 ^ 50)) g.course (r.mark.toNat % 2 ^ 34) }

/-- A handler record for tag t made on core c: ready when the tag is enabled, else waiting (R48). -/
def handlerRec (s : State) (c : CoreId) (vd : Nat) (t : Fin 64) (payload arg1 : Word) : State :=
  let g := (s.coreOf c).tags[t]
  let r : TaskRec := { kind := .handler, wait := !g.en, prio := g.prio, entry := g.handler,
                       mark := freshMark s c vd g.course, arg0 := payload, arg1 := arg1, tag := BitVec.ofNat 6 t.val }
  let s := s.traceAt c 5 r.mark arg1
  countCreation (queueRec s c r) c

/-- A pending signal of an enabled tag becomes a handler record when the run queue has room (R49). The sender it names is the core
itself (log entry 92). -/
def signalRec (s : State) (c : CoreId) (vd : Nat) (t : Fin 64) : State :=
  let co := s.coreOf c
  if co.tags[t].en && co.tags[t].signal && co.hasRoom then
    let s := s.updCore c fun co => { co with tags := co.tags.set t.val { co.tags[t] with signal := false } }
    handlerRec s c vd t 0 (handlerArg c t true)
  else s

/-- The pending signals that are due become handler records while the run queue has room, the lowest tag first (R49). -/
def signalRecs (s : State) (c : CoreId) (vd : Nat) : State :=
  if (s.coreOf c).signalsDue = 0 then s else (List.finRange 64).foldl (fun s t => signalRec s c vd t) s

/-- EN set: waiting records of the tag become ready in arrival order, then a pending signal is consumed (R49). -/
def enableTag (s : State) (c : CoreId) (vd : Nat) (t : Fin 64) : State :=
  let s := s.updCore c fun co =>
    let g := { co.tags[t] with en := true }
    let mine (r : TaskRec) : Bool := r.wait && r.tag.toNat == t.val
    { co with tags := co.tags.set t.val g
              runq := co.runq.filter (fun r => !mine r) ++ (co.runq.filter mine).map (readyRec g) }
  signalRec s c vd t

/-! Starting and choosing a task (R29, R39, R43). -/

/-- The phase a new task of a course inherits on a core (R342). -/
def Core.phaseOf (co : Core) (course : BitVec 16) : BitVec 6 :=
  match co.curPhase.find? fun p => p.1 == course with
  | some p => p.2
  | none => 0

/-- The context of a task that starts from a record (R27, R29). MXPROG, MXFADDR, WDBLK, FAULT and FADDR, which R29 does not list, start
at zero (log entry 93). -/
def startCtx (co : Core) (r : TaskRec) : Ctx :=
  let c : Ctx := {
    urs := co.ctx.urs
    pc := r.entry.setWidth 64, prio := r.prio, mark := r.mark
    coord := if r.kind = .tile then r.arg1 else BitVec.allOnes 64
    xid := if r.kind = .completion then r.xid else 0
    phaseid := co.phaseOf (markCourse r.mark)
    warn := if r.combo then wCombo else 0 }
  (c.setX 1 r.arg0).setX 2 r.arg1

/-- A record starts as a task on the core in focus (R29, R56, R162). -/
def startTask (s : State) (r : TaskRec) : State :=
  let co := { s.core with ctx := startCtx s.core r, mode := .running }
  let co := co.bump fun p => { p with tasks := p.tasks + 1 }
  let s := { s with core := co }.trace 0 (r.entry.setWidth 64)
  if r.kind = .tile then s else dropStaged s

/-- A returned or resumed context takes the core, and its bound lines are refreshed (R161, R209). -/
def startBack (s : State) (x : Ctx) : State :=
  invalidateAllBound { s with core := { s.core with ctx := x, mode := .running } }
/-- A service task starts over the register-space bytes its keystone holds (R29, R208, R240). -/
def startService (s : State) (x : Ctx) : State :=
  { s with core := { s.core with ctx := { x with urs := s.core.ctx.urs }, mode := .running } }.trace 0 x.pc

/-- A candidate of R39: priority, class rank and where it stands. -/
inductive Pick where
  | back (i : Nat)
  | svc (i : Nat)
  | run (i : Nat)
  | deque
  deriving DecidableEq, Repr

def classRank : Kind → Nat
  | .handler | .completion | .continuation => 1
  | .tile => 2
  | .fork => 3

/-- A record of the run queue ranks before the owner end of the deque at equal priority and class (R39). -/
def beforeDeque (co : Core) (r : TaskRec) : Bool :=
  r.kind != .fork || (match co.deque with
    | [] => true
    | d :: _ => r.born.ule d.born)

/-- All candidates but a steal; of equal priority and class, in the order they became ready. -/
def candidates (co : Core) : List (Nat × Nat × Pick) :=
  let queued := ((List.range co.runq.length).zip co.runq).filter (fun p => !p.2.wait)
  let pick (p : Nat × TaskRec) : Nat × Nat × Pick := (p.2.prio.toNat, classRank p.2.kind, Pick.run p.1)
  ((List.range co.back.length).zip co.back).map (fun p => (p.2.prio.toNat, 0, Pick.back p.1))
    ++ ((List.range co.svcq.length).zip co.svcq).map (fun p => (p.2.prio.toNat, 0, Pick.svc p.1))
    ++ (queued.filter fun p => beforeDeque co p.2).map pick
    ++ (match co.deque with
      | [] => []
      | r :: _ => [(r.prio.toNat, 3, Pick.deque)])
    ++ (queued.filter fun p => !beforeDeque co p.2).map pick

/-- The better of two candidates; the earlier one at a tie. -/
def better (a b : Nat × Nat × Pick) : Nat × Nat × Pick :=
  if a.1 < b.1 ∨ (a.1 = b.1 ∧ b.2.1 < a.2.1) then b else a
def bestOf : List (Nat × Nat × Pick) → Option Pick
  | [] => none
  | c :: cs => some (cs.foldl better c).2.2

/-- Whether a thief may steal a record of a victim (R43). -/
def stealable (victim thief : CoreId) (r : TaskRec) : Bool :=
  (r.sscope == 1 && sameGroup .quad victim thief) || (r.sscope == 2 && sameGroup .tile victim thief)
    || (r.sscope == 3 && sameGroup .die victim thief)

/-- The oldest eligible record of a deque, searched from the thief end (R43); the owner end is the list's head. -/
def stealFrom (victim thief : CoreId) : List TaskRec → Option (TaskRec × List TaskRec)
  | [] => none
  | r :: rs => match stealFrom victim thief rs with
    | some (x, rs') => some (x, r :: rs')
    | none => if stealable victim thief r then some (r, rs) else none

/-- Whether the device resident on a core lets it work (R208, R219). -/
def State.liveOn (s : State) (c : CoreId) : Bool :=
  match (s.vdOf c).bind s.devOf with
  | none => false
  | some d => d.state == .running

/-- Whether the owner of a deque is taking its last record: it is free, and that record is the task it selects next (R44). -/
def ownerTakes (s : State) (c : CoreId) : Bool :=
  let co := s.coreOf c
  co.mode == .idle && s.liveOn c && co.deque.length == 1 && bestOf (candidates co) == some .deque
/-- The last victim tried, by the group it lies in (R43). -/
def Core.tried (co : Core) (v : CoreId) : Core :=
  if sameGroup .quad co.id v then { co with victimQ := v.toNat }
  else if sameGroup .tile co.id v then { co with victimT := v.toNat } else { co with victimD := v.toNat }
/-- One steal request by the idle core in focus (R43, R44). -/
def stealOne (s : State) (victim : CoreId) : State :=
  let thief := s.core.id
  let s := { s with core := s.core.tried victim }
  if s.core.mode = .idle ∧ victim ≠ thief ∧ s.vdOf victim = s.vd ∧ !ownerTakes s victim then
    match stealFrom victim thief (s.coreOf victim).deque with
    | some (r, rest) => startTask (s.updCore victim fun co => { co with deque := rest }) r
    | none => s
  else s

/-- A number put into a rising list. -/
def insertNat (n : Nat) : List Nat → List Nat
  | [] => [n]
  | x :: xs => if n ≤ x then n :: x :: xs else x :: insertNat n xs

/-- Peers of one group in round-robin order after the last victim tried (R43). -/
def rotated (last : Nat) (ids : List Nat) : List Nat := ids.filter (last < ·) ++ ids.filter (· ≤ last)
def peersOf (s : State) (c : CoreId) : List CoreId :=
  let ids := (s.allCores.map (·.id)).filter fun i => i != c && coreSlot i < 32
  let quad := ids.filter fun i => sameGroup .quad c i
  let tile := ids.filter fun i => sameGroup .tile c i && !sameGroup .quad c i
  let die := ids.filter fun i => sameGroup .die c i && !sameGroup .tile c i
  let sort (l : List CoreId) : List Nat := (l.map (·.toNat)).foldr insertNat []
  ((rotated s.core.victimQ (sort quad)) ++ (rotated s.core.victimT (sort tile)) ++ (rotated s.core.victimD (sort die))).map
    (BitVec.ofNat 15)
/-- A full round of requests; one that fails leaves the core at rest until a record arrives. -/
def stealRound (s : State) : List CoreId → State
  | [] => { s with core := { s.core with resting := true } }
  | v :: vs => let s1 := stealOne s v
    if s1.core.mode = .running then s1 else stealRound s1 vs

/-- A record leaves the run queue of the core in focus; a pending signal that is due takes the free place at once (R49). -/
def takeRec (s : State) (i : Nat) : State :=
  signalRecs { s with core := { s.core with runq := s.core.runq.eraseIdx i } } s.core.id (s.vd.getD 0)

/-- The core in focus chooses its next task (R39, R40). A record in the spill area of R37 is plain data of the queue, and no word of it is
checked when it is read (log entry 97). -/
def selectTask (s : State) : State :=
  let co := s.core
  if co.mode ≠ .idle ∨ !s.liveOn co.id then s
  else match bestOf (candidates co) with
    | some (.back i) => match co.back[i]? with
      | some x => startBack { s with core := { co with back := co.back.eraseIdx i } } x
      | none => s
    | some (.svc i) => match co.svcq[i]? with
      | some x => startService { s with core := { co with svcq := co.svcq.eraseIdx i } } x
      | none => s
    | some (.run i) => match co.runq[i]? with
      | some r => startTask (takeRec s i) r
      | none => s
    | some .deque => match co.deque with
      | r :: rest => startTask { s with core := { co with deque := rest } } r
      | [] => s
    | none => if coreSlot co.id < 32 ∧ !co.resting then stealRound s (peersOf s co.id) else s

/-! Ending a task (R30, R307, R308). -/

/-- Whether END may complete: counters LD, ST, MX and GR at zero and every output stream drained (R30). -/
def endReady (c : Ctx) : Bool :=
  c.ld == 0 && c.st == 0 && c.mx == 0 && c.gr == 0 && c.streams.toList.all fun t => !t.bound || !t.out || t.buf.isEmpty

/-- The bit of a tile task set in its course's completion bitmap (R30, R35). -/
def setBitmap (s : State) (mark : Word) : State :=
  match s.vd with
  | none => s
  | some n => match s.courseOf n (markCourse mark) with
    | none => s
    | some c =>
      let i := mark.toNat % 2 ^ 33
      let a := c.bitmap + 8 * (i / 64)
      let v := bytesWord (memRead s.near a 8) ||| BitVec.ofNat 64 (2 ^ (i % 64))
      { s with near := memWrite s.near a (wordBytes v) }.endTile n mark

/-- The task of the core in focus ends: `bitmap` for the END of a tile task; a service task that still has an image under
service destroys it (R30, R307, R308). -/
def finishTask (s : State) (bitmap : Bool) : State :=
  let c := s.core.ctx
  let s := s.trace 1 c.pc
  let s := if bitmap && markIsTile c.mark && !c.svc then setBitmap s c.mark else s
  let s := detachJobs s s.core.id c.mark none
  let s := dropLocks s s.core.id c.mark
  let s := match c.svc, c.under with
    | true, some k => destroyImage s (coreTile s.core.id) k
    | _, _ => s
  { s with core := s.core.free }

/-- A barrier's expected count: the course's tile tasks placed in the core's group at the scope (R52). -/
def groupCount (c : Course) (sc : Scope) (core : CoreId) : Nat := (c.place.filter fun p => sameGroup sc core p).length

end Sys2Proof.Machine
end

