-- ==== Sys2Proof/Machine/Control.lean ====
section
/-! DEFINITION. The control family: skip word, NOP, branches and jumps, REP, END, BRK, TRAP, ERET, FMT, PHASE, WAIT, and the
row for words that encode no instruction. -/

namespace Sys2Proof.Machine

abbrev Res := Host.Outcome State Fault Refusal

/-- R248: the PC advances by 4 with no other effect; no prefix, repetition or step is touched. -/
def execSkipWord (s : State) : Res := .next (s.mapCtx fun c => { c with pc := c.pc + 4 })

/-- R340. -/
def execNop (pg : Fin 8) (s : State) : Res := issue s 8 (ignoredPg pg)

/-- R341. -/
def execPbr (pg : Fin 8) (d : Fin 4) (reg : Bool) (a : Opd) (imm : BitVec 32) (s : State) : Res :=
  issue s 12 do
    ignoredPg pg
    let off := sextW 32 imm.toNat
    if reg then do
      checkDirs [a] []
      let v ← readOpd a
      modC fun c => { c with b := c.b.set d.val ((v + off) &&& ~~~(3 : Word)) }
    else modC fun c => { c with b := c.b.set d.val (c.pc + off) }

/-- COND of format B (R256): operands the condition does not read are neither read nor popped. -/
def branchTaken (c : Cond) (a b : Opd) : M Bool :=
  let two (f : Word → Word → Bool) : M Bool := do
    checkDirs [a, b] []
    let x ← readOpd a
    let y ← readOpd b
    return f x y
  let one (f : Word → Bool) : M Bool := do
    checkDirs [a] []
    let x ← readOpd a
    warn (b != .reg 0) wCombo
    return f x
  match c with
  | .eq => two fun x y => x == y
  | .ne => two fun x y => x != y
  | .lt => two fun x y => x.slt y
  | .ge => two fun x y => !x.slt y
  | .ltn => two fun x y => x.ult y
  | .gen => two fun x y => !x.ult y
  | .zero => one fun x => x == 0
  | .nz => one fun x => x != 0
  | .neg => one fun x => x.msb
  | .nneg => one fun x => !x.msb
  | .alw => do
    warn (a != .reg 0 || b != .reg 0) wCombo
    return true
  | .sne => do
    warn (b != .reg 0) wCombo
    let s ← getS
    match a with
    | .reg _ => do
      warn true wCombo
      return false
    | .str n =>
      let t := s.core.ctx.streams[n]
      if t.bound && !t.out then return 0 < s.core.available t
      else do
        warn true wCombo
        return false

/-- R293: BR through a branch-target register. -/
def execBr (c : Cond) (_hint : Fin 3) (bt : Fin 4) (a b : Opd) (s : State) : Res :=
  issueJump s do
    let t ← branchTaken c a b
    let x ← getC
    return if t then x.b[bt] &&& ~~~(3 : Word) else x.pc + 8

/-- R293: BRI by a PC-relative word offset. -/
def execBri (c : Cond) (_hint : Fin 3) (bt : Fin 4) (a b : Opd) (off : BitVec 34) (s : State) : Res :=
  issueJump s do
    warn (bt != 0) wCombo
    let t ← branchTaken c a b
    let x ← getC
    return if t then x.pc + sextW 34 off.toNat * 4 else x.pc + 8

/-- The target that JMPR and RET take from a scalar operand (R319, R347). -/
def jumpThrough (pg : Fin 8) (a : Opd) : M Word := do
  checkDirs [a] []
  ignoredPg pg
  let v ← readOpd a
  return v &&& ~~~(3 : Word)

/-- R319. -/
def execJmpr (pg : Fin 8) (a : Opd) (s : State) : Res := issueJump s (jumpThrough pg a)

/-- R347. -/
def execRet (pg : Fin 8) (a : Opd) (s : State) : Res := issueJump s (jumpThrough pg a)

/-- R296. -/
def execCall (reg : Bool) (d a : Opd) (imm : BitVec 34) (s : State) : Res :=
  issueJump s do
    checkDirs (if reg then [a] else []) [d]
    dstEnd false d
    let c ← getC
    let off := sextW 34 imm.toNat * 4
    let target ← if reg then do
        let v ← readOpd a
        pure ((v + off) &&& ~~~(3 : Word))
      else pure (c.pc + off)
    writeOpd d (c.pc + 8)
    return target

/-- R70, R346: a repetition of the next N instructions; one met in a body ends the outer repetition. -/
def execRep (step fmask : BitVec 4) (km1 : BitVec 12) (nm1 : BitVec 4) (s : State) : Res :=
  let imm := BitVec.ofNat 34 (nm1.toNat + 16 * km1.toNat + 2 ^ 16 * fmask.toNat + 2 ^ 20 * step.toNat)
  outcome s ((do
    modC Ctx.dropPrefix
    modS fun s => stepTrap ((retireCore s).mapCtx fun c =>
      { c.endRep with pc := c.pc + 8, rep := some { imm := imm, pass := 0, idx := 0, body := [], pcs := [] } })) s)

/-- R30, R307. -/
def execEndTask (pg : Fin 8) (s : State) : Res :=
  outcome s ((do
    modC Ctx.dropPrefix
    ignoredPg pg
    let c ← getC
    if endReady c then modS fun s => finishTask { s with core := s.core.busy } true else stopStall .counter) s)

/-- R295: BREAK at its own PC, but not again in a context that took it there (R209). -/
def execBrk (_code : BitVec 34) (s : State) : Res :=
  if s.core.ctx.resumed then issue s 8 (modS id)
  else outcome s (stopTrap (trapAt .brk s.core.ctx.pc) s)

/-- R364: TRAPI after issue, with the PC of the next instruction. -/
def execTrap (code : BitVec 34) (s : State) : Res :=
  outcome s ((do
    modC Ctx.dropPrefix
    modS fun s => (retireCore s).mapCtx fun c => { c.endRep with pc := c.pc + 8 }
    stopTrapHere (trapAt .trapi (sextW 34 code.toNat))) s)

/-- The context under service sent back, or released from its debug stop, when its bound lines are refreshed (R161, R209, R238, R309). -/
def returnServiced (s : State) : State :=
  let t := coreTile s.core.id
  match s.core.ctx.under with
  | none => s
  | some k =>
    match (s.tileOf t).slots[k] with
    | .window c =>
      let s := s.updTile t fun tl => { tl with slots := tl.slots.set k.val .free }
      let x := (s.coreOf c).ctx
      onCore ((s.traceAt c 3 x.mark x.pc).updCore c fun co => { co with mode := .running }) c invalidateAllBound
    | .image _ => takeImage s t k
    | .free => s

/-- R309. -/
def execEret (pg : Fin 8) (s : State) : Res :=
  outcome s ((do
    privileged
    modC Ctx.dropPrefix
    ignoredPg pg
    let c ← getC
    if endReady c then do
      releaseDrain .pkg
      modS fun s => finishTask ((returnServiced { s with core := s.core.busy }).mapCtx fun c => { c with under := none }) false
    else stopStall .service) s)

/-- R73-R75, R315. -/
def execFmt (v : BitVec 19) (s : State) : Res :=
  outcome s ((do
    modC fun c => { (if c.pfx then c.warnOr wPfx else c) with pfx := true, pfxv := v.setWidth 32 }
    retire 8) s)

/-- The phase a course has on a core set (R342). -/
def setPhase (s : State) (n : BitVec 6) : State :=
  let course := markCourse s.core.ctx.mark
  let s := s.trace 4 (n.setWidth 64)
  { s with core := { s.core with ctx := { s.core.ctx with phaseid := n }
                                 curPhase := (course, n) :: s.core.curPhase.filter fun p => p.1 != course } }

/-- R342: the issue cycle still counts to the old phase. -/
def execPhase (n : BitVec 6) (s : State) : Res :=
  outcome s ((do
    modC Ctx.dropPrefix
    modS fun s => stepTrap (setPhase ((retireCore s).mapCtx fun c => c.advance 8) n)) s)

/-- R72, R374. -/
def execWait (ld st job mx gr : BitVec 6) (s : State) : Res :=
  issue s 8 do
    let c ← getC
    if c.ld ≤ ld && c.st ≤ st && c.job ≤ job && c.mx ≤ mx && c.gr ≤ gr then modS id else stopStall .counter

/-- R260: the word that encodes no instruction raises its trap. -/
def execIllegalOpc (k : IllegalKind) (s : State) : Res :=
  outcome s (stopTrap (trapAt (match k with | .opc => .illegalOpc | .len => .illegalLen) s.core.ctx.pc) s)

end Sys2Proof.Machine
end

