-- ==== Sys2Proof/Machine/Integer.lean ====
section
/-! DEFINITION. The integer mould (R281-R283, R329, R353): one definition of the mould, one function per operation at width
w, one meaning per instruction, and LI (R328). -/

namespace Sys2Proof.Machine

/-- The operation width w (R281). -/
def aluW (m : IMod) : Nat := 64 / 2 ^ m.w.val
/-- Extension of a result of width w (R283). -/
def aluExt (m : IMod) (r : Nat) : Word := if m.n then BitVec.ofNat 64 (r % 2 ^ aluW m) else sextW (aluW m) r
/-- An operand cut to the width. -/
def cutW (m : IMod) (v : Word) : Nat := v.toNat % 2 ^ aluW m

/-- A result written when bit 0 of the predicate is 1 (R257). -/
def putPred (p : Bool) (d : Opd) (v : Word) : M Unit := if p then writeOpd d v else modS id

/-- The mould with one, two and three sources (R283); sources are read in the order A, B, C. -/
def alu1 (m : IMod) (pg : Fin 8) (d a : Opd) (f : IMod → Nat → Word) (s : State) : Res :=
  issue s 8 do
    checkDirs [a] [d]
    let p ← predEnd pg d
    let x ← readOpd a
    putPred p d (f m (cutW m x))
def alu2 (m : IMod) (pg : Fin 8) (d a b : Opd) (f : IMod → Nat → Nat → Word) (s : State) : Res :=
  issue s 8 do
    checkDirs [a, b] [d]
    let p ← predEnd pg d
    let x ← readOpd a
    let y ← readOpd b
    putPred p d (f m (cutW m x) (cutW m y))
def alu3 (m : IMod) (pg : Fin 8) (d a b c : Opd) (f : IMod → Nat → Nat → Nat → Word) (s : State) : Res :=
  issue s 8 do
    checkDirs [a, b, c] [d]
    let p ← predEnd pg d
    let x ← readOpd a
    let y ← readOpd b
    let z ← readOpd c
    putPred p d (f m (cutW m x) (cutW m y) (cutW m z))
/-- The immediate form (R282). -/
def aluImm (m : IMod) (d a : Opd) (imm : BitVec 34) (f : IMod → Nat → Nat → Word) (s : State) : Res :=
  issue s 8 do
    checkDirs [a] [d]
    dstEnd false d
    let x ← readOpd a
    writeOpd d (f m (cutW m x) (cutW m (sextW 34 imm.toNat)))

/-- A value as the signedness of the modifier reads it. -/
def aluInt (m : IMod) (v : Nat) : Int := if m.n then (v : Int) else signedOf (aluW m) v

def opAdd (m : IMod) (a b : Nat) : Word := aluExt m (a + b)
def opSub (m : IMod) (a b : Nat) : Word := aluExt m (a + (2 ^ aluW m - b))
def opMul (m : IMod) (a b : Nat) : Word := aluExt m (a * b)
/-- Bits 2w-1:w of the exact product (R329). -/
def opMulh (m : IMod) (a b : Nat) : Word := aluExt m (wrapTo (2 * aluW m) (aluInt m a * aluInt m b) / 2 ^ aluW m)
/-- R306: all ones for a zero divisor; the quotient truncated toward zero, wrapping for -2^(w-1) / -1. -/
def opDiv (m : IMod) (a b : Nat) : Word :=
  if b = 0 then aluExt m (2 ^ aluW m - 1) else aluExt m (wrapTo (aluW m) (Int.tdiv (aluInt m a) (aluInt m b)))
/-- R330: the dividend for a zero divisor; the sign of the dividend. -/
def opRem (m : IMod) (a b : Nat) : Word :=
  if b = 0 then aluExt m a else aluExt m (wrapTo (aluW m) (Int.tmod (aluInt m a) (aluInt m b)))
def opAnd (m : IMod) (a b : Nat) : Word := aluExt m (natAnd 64 a b)
def opOr (m : IMod) (a b : Nat) : Word := aluExt m (natOr 64 a b)
def opXor (m : IMod) (a b : Nat) : Word := aluExt m (natXor 64 a b)
def opAndn (m : IMod) (a b : Nat) : Word := aluExt m (natAnd 64 a (natNot 64 b))
/-- R353: 0 when the count reaches the width. -/
def opShl (m : IMod) (a b : Nat) : Word := aluExt m (if aluW m ≤ b % 64 then 0 else a * 2 ^ (b % 64))
/-- R353: arithmetic for N = 0, logical for N = 1. -/
def opShr (m : IMod) (a b : Nat) : Word :=
  aluExt m (wrapTo (aluW m) (aluInt m a / (2 ^ (b % 64) : Nat)))
def opRot (m : IMod) (a b : Nat) : Word :=
  let k := b % 64 % aluW m
  aluExt m (a * 2 ^ k + a / 2 ^ (aluW m - k))
def opMin (m : IMod) (a b : Nat) : Word := aluExt m (if aluInt m b < aluInt m a then b else a)
def opMax (m : IMod) (a b : Nat) : Word := aluExt m (if aluInt m a < aluInt m b then b else a)
/-- R298: the result is not extended. -/
def opCmp (m : IMod) (a b : Nat) : Word :=
  if aluInt m a < aluInt m b then BitVec.allOnes 64 else if aluInt m a = aluInt m b then 0 else 1
def opSel (m : IMod) (a b c : Nat) : Word := aluExt m (if c ≠ 0 then a else b)
def opClz (m : IMod) (a : Nat) : Word := aluExt m (aluW m - bitLen a)
def opPopc (m : IMod) (a : Nat) : Word := aluExt m (popCount (aluW m) a)
/-- Field length of BFX and BFI (R291). -/
def fieldLen (w pos len : Nat) : Nat := if 0 < len ∧ pos < w then min len (w - pos) else 0
def opBfx (m : IMod) (a b c : Nat) : Word :=
  let pos := b % 64
  let n := fieldLen (aluW m) pos (c % 128)
  let f := bitsAt a pos n
  aluExt m (if m.n = false ∧ 0 < n then wrapTo (aluW m) (signedOf n f) else f)
/-- R291, over the old value of D. -/
def opBfi (m : IMod) (old a b c : Nat) : Word :=
  let pos := b % 64
  let n := fieldLen (aluW m) pos (c % 128)
  aluExt m (old - bitsAt old pos n * 2 ^ pos + a % 2 ^ n * 2 ^ pos)
def opMadd (m : IMod) (a b c : Nat) : Word := aluExt m (a * b + c)
/-- R327: a shift of w or more makes the shifted term 0. -/
def opLea (m : IMod) (a b c : Nat) : Word := aluExt m (a + (if aluW m ≤ c % 64 then 0 else b * 2 ^ (c % 64)))

/-- R285. -/
def execAdd (m : IMod) (pg : Fin 8) (d a b : Opd) (s : State) : Res := alu2 m pg d a b opAdd s
/-- R353. -/
def execSub (m : IMod) (pg : Fin 8) (d a b : Opd) (s : State) : Res := alu2 m pg d a b opSub s
/-- R329. -/
def execMul (m : IMod) (pg : Fin 8) (d a b : Opd) (s : State) : Res := alu2 m pg d a b opMul s
/-- R329. -/
def execMulh (m : IMod) (pg : Fin 8) (d a b : Opd) (s : State) : Res := alu2 m pg d a b opMulh s
/-- R306. -/
def execDiv (m : IMod) (pg : Fin 8) (d a b : Opd) (s : State) : Res := alu2 m pg d a b opDiv s
/-- R330. -/
def execRem (m : IMod) (pg : Fin 8) (d a b : Opd) (s : State) : Res := alu2 m pg d a b opRem s
/-- R286. -/
def execAnd (m : IMod) (pg : Fin 8) (d a b : Opd) (s : State) : Res := alu2 m pg d a b opAnd s
/-- R329. -/
def execOr (m : IMod) (pg : Fin 8) (d a b : Opd) (s : State) : Res := alu2 m pg d a b opOr s
/-- R376. -/
def execXor (m : IMod) (pg : Fin 8) (d a b : Opd) (s : State) : Res := alu2 m pg d a b opXor s
/-- R286. -/
def execAndn (m : IMod) (pg : Fin 8) (d a b : Opd) (s : State) : Res := alu2 m pg d a b opAndn s
/-- R353. -/
def execShl (m : IMod) (pg : Fin 8) (d a b : Opd) (s : State) : Res := alu2 m pg d a b opShl s
/-- R353. -/
def execShr (m : IMod) (pg : Fin 8) (d a b : Opd) (s : State) : Res := alu2 m pg d a b opShr s
/-- R329. -/
def execRot (m : IMod) (pg : Fin 8) (d a b : Opd) (s : State) : Res := alu2 m pg d a b opRot s
/-- R329. -/
def execMin (m : IMod) (pg : Fin 8) (d a b : Opd) (s : State) : Res := alu2 m pg d a b opMin s
/-- R329. -/
def execMax (m : IMod) (pg : Fin 8) (d a b : Opd) (s : State) : Res := alu2 m pg d a b opMax s
/-- R298. -/
def execCmp (m : IMod) (pg : Fin 8) (d a b : Opd) (s : State) : Res := alu2 m pg d a b opCmp s
/-- R285, R282. -/
def execAddImm (m : IMod) (d a : Opd) (imm : BitVec 34) (s : State) : Res := aluImm m d a imm opAdd s
/-- R286, R282. -/
def execAndImm (m : IMod) (d a : Opd) (imm : BitVec 34) (s : State) : Res := aluImm m d a imm opAnd s
/-- R329, R282. -/
def execOrImm (m : IMod) (d a : Opd) (imm : BitVec 34) (s : State) : Res := aluImm m d a imm opOr s
/-- R376, R282. -/
def execXorImm (m : IMod) (d a : Opd) (imm : BitVec 34) (s : State) : Res := aluImm m d a imm opXor s
/-- R353, R282. -/
def execShlImm (m : IMod) (d a : Opd) (imm : BitVec 34) (s : State) : Res := aluImm m d a imm opShl s
/-- R353, R282. -/
def execShrImm (m : IMod) (d a : Opd) (imm : BitVec 34) (s : State) : Res := aluImm m d a imm opShr s
/-- R329, R282. -/
def execRotImm (m : IMod) (d a : Opd) (imm : BitVec 34) (s : State) : Res := aluImm m d a imm opRot s
/-- R329, R282. -/
def execMinImm (m : IMod) (d a : Opd) (imm : BitVec 34) (s : State) : Res := aluImm m d a imm opMin s
/-- R329, R282. -/
def execMaxImm (m : IMod) (d a : Opd) (imm : BitVec 34) (s : State) : Res := aluImm m d a imm opMax s
/-- R298, R282. -/
def execCmpImm (m : IMod) (d a : Opd) (imm : BitVec 34) (s : State) : Res := aluImm m d a imm opCmp s
/-- R297. -/
def execClz (m : IMod) (pg : Fin 8) (d a : Opd) (s : State) : Res := alu1 m pg d a opClz s
/-- R329. -/
def execPopc (m : IMod) (pg : Fin 8) (d a : Opd) (s : State) : Res := alu1 m pg d a opPopc s
/-- R353. -/
def execSel (m : IMod) (pg : Fin 8) (d a b c : Opd) (s : State) : Res := alu3 m pg d a b c opSel s
/-- R291. -/
def execBfx (m : IMod) (pg : Fin 8) (d a b c : Opd) (s : State) : Res := alu3 m pg d a b c opBfx s
/-- R329. -/
def execMadd (m : IMod) (pg : Fin 8) (d a b c : Opd) (s : State) : Res := alu3 m pg d a b c opMadd s
/-- R327. -/
def execLea (m : IMod) (pg : Fin 8) (d a b c : Opd) (s : State) : Res := alu3 m pg d a b c opLea s
/-- R291: D is read before it is written; a stream in D has no old value. -/
def execBfi (m : IMod) (pg : Fin 8) (d a b c : Opd) (s : State) : Res :=
  issue s 8 do
    checkDirs [a, b, c] [d]
    let p ← predEnd pg d
    let x ← readOpd a
    let y ← readOpd b
    let z ← readOpd c
    let old ← match d with
      | .reg n => readX n
      | .str _ => pure 0
    putPred p d (opBfi m (cutW m old) (cutW m x) (cutW m y) (cutW m z))
/-- R327: PC-relative. -/
def execLeaImm (m : IMod) (d : Opd) (imm : BitVec 34) (s : State) : Res :=
  issue s 8 do
    checkDirs [] [d]
    dstEnd false d
    let c ← getC
    writeOpd d (aluExt m (cutW m (c.pc + sextW 34 imm.toNat * 4)))

/-- LI in both forms (R328). -/
def loadImm (len : Nat) (pg : Fin 8) (d : Opd) (v : Word) (s : State) : Res :=
  issue s len do
    checkDirs [] [d]
    let p ← predEnd pg d
    putPred p d v
/-- R328, format X. -/
def execLi (pg : Fin 8) (d : Opd) (imm : BitVec 32) (s : State) : Res := loadImm 12 pg d (sextW 32 imm.toNat) s
/-- R328, format L. -/
def execLiLong (pg : Fin 8) (d : Opd) (imm : BitVec 64) (s : State) : Res := loadImm 16 pg d imm s

end Sys2Proof.Machine
end

