-- ==== Sys2Proof/Machine/Mem.lean ====
section
/-! DEFINITION. The memory and ordering family: LD, ST, LDV, STV, LDG, STS, PREF, ATOM, ACQ, REL, BIND, FENCE, BAR. -/

namespace Sys2Proof.Machine

/-! Loads and stores with an ordering (R152, R323, R324, R357). -/

/-- A release's waits: the drain of every earlier write, and earlier loads returned (R156). -/
def releaseAt (sc : Scope) : M Unit := do
  releaseDrain sc
  awaitLoads

/-- The settle request: an acquire load of a held context's counter word waits until its five counters are zero (R238). -/
def settleWait (ea : Word) : M Unit := do
  let s ← getS
  let a := ea.toNat
  if s.core.ctx.svc && isMigSlot a && keyByte a % slotSize == 0x80F8 then
    match (s.tileOf (nearTile a)).slots[(Fin.ofNat 64 (migSlotOf a) : Fin 64)] with
    | .window c =>
      let x := (s.coreOf c).ctx
      if x.ld == 0 && x.st == 0 && x.job == 0 && x.mx == 0 && x.gr == 0 then modS id else stopStall .acquire
    | _ => modS id
  else modS id

/-- The bytes of a load with the ordering of R152, and whether they are an outstanding far load. -/
def loadAccess (m : MArgs) (scalar : Bool) (size : Nat) (ea : Word) : M (List Byte × Bool) := do
  let big := bigSize m.sz
  let far := !isNear ea.toNat
  let o := ordAfter true scalar big far m.ord
  modC fun c => c.warnOr (ordWarn true scalar big far m)
  whenM (ordIs15 o) (aligned ea size)
  let pl ← place ea size needR false
  let kept := !big && (m.ord == .acq || m.ord == .acqrel)
  whenM (!big && m.ord == .acqrel) (releaseAt m.scope)
  whenM (o == .lock) (lockTake ea.toNat)
  let c ← getC
  whenM far (countable c.ld)
  whenM (kept && !far) (settleWait ea)
  awaitOwn ea size
  orderReads ea size
  let bs ← readPlace pl (m.ord != .nt)
  whenM (kept && !far) (acquireAt m.scope ea)
  return (bs, far && !kept)

/-- A store with the ordering of R152. ORD 3 on a far address is performed before any later access of the task, though it
synchronises with none. -/
def storeAccess (m : MArgs) (scalar : Bool) (ea : Word) (bs : List Byte) : M Unit := do
  let big := bigSize m.sz
  let far := !isNear ea.toNat
  let o := ordAfter false scalar big far m.ord
  modC fun c => c.warnOr (ordWarn false scalar big far m)
  whenM (ordIs15 o) (aligned ea bs.length true)
  let pl ← place ea bs.length needW true
  whenM (!big && (m.ord == .rel || m.ord == .acqrel)) (releaseAt m.scope)
  awaitOwn ea bs.length
  if far && !big && m.ord == .acqrel then writeNow pl bs else writePlace pl bs
  whenM (o == .unlock) (lockDrop ea.toNat)
  whenM (o == .acqrel) (acquireAt m.scope ea)

/-- R323. -/
def execLd (d : Opd) (m : MArgs) (s : State) : Res :=
  issue s 8 do
    checkDirs [m.base, m.idx] [d]
    dstEnd false d
    let ea ← effAddr m (smallSize m.sz)
    warn (bigSize m.sz) wCombo
    let r ← loadAccess m true (smallSize m.sz) ea
    loadScalar d r.1 r.2

/-- R357: D is read after the base and index. -/
def execSt (d : Opd) (m : MArgs) (s : State) : Res :=
  issue s 8 do
    checkDirs [m.base, m.idx, d] []
    let ea ← effAddr m (smallSize m.sz)
    let v ← readOpd d
    warn (bigSize m.sz) wCombo
    storeAccess m true ea ((wordBytes v).take (smallSize m.sz))

/-- The pair of scalar types of a pending prefix that overrides A and D, when a vector load or store of `size` bytes
accepts it (R326, R359); `mem` tells which of the two is the memory type's size. -/
def vecPrefix (c : Ctx) (size : Nat) (loads : Bool) : Option (ElemTy × ElemTy) :=
  match c.pfxA.bind elemOfCode, c.pfxD.bind elemOfCode with
  | some a, some d =>
    let memSz := elemSize (if loads then a else d)
    let regSz := elemSize (if loads then d else a)
    if elemIsScal a && elemIsScal d && size % memSz == 0 && decide (size / memSz * regSz ≤ 64) then some (a, d) else none
  | _, _ => none

/-- Packed elements converted (R90), with their flags; from a floating-point type to itself a NaN becomes canonical (log entry 86). -/
def convPacked (td ts : ElemTy) (bs : List Byte) : List Byte × Flags :=
  let rs := (lanesOf (elemSize ts) bs).map (cvtScal td ts)
  (ofLanes (elemSize td) (rs.map (·.1)), rs.foldl (fun f r => f ||| r.2) 0)

/-- The prefix of a vector load or store: an accepted pair is used, any other override sets WARN.FMTTGT. -/
def vecPrefixWarn (p : Option (ElemTy × ElemTy)) : M Unit := do
  let c ← getC
  match p with
  | some _ => warn (c.pfxB.isSome || c.pfxC.isSome) wFmttgt
  | none => noOverride

/-- R326. -/
def execLdv (d : Opd) (m : MArgs) (s : State) : Res :=
  issueTarget s 8 do
    checkDirs [m.base, m.idx] [d]
    dstEnd true d
    let size := szBytes m.sz
    let ea ← effAddr m size
    let c ← getC
    let p := vecPrefix c size true
    vecPrefixWarn p
    let r ← loadAccess m false size ea
    match p with
    | some (a, t) => do
      let v := convPacked t a r.1
      loadVector d (fitBytes 64 v.1) r.2 v.2
    | none => loadVector d (fitBytes 64 r.1) r.2

/-- R359. -/
def execStv (d : Opd) (m : MArgs) (s : State) : Res :=
  issueTarget s 8 do
    checkDirs [m.base, m.idx, d] [] [false, false, true]
    let size := szBytes m.sz
    let ea ← effAddr m size
    let v ← readVec d
    let c ← getC
    let p := vecPrefix c size false
    vecPrefixWarn p
    match p with
    | some (a, t) => do
      let r := convPacked t a (v.take (size / elemSize t * elemSize a))
      raiseFp r.2
      storeAccess m false ea r.1
    | none => storeAccess m false ea (v.take size)

/-! Gathers and scatters (R325, R358). -/

/-- Lanes of an access of element type et, and each lane's address. -/
def gsLanes (et : ElemTy) : Nat := if et = .i64 then 8 else 16
def gsAddr (et : ElemTy) (bytes : Bool) (base : Word) (idx : Nat) : Word :=
  base + BitVec.ofNat 64 (idx * (if bytes then 1 else elemSize et))
/-- A check whose trap names another address (R325). -/
def trapNames {α : Type} (fa : Word) (m : M α) : M α := fun s => match m s with
  | .error (.trap t) => .error (.trap { t with faddr := fa })
  | r => r
/-- The places of the active lanes, checked in lane order; FADDR of a failure is the lane's address. -/
def lanePlaces (et : ElemTy) (bytes : Bool) (base : Word) (need : Need) (w : Bool) (ls : List (Bool × Nat)) :
    M (List (Option Place)) :=
  mapM' (fun l => if l.1 then do
      let ea := gsAddr et bytes base l.2
      let pl ← trapNames ea (place ea (elemSize et) need w)
      pure (some pl)
    else pure none) ls

/-- R325. -/
def execLdg (et : ElemTy) (bytes : Bool) (pg : Fin 8) (d a b : Opd) (s : State) : Res :=
  issueTarget s 8 do
    noPrefix
    if !elemIsScal et then warn true wCombo
    else do
      checkDirs [a, b] [d] [true]
      dstEnd true d
      let p ← readP pg
      let idx ← readVec a
      let base ← readOpd b
      let n := gsLanes et
      let act := activeLanes p n
      let lanes := act.zip (lanesOf 4 idx)
      let pls ← lanePlaces et bytes base needR false lanes
      eachM (fun l => whenM l.1 (awaitLoad (gsAddr et bytes base l.2) (elemSize et))) lanes
      let far := pls.any fun q => match q with | some pl => pl.isFar | none => false
      let vs ← mapM' (fun q => match q with
        | some pl => do
          let bs ← readPlace pl
          pure (leNat bs)
        | none => pure 0) pls
      let bs ← laneBytes d (elemSize et) act vs
      loadVector d bs far

/-- R358: lanes write in lane order, so the higher lane's bytes remain. -/
def execSts (et : ElemTy) (bytes : Bool) (pg : Fin 8) (d a b : Opd) (s : State) : Res :=
  issueTarget s 8 do
    noPrefix
    if !elemIsScal et then warn true wCombo
    else do
      checkDirs [a, b, d] [] [true, false, true]
      let p ← readP pg
      let idx ← readVec a
      let base ← readOpd b
      let v ← readVec d
      let act := activeLanes p (gsLanes et)
      let lanes := act.zip (lanesOf 4 idx)
      let pls ← lanePlaces et bytes base needW true lanes
      eachM (fun l => whenM l.1 (awaitOwn (gsAddr et bytes base l.2) (elemSize et))) lanes
      let items := pls.zip (chunksOf (elemSize et) (gsLanes et) v)
      eachM (fun q => match q.1 with
        | some (.near ea _) => writeNear ea q.2
        | _ => modS id) items
      let cells := (items.map fun q => match q.1 with
        | some (.far _ pas) => pas.zip q.2
        | _ => []).flatten
      if cells.isEmpty then modS id
      else do
        let c ← getC
        countable c.st
        let va := ((items.filterMap fun q => match q.1 with | some (.far va _) => some va | _ => none).head?).getD 0
        modC fun c => { c with st := c.st + 1, stores := c.stores ++ [{ va := va, cells := cells }] }

/-- What a prefetch does when nothing of it fails (R344). -/
def prefetchWork (ea size : Nat) (nt : Bool) : M Unit := do
  let lo := ea / 64 * 64
  let hi := (ea + size + 63) / 64 * 64
  let pl ← place (BitVec.ofNat 64 lo) (hi - lo) needR false
  match pl with
  | .near _ _ => modS id
  | .far _ pas =>
    if nt then modS id
    else do
      let s ← getS
      if (granulesOf pas).any (sealFails s s.key) then stopStall .interlock else setS (farRead s pas true).2

/-- R344: a prefetch that fails is dropped. -/
def execPref (m : MArgs) (s : State) : Res :=
  issue s 8 do
    checkDirs [m.base, m.idx] []
    let ea ← effAddr m (szBytes m.sz)
    plainOrd true m
    if !isFar ea.toNat then modS id
    else do
      let c ← getC
      countable c.ld
      let s ← getS
      match prefetchWork ea.toNat (szBytes m.sz) (m.ord == .nt) s with
      | .ok (_, s') => do
        setS s'
        modC fun c => { c with ld := c.ld + 1, loads := c.loads ++ [{ dst := .none, data := [] }] }
      | .error _ => modS id

/-! Atomics (R287-R289, R145, R146). -/

/-- The new value of an atomic, none where nothing is written, and its flags; n bits. -/
def atomNew (op : AtomOp) (n old b c : Nat) : Option Nat × Flags :=
  let x := b % 2 ^ n
  match op with
  | .add => (some ((old + x) % 2 ^ n), 0)
  | .and => (some (natAnd 64 old x), 0)
  | .or => (some (natOr 64 old x), 0)
  | .xor => (some (natXor 64 old x), 0)
  | .smin => (some (if signedOf n x < signedOf n old then x else old), 0)
  | .smax => (some (if signedOf n old < signedOf n x then x else old), 0)
  | .nmin => (some (min old x), 0)
  | .nmax => (some (max old x), 0)
  | .xchg => (some x, 0)
  | .cas => (if old = c % 2 ^ n then some x else none, 0)
  | .fadd => let r := addFV fp32 (unpack fp32 old) (unpack fp32 x); (some r.1, r.2)

/-- The read-modify-write at its place: the old bytes, and the flags that a far one raises when it completes (R302). A far one
runs at the quarry port and drops the tile's line. A word that fails its check is not written (R244, R128). -/
def atomAt (pl : Place) (f : Nat → Option Nat × Flags) : M (List Byte × Flags) := do
  let c0 ← getC
  match pl with
  | .near a n => do
    lockWait a
    let old ← readPlace pl
    let r := f (leNat old)
    match r.1 with
    | some v => ifClean c0 (writeNear a (leBytes n v))
    | none => modS id
    raiseFp r.2
    return (old, 0)
  | .far va pas => do
    let old ← readPlace pl false
    let r := f (leNat old)
    match r.1 with
    | some v => ifClean c0 (modS fun s => taskFarWrite s va (pas.zip (leBytes pas.length v)))
    | none => modS id
    modS fun s => s.updTile (coreTile s.core.id) fun tl => { tl with fcache := cacheDrop (linesOf pas) tl.fcache }
    return (old, r.2)

/-- R287. -/
def execAtom (op : AtomOp) (s4 : Bool) (ord : AtomOrd) (scope : Scope) (pg : Fin 8) (d a b c : Opd) (s : State) : Res :=
  issue s 8 do
    ignoredPg pg
    checkDirs (if op = .cas then [a, b, c] else [a, b]) [d]
    dstEnd false d
    let ea ← readOpd a
    let x ← readOpd b
    let y ← if op = .cas then readOpd c else pure 0
    let n := if s4 || op == .fadd then 4 else 8
    let far := !isNear ea.toNat
    aligned ea n true
    let pl ← place ea n needRW true
    warn (far && ord != .none) wOrder
    whenM (ord == .rel || ord == .acqrel) (releaseAt scope)
    let cx ← getC
    whenM far (countable cx.ld)
    awaitLoad ea n
    let old ← atomAt pl (fun o => atomNew op (8 * n) o x.toNat y.toNat)
    let acq := ord == .acq || ord == .acqrel
    whenM (acq && !far) (acquireAt scope ea)
    loadScalar d old.1 (far && !acq) old.2

/-- R284. -/
def execAcq (d : Opd) (m : MArgs) (s : State) : Res :=
  issue s 8 do
    checkDirs [m.base, m.idx] [d]
    dstEnd false d
    let size := smallSize m.sz
    let ea ← effAddr m size
    warn (bigSize m.sz || m.ord != .plain) wCombo
    aligned ea size
    let far := !isNear ea.toNat
    let pl ← place ea size needR false
    warn far wOrder
    let c ← getC
    whenM far (countable c.ld)
    whenM (!far) (settleWait ea)
    awaitOwn ea size
    orderReads ea size
    let bs ← readPlace pl
    whenM (!far) (acquireAt m.scope ea)
    loadScalar d bs false

/-- R345. -/
def execRel (d : Opd) (m : MArgs) (s : State) : Res :=
  issue s 8 do
    checkDirs [m.base, m.idx, d] []
    let size := smallSize m.sz
    let ea ← effAddr m size
    let v ← readOpd d
    warn (bigSize m.sz || m.ord != .plain) wCombo
    aligned ea size true
    let pl ← place ea size needW true
    warn (!isNear ea.toNat) wOrder
    releaseAt m.scope
    awaitOwn ea size
    writePlace pl ((wordBytes v).take size)

/-- R158: the answer of a binding, the new table and the WARN bits. The index answered is the number of live entries, so after a
removal an index that a live entry was given can be given again (log entry 76). -/
def bindWord (bs : List Binding) (sync base len : Word) : Word × List Binding × Warn :=
  if !(isNear sync.toNat && sync.toNat % 8 == 0) then (0x8000000000000002, bs, wOrder)
  else if 2 ^ 36 < len.toNat then (0x8000000000000003, bs, wCombo)
  else if len = 0 then
    let keep := bs.filter fun b => b.sync != sync
    (BitVec.ofNat 64 (bs.length - keep.length), keep, 0)
  else if 16 ≤ bs.length then (0x8000000000000001, bs, wCombo)
  else
    let lo := base.toNat / 64 * 64
    let hi := (base.toNat + len.toNat + 63) / 64 * 64
    (BitVec.ofNat 64 bs.length, bs ++ [{ sync := sync, base := BitVec.ofNat 64 lo, len := BitVec.ofNat 64 (hi - lo) }], 0)

/-- R158, R292. -/
def execBind (mod : BitVec 8) (pg : Fin 8) (d a b c : Opd) (s : State) : Res :=
  issue s 8 do
    ignoredPg pg
    warn (mod != 0) wCombo
    checkDirs [a, b, c] [d]
    dstEnd false d
    let sync ← readOpd a
    let base ← readOpd b
    let len ← readOpd c
    let cx ← getC
    let r := bindWord cx.binds sync base len
    modC fun x => { (x.warnOr r.2.2) with binds := r.2.1 }
    writeOpd d r.1

/-- The waits of FENCE.ACQ (R160): earlier loads return, and at DIE or wider the tile's far cache empties. -/
def fenceAcq (sc : Scope) : M Unit := do
  awaitLoads
  modS fun s =>
    if atDie sc then dropStaged (s.updTile (coreTile s.core.id) fun tl => { tl with fcache := [] }) else s

/-- R160. -/
def execFence (k : FenceKind) (scope : Scope) (s : State) : Res :=
  issue s 8 do
    match k with
    | .none => warn true wCombo
    | .rel => releaseDrain scope
    | .acq => fenceAcq scope
    | .ar => do
      releaseDrain scope
      fenceAcq scope

/-! Barriers (R52, R290). -/

/-- The number of a core's group at a scope. -/
def groupOf (sc : Scope) (c : CoreId) : Nat :=
  match sc with
  | .core => c.toNat
  | .quad => c.toNat / 4
  | .tile => (coreTile c).toNat
  | .die => coreDie c
  | .pkg | .pod | .host => 0

def Barrier.is (b : Barrier) (course : BitVec 16) (sc : Scope) (g : Nat) (i : Fin 4) : Bool :=
  b.course == course && b.scope == sc && b.group == g && b.idx == i

/-- The barrier a core's task meets, created at its first arrival. -/
def Device.barrierAt (d : Device) (c : Course) (sc : Scope) (core : CoreId) (i : Fin 4) : Barrier :=
  (d.barriers.find? fun b => b.is c.num sc (groupOf sc core) i).getD
    { course := c.num, vd := d.num, scope := sc, group := groupOf sc core, idx := i, expect := groupCount c sc core }
def putBarrier (b : Barrier) (bs : List Barrier) : List Barrier :=
  bs.filter (fun x => !(x.is b.course b.scope b.group b.idx)) ++ [b]

/-- The scope a barrier is performed at: clamped to the span. -/
def clampScope (sc span : Scope) : Scope := if scopeNum span < scopeNum sc then span else sc

/-- A task's arrival at a barrier: a release (R52), its generation remembered, the count raised. -/
def arriveBarrier (d : Device) (co : Course) (sc : Scope) (i : Fin 4) (s : State) : State :=
  let s := match releaseAt sc s with
    | .ok (_, s') => s'
    | .error _ => s
  let b := d.barrierAt co sc s.core.id i
  (s.updDev d.num fun d => { d with barriers := putBarrier { b with count := b.count + 1 } d.barriers }).mapCtx fun c =>
    { c with arrived := c.arrived ++ [(sc, i, b.gen)] }
/-- Arrival, wait and completion of a barrier at a scope wider than CORE. A task that waits has arrived, and BAR has not issued
(R66). -/
def meetBarrier (d : Device) (co : Course) (sc : Scope) (i : Fin 4) : M Unit := do
  let s ← getS
  let me := s.core.id
  match s.core.ctx.arrived.find? fun a => a.1 == sc && a.2.1 == i with
  | some a =>
    if (d.barrierAt co sc me i).gen = a.2.2 then stopStall .barrier
    else do
      modC fun c => { c with arrived := c.arrived.filter fun k => !(k.1 == sc && k.2.1 == i) }
      modS fun s => if atDie sc then dropStaged s else s
  | none => do
    releaseAt sc
    stopStallDo .barrier (arriveBarrier d co sc i)

/-- R290. -/
def execBar (scope : Scope) (idx : Fin 4) (s : State) : Res :=
  issue s 8 do
    let s ← getS
    let c := s.core.ctx
    warn (scopeNum s.spanOfTask < scopeNum scope) wScope
    if !markIsTile c.mark || c.svc then warn true wCombo
    else match s.dev with
      | none => modS id
      | some d => match s.courseOf d.num (markCourse c.mark) with
        | none => modS id
        | some co =>
          let sc := clampScope scope co.span
          if sc = .core then modS id else meetBarrier d co sc idx

end Sys2Proof.Machine
end

