-- ==== Sys2Proof/Machine/Tasks.lean ====
section
/-! DEFINITION. The task and message family: FORK, JOIN, SEND, TAGCTL, CONT (R37-R50, R299, R316, R320, R354, R361). -/

namespace Sys2Proof.Machine

/-- The number of the device on the core in focus, 0 when none is resident. -/
def State.vdNum (s : State) : Nat := s.vd.getD 0

/-- Whether a record made on a core is held for it in the mortar. -/
def heldRec (s : State) (c : CoreId) : Bool :=
  s.mortar.any fun m => m.dst == c && match m.body with | .record _ => true | _ => false
/-- A record given to a core's run queue, or held in the mortar while the queue and its spill area are full, or an older one is
held there (R37, R164). -/
def giveRec (s : State) (c : CoreId) (vd : Nat) (r : TaskRec) : State :=
  if (s.coreOf c).hasRoomLeft && !heldRec s c then queueRec s c r
  else { s with mortar := s.mortar ++ [{ src := c, dst := c, vd := vd, body := .record r, course := markCourse r.mark }] }

/-- The words of a join block's record that hardware finds uncorrectable (R244). -/
def recordPoison (s : State) (blk : Nat) : List Nat :=
  ([8, 16, 24, 32].map (nearWrap blk)).filter fun a => poisoned s a 8
/-- The continuation of a join block, queued on the block's core (R45, R46). An uncorrectable word of the record raises MCHECK in the
task in focus, and gives no bytes that the manual names (R244, log entry 91). -/
def continuation (s : State) (vd : Nat) (course : BitVec 16) (blk : Nat) : State :=
  let c := ownerCore blk
  let word (off : Nat) : Word := bytesWord (nearBytes s (nearWrap blk off) 8)
  let w0 := (word 8).toNat
  let p := bitsAt w0 51 7
  let r : TaskRec := { kind := .continuation, prio := clampPrio p, entry := entryOf w0, mark := freshMark s c vd course
                       arg0 := word 24, arg1 := word 32, combo := 119 < p }
  let s := match recordPoison s blk with
    | [] => s
    | ws => { s with fresh := s.fresh + 1 }.mapCtx (·.holdAll (ws.map fun a => trapNat .mcheck a))
  countCreation (giveRec s c vd r) c

/-- The steal scope code of a record (R42) and whether it was clamped. -/
def stealScope (ss span : Scope) : BitVec 3 × Bool :=
  let n := scopeNum ss
  (BitVec.ofNat 3 (min (min n 3) (scopeNum span)), 4 ≤ n || scopeNum span < n)

/-- A fork record placed (R41), and the code FORK returns. -/
def placeFork (s : State) (r : TaskRec) : Word × State :=
  let r := { r with born := s.time }
  if s.core.deque.length < 64 then
    (0, countCreation { s with core := { s.core with deque := r :: s.core.deque } } s.core.id)
  else if s.core.hasRoomLeft then (1, countCreation (queueRec s s.core.id { r with sscope := 0 }) s.core.id)
  else (2, s)

/-- R316, R317. -/
def execFork (inh : Bool) (ss : Scope) (pg : Fin 8) (d a b c : Opd) (imm : BitVec 32) (s : State) : Res :=
  issue s 12 do
    ignoredPg pg
    checkDirs (if inh then [a, b] else [a, b, c]) [d]
    dstEnd false d
    let x ← readOpd a
    let y ← readOpd b
    let cx ← getC
    let p ← if inh then pure (cx.prio.setWidth 64) else readOpd c
    warn (!inh && 119 < p.toNat) wCombo
    let s ← getS
    let span := s.spanOfTask
    releaseAt span
    let sc := stealScope ss span
    warn sc.2 wScope
    let s ← getS
    let r : TaskRec := { kind := .fork, sscope := sc.1, prio := if inh then cx.prio else clampPrio p.toNat
                         entry := entryOf (cx.pc + sextW 32 imm.toNat).toNat
                         mark := freshMark s s.core.id s.vdNum (markCourse cx.mark), arg0 := x, arg1 := y }
    let q := placeFork s r
    setS q.2
    writeOpd d q.1

/-- The address rule of a join counter (R320). -/
def joinPlace (ea : Word) : M Unit := do
  aligned ea 8 true
  let s ← getS
  if 2 ^ 48 ≤ ea.toNat then stopTrap (trapNat .pageProt ea.toNat true)
  else if isNull ea.toNat then stopTrap (trapNat .pageNp ea.toNat true)
  else if nearPlain s ea.toNat then modS id else stopTrap (trapNat .nearBounds ea.toNat true)

/-- R320, R46. -/
def execJoin (d : Opd) (m : MArgs) (s : State) : Res :=
  issue s 8 do
    checkDirs [m.base, m.idx] [d]
    dstEnd false d
    let ea ← effAddr m 8
    warn (szBytes m.sz != 8 || m.ord != .plain) wCombo
    joinPlace ea
    releaseAt m.scope
    let c0 ← getC
    let bs ← readPlace (.near ea.toNat 8)
    let old := bytesWord bs
    ifClean c0 do
      warn (old == 0) wCombo
      whenM (old != 0) (writeNear ea.toNat (wordBytes (old - 1)))
      modS fun s => if old = 1 then continuation s s.vdNum (markCourse s.core.ctx.mark) ea.toNat else s
    writeOpd d old

/-- Whether the message log of a core's context in a paused or evicted device is full (R166). -/
def logFull (s : State) (vd : Nat) (c : CoreId) : Bool :=
  match s.devOf vd with
  | none => false
  | some d => match d.saves.find? fun r => r.core.id == c with
    | none => false
    | some r => 1024 ≤ r.log.length

/-- SEND's destination and message (R355). -/
def sendMsg (queue rel : Bool) (scope : Scope) (target : Fin 64) (pg : Fin 8) (a : Opd) (payload : M Word)
    (len : Nat) (srcs : List Opd) (s : State) : Res :=
  issue s len do
    ignoredPg pg
    checkDirs srcs []
    let x ← readOpd a
    let v ← payload
    warn (!rel && scope != .core) wCombo
    let dst : CoreId := BitVec.ofNat 15 x.toNat
    let s ← getS
    if !s.inPartition (coreTile dst) || 48 ≤ (coreTile dst).toNat % 64 || 32 ≤ coreSlot dst then
      stopTrap (trapAt .nearBounds x)
    else do
      warn (2 ^ 15 ≤ x.toNat) wCombo
      whenM rel (releaseAt scope)
      let s ← getS
      if logFull s s.vdNum dst then stopStall .backpressure
      else
        let body : MsgBody := if queue then .queue (Fin.ofNat 8 target.val) v else .tag target v
        modS fun s => { s with mortar := s.mortar ++ [{ src := s.core.id, dst := dst, vd := s.vdNum, body := body,
                                                         course := markCourse s.core.ctx.mark }] }

/-- R354, R355. -/
def execSend (queue rel : Bool) (scope : Scope) (target : Fin 64) (pg : Fin 8) (a b : Opd) (s : State) : Res :=
  sendMsg queue rel scope target pg a (readOpd b) 8 [a, b] s
/-- R354, R355. -/
def execSendImm (queue rel : Bool) (scope : Scope) (target : Fin 64) (pg : Fin 8) (a : Opd) (imm : BitVec 32) (s : State) : Res :=
  sendMsg queue rel scope target pg a (pure (imm.setWidth 64)) 12 [a] s

/-- A core's tag changed. -/
def State.updTag (s : State) (t : Fin 64) (f : Tag → Tag) : State :=
  { s with core := { s.core with tags := s.core.tags.set t.val (f s.core.tags[t]) } }

/-- R362, R49. -/
def tagAction (act : TagAct) (t : Fin 64) (x : Word) (prio : BitVec 7) : M Unit := do
  let s ← getS
  let g := s.core.tags[t]
  match act with
  | .config => do
    warn (2 ^ 48 ≤ x.toNat || 119 < prio.toNat) wCombo
    modS fun s => s.updTag t fun g =>
      { g with handler := entryOf x.toNat, prio := clampPrio prio.toNat, course := markCourse s.core.ctx.mark
               en := if x.toNat % 2 ^ 48 = 0 then false else g.en }
  | .setEn => if g.handler = 0 then warn true wCombo else modS fun s => enableTag s s.core.id s.vdNum t
  | .clrEn => modS fun s => s.updTag t fun g => { g with en := false }
  | .setPend => modS fun s => signalRec (s.updTag t fun g => { g with signal := true }) s.core.id s.vdNum t
  | .clrPend => modS fun s => s.updTag t fun g => { g with signal := false }

/-- R361, R362. -/
def execTagctl (act : TagAct) (d a : Opd) (tag : Fin 64) (prio : BitVec 7) (s : State) : Res :=
  issue s 8 do
    checkDirs (if act = .config then [a] else []) [d]
    dstEnd false d
    let x ← if act = .config then readOpd a else pure 0
    let s ← getS
    let before := b2n s.core.tags[tag].en + 2 * b2n (s.core.pendBit tag)
    tagAction act tag x prio
    writeOpd d (BitVec.ofNat 64 before)

/-- R299, R300. -/
def execCont (pg : Fin 8) (d a b c : Opd) (imm : BitVec 32) (s : State) : Res :=
  issue s 12 do
    ignoredPg pg
    checkDirsX [a, b, c] d
    let ea ← readOpd a
    let count ← readOpd b
    let arg0 ← readOpd c
    let arg1 ← readOpd d
    aligned ea 8 true
    let s ← getS
    let blk := ea.toNat
    if nearPlain s blk && nearPlain s (nearWrap blk 39) then do
      awaitOwn ea 40
      let cx := s.core.ctx
      let entry := (cx.pc + sextW 32 imm.toNat).toNat % 2 ^ 48
      writeNear (nearWrap blk 8) (wordBytes (BitVec.ofNat 64 (cx.prio.toNat * 2 ^ 51 + 4 * 2 ^ 48 + entry)))
      writeNear (nearWrap blk 16) (zeroBytes 8)
      writeNear (nearWrap blk 24) (wordBytes arg0)
      writeNear (nearWrap blk 32) (wordBytes arg1)
      releaseAt (narrowest s.core.id (ownerCore blk))
      if count = 0 then modS fun s => continuation s s.vdNum (markCourse s.core.ctx.mark) blk
      else writeNear blk (wordBytes count)
    else stopTrap (trapNat .nearBounds blk true)

end Sys2Proof.Machine
end

