-- ==== Sys2Proof/Machine/Streams.lean ====
section
/-! DEFINITION. Streams and control registers: SBIND, SUNB, SSTAT (R64-R69, R350-R360), RGATH (R348, R349), CRR and CRW
(R76, R301, R302, R208), and the step of a stream's transfer unit (R67). -/

namespace Sys2Proof.Machine

/-! Binding and unbinding (R64). -/

/-- SUNB: an output stream waits until its pushes are written, with reason stream, for which the table of R23 has no row (log entry 101);
then the stream is unbound, also one that a queued GEXP has still to fill (log entry 44). -/
def unbind (n : Fin 8) : M Unit := do
  let c ← getC
  let t := c.streams[n]
  if t.bound && t.out && !t.buf.isEmpty then stopStall .stream
  else do
    modS fun s => detachJobs s s.core.id s.core.ctx.mark (some n)
    modS fun s => s.mapCtx fun c =>
      let mine (g : Gather) : Bool := g.dst == some n
      { c with streams := c.streams.set n.val {}, ld := if c.gathers.any mine then c.ld - 1 else c.ld
               gathers := c.gathers.filter fun g => !mine g }

/-- The header and dimensions of a pattern descriptor (R134): element size, counts and strides; none when degenerate. -/
def patternOf (hdr : Nat) (dims : List (List Byte)) : Option (Nat × List Nat × List Int) :=
  let counts := dims.map fun d => leNat (d.take 4)
  if hdr % 16 = 0 ∨ 10 < hdr % 16 ∨ counts.contains 0 then none
  else some (2 ^ bitsAt hdr 4 2, counts, dims.map fun d => signedOf 64 (leNat (d.drop 8)))

/-- The pattern binding of KIND 0 (R351). HDR bits 63:6 and the reserved words of the descriptor are not looked at, whatever they
hold (log entry 77). -/
def bindPattern (n : Fin 8) (out : Bool) (desc base : Word) : M Unit := do
  unbind n
  aligned desc 8
  awaitLoad desc 8
  let h ← loadBytes desc 8
  let hdr := leNat h
  let nd := if 10 < hdr % 16 then 0 else hdr % 16
  awaitLoad desc (8 + 16 * nd)
  let dims ← mapM' (fun d => loadBytes (addrPlus desc (8 + 16 * d)) 16) (List.range nd)
  match patternOf hdr dims with
  | none => do
    warn true wPattern
    modStream n fun _ => { bound := true, out := out, kind := .pattern, esz := 2 ^ bitsAt hdr 4 2, base := base }
  | some (esz, counts, strides) =>
    modStream n fun _ => { bound := true, out := out, kind := .pattern, esz := esz, base := base, counts := counts
                           strides := strides, total := counts.foldl (· * ·) 1 }

def Job.type (j : Job) : Nat := leNat (j.card.take 2)
def Job.xid (j : Job) : Nat := leNat ((j.card.drop 4).take 4)

/-- The expander binding of KIND 2 (R352): the earliest accepted EXPAND or CONVERT job of the tile with the XID. -/
def bindExpander (n : Fin 8) (esz : Nat) (xid : Nat) : M Unit := do
  unbind n
  let s ← getS
  let tl := s.tileOf (coreTile s.core.id)
  let fits (j : Job) : Bool := (j.type == 7 || j.type == 4) && j.xid == xid && some j.vd == s.vd && j.state != .ended
    && j.count == 0 && j.stream.isNone
  match tl.jobs.find? fits with
  | none => do
    warn true wCombo
    modStream n fun _ => { bound := true, kind := .expander, esz := esz, closed := true, arg := xid }
  | some j => do
    modS fun s => s.updTile tl.id fun tl =>
      { tl with jobs := tl.jobs.map fun k => if k.seq = j.seq then { k with stream := some (s.core.id, n), smark := s.core.ctx.mark } else k }
    modStream n fun _ => { bound := true, kind := .expander, esz := esz, arg := xid }

/-- R350-R352. -/
def execSbind (k : BindKind) (out : Bool) (esz : Fin 4) (pg : Fin 8) (d : Fin 8) (a b : Opd) (s : State) : Res :=
  issue s 8 do
    ignoredPg pg
    checkDirs (if k = .pattern then [a, b] else [a]) []
    let x ← readOpd a
    match k with
    | .pattern => do
      let base ← readOpd b
      warn (esz != 0) wCombo
      bindPattern d out x base
    | .queue => do
      warn (out || 8 ≤ x.toNat) wCombo
      unbind d
      modStream d fun _ => { bound := true, kind := .queue, esz := 2 ^ esz.val, arg := x.toNat % 8 }
    | .expander => do
      warn out wCombo
      bindExpander d (2 ^ esz.val) (x.toNat % 2 ^ 32)

/-- R360. -/
def execSunb (pg : Fin 8) (d : Fin 8) (s : State) : Res :=
  issue s 8 do
    ignoredPg pg
    unbind d

/-- The SSTAT word of a stream (R356). -/
def sstatWord (co : Core) (t : Stream) : Word :=
  if !t.bound then 0
  else
    let room := (bufLimit - t.buf.length * t.esz) / t.esz
    let avail := if t.out then min room (t.total - t.done) else co.available t
    let ended := if t.out then decide (t.total ≤ t.done) else match t.kind with
      | .pattern => decide (t.total ≤ t.moved)
      | .gather => t.closed || decide (t.total ≤ t.moved)
      | .expander => t.closed
      | .queue => false
    BitVec.ofNat 64 (2 ^ 63 + b2n t.out * 2 ^ 62 + streamKindCode t.kind * 2 ^ 60 + Nat.log2 t.esz * 2 ^ 58 + b2n ended * 2 ^ 57
      + t.done % 2 ^ 32 * 2 ^ 16 + avail % 2 ^ 16)

/-- R356. -/
def execSstat (pg : Fin 8) (d : Opd) (n : Fin 8) (s : State) : Res :=
  issue s 8 do
    ignoredPg pg
    checkDirs [] [d]
    dstEnd false d
    let s ← getS
    writeOpd d (sstatWord s.core s.core.ctx.streams[n])

/-! Indexed gathers (R348, R349). -/

/-- The checks on a near buffer of RGATH. -/
def gatherBuffer (buf : Word) (size count : Nat) : M Unit := do
  let s ← getS
  aligned buf (min size 8) true
  let last := addrPlus buf (size * count - 1)
  if count = 0 then modS id
  else if !(isNear buf.toNat && nearOk s buf.toNat) then stopTrap (trapNat .nearBounds buf.toNat true)
  else if !(isNear last.toNat && nearOk s last.toNat) then stopTrap (trapNat .nearBounds last.toNat true)
  else modS id

/-- R348, R349. -/
def execRgath (pg : Fin 8) (d a b c : Opd) (s : State) : Res :=
  issue s 8 do
    ignoredPg pg
    checkDirs [a, b, c] []
    let list ← readOpd a
    let base ← readOpd b
    let x ← readOpd c
    let count := x.toNat % 2 ^ 32
    let size := bitsAt x.toNat 32 13
    let dst : Option (Fin 8) := match d with | .str n => some n | .reg _ => none
    if size = 0 || 4096 < size || 2 ^ 45 ≤ x.toNat || (dst.isSome && 8 < size) then warn true wCombo
    else do
      let buf ← match d with
        | .reg n => readX n
        | .str _ => pure 0
      aligned list 4
      awaitLoad list (4 * count)
      let bs ← if count = 0 then pure [] else loadBytes list (4 * count)
      whenM dst.isNone (gatherBuffer buf size count)
      -- R149, R349: the elements are read as plain loads
      eachM (fun i => awaitLoad (addrPlus base (i * size)) size) (lanesOf 4 bs)
      match dst with
      | some n => do
        unbind n
        modStream n fun _ => { bound := true, kind := .gather, esz := size, base := base, total := count, arg := list.toNat
                               closed := count == 0 }
      | none => modS id
      let c ← getC
      countable c.ld
      if count = 0 then modS id
      else modC fun c => { c with ld := c.ld + 1
                                  gathers := c.gathers ++ [{ idx := lanesOf 4 bs, base := base, size := size, count := count
                                                             dst := dst, buf := buf }] }

/-! Control registers (R76-R79, R301, R302). -/

/-- The bytes of register n of the context under service, when there is one (R208). -/
def serviceReg (s : State) (n : Nat) : Option Nat :=
  if s.core.ctx.svc then s.core.ctx.under.map fun k => slotAddr (coreTile s.core.id) k.val + 0x8000 + 8 * n else none

/-- R301, R302. -/
def execCrr (d : Opd) (reg : Fin 26) (s : State) : Res :=
  issue s 8 do
    checkDirs [] [d]
    dstEnd false d
    let s ← getS
    let v ← match serviceReg s reg.val with
      | some a => do
        let bs ← readPlace (.near a 8)
        pure (bytesWord bs)
      | none => pure (crValue s.time s.core s.core.ctx reg.val)
    writeOpd d v

/-- What a CRW stores: none for RESERVED_BITS, else the registers written with their values, and the WARN bits (R76). `svc`:
the write is made in service mode; `dbg`: the policy allows debug; `sr`: the SR word before. -/
def crwEffect (svc dbg : Bool) (sr : Word) (n : Nat) (v : Word) : Option (List (Nat × Word)) × Warn :=
  let view (f : Word → Word) : Option (List (Nat × Word)) × Warn :=
    if 2 ^ 31 ≤ v.toNat || bitAt v.toNat 15 then (none, 0) else (some [(n, f v)], warnIf (f v != v) wView)
  let withPrio (sr : Word) (p : Nat) : Word :=
    BitVec.ofNat 64 (sr.toNat - bitsAt sr.toNat 43 7 * 2 ^ 43 + p * 2 ^ 43)
  match n with
  | 0 =>
    if svc then
      let p := bitsAt v.toNat 43 7
      let w := withPrio sr p
      let w := BitVec.ofNat 64 (w.toNat - b2n (bitAt w.toNat 32) * 2 ^ 32 + b2n (bitAt v.toNat 32) * 2 ^ 32)
      (some [(0, w), (18, BitVec.ofNat 64 p)], 0)
    else (some [], 0)
  | 1 => (some [(1, BitVec.ofNat 64 (v.toNat % 2 ^ 8))], 0)
  | 2 => (some [(2, BitVec.ofNat 64 (v.toNat % 2 ^ 5))], 0)
  | 3 => (some [(3, BitVec.ofNat 64 (v.toNat % 2 ^ 32))], 0)
  | 7 => view clampV
  | 8 => view clampM
  | 9 => view clampA
  | 10 => view clampP
  | 11 | 12 | 13 | 14 | 15 => (some (if svc then [(n, v)] else []), 0)
  | 18 =>
    let top := if svc then 127 else 119
    let p := min v.toNat top
    (some [(18, BitVec.ofNat 64 p), (0, withPrio sr p)], warnIf (top < v.toNat) wCombo)
  | 21 | 23 =>
    if !dbg then (some [], wCombo)
    else if 2 ^ 49 ≤ v.toNat || (n == 23 && bitAt v.toNat 48) then (none, 0)
    else (some [(n, v)], 0)
  | 22 | 24 => if !dbg then (some [], wCombo) else (some [(n, v)], 0)
  | 25 => if 2 ≤ v.toNat then (none, 0) else (some [(25, v)], 0)
  | _ => (some [], 0)

/-- A register of the core's own context written. -/
def setCr (s : State) (n : Nat) (v : Word) : State :=
  match n with
  | 0 => s.mapCtx fun c => { c with pfx := bitAt v.toNat 32 }
  | 1 => s.mapCtx fun c => { c with warn := v.setWidth 8 }
  | 2 => s.mapCtx fun c => { c with fpf := v.setWidth 5 }
  | 3 => s.mapCtx fun c => { c with xid := v.setWidth 32 }
  | 7 => s.mapCtx fun c => { c with vwV := v }
  | 8 => s.mapCtx fun c => { c with vwM := v }
  | 9 => s.mapCtx fun c => { c with vwA := v }
  | 10 => s.mapCtx fun c => { c with vwP := v }
  | 11 => s.mapCtx fun c => { c with mxprog := v }
  | 12 => s.mapCtx fun c => { c with mxfaddr := v }
  | 13 => s.mapCtx fun c => { c with wdblk := v }
  | 14 => s.mapCtx fun c => { c with fault := v }
  | 15 => s.mapCtx fun c => { c with faddr := v }
  | 18 => s.mapCtx fun c => { c with prio := v.setWidth 7 }
  | 21 => { s with core := { s.core with bkpt := s.core.bkpt.set 0 v } }
  | 22 => { s with core := { s.core with bkpt := s.core.bkpt.set 1 v } }
  | 23 => { s with core := { s.core with bkpt := s.core.bkpt.set 2 v } }
  | 24 => { s with core := { s.core with bkpt := s.core.bkpt.set 3 v } }
  | 25 => s.mapCtx fun c => { c with lutsel := v.setWidth 1 }
  | _ => s

/-- First byte and length of the range a view covers (R60). -/
def viewRange (cnt sz : Nat) (w : Word) : Nat × Nat :=
  (w.toNat % 2 ^ 15, (cnt - 1) * (w.toNat / 2 ^ 16 % 2 ^ 15) + sz)
def viewSize (n : Nat) : Nat × Nat := if n = 7 then (32, 64) else if n = 8 then (8, 1056) else if n = 9 then (4, 4096) else (8, 8)

/-- The context a CRW writes: that under service when it is held under the debugger, whose work runs on (R208, R238), or the core's
own. -/
def crwCtx (s : State) : Core :=
  match s.core.ctx.svc, s.core.ctx.under with
  | true, some k => match (s.tileOf (coreTile s.core.id)).slots[k] with
    | .window c => s.coreOf c
    | _ => s.core
  | _, _ => s.core
/-- R63: a view write waits for outstanding work of the context on its old and its new range. -/
def viewWait (n : Nat) (c : Ctx) (old new : Word) : M Unit := do
  let z := viewSize n
  let a := viewRange z.1 z.2 old
  let b := viewRange z.1 z.2 new
  if c.pendingWrite a.1 a.2 || c.pendingWrite b.1 b.2 then stopStall .interlock else modS id

/-- R301, R76. A view register of a held context waits like the core's own (R63). -/
def execCrw (reg : Fin 26) (a : Opd) (s : State) : Res :=
  issue s 8 do
    checkDirs [a] []
    let v ← readOpd a
    let s ← getS
    let svc := s.core.ctx.svc
    let dbg := match s.dev with | some d => d.policy.debug | none => false
    let sr ← match serviceReg s 0 with
      | some p => do
        let bs ← readPlace (.near p 8)
        pure (bytesWord bs)
      | none => pure s.core.ctx.sr
    match crwEffect svc dbg sr reg.val v with
    | (none, _) => stopTrap (trapAt .reservedBits s.core.ctx.pc)
    | (some ws, w) => do
      modC fun c => c.warnOr w
      eachM (fun p => match serviceReg s p.1 with
        | some at_ => do
          let co := crwCtx s
          whenM (7 ≤ p.1 && p.1 ≤ 10 && co.id != s.core.id) (viewWait p.1 co.ctx (crValue s.time co co.ctx p.1) p.2)
          writeNear at_ (wordBytes p.2)
        | none => do
          whenM (7 ≤ p.1 && p.1 ≤ 10) (viewWait p.1 s.core.ctx (crValue s.time s.core s.core.ctx p.1) p.2)
          modS fun s => setCr s p.1 p.2) ws

/-! The transfer unit (R67, R351). -/

/-- One element of an input pattern fetched into the buffer; a fault on it, a failed check among them, is held for the pop that
reaches it (R204). What the task pushed to the same bytes before is written first (R149). -/
def refillOne (n : Fin 8) (s : State) : State :=
  let t := s.core.ctx.streams[n]
  let hold (s : State) (h : Trap) : State := s.mapCtx fun c => { c with streams := c.streams.set n.val { t with held := some h } }
  if t.total ≤ t.moved ∨ bufLimit < (t.buf.length + 1) * t.esz ∨ t.held.isSome ∨ ownPending s (t.addrOf t.moved).toNat t.esz then s
  else match judged (loadBytes (t.addrOf t.moved) t.esz 3) s with
    | .ok (bs, ts, s') => match ts with
      | h :: _ => hold s h
      | [] => s'.mapCtx fun c =>
        { c with streams := c.streams.set n.val { t with buf := t.buf ++ [bs], moved := t.moved + 1 } }
    | .error (.trap h) => hold s h
    | .error _ => s

/-- One element moved by the transfer unit of a pattern stream. -/
def transferOne (n : Fin 8) (s : State) : State :=
  let t := s.core.ctx.streams[n]
  if !t.bound || t.kind != .pattern then s
  else if t.out then match drainElem n s with
    | .ok s' => s'
    | .error h => s.mapCtx fun c => c.hold { h with unit := 3 }
  else refillOne n s

/-- R67. -/
def execStreamTransfer (c : CoreId) (n : Fin 8) (s : State) : Res := eventStep (onCore s c (transferOne n))

end Sys2Proof.Machine
end

