-- ==== Sys2Proof/Machine/Vector.lean ====
section
/-! DEFINITION. The vector family: the elementwise mould of VALU with the conversions of a pending prefix (R365-R368), and
VRED, VSCAN, VPERM, VCVT, VLUT and VSRP (R369-R373). -/

namespace Sys2Proof.Machine

/-! Lane functions: operands are the lane's bits at the width of ET (R366). -/

def laneW (et : ElemTy) : Nat := 8 * elemSize et
/-- An integer result modulo 2^w, or a floating-point result. -/
def laneArith (et : ElemTy) (i : Int) (fp : Fmt → Nat × Flags) : Nat × Flags :=
  if elemIsInt et then (wrapTo (laneW et) i, 0) else fp (elemFmt et)
def laneFV (et : ElemTy) (v : Nat) : FV := unpack (elemFmt et) v
def laneAdd (et : ElemTy) (a b : Nat) : Nat × Flags := laneArith et (a + b) fun f => addFV f (laneFV et a) (laneFV et b)
def laneSub (et : ElemTy) (a b : Nat) : Nat × Flags :=
  laneArith et ((a : Int) - b) fun f => subFV f (laneFV et a) (laneFV et b)
def laneMul (et : ElemTy) (a b : Nat) : Nat × Flags := laneArith et (a * b) fun f => mulFV f (laneFV et a) (laneFV et b)
def laneFma (et : ElemTy) (a b c : Nat) : Nat × Flags :=
  laneArith et (a * b + c) fun f => fmaFV f (laneFV et a) (laneFV et b) (laneFV et c)
def laneMinMax (isMax : Bool) (et : ElemTy) (a b : Nat) : Nat × Flags :=
  if elemIsInt et then
    let lt := intOf et b < intOf et a
    (if lt = isMax then a else b, 0)
  else minmaxFV (elemFmt et) isMax (laneFV et a) (laneFV et b)
def laneBits (f : Nat → Nat → Nat → Nat) (_et : ElemTy) (a b : Nat) : Nat × Flags := (f 64 a b, 0)
def laneShl (et : ElemTy) (a b : Nat) : Nat × Flags :=
  (if laneW et ≤ b % 64 then 0 else a * 2 ^ (b % 64) % 2 ^ laneW et, 0)
def laneShr (et : ElemTy) (a b : Nat) : Nat × Flags := (wrapTo (laneW et) (intOf et a / (2 ^ (b % 64) : Nat)), 0)
def laneSadd (et : ElemTy) (a b : Nat) : Nat × Flags := (wrapTo (laneW et) (saturate et (intOf et a + intOf et b)), 0)
/-- A floating-point lane with its sign bit changed; a NaN is canonical. -/
def laneSign (et : ElemTy) (a : Nat) (neg : Bool) : Nat × Flags :=
  let v := laneFV et a
  if fvIsNan v then (fmtNan (elemFmt et), snanFlag [v])
  else (a % 2 ^ (laneW et - 1) + b2n neg * 2 ^ (laneW et - 1), 0)
def laneAbs (et : ElemTy) (a : Nat) : Nat × Flags :=
  if elemIsInt et then (wrapTo (laneW et) (intOf et a).natAbs, 0) else laneSign et a false
def laneNeg (et : ElemTy) (a : Nat) : Nat × Flags :=
  if elemIsInt et then (wrapTo (laneW et) (-(a : Int)), 0) else laneSign et a (!bitAt a (laneW et - 1))
def laneMov (_et : ElemTy) (a : Nat) : Nat × Flags := (a, 0)
def laneSel (_et : ElemTy) (a b c : Nat) : Nat × Flags := (if c ≠ 0 then a else b, 0)

/-! Prefix conversions of the mould (R367). -/

/-- The type an override gives an operand: none when there is no override, the operand's own type with false when the
override is not accepted. -/
def overrideOf (et : ElemTy) (code : Option Nat) : ElemTy × Bool :=
  match code with
  | none => (et, true)
  | some k => match elemOfCode k with
    | some t => if elemIsScal t && decide (elemSize t ≤ elemSize et) then (t, true) else (et, false)
    | none => (et, false)

/-- One element in the format of an operand or result: converted (R90). R90 has no row from a type to itself: an override that names
the operand's own type changes no bit (DEDUCED, log entry 86). -/
def laneCvt (td ts : ElemTy) (v : Nat) : Nat × Flags := if td = ts then (v, 0) else cvtScal td ts v

/-- The first L elements of a source read at the width of t and converted to ET. -/
def srcLanes (et t : ElemTy) (bs : List Byte) : List (Nat × Flags) :=
  ((lanesOf (elemSize t) bs).take (64 / elemSize et)).map (laneCvt et t)

/-- Rows of the k-th lanes of the sources. -/
def laneRows (l : Nat) (srcs : List (List (Nat × Flags))) : List (List Nat × Flags) :=
  (List.range l).map fun i =>
    let vs := srcs.map fun xs => nth xs i (0, 0)
    (vs.map (·.1), vs.foldl (fun f v => f ||| v.2) 0)

/-- Whether the prefix overrides something the function does not accept: sources beyond those it has, sources or a
destination with a type it does not take. -/
def badOverride (et : ElemTy) (codes : List (Option Nat)) (n : Nat) (dst : Option Nat) (dstOk : Bool) : Bool :=
  ((codes.take n).any fun c => !(overrideOf et c).2) || (codes.drop n).any (·.isSome)
    || (if dstOk then !(overrideOf et dst).2 else dst.isSome)

/-- The results of a function on all lanes: bits and flags. -/
def laneResults (et : ElemTy) (c : Ctx) (vs : List (List Byte)) (f : List Nat → Nat × Flags) : List (Nat × Flags) :=
  let codes := [c.pfxA, c.pfxB, c.pfxC]
  let srcs := (vs.zip codes).map fun p => srcLanes et (overrideOf et p.2).1 p.1
  (laneRows (64 / elemSize et) srcs).map fun r =>
    let q := f r.1
    (q.1, r.2 ||| q.2)

/-- Flags of the active lanes. -/
def activeFlags (act : List Bool) (rs : List (Nat × Flags)) : Flags :=
  (act.zip rs).foldl (fun f p => if p.1 then f ||| p.2.2 else f) 0

/-- A source of the mould: a vector, or for VBCAST a scalar repeated in every lane at the width the source is read at. -/
def mouldSource (et : ElemTy) (c : Ctx) (scalar : Bool) (o : Opd) : M (List Byte) :=
  if scalar then do
    let x ← readOpd o
    let w := elemSize (overrideOf et c.pfxA).1
    return ((List.range (64 / w)).map fun _ => leBytes w x.toNat).flatten
  else readVec o

/-- The elementwise mould (R365-R367). -/
def valuWith (scalar : Bool) (et : ElemTy) (pg : Fin 8) (d : Opd) (srcs : List Opd) (ok : Bool) (f : List Nat → Nat × Flags)
    (s : State) : Res :=
  issueTarget s 8 do
    let c ← getC
    let fmt := badOverride et [c.pfxA, c.pfxB, c.pfxC] srcs.length c.pfxD true
    if !ok then do
      warn fmt wFmttgt
      warn true wCombo
    else do
      checkDirs srcs [d] (srcs.map fun _ => !scalar)
      dstEnd true d
      let p ← readP pg
      let vs ← mapM' (mouldSource et c scalar) srcs
      warn fmt wFmttgt
      let act := activeLanes p (64 / elemSize et)
      let td := (overrideOf et c.pfxD).1
      let rs := (laneResults et c vs f).map fun r =>
        let q := laneCvt td et r.1
        (q.1, r.2 ||| q.2)
      raiseFp (activeFlags act rs)
      writeLanes d (elemSize td) act (rs.map (·.1))
def valu (et : ElemTy) (pg : Fin 8) (d : Opd) (srcs : List Opd) (ok : Bool) (f : List Nat → Nat × Flags) (s : State) : Res :=
  valuWith false et pg d srcs ok f s

/-- R366. -/
def execVadd (et : ElemTy) (pg : Fin 8) (d a b : Opd) (s : State) : Res :=
  valu et pg d [a, b] (elemIsScal et) (fun vs => laneAdd et (nth vs 0 0) (nth vs 1 0)) s
/-- R366. -/
def execVsub (et : ElemTy) (pg : Fin 8) (d a b : Opd) (s : State) : Res :=
  valu et pg d [a, b] (elemIsScal et) (fun vs => laneSub et (nth vs 0 0) (nth vs 1 0)) s
/-- R366. -/
def execVmul (et : ElemTy) (pg : Fin 8) (d a b : Opd) (s : State) : Res :=
  valu et pg d [a, b] (elemIsScal et) (fun vs => laneMul et (nth vs 0 0) (nth vs 1 0)) s
/-- R366. -/
def execVmin (et : ElemTy) (pg : Fin 8) (d a b : Opd) (s : State) : Res :=
  valu et pg d [a, b] (elemIsScal et) (fun vs => laneMinMax false et (nth vs 0 0) (nth vs 1 0)) s
/-- R366. -/
def execVmax (et : ElemTy) (pg : Fin 8) (d a b : Opd) (s : State) : Res :=
  valu et pg d [a, b] (elemIsScal et) (fun vs => laneMinMax true et (nth vs 0 0) (nth vs 1 0)) s
/-- R366. -/
def execVand (et : ElemTy) (pg : Fin 8) (d a b : Opd) (s : State) : Res :=
  valu et pg d [a, b] (elemIsScal et) (fun vs => laneBits natAnd et (nth vs 0 0) (nth vs 1 0)) s
/-- R366. -/
def execVor (et : ElemTy) (pg : Fin 8) (d a b : Opd) (s : State) : Res :=
  valu et pg d [a, b] (elemIsScal et) (fun vs => laneBits natOr et (nth vs 0 0) (nth vs 1 0)) s
/-- R366. -/
def execVxor (et : ElemTy) (pg : Fin 8) (d a b : Opd) (s : State) : Res :=
  valu et pg d [a, b] (elemIsScal et) (fun vs => laneBits natXor et (nth vs 0 0) (nth vs 1 0)) s
/-- R366. -/
def execVshl (et : ElemTy) (pg : Fin 8) (d a b : Opd) (s : State) : Res :=
  valu et pg d [a, b] (elemIsInt et) (fun vs => laneShl et (nth vs 0 0) (nth vs 1 0)) s
/-- R366. -/
def execVshr (et : ElemTy) (pg : Fin 8) (d a b : Opd) (s : State) : Res :=
  valu et pg d [a, b] (elemIsInt et) (fun vs => laneShr et (nth vs 0 0) (nth vs 1 0)) s
/-- R366. -/
def execVsadd (et : ElemTy) (pg : Fin 8) (d a b : Opd) (s : State) : Res :=
  valu et pg d [a, b] (elemIsInt et) (fun vs => laneSadd et (nth vs 0 0) (nth vs 1 0)) s
/-- R366. -/
def execVabs (et : ElemTy) (pg : Fin 8) (d a : Opd) (s : State) : Res :=
  valu et pg d [a] (elemIsScal et) (fun vs => laneAbs et (nth vs 0 0)) s
/-- R366. -/
def execVneg (et : ElemTy) (pg : Fin 8) (d a : Opd) (s : State) : Res :=
  valu et pg d [a] (elemIsScal et) (fun vs => laneNeg et (nth vs 0 0)) s
/-- R366. -/
def execVmov (et : ElemTy) (pg : Fin 8) (d a : Opd) (s : State) : Res :=
  valu et pg d [a] (elemIsScal et) (fun vs => laneMov et (nth vs 0 0)) s
/-- R100: FP32 only. -/
def execVrcp (et : ElemTy) (pg : Fin 8) (d a : Opd) (s : State) : Res :=
  valu et pg d [a] (et == .fp32) (fun vs => vrcpLane (nth vs 0 0)) s
/-- R99: FP32 only. -/
def execVexp2 (et : ElemTy) (pg : Fin 8) (d a : Opd) (s : State) : Res :=
  valu et pg d [a] (et == .fp32) (fun vs => vexp2Lane (nth vs 0 0)) s
/-- R366. -/
def execVfma (et : ElemTy) (pg : Fin 8) (d a b c : Opd) (s : State) : Res :=
  valu et pg d [a, b, c] (elemIsScal et) (fun vs => laneFma et (nth vs 0 0) (nth vs 1 0) (nth vs 2 0)) s
/-- R366. -/
def execVsel (et : ElemTy) (pg : Fin 8) (d a b c : Opd) (s : State) : Res :=
  valu et pg d [a, b, c] (elemIsScal et) (fun vs => laneSel et (nth vs 0 0) (nth vs 1 0) (nth vs 2 0)) s

/-- R366: a scalar operand in every lane. -/
def execVbcast (et : ElemTy) (pg : Fin 8) (d a : Opd) (s : State) : Res :=
  valuWith true et pg d [a] (elemIsScal et) (fun vs => laneMov et (nth vs 0 0)) s

/-! VCMP (R368). -/

/-- The relation on ordered operands. -/
def relOf (c : VCond) (o : Int) : Bool :=
  match c with
  | .eq => o == 0
  | .ne => o != 0
  | .lt => o == -1
  | .le => o != 1
  | .gt => o == 1
  | .ge => o != -1
  | .unord => false
  | .ord => true
def vcmpLane (c : VCond) (et : ElemTy) (a b : Nat) : Bool × Flags :=
  if elemIsInt et then
    let x := intOf et a
    let y := intOf et b
    (relOf c (if x < y then -1 else if x = y then 0 else 1), 0)
  else
    let x := laneFV et a
    let y := laneFV et b
    if fvIsNan x || fvIsNan y then
      let quiet := c == .eq || c == .ne || c == .unord || c == .ord
      (c == .ne || c == .unord, if quiet then snanFlag [x, y] else flInvalid)
    else (relOf c (cmpFV x y), 0)

/-- Predicate bits from lane results; bits from `l` on become zero. -/
def predBits (old : Nat) (l : Nat) (act ts : List Bool) : Nat → Nat
  | 0 => 0
  | n + 1 => predBits old l act ts n
    + (if n < l then b2n (if nth act n false then nth ts n false else bitAt old n) else 0) * 2 ^ n

/-- A predicate written (R59, R63). -/
def writeP (p : Fin 8) (v : Word) : M Unit := do
  let c ← getC
  if p = 0 then modS id else writeUrs (c.pOff p.val) (wordBytes v)

/-- R368. -/
def execVcmp (cond : VCond) (et : ElemTy) (pg : Fin 8) (d : VCmpDst) (a b : Opd) (s : State) : Res :=
  let ok := elemIsScal et && !(elemIsInt et && (cond == .unord || cond == .ord))
  let f (vs : List Nat) : Bool × Flags := vcmpLane cond et (nth vs 0 0) (nth vs 1 0)
  match d with
  | .vec v => valu et pg v [a, b] ok (fun vs => let r := f vs; (if r.1 then 2 ^ laneW et - 1 else 0, r.2)) s
  | .pred q =>
    issueTarget s 8 do
      let c ← getC
      let fmt := badOverride et [c.pfxA, c.pfxB, c.pfxC] 2 c.pfxD false
      if !ok then do
        warn fmt wFmttgt
        warn true wCombo
      else do
        checkDirs [a, b] [] [true, true]
        let p ← readP pg
        let vs ← mapM' readVec [a, b]
        warn fmt wFmttgt
        let l := 64 / elemSize et
        let act := activeLanes p l
        let rs := laneResults et c vs fun xs => let r := f xs; (b2n r.1, r.2)
        raiseFp (activeFlags act rs)
        let old ← readP q
        writeP q (BitVec.ofNat 64 (predBits old.toNat l act (rs.map (·.1 == 1)) 64))

/-! VXL functions that accept no override (R367). -/

/-- The mould of VRED, VSCAN, VPERM, VLUT and VSRP: `f` gets the predicate, the context and the sources and gives the
flags and how the destination is written. -/
def vxl (pg : Fin 8) (d : Opd) (srcs : List Opd) (ok : Bool) (f : Word → State → List (List Byte) → Flags × M Unit)
    (s : State) : Res :=
  issueTarget s 8 do
    noOverride
    if !ok then warn true wCombo
    else do
      checkDirs srcs [d] (srcs.map fun _ => true)
      dstEnd true d
      let p ← readP pg
      let vs ← mapM' readVec srcs
      let s ← getS
      let r := f p s vs
      raiseFp r.1
      r.2

/-- The combination of VRED and VSCAN (R372). -/
def redLane (op : RedOp) (et : ElemTy) (a b : Nat) : Nat × Flags :=
  match op with
  | .sum => laneAdd et a b
  | .min => laneMinMax false et a b
  | .max => laneMinMax true et a b
  | .and => (natAnd 64 a b, 0)
  | .or => (natOr 64 a b, 0)
  | .xor => (natXor 64 a b, 0)
/-- The identities of R94. -/
def redIdent (op : RedOp) (et : ElemTy) : Nat :=
  match op with
  | .sum => if elemIsInt et then 0 else 2 ^ (laneW et - 1)
  | .min => if elemIsInt et then wrapTo (laneW et) (intMax et) else fmtNan (elemFmt et)
  | .max => if elemIsInt et then wrapTo (laneW et) (intMin et) else fmtNan (elemFmt et)
  | .and => 2 ^ laneW et - 1
  | .or | .xor => 0
def redOk (op : RedOp) (et : ElemTy) : Bool :=
  match op with
  | .sum | .min | .max => elemIsScal et
  | .and | .or | .xor => elemIsInt et

/-- One level of the tree of R94. -/
def redLevel (f : Nat → Nat → Nat × Flags) : List Nat → List Nat × Flags
  | a :: b :: rest =>
    let r := f a b
    let q := redLevel f rest
    (r.1 :: q.1, r.2 ||| q.2)
  | l => (l, 0)
def redTree (f : Nat → Nat → Nat × Flags) : Nat → List Nat → Nat × Flags
  | 0, l => (nth l 0 0, 0)
  | n + 1, l =>
    let r := redLevel f l
    let q := redTree f n r.1
    (q.1, r.2 ||| q.2)
/-- Lanes with the identity where inactive. -/
def identLanes (op : RedOp) (et : ElemTy) (act : List Bool) (vs : List Nat) : List Nat :=
  (act.zip vs).map fun p => if p.1 then p.2 else redIdent op et

/-- R372, R94. -/
def execVred (op : RedOp) (et : ElemTy) (pg : Fin 8) (d a : Opd) (s : State) : Res :=
  vxl pg d [a] (redOk op et) (fun p _ vs =>
    let l := 64 / elemSize et
    let r := redTree (redLane op et) (Nat.log2 l) (identLanes op et (activeLanes p l) (lanesOf (elemSize et) (nth vs 0 [])))
    (r.2, writeVec d (fitBytes 64 (leBytes (elemSize et) r.1)))) s

/-- R95: the running values. -/
def scanFrom (f : Nat → Nat → Nat × Flags) (y : Nat) : List Nat → List Nat × Flags
  | [] => ([], 0)
  | x :: xs =>
    let r := f y x
    let q := scanFrom f r.1 xs
    (r.1 :: q.1, r.2 ||| q.2)
/-- R372, R95. -/
def execVscan (op : RedOp) (et : ElemTy) (pg : Fin 8) (d a : Opd) (s : State) : Res :=
  vxl pg d [a] (redOk op et) (fun p _ vs =>
    let l := 64 / elemSize et
    let act := activeLanes p l
    let r := scanFrom (redLane op et) (redIdent op et) (identLanes op et act (lanesOf (elemSize et) (nth vs 0 [])))
    (r.2, writeLanes d (elemSize et) act r.1)) s

/-- R371. -/
def execVperm (et : ElemTy) (pg : Fin 8) (d a b c : Opd) (s : State) : Res :=
  vxl pg d [a, b, c] (elemIsScal et) (fun p _ vs =>
    let l := 64 / elemSize et
    let xs (i : Nat) : List Nat := lanesOf (elemSize et) (nth vs i [])
    let rs := (xs 1).map fun j => nth (xs 0 ++ xs 2) (j % (2 * l)) 0
    (0, writeLanes d (elemSize et) (activeLanes p l) rs)) s

/-- The core bank that LUTSEL names (R89). -/
def Core.lutBank (co : Core) : Bank := if co.ctx.lutsel = 0 then co.bank0 else co.bank1
def Bank.entry (b : Bank) (c : Nat) : Nat := leNat (memRead b.bytes (2 * c) 2)

/-- R370. -/
def execVlut (et : ElemTy) (part : Fin 4) (pg : Fin 8) (d a : Opd) (s : State) : Res :=
  vxl pg d [a] (elemIsScal et && decide (part.val * (64 / elemSize et) < 64)) (fun p s vs =>
    let l := 64 / elemSize et
    let act := activeLanes p l
    let b := s.core.lutBank
    let codes := ((nth vs 0 []).drop (part.val * l)).take l
    let rs := codes.map fun c => laneCvt et b.kind (b.entry c.toNat)
    (activeFlags act rs, writeLanes d (elemSize et) act (rs.map (·.1)))) s

/-! VSRP (R373). -/

/-- One projection: the exact sum of the partial sum and the signed active elements, rounded once; a signalling NaN raises invalid (R83). -/
def srpLane (et : ElemTy) (act : List Bool) (as : List Nat) (signs c : Nat) : Nat × Flags :=
  let terms := ((List.range as.length).zip (act.zip as)).filterMap fun p =>
    if p.2.1 then
      let v := laneFV et p.2.2
      some ((if bitAt signs p.1 then negFV v else v), snanFlag [v])
    else none
  sumRound ((unpack fp32 c, snanFlag [unpack fp32 c]) :: terms)

/-- R373. -/
def execVsrp (op : SrpOp) (et : ElemTy) (pg : Fin 8) (d a : Opd) (s : State) : Res :=
  match op with
  | .proj b c =>
    vxl pg d [a, b, c] (elemIsFp et) (fun p _ vs =>
      let as := lanesOf (elemSize et) (nth vs 0 [])
      let act := activeLanes p (64 / elemSize et)
      let hs := (lanesOf 4 (nth vs 1 [])).zip (lanesOf 4 (nth vs 2 []))
      let rs := hs.map fun h => srpLane et act as h.1 h.2
      (rs.foldl (fun f r => f ||| r.2) 0, writeVec d (ofLanes 4 (rs.map (·.1))))) s
  | .bucket =>
    vxl pg d [a] (et == .fp32) (fun p _ vs =>
      let bits := (lanesOf 4 (nth vs 0 [])).map fun v => !fvIsNan (unpack fp32 v) && !bitAt v 31
      (0, writeVec d (fitBytes 64 (leBytes 8 (predBits 0 16 (activeLanes p 16) bits 16))))) s

/-! VCVT (R369). -/

/-- A value converted to a scalar type (R90). -/
def fvTo (td : ElemTy) (v : FV) : Nat × Flags := if elemIsInt td then cvtToInt td v else packFV (elemFmt td) v
/-- Types whose 32 elements fill a block's lanes: 0-3, 8 and 9. -/
def elemNarrow (t : ElemTy) : Bool := elemIsScal t && decide (elemSize t ≤ 2)

/-- R369. -/
def execVcvt (td0 ts0 : ElemTy) (pg : Fin 8) (d a : Opd) (s : State) : Res :=
  issueTarget s 8 do
    let c ← getC
    let pick (own : ElemTy) (k : Option Nat) : ElemTy := (k.bind elemOfCode).getD own
    let ts := pick ts0 c.pfxA
    let badD := c.pfxD == some 14
    let td := if badD then td0 else pick td0 c.pfxD
    let fmt := badD || c.pfxB.isSome || c.pfxC.isSome
    let block := (elemIsBlock ts && elemNarrow td) || (elemNarrow ts && elemIsBlock td)
    warn fmt wFmttgt
    if !(elemIsScal ts && elemIsScal td) && !block then warn true wCombo
    else do
      checkDirs [a] [d] [true]
      let p ← readP pg
      whenM (bitAt p.toNat 0 || (elemIsScal ts && elemIsScal td)) (dstEnd true d)
      let bs ← readVec a
      if elemIsScal ts && elemIsScal td then do
        let l := 64 / max (elemSize ts) (elemSize td)
        let act := activeLanes p l
        let rs := ((lanesOf (elemSize ts) bs).take l).map (cvtScal td ts)
        raiseFp (activeFlags act rs)
        writeLanes d (elemSize td) act (rs.map (·.1))
      else if !bitAt p.toNat 0 then modS id
      else if elemIsBlock ts then do
        let vs := rowDecode ts c.pfxBw (nth bs 0 0).toNat ((bs.drop 1).take (rowBytes ts c.pfxBw))
        let rs := vs.map (fvTo td)
        raiseFp (rs.foldl (fun f r => f ||| r.2) 0)
        writeVec d (fitBytes 64 (ofLanes (elemSize td) (rs.map (·.1))))
      else do
        let vs := ((lanesOf (elemSize ts) bs).take 32).map (scalFV ts)
        let q := blockQuant td c.pfxBw vs
        raiseFp q.2.2
        writeVec d (fitBytes 64 (BitVec.ofNat 8 q.1 :: q.2.1))

end Sys2Proof.Machine
end

