-- ==== Sys2Proof/Machine/Matrix.lean ====
section
/-! DEFINITION. The matrix family: MMA (R331-R336), MXLD, MXST, MXZ (R337-R339), and the steps in which the matrix unit
completes work (R93, R334). -/

namespace Sys2Proof.Machine

/-- Types R92 accepts for the two operands. -/
def mmaTypeA (t : ElemTy) : Bool := t == .bf16 || t == .fp16 || elemIsBlock t
def mmaTypeB (t : ElemTy) : Bool := t == .bf16 || elemIsBlock t

/-- An operand type under the prefix: an override outside `ok` is not accepted (R74). -/
def pickType (own : ElemTy) (code : Option Nat) (ok : ElemTy → Bool) : ElemTy × Bool :=
  match code with
  | none => (own, true)
  | some k => match elemOfCode k with
    | some t => if ok t then (t, true) else (own, false)
    | none => (own, false)

/-- The checks of one k-block's accesses, in order; what the task wrote to the bytes before is awaited, and the elements that an
earlier gather has still to read there are read first (R148, R149, R336). -/
def mmaCheck (accs : List (Word × Nat × Bool)) : M Unit :=
  eachM (fun q => do
    let _ ← mmaPlace q
    awaitOwn q.1 q.2.1
    modS fun s => if gatherUnread s q.1.toNat q.2.1 then gatherAll s else s) accs
/-- The first k-block of kb, kb + 1, … (n of them) whose operands cannot be reached, with its trap (R205). An uncorrectable word
is found only when it is used (R335). -/
def mmaScan (accs : Nat → List (Word × Nat × Bool)) : Nat → Nat → M (Option (Nat × Trap))
  | _, 0 => pure none
  | kb, n + 1 => do
    let s ← getS
    match mmaCheck (accs kb) s with
    | .ok (_, s') => do
      setS s'
      mmaScan accs (kb + 1) n
    | .error (.trap t) => pure (some (kb, t))
    | .error _ => stopStall .interlock

/-- K-blocks kb, … applied to the accumulator at `acc`, n of them: the first that is not applied, and the machine check that
stops it (R335). `steps` is the bit-steps of a k-block, for the cycles it may lose (R18). -/
def mmaRun (ops : Nat → M (List (List FV) × List (List FV))) (acc steps : Nat) : Nat → Nat → M (Nat × Option Trap)
  | kb, 0 => pure (kb, none)
  | kb, n + 1 => fun s => match judged (ops kb) s with
    | .error e => .error e
    | .ok (_, t :: _, s1) => .ok ((kb, some t), s1)
    | .ok (r, [], s1) =>
      mmaRun ops acc steps (kb + 1) n ((s1.lose (4 * steps)).mapCtx fun c =>
        let q := kblock (c.ursRead acc 4096) r.1 r.2
        (c.ursWrite acc q.1).fpfOr q.2)

/-- The precise fault of an MMA at k-block `at_`: the k-blocks before it are done, and nothing else (R205); an uncorrectable
word in one of them is taken first. `s0` is the state the MMA issued in. -/
def mmaFault (ops : Nat → M (List (List FV) × List (List FV))) (acc steps kb0 at_ : Nat) (t : Trap) (s0 : State) : M Unit := do
  let c ← getC
  if !c.mxops.isEmpty then stopStall .interlock
  else do
    let r ← mmaRun ops acc steps kb0 (at_ - kb0)
    modS fun s =>
      let d := s.core.ctx
      { s with core := { s0.core with phases := s.core.phases, ctx := { s0.core.ctx with urs := d.urs, fpf := d.fpf, mxprog := BitVec.ofNat 64 r.1 } } }
    stopTrapHere { r.2.getD t with unit := 1 }

/-- A keystone has no matrix unit (R8, R375). -/
def needsMatrix : M Unit := do
  let s ← getS
  if 32 ≤ coreSlot s.core.id then stopTrap (trapAt .illegalOpc s.core.ctx.pc) else modS id

/-- R331-R334. -/
def execMma (eta etb : ElemTy) (pg : Fin 8) (d : Fin 4) (a b c : Opd) (sa sb : BitVec 32) (s : State) : Res :=
  issueTarget s 16 do
    needsMatrix
    let s0 ← getS
    ignoredPg pg
    let cx := s0.core.ctx
    let ta := pickType eta cx.pfxA mmaTypeA
    let tb := pickType etb cx.pfxB mmaTypeB
    warn (!ta.2 || !tb.2 || cx.pfxC.isSome || cx.pfxD.isSome) wFmttgt
    if !mmaTypeA ta.1 || !mmaTypeB tb.1 then warn true wCombo
    else do
      checkDirs [a, b, c] []
      let xa ← readOpd a
      let xb ← readOpd b
      let ctl ← readOpd c
      let kc := ctl.toNat % 2 ^ 9
      let bv := bitAt ctl.toNat 16
      if 2 ^ 17 ≤ ctl.toNat || bitsAt ctl.toNat 9 7 != 0 || kc == 0 || 256 < kc
          || (bv && (tb.1 == .bf16 || 8 < kc || 7 < xb.toNat)) then warn true wCombo
      else do
        let acc := cx.aOff d.val
        let views := if bv then (List.range kc).map fun kb => cx.mOff ((xb.toNat + kb) % 8) else []
        let loading := cx.loads.any fun l => loadHits acc 4096 l || views.any fun o => loadHits o 1056 l
        whenM loading (stopStall .interlock)
        countable cx.mx
        let bw := BitVec.ofNat 3 cx.pfxBw
        let sa64 : Word := sa.setWidth 64
        let sb64 : Word := sb.setWidth 64
        let ops := mmaOperands ta.1 tb.1 bw.toNat xa xb sa64 sb64 views
        let accs := mmaAccesses ta.1 tb.1 bw.toNat xa xb sa64 sb64 views
        let kb0 := if cx.mxops.isEmpty then cx.mxprog.toNat % 2 ^ 9 else 0
        let bad ← mmaScan accs kb0 (kc - kb0)
        match bad with
        | some (kb, t) => mmaFault ops acc (bitSteps tb.1 bw.toNat) kb0 kb t s0
        | none =>
          if kc ≤ kb0 then modC fun x => { x with mx := x.mx + 1, mxops := x.mxops ++ [.done 0], mxprog := x.mxEnd 0 }
          else modC fun x => { x with mx := x.mx + 1, mxops := x.mxops ++ [.mma acc kb0 kc xa xb ta.1 tb.1 bw sa64 sb64 views] }

/-- A matrix operation that has done its work is counted until it completes, when its flags enter FPF (R71, R338), and MXPROG
becomes 0 (R205), unless it still stands for a fault that is held (R335). -/
def mxCount (fl : Flags) : M Unit := do
  let c ← getC
  countable c.mx
  modC fun x => { x with mx := x.mx + 1, mxops := x.mxops ++ [.done fl], mxprog := x.mxEnd 0 }

/-- The type and BFP width code of MXLD and whether every override was accepted (R337). -/
def mxldType (c : Ctx) : ElemTy × Nat × Bool :=
  let others := c.pfxB.isSome || c.pfxC.isSome || c.pfxD.isSome
  match c.pfxA with
  | none => (.bfp, c.pfxBw, !others)
  | some k => match elemOfCode k with
    | some t => if elemIsBlock t || t == .lut8 then (t, c.pfxBw, !others) else (.bfp, 6, false)
    | none => (.bfp, 6, false)
/-- The 1,056 bytes of a tile view from a tile image (R62, R170). -/
def viewBytes (rb : Nat) (img : List Byte) : List Byte :=
  ((chunksOf rb 32 img).map (fitBytes 32)).flatten ++ fitBytes 32 (img.drop (32 * rb))

/-- R337. -/
def execMxld (d : Fin 8) (m : MArgs) (s : State) : Res :=
  issueTarget s 8 do
    needsMatrix
    checkDirs [m.base, m.idx] []
    let ea ← effAddr m (szBytes m.sz)
    plainOrd true m
    let c ← getC
    let t := mxldType c
    warn (!t.2.2) wFmttgt
    aligned ea 32 false 1
    let rb := rowBytes t.1 t.2.1
    let pl ← place ea (if t.1 = .lut8 then 1024 else 32 * rb + 32) needR false 1
    awaitLoad ea (if t.1 = .lut8 then 1024 else 32 * rb + 32)
    let img ← precise 1 (readPlace pl (m.ord != .nt) 1)
    writeUrs (c.mOff d.val) (viewBytes rb img)
    mxCount 0

/-- The type MXST stores, its BFP width code and whether every override was accepted (R338). -/
def mxstType (c : Ctx) : ElemTy × Nat × Bool :=
  let others := c.pfxA.isSome || c.pfxB.isSome || c.pfxC.isSome
  match c.pfxD with
  | none => (.fp32, 6, !others)
  | some k => match elemOfCode k with
    | some t => if elemIsFp t || elemIsBlock t then (t, c.pfxBw, !others) else (.fp32, 6, false)
    | none => (.fp32, 6, false)

/-- One row of 32 FP32 values converted: its scale byte when the type is a block type, its bytes and its flags. A NaN kept as FP32 becomes
canonical, and a signalling one sets invalid (log entry 86). -/
def rowOut (t : ElemTy) (bw : Nat) (vs : List FV) : Nat × List Byte × Flags :=
  if elemIsBlock t then blockQuant t bw vs
  else
    let rs := vs.map (packFV (elemFmt t))
    (0, ofLanes (elemSize t) (rs.map (·.1)), rs.foldl (fun f r => f ||| r.2) 0)
/-- The image of 32 rows in the layout of R190, with the flags of its conversions. -/
def imageOut (t : ElemTy) (bw : Nat) (rows : List (List FV)) : List Byte × Flags :=
  let rs := rows.map (rowOut t bw)
  ((rs.map fun r => r.2.1).flatten ++ (if elemIsBlock t then rs.map fun r => BitVec.ofNat 8 r.1 else []),
    rs.foldl (fun f r => f ||| r.2.2) 0)
/-- The 32 rows of an accumulator. -/
def accRows (bs : List Byte) : List (List FV) :=
  (chunksOf 128 32 bs).map fun r => (lanesOf 4 r).map (unpack fp32)

/-- R338. -/
def execMxst (d : Fin 4) (m : MArgs) (s : State) : Res :=
  issueTarget s 8 do
    needsMatrix
    checkDirs [m.base, m.idx] []
    let ea ← effAddr m (szBytes m.sz)
    plainOrd true m
    let c ← getC
    let t := mxstType c
    warn (!t.2.2) wFmttgt
    aligned ea 32 true 1
    let acc ← readUrs (c.aOff d.val) 4096
    let img := imageOut t.1 t.2.1 (accRows acc)
    let pl ← place ea img.1.length needW true 1
    awaitOwn ea img.1.length
    precise 1 (writeNow pl img.1 1)
    mxCount img.2

/-- R339. -/
def execMxz (pg : Fin 8) (d : Fin 4) (s : State) : Res :=
  issue s 8 do
    needsMatrix
    ignoredPg pg
    let c ← getC
    writeUrs (c.aOff d.val) (zeroBytes 4096)
    mxCount 0

/-- R93, R334: the next k-block of the oldest matrix operation. -/
def execMmaKblockComplete (c : CoreId) (s : State) : Res :=
  eventStep (onCore s c fun s => match s.core.ctx.mxops with
    | .mma _ _ _ _ _ _ _ _ _ _ _ :: _ => mxStep s
    | _ => s)

/-- R71: the oldest matrix operation, its work done, leaves the MX count. -/
def execMxOpComplete (c : CoreId) (s : State) : Res :=
  eventStep (onCore s c fun s => match s.core.ctx.mxops with
    | .done _ :: _ => mxStep s
    | _ => s)

end Sys2Proof.Machine
end

