-- ==== Sys2Proof/Machine/Grammar.lean ====
section
/-! DEFINITION. The grammar family: the issue of GRED, GMAP, GPOS and GEXP (R110, R111, R318), and the rule unit's work, one
rule, element or descent level a step (R101-R109, R112-R116, R96, R97). -/

namespace Sys2Proof.Machine

/-! Operator values (R96, R108). -/

/-- A running or stored value: a number and, for FSUM, the flags NANS, PINF, NINF, RANGE in bits 0 to 3. -/
structure GVal where
  v  : Int
  fl : BitVec 4 := 0
  deriving DecidableEq, Repr

def gNat (n : Nat) : GVal := { v := n }
/-- A true sum or product of FSUM: modulo 2^320, with RANGE when it left the range (R96). -/
def fsumVal (v : Int) (fl : BitVec 4) : GVal :=
  let lim : Int := (2 ^ 319 : Nat)
  { v := signedOf 320 (wrapTo 320 v), fl := if v < -lim ∨ lim ≤ v then fl ||| 8 else fl }

def opIdentity (op : Nat) : GVal :=
  match op with
  | 2 => gNat (2 ^ 64 - 1)
  | 4 => gNat (2 ^ 63)
  | 5 => gNat (2 ^ 63 - 1)
  | 7 => gNat (2 ^ 64 - 1)
  | 8 | 9 => gNat (fmtNan fp32)
  | 13 => gNat 0x3F800000
  | 14 => gNat 0x80000000
  | _ => gNat 0

/-- A floating-point element widened to FP32 (R90); an FP32 NaN too becomes the canonical one, and a signalling one raises
invalid (R83). -/
def widenFp (et : ElemTy) (bits : Nat) : Nat × Flags :=
  match unpack (elemFmt et) bits with
  | .nan sig => (fmtNan fp32, if sig then flInvalid else 0)
  | _ => laneCvt .fp32 et bits

/-- An element as the operator takes it. -/
def opElem (op : Nat) (et : ElemTy) (bits : Nat) : GVal × Flags :=
  match op with
  | 0 => (gNat (wrapTo 64 (intOf et bits)), 0)
  | 4 | 5 => (gNat (wrapTo 64 (signedOf (8 * elemSize et) bits)), 0)
  | 8 | 9 | 13 | 14 => let r := widenFp et bits; (gNat r.1, r.2)
  | 10 => match unpack (elemFmt et) bits with
    | .nan s => ({ v := 0, fl := 1 }, if s then flInvalid else 0)
    | .inf n => ({ v := 0, fl := if n then 4 else 2 }, 0)
    | .fin n m e => (fsumVal (alignInt n m e (-149)) 0, 0)
  | 11 =>
    let w := 8 * elemSize et
    let z := if elemIsFp et then bits % 2 ^ (w - 1) = 0 else bits = 0
    (gNat (if z then 0 else 1), 0)
  | _ => (gNat bits, 0)

/-- The combination of two values (R108, R96). -/
def opCombine (op : Nat) (et : ElemTy) (a b : GVal) : GVal × Flags :=
  let x := a.v.toNat
  let y := b.v.toNat
  match op with
  | 1 => (gNat (natXor 64 x y), 0)
  | 2 => (gNat (natAnd 64 x y), 0)
  | 3 => (gNat (natOr 64 x y), 0)
  | 4 => (if signedOf 64 x < signedOf 64 y then b else a, 0)
  | 5 => (if signedOf 64 y < signedOf 64 x then b else a, 0)
  | 6 => (if x < y then b else a, 0)
  | 7 => (if y < x then b else a, 0)
  | 8 => let r := minmaxFV fp32 true (unpack fp32 x) (unpack fp32 y); (gNat r.1, r.2)
  | 9 => let r := minmaxFV fp32 false (unpack fp32 x) (unpack fp32 y); (gNat r.1, r.2)
  | 10 => (fsumVal (a.v + b.v) (a.fl ||| b.fl), 0)
  | 12 => (gNat (wrapTo (8 * elemSize et) (saturate et (intOf et x + intOf et y))), 0)
  | 13 => let r := mulFV fp32 (unpack fp32 x) (unpack fp32 y); (gNat r.1, r.2)
  | 14 => let r := addFV fp32 (unpack fp32 x) (unpack fp32 y); (gNat r.1, r.2)
  | _ => (gNat ((x + y) % 2 ^ 64), 0)

/-- k copies combined (R108, R96). -/
def opPower (op : Nat) (a : GVal) (k : Nat) : GVal :=
  if k = 0 then opIdentity op
  else match op with
    | 0 | 11 => gNat (a.v.toNat * k % 2 ^ 64)
    | 1 => if k % 2 = 1 then a else gNat 0
    | 10 => fsumVal (a.v * k) a.fl
    | _ => a

/-- The read-out of an FSUM value (R97). Infinities of both signs or RANGE count as having caused the NaN even where NANS is set
too (log entry 79). -/
def fsumRead (a : GVal) : Nat × Flags :=
  let bit (i : Nat) : Bool := bitAt a.fl.toNat i
  if bit 0 || (bit 1 && bit 2) || bit 3 then
    (0x7FC00000, if (bit 1 && bit 2) || bit 3 then flInvalid else 0)
  else if bit 1 then (fmtInf fp32, 0)
  else if bit 2 then (2 ^ 31 + fmtInf fp32, 0)
  else roundInt fp32 a.v (-149) false

/-! RRT entries (R105). -/

def entrySize (op : Nat) : Nat := if op = 10 then 48 else 16
def entryAddr (base : Word) (op r : Nat) : Word := addrPlus base (r * entrySize op)
def entryBytes (op : Nat) (a : GVal) : List Byte :=
  if op = 10 then leBytes 40 (wrapTo 320 a.v) else leBytes 8 a.v.toNat
def entryHead (op : Nat) (a : GVal) : Word :=
  BitVec.ofNat 64 (2 ^ 63 + (if op = 10 then a.fl.toNat * 2 ^ 56 else 0))
def entryVal (op : Nat) (head : Nat) (payload : List Byte) : GVal :=
  if op = 10 then { v := signedOf 320 (leNat payload), fl := BitVec.ofNat 4 (head / 2 ^ 56) } else gNat (leNat payload)

/-! Images and rules (R101-R103). -/

/-- A read of the rule unit, which waits for what the task has pushed to the bytes and its streams have still to write (R149, log
entry 89). -/
def unitLoad (ea : Word) (n : Nat) : M (List Byte) := do
  let s ← getS
  if pushPending s ea.toNat n then stopStall .interlock else loadBytes ea n 2

def readHdr (at_ : Word) : M GHdr := do
  let bs ← unitLoad at_ 64
  match hdrOf at_ bs with
  | some h => pure h
  | none => stopTrap (badAt at_)

/-- A rule record after its checks: kind, A, B, LEN and the LEN of A for a pair or a repeat. -/
structure Rule where
  kind : Nat
  a    : Nat
  b    : Nat
  len  : Nat
  lenA : Nat
  deriving DecidableEq, Repr

def readLen (h : GHdr) (r : Nat) : M Nat := do
  let bs ← unitLoad (addrPlus (ruleAddr h r) 12) 4
  return leNat bs

/-- R103 on one record. -/
def readRule (h : GHdr) (r : Nat) : M Rule := do
  let at_ := ruleAddr h r
  let bs ← unitLoad at_ 16
  let f (off : Nat) : Nat := leNat ((bs.drop off).take 4)
  let kind := f 0
  let a := f 4
  let b := f 8
  let len := f 12
  if kind = 0 then
    if a + b ≤ h.nterm ∧ 1 ≤ b ∧ b ≤ h.w ∧ len = b then pure { kind := 0, a := a, b := b, len := len, lenA := 0 }
    else stopTrap (badAt at_)
  else if kind = 1 then
    if a < r ∧ b < r then do
      let la ← readLen h a
      let lb ← readLen h b
      if len = la + lb then pure { kind := 1, a := a, b := b, len := len, lenA := la } else stopTrap (badAt at_)
    else stopTrap (badAt at_)
  else if kind = 2 then
    if a < r then do
      let la ← readLen h a
      if len = la * b then pure { kind := 2, a := a, b := b, len := len, lenA := la } else stopTrap (badAt at_)
    else stopTrap (badAt at_)
  else stopTrap (badAt at_)

/-- Element i of the data area. -/
def readElem (h : GHdr) (i : Nat) : M Nat := do
  let n := elemSize h.et
  let bs ← unitLoad (addrPlus h.data (i * n)) n
  return leNat bs

/-- Elements i, i + 1, … combined onto a value, n of them. -/
def foldElems (op : Nat) (h : GHdr) (acc : GVal) (fl : Flags) : Nat → Nat → M (GVal × Flags)
  | _, 0 => pure (acc, fl)
  | i, n + 1 => do
    let bits ← readElem h i
    let x := opElem op h.et bits
    let r := opCombine op h.et acc x.1
    foldElems op h r.1 (fl ||| x.2 ||| r.2) (i + 1) n

/-- An entry's header, read as an acquire at the span of the task's course (R106, R157, R162). -/
def readHead (ea : Word) : M Nat := do
  let hb ← unitLoad ea 8
  let s ← getS
  acquireAt s.spanOfTask ea
  return leNat hb
/-- A child's result; the unit waits while it is not READY (R106). -/
def readRes (base : Word) (op r : Nat) : M GVal := do
  let ea := entryAddr base op r
  let head ← readHead ea
  if bitAt head 63 then do
    let pb ← unitLoad (addrPlus ea 8) (entrySize op - 8)
    return entryVal op head (if op = 10 then pb else pb.take 8)
  else stopStall .acquire

/-- The result of a rule (R109). -/
def evalRule (op : Nat) (h : GHdr) (base : Word) (r : Nat) : M (GVal × Flags) := do
  let q ← readRule h r
  if q.kind = 0 then do
    let bits ← readElem h q.a
    let x := opElem op h.et bits
    foldElems op h x.1 x.2 (q.a + 1) (q.b - 1)
  else if q.kind = 1 then do
    let x ← readRes base op q.a
    let y ← readRes base op q.b
    return opCombine op h.et x y
  else do
    let x ← readRes base op q.a
    return (opPower op x q.b, 0)

/-- A near or far store of the rule unit. -/
def unitStore (ea : Word) (bs : List Byte) : M Unit := do
  let pl ← place ea bs.length needW true 2
  writeNow pl bs 2
/-- What a release of the rule unit waits for: the task's far stores and its pushes, and its earlier loads (R156). -/
def unitRelease : M Unit := do
  let s ← getS
  let r := drainForRelease s
  if r.2 then do
    setS r.1
    awaitLoads
  else stopStallDo .acquire fun s0 => (drainForRelease s0).1

/-! The operations. A step changes the operation at the head of the queue. -/

def setHead (g : GOp) : M Unit := modC fun c => { c with gops := g :: c.gops.drop 1 }

/-- The first step of an operation: the header is read and checked, and a rejection is decided. GPOS compares its position with the
LEN word of the START record as it stands; the record is checked when the descent enters it (R103, log entry 80). -/
def startOp (g : GOp) : M Unit := do
  let h ← readHdr g.a
  match rejectOf h g with
  | some r => setHead { g with started := true, result := some r }
  | none =>
    match g.major with
    | 0 | 3 => setHead { g with started := true, cur := g.c.toNat % 2 ^ 32, acc := (opIdentity g.mod).v }
    | 1 => setHead { g with started := true }
    | _ => do
      let p := g.c.toNat % 2 ^ 32
      let q ← readLen h h.start
      if q < p || (q == p && g.fn != 0) then setHead { g with started := true, result := some (0x8000000000000003, wCombo) }
      else setHead { g with started := true, cur := h.start, pos := p, acc := (opIdentity g.mod).v }

/-- One rule of GRED (R112, R106). -/
def stepGred (g : GOp) : M Unit := do
  let h ← readHdr g.a
  let last := g.c.toNat / 2 ^ 32
  let ea := entryAddr g.b g.fn g.cur
  let head ← readHead ea
  let ready := bitAt head 63
  let next : GOp := { g with cur := g.cur + 1 }
  let g2 ← if ready then pure next
    else do
      let r ← evalRule g.fn h g.b g.cur
      unitStore (addrPlus ea 8) (entryBytes g.fn r.1)
      unitRelease
      unitStore ea (wordBytes (entryHead g.fn r.1))
      pure { next with count := g.count + 1, fl := g.fl ||| r.2 }
  setHead (if g2.cur ≤ last then g2 else { g2 with result := some (BitVec.ofNat 64 (g2.count % 2 ^ 32), 0) })

/-- The value a finished GPOS reduction delivers (R113). -/
def posResult (op : Nat) (a : GVal) : Word × Flags :=
  if op = 10 then let r := fsumRead a; (BitVec.ofNat 64 r.1, r.2) else (BitVec.ofNat 64 a.v.toNat, 0)
def finishPos (g : GOp) (a : GVal) (fl : Flags) : M Unit :=
  let r := posResult g.mod a
  setHead { g with result := some (r.1, 0), fl := g.fl ||| fl ||| r.2 }

/-- One level of a GPOS descent (R113). The 256 levels of R115 are GEXP's: no limit holds here (log entry 100). -/
def stepGpos (g : GOp) : M Unit := do
  let acc : GVal := { v := g.acc, fl := g.accFl }
  if g.fn = 0 && g.pos = 0 then finishPos g acc 0
  else do
    let h ← readHdr g.a
    let q ← readRule h g.cur
    if q.kind = 1 then
      if g.pos < q.lenA then setHead { g with cur := q.a }
      else if g.fn = 2 then setHead { g with cur := q.b, pos := g.pos - q.lenA }
      else do
        let x ← readRes g.b g.mod q.a
        let r := opCombine g.mod h.et acc x
        setHead { g with cur := q.b, pos := g.pos - q.lenA, acc := r.1.v, accFl := r.1.fl, fl := g.fl ||| r.2 }
    else if q.kind = 2 then
      let k := g.pos / q.lenA
      if g.fn = 2 then setHead { g with cur := q.a, pos := g.pos - k * q.lenA }
      else do
        let x ← readRes g.b g.mod q.a
        let r := opCombine g.mod h.et acc (opPower g.mod x k)
        setHead { g with cur := q.a, pos := g.pos - k * q.lenA, acc := r.1.v, accFl := r.1.fl, fl := g.fl ||| r.2 }
    else if g.fn = 2 then do
      let bits ← readElem h (q.a + g.pos)
      let v := if elemSigned h.et then sextW (8 * elemSize h.et) bits else BitVec.ofNat 64 bits
      setHead { g with result := some (v, 0) }
    else do
      let r ← foldElems g.mod h acc 0 q.a (if g.fn = 1 then g.pos + 1 else g.pos)
      finishPos g r.1 r.2

/-- One output element of a map of elements. -/
def mapElem (h : GHdr) (g : GOp) (bits : Nat) : Nat × Flags :=
  let c := unpack fp32 (g.c.toNat % 2 ^ 32)
  match g.fn with
  | 0 => cvtScal (mapType h g) h.et bits
  | 1 => let x := widenFp h.et bits; let r := mulFV fp32 (unpack fp32 x.1) c; (r.1, x.2 ||| r.2)
  | 2 => let x := widenFp h.et bits; let r := addFV fp32 (unpack fp32 x.1) c; (r.1, x.2 ||| r.2)
  | _ => ((bits + g.c.toNat) % 2 ^ (8 * elemSize h.et), 0)
/-- ROWDOT of one stored row: a near row and the vector are one access each, which wraps within its slot (R119, log entry 99). -/
def rowDot (h : GHdr) (g : GOp) (row : Nat) : M (Nat × Flags) := do
  let n := elemSize h.et
  let rb ← unitLoad (addrPlus h.data (row * h.rowlen * n)) (h.rowlen * n)
  let vb ← unitLoad g.c (4 * h.rowlen)
  let ps := List.zipWith (fun a b => mulExact (unpack (elemFmt h.et) a) (unpack fp32 b)) (lanesOf n rb) (lanesOf 4 vb)
  return sumRound ps
/-- The header of a mapped image (R114). -/
def mapHeader (h : GHdr) (g : GOp) (relOff : Word) : List Byte :=
  leBytes 4 0x47594B56 ++ leBytes 2 1 ++ leBytes 1 (elemCode (mapType h g)) ++ leBytes 1 h.w ++ leBytes 4 h.nrules
    ++ leBytes 4 h.nterm ++ leBytes 4 h.start ++ leBytes 4 0 ++ wordBytes relOff ++ leBytes 8 64 ++ zeroBytes 24
/-- One output of GMAP, or its header last (R114). -/
def stepGmap (g : GOp) : M Unit := do
  let h ← readHdr g.a
  let sz := elemSize (mapType h g)
  if g.cur < h.nterm then do
    let r ← if g.fn = 4 then rowDot h g g.cur else do
      let bits ← readElem h g.cur
      pure (mapElem h g bits)
    unitStore (addrPlus g.b (64 + g.cur * sz)) (leBytes sz r.1)
    setHead { g with cur := g.cur + 1, fl := g.fl ||| r.2 }
  else do
    unitStore g.b (mapHeader h g (h.rules - g.b))
    setHead { g with result := some (BitVec.ofNat 64 (64 + h.nterm * sz), 0) }

/-- What GEXP emits for one element, with the new running value (R115). -/
def emitOf (h : GHdr) (g : GOp) (bits : Nat) : List Byte × GVal × Flags :=
  let n := elemSize h.et
  if g.fn = 0 then (leBytes n bits, { v := g.acc, fl := g.accFl }, 0)
  else
    let x := opElem g.mod h.et bits
    let r := opCombine g.mod h.et { v := g.acc, fl := g.accFl } x.1
    let out := if g.mod = 10 then fsumRead r.1 else (r.1.v.toNat, 0)
    (leBytes (yieldSize h g) out.1, r.1, x.2 ||| r.2 ||| out.2)
/-- A value delivered to the stream or the buffer of GEXP: element by element, also of a matrix row (log entry 38). -/
def emitTo (g : GOp) (bs : List Byte) : M Unit :=
  match g.bs with
  | some n => do
    let c ← getC
    let e := c.streams[n].esz
    warn (e != bs.length) wCombo
    let t := c.streams[n]
    if !(t.bound && t.out) then stopTrap { dirTrap n with unit := 2 }
    else if t.total < t.done + 1 then stopTrap { exhTrap n with unit := 2 }
    else pushN n [fitBytes e bs]
  | none => unitStore (addrPlus g.b (g.count * bs.length)) bs

/-- What remains of a rule that is entered. -/
def ruleWork (q : Rule) : Nat := if q.kind = 1 then 2 else q.b
/-- A level of the descent entered; the 257th is GRAMMAR_BAD (R115). -/
def enterRule (h : GHdr) (g : GOp) (r : Nat) (stack : List (Nat × Nat)) : M Unit := do
  if 256 ≤ stack.length then stopTrap (badAt (ruleAddr h r))
  else do
    let q ← readRule h r
    setHead { g with stack := if ruleWork q = 0 then stack else (r, ruleWork q) :: stack, pos := 0 }

/-- Levels whose work is done are left. -/
def dropDone : List (Nat × Nat) → List (Nat × Nat)
  | (_, 0) :: rest => dropDone rest
  | l => l

/-- One element emitted, or one level entered or left, by GEXP (R115). -/
def stepGexp (g : GOp) : M Unit := do
  let h ← readHdr g.a
  let last := g.c.toNat / 2 ^ 32
  match dropDone g.stack with
  | [] =>
    if last < g.cur then
      -- D counts what the expansion yields: elements, or rows of a matrix grammar (R115)
      setHead { g with stack := [], result := some (BitVec.ofNat 64 (g.count / if h.matrix then h.rowlen else 1), 0) }
    else enterRule h { g with cur := g.cur + 1 } g.cur []
  | (r, k) :: rest => do
    let q ← readRule h r
    if q.kind = 0 then do
      let cols := if h.matrix then h.rowlen else 1
      let bits ← readElem h ((q.a + q.b - k) * cols + g.pos)
      let e := emitOf h g bits
      emitTo g e.1
      let done := g.pos + 1 == cols
      let stack := if !done then (r, k) :: rest else if k = 1 then rest else (r, k - 1) :: rest
      setHead { g with stack := stack, pos := if done then 0 else g.pos + 1, count := g.count + 1, acc := e.2.1.v, accFl := e.2.1.fl
                       fl := g.fl ||| e.2.2 }
    else
      let child := if q.kind = 1 && k = 1 then q.b else q.a
      enterRule h g child ((r, k - 1) :: rest)

/-- The next piece of the operation at the head of the queue. -/
def ruleStep : M Unit := do
  let c ← getC
  match c.gops with
  | [] => modS id
  | g :: _ =>
    if g.result.isSome then modS id
    else if !g.started then startOp g
    else match g.major with
      | 0 => stepGred g
      | 1 => stepGmap g
      | 2 => stepGpos g
      | _ => stepGexp g

/-- The rule unit advances by one piece; a fault of its own, a machine check among them, is held for the task's next instruction
boundary, and the piece is not done (R116). It stands still while one is held. -/
def ruleAdvance (s : State) : State :=
  let hold (t : Trap) : State := s.mapCtx fun c => c.hold { t with unit := 2 }
  if s.core.ctx.asyncs.any (·.unit == 2) then s
  else match judged ruleStep s with
  | .ok (_, ts, s') => match ts.find? (·.unit == 2) with
    | some t => hold t
    | none => s'.mapCtx (·.holdAll ts)
  | .error (.trap t) => hold t
  | .error (.stallDo _ f) => f s
  | .error _ => s

/-- R106, R109, R112-R115. -/
def execRuleEvaluate (c : CoreId) (s : State) : Res := eventStep (onCore s c ruleAdvance)

/-- The operation at the head of the queue delivers D, its WARN bit and its flags, and leaves the GR count (R71, R111). -/
def grammarFinish (s : State) : State :=
  match s.core.ctx.gops with
  | g :: rest => match g.result with
    | some r => s.mapCtx fun c => { (((c.setX g.d r.1).warnOr r.2).fpfOr g.fl) with gops := rest, gr := c.gr - 1 }
    | none => s
  | [] => s

/-- R71, R111, R318. -/
def execGrammarOpComplete (c : CoreId) (s : State) : Res := eventStep (onCore s c grammarFinish)

/-! Issue (R110, R111, R318). -/

/-- The issue of a grammar instruction: `rrt` when B is an RRT base, `two` when B is a destination header address. D waits for an
earlier load into it (R63). The B field of GPOS.ELEM is read like any other, a stream code there is popped, and its value is
ignored (log entry 81). -/
def issueGrammar (major fn mod : Nat) (warnMod : Bool) (pg : Fin 8) (d a b c : Opd) (rrt two : Bool) (s : State) : Res :=
  issue s 8 do
    ignoredPg pg
    warn warnMod wCombo
    let bs : Option (Fin 8) := match major, b with
      | 3, .str n => some n
      | _, _ => none
    match bs with
    | some n => do
      dirCheck [a] []
      dirCheck [] [.str n]
      dirCheck [c] []
      noStream d
      endCheck [(a, false), (c, false)]
    | none => checkDirsX [a, b, c] d
    let xa ← readOpd a
    let xb ← match bs with
      | some _ => pure 0
      | none => readOpd b
    let xc ← readOpd c
    aligned xa 8
    whenM (rrt || two) (aligned xb 8)
    whenM (rrt && !isNear xb.toNat) (stopTrap (trapAt .nearBounds xb))
    let cx ← getC
    countable cx.gr
    let dn : Fin 32 := match d with | .reg n => n | .str _ => 0
    whenM (dn != 0 && cx.loads.any fun l => l.dst == .x dn) (stopStall .interlock)
    modC fun x => { x with gr := x.gr + 1
                           gops := x.gops ++ [{ major := major, fn := fn, mod := mod, d := dn, a := xa, b := xb, bs := bs, c := xc }] }

def mapCode : GMapOp → Nat
  | .cvt => 0 | .fmulc => 1 | .faddc => 2 | .iaddc => 3 | .rowdot => 4
def queryCode : GQuery → Nat
  | .prefixSum => 0 | .scan => 1 | .elem => 2

/-- R112. -/
def execGred (op : Fin 15) (mod : Fin 16) (pg : Fin 8) (d a b c : Opd) (s : State) : Res :=
  issueGrammar 0 op.val 0 (mod != 0) pg d a b c true false s
/-- R114. -/
def execGmap (op : GMapOp) (mod : Fin 16) (pg : Fin 8) (d a b c : Opd) (s : State) : Res :=
  issueGrammar 1 (mapCode op) mod.val (op != .cvt && mod != 0) pg d a b c false true s
/-- R113. -/
def execGpos (q : GQuery) (mod : Fin 16) (pg : Fin 8) (d a b c : Opd) (s : State) : Res :=
  issueGrammar 2 (queryCode q) mod.val (q == .elem && mod != 0) pg d a b c (q != .elem) false s
/-- R115. PLAIN with nonzero MOD bits 3:0 ignores them (log entry 25). -/
def execGexp (scan : Bool) (mod : Fin 16) (pg : Fin 8) (d a b c : Opd) (s : State) : Res :=
  issueGrammar 3 (b2n scan) mod.val (!scan && mod != 0) pg d a b c false false s

end Sys2Proof.Machine
end

