-- ==== Sys2Proof/Machine/Blocks.lean ====
section
/-! DEFINITION. Ashlar blocks (R168-R175): the header as the load pipe and the engines read it, its checks, the expansion of
LUT8 and delta tile images, and the load pipe's block fetches (R124, R174, R193). -/

namespace Sys2Proof.Machine

/-- The header of a block from its 64 bytes (R168); `bad` leaves out bits 5:0 of BASE, which only weight blocks must have zero
(R189). -/
def blockHdr (addr : Nat) (bs : List Byte) : BlockHdr :=
  let w (i : Nat) : Nat := leNat ((bs.drop (8 * i)).take 8)
  let bad := bitsAt (w 0) 48 16 != 0 || bitsAt (w 0) 17 15 != 0 || w 1 / 2 ^ 48 != 0 || w 2 / 2 ^ 48 != 0 || w 3 / 2 ^ 48 != 0
    || w 1 % 64 != 0 || w 3 % 64 != 0 || w 4 / 2 ^ 32 != 0 || w 5 / 2 ^ 32 != 0 || w 6 != 0 || w 7 != 0
  { addr := addr, opc := BitVec.ofNat 6 (w 0), exp := BitVec.ofNat 2 (w 0 / 2 ^ 6), fmt := BitVec.ofNat 4 (w 0 / 2 ^ 8)
    bw := BitVec.ofNat 3 (w 0 / 2 ^ 12), delta := bitAt (w 0) 15, tgen := bitAt (w 0) 16, route := BitVec.ofNat 16 (w 0 / 2 ^ 32)
    succ := BitVec.ofNat 48 (w 1), base := BitVec.ofNat 48 (w 2), hintp := BitVec.ofNat 48 (w 3), word4 := BitVec.ofNat 32 (w 4)
    plen := BitVec.ofNat 32 (w 5), bad := bad }

def hdrK (h : BlockHdr) : Nat := h.word4.toNat % 2 ^ 16
def hdrN (h : BlockHdr) : Nat := h.word4.toNat / 2 ^ 16
/-- Column groups. -/
def hdrG (h : BlockHdr) : Nat := hdrN h / 32
def isWeight (h : BlockHdr) : Bool := h.opc.toNat < 2
def hdrType (h : BlockHdr) : ElemTy := (elemOfCode h.fmt.toNat).getD .i8

/-- Bytes of a stored tile image (R170). -/
def tileBytes (t : ElemTy) (bw : Nat) : Nat := if t = .lut8 then 1024 else bImageBytes t bw

/-- FMT and BW legal for a payload (R169). -/
def fmtLegal (h : BlockHdr) : Bool :=
  (h.fmt == 13 && h.bw != 7) || ((h.fmt == 11 || h.fmt == 12 || h.fmt == 14) && h.bw == 0)

/-- The checks of R172 on a weight block, but for those on its base block. -/
def weightOk (h : BlockHdr) : Bool :=
  !h.bad && isWeight h && fmtLegal h && hdrK h % 32 == 0 && 32 ≤ hdrK h && hdrK h ≤ 8192 && hdrN h % 32 == 0 && 32 ≤ hdrN h
    && hdrN h ≤ 128 && h.plen.toNat == hdrK h / 32 * hdrG h * tileBytes (hdrType h) h.bw.toNat
    && (if h.delta then h.fmt == 13 && (h.bw == 0 || h.bw == 2) && h.base.toNat % 64 == 0 else h.base == 0)

/-- The checks on a block with another opcode (R170, R189). -/
def plainOk (h : BlockHdr) : Bool := !h.bad && 2 ≤ h.opc.toNat && h.opc.toNat ≤ 9 && h.plen == 0

/-- Stored size of a block that passed its check. -/
def storedSize (h : BlockHdr) : Nat := 64 + h.plen.toNat

/-- The base block of a delta block passes (R173). -/
def baseOk (d b : BlockHdr) : Bool := weightOk b && !b.delta && b.fmt == 13 && hdrK b == hdrK d && hdrN b == hdrN d

/-- The 32 rows of a tile image: scale and values. -/
def tileRows (t : ElemTy) (bw : Nat) (img : List Byte) : List (Nat × List FV) :=
  let rb := rowBytes t bw
  (List.range 32).map fun j =>
    let sc := (nth img (32 * rb + j) 0).toNat
    (sc, rowDecode t bw sc ((img.drop (j * rb)).take rb))
/-- A tile image from quantised rows. -/
def tileImage (rs : List (Nat × List Byte × Flags)) : List Byte :=
  (rs.map fun r => r.2.1).flatten ++ rs.map fun r => BitVec.ofNat 8 r.1

/-- A LUT8 tile image expanded to BFP8 through a bank (R175). -/
def expandLut (b : Bank) (img : List Byte) : List Byte :=
  tileImage ((chunksOf 32 32 img).map fun row => blockQuant .bfp 6 (row.map fun c => scalFV b.kind (b.entry c.toNat)))

/-- The NaN block of BFPn. -/
def nanRow (bw : Nat) : Nat × List Byte × Flags := (255, zeroBytes (rowBytes .bfp bw), 0)
/-- Exact sum of two finite values. -/
def addExact (a b : FV) : FV :=
  let r := sumExact [a, b]
  .fin (r.1 < 0) r.1.natAbs r.2
/-- A delta tile image added to the base tile image of width code nb (R173). -/
def expandDelta (bw nb : Nat) (img base : List Byte) : List Byte :=
  tileImage (List.zipWith (fun d b =>
    if d.1 = 255 ∨ b.1 = 255 then nanRow nb else blockQuant .bfp nb (List.zipWith addExact d.2 b.2))
    (tileRows .bfp bw img) (tileRows .bfp nb base))

/-- The header bytes of an expanded block (R175): the stored header with FMT, BW, DELTA, BASE, EXP and PLEN replaced. -/
def expandedHeader (bs : List Byte) (h : BlockHdr) (bw : Nat) : List Byte :=
  let w0 := leNat (bs.take 8)
  let w0 := w0 - w0 / 2 ^ 6 % 2 ^ 10 * 2 ^ 6 + 2 * 2 ^ 6 + 13 * 2 ^ 8 + bw * 2 ^ 12
  let t := hdrK h / 32 * hdrG h
  leBytes 8 w0 ++ (bs.drop 8).take 8 ++ zeroBytes 8 ++ (bs.drop 24).take 16 ++ leBytes 8 (t * tileBytes .bfp bw) ++ zeroBytes 16

/-! Block fetches (R124, R174, R193). -/

/-- A fault of the load pipe's own access: UNIT 1, and BX for a block fetch (R201). A failed check ends the step. -/
def asBlock {α : Type} (m : M α) : M α := checked fun s =>
  let mark (t : Trap) : Trap := { t with bx := true, unit := 1 }
  let n := s.core.ctx.asyncs.length
  match m s with
  | .error (.trap t) => .error (.trap (mark t))
  | .ok (a, s') => .ok (a, s'.mapCtx fun c => { c with asyncs := c.asyncs.take n ++ (c.asyncs.drop n).map mark })
  | r => r
def needBx : Need := { bx := true }

/-- The staged block of the resident device at an address. -/
def State.staged (s : State) (addr : Nat) : Option Staged :=
  (s.tileOf (coreTile s.core.id)).staging.find? fun e => some e.vd == s.vd && e.addr == addr

/-- n bytes at an address, read as a block fetch past the far cache. -/
def blkFetch (a n : Nat) : M (List Byte) :=
  asBlock (do
    let pl ← place (BitVec.ofNat 64 a) n needBx false 1
    readPlace pl false 1)
/-- Whether the stored payload of a staged block is LUT8. -/
def Staged.lut (e : Staged) : Bool := let h := blockHdr e.addr e.bytes; isWeight h && h.fmt == 14
/-- n stored bytes at an offset of a staged block: those that were fetched, or a fetch of them. -/
def Staged.read (e : Staged) (off n : Nat) : M (List Byte) :=
  if off + n ≤ e.bytes.length && e.gone.all fun g => !rangesMeet off n g.1 g.2 then pure ((e.bytes.drop off).take n)
  else blkFetch (e.addr + off) n
/-- n stored bytes at an offset of a block: staged, or fetched. -/
def blkStored (addr off n : Nat) : M (List Byte) := do
  let s ← getS
  match s.staged addr with
  | some e => e.read off n
  | none => blkFetch (addr + off) n
/-- MXPROG.KB. -/
def Ctx.kb (c : Ctx) : Nat := c.mxprog.toNat % 2 ^ 9
/-- The table that the codes of the current block were begun with, of bank g: none before its k-block 0 is whole (R179), nor when a service
routine has made another block current (R76). -/
def Ctx.lutTable (c : Ctx) (g : Bool) : Option Bank :=
  (c.wdst.table.filter fun t => t.block == c.wdblk && t.gen == g && c.kb != 0).map (·.bank)
/-- n bytes at an offset of a block as it reaches the load pipe: of a LUT8 block marked EXP 0 that was staged, the quarry-port expander
has expanded the header and every tile image (R174, R175). -/
def blkRead (addr off n : Nat) : M (List Byte) := do
  let s ← getS
  match s.staged addr with
  | none => blkFetch (addr + off) n
  | some e => match e.table with
    | none => e.read off n
    | some b =>
      if off < 64 then do
        let hb ← e.read 0 64
        return ((expandedHeader hb (blockHdr addr hb) 6).drop off).take n
      else do
        let img ← e.read (64 + (off - 64) / 1056 * 1024) 1024
        let b := if s.core.ctx.wdblk.toNat = addr then (s.core.ctx.lutTable (blockHdr addr e.bytes).tgen).getD b else b
        return ((expandLut b img).drop ((off - 64) % 1056)).take n

/-- Whether the core in focus is inside a weight block whose LUT8 codes are read through bank g of its tile (R179). -/
def midLut (s : State) (g : Bool) : Bool :=
  s.core.mode == .running && s.core.ctx.wd && (s.core.ctx.lutTable g).isSome

end Sys2Proof.Machine
end

