-- ==== Sys2Proof/Machine/Jobs.lean ====
section
/-! DEFINITION. Jobs: POST and JSTAT (R131-R138, R321, R343), the engines of a tile (R130, R138, R178-R185) and the
collectives (R142-R144, R182). A job runs in one step of its engine, or in steps of a stream's buffer when an expander
stream takes its output. -/

namespace Sys2Proof.Machine

/-! Card fields (R131, R132). -/

def Job.field (j : Job) (off n : Nat) : Nat := leNat ((j.card.drop off).take n)
def Job.flag (j : Job) (i : Nat) : Bool := bitAt (j.field 2 2) i
def Job.src (j : Job) : Nat := j.field 8 8
def Job.dst (j : Job) : Nat := j.field 16 8
def Job.param (j : Job) : Nat := j.field 24 4
def Job.fin (j : Job) : Nat := j.field 28 1 % 16
def Job.fout (j : Job) : Nat := j.field 29 1 % 16
def Job.bwIn (j : Job) : Nat := j.field 28 1 / 16 % 8
def Job.bwOut (j : Job) : Nat := j.field 29 1 / 16 % 8
def Job.tgen (j : Job) : Nat := j.field 30 1 % 2
def Job.prio (j : Job) : Nat := j.field 31 1 % 128
def Job.recAddr (j : Job) : Nat := j.field 32 8
def Job.entry (j : Job) : Nat := j.field 40 8
def Job.cntAddr (j : Job) : Nat := j.field 48 8
def Job.rlen (j : Job) : Nat := j.field 56 4
def Job.wlen (j : Job) : Nat := j.field 60 4

/-! Pattern descriptors of a card (R134). -/

structure Pat where
  ndim : Nat
  esz  : Nat
  counts : List Nat
  strides : List Int
  /-- some must-be-zero bit is set -/
  bad  : Bool
  /-- bytes of the descriptor -/
  size : Nat
  deriving DecidableEq, Repr

/-- A descriptor's fields. One with NDIM above 10 has no dimensions here, and the second descriptor follows its 8 bytes (log entry 94). -/
def patAt (ds : List Byte) : Pat :=
  let h := leNat (ds.take 8)
  let nd := h % 16
  let n := if 10 < nd then 0 else nd
  let dim (d : Nat) : List Byte := (ds.drop (8 + 16 * d)).take 16
  { ndim := nd, esz := 2 ^ bitsAt h 4 2, counts := (List.range n).map fun d => leNat ((dim d).take 4)
    strides := (List.range n).map fun d => signedOf 64 (leNat ((dim d).drop 8))
    bad := 2 ^ 6 ≤ h || (List.range n).any fun d => leNat (((dim d).drop 4).take 4) != 0
    size := 8 + 16 * n }
/-- Element count: 0 for a degenerate descriptor. -/
def Pat.total (p : Pat) : Nat := if p.ndim = 0 then 0 else p.counts.foldl (· * ·) 1
/-- Engine addresses of the elements in pattern order. -/
def Pat.addrs (p : Pat) (base : Nat) : List Nat :=
  (List.range p.total).map fun i => wrapTo 64 ((base : Int) + patternOff p.counts p.strides i)

/-- The two descriptors of a COPY or CONVERT card. -/
def Job.pats (j : Job) : Pat × Pat :=
  let a := patAt j.descs
  (a, patAt (j.descs.drop a.size))

/-- Descriptor bytes that POST reads after the card (R135): none where the card names none. -/
def readPat (ea : Word) : M (List Byte) := do
  awaitLoad ea 8
  let h ← loadBytes ea 8
  let n := leNat h % 16
  if n = 0 || 10 < n then return h
  else do
    awaitLoad (addrPlus ea 8) (16 * n)
    let rest ← loadBytes (addrPlus ea 8) (16 * n)
    return h ++ rest
def readDescs (ea : Word) (j : Job) : M (List Byte) := do
  let at_ := addrPlus ea j.param
  if !j.flag 4 then return []
  else if j.type = 1 || j.type = 4 then do
    let a ← readPat at_
    let b ← readPat (addrPlus at_ a.length)
    return a ++ b
  else if j.type = 2 ∨ j.type = 3 then do
    let n := if j.type = 2 then 16 else 32
    awaitLoad at_ n
    loadBytes at_ n
  else return []

/-! The checks of POST (R135). -/

def cardReserved (j : Job) : Bool :=
  j.field 2 2 / 32 != 0 || 128 ≤ j.field 28 1 || 128 ≤ j.field 29 1 || 2 ≤ j.field 30 1 || 128 ≤ j.field 31 1
    || (if !j.flag 4 then false
        else if j.type = 1 || j.type = 4 then j.pats.1.bad || j.pats.2.bad
        else if j.type = 3 then leNat ((j.descs.drop 2).take 2) != 0 || leNat (j.descs.drop 24) != 0
        else false)

def Job.typeIn (j : Job) : Option ElemTy := elemOfCode j.fin
def Job.typeOut (j : Job) : Option ElemTy := elemOfCode j.fout
def optScal (t : Option ElemTy) : Bool := match t with | some t => elemIsScal t | none => false
def optFp (t : Option ElemTy) : Bool := match t with | some t => elemIsFp t | none => false
def optBlock (t : Option ElemTy) : Bool := match t with | some t => elemIsBlock t | none => false
def optSize (t : Option ElemTy) : Nat := match t with | some t => elemSize t | none => 0
def noFormats (j : Job) : Bool := j.field 28 1 == 0 && j.field 29 1 == 0

/-- The fields of a collective descriptor (R142). -/
def Job.coll (j : Job) (off n : Nat) : Nat := leNat ((j.descs.drop off).take n)

/-- DST of a TLOAD: the tile's banks, or a small core's banks (R178). -/
def tloadDst (t : TileId) (j : Job) : Option (Option (Fin 32)) :=
  if j.dst = 0 then some none
  else if isNear j.dst && nearTile j.dst == t && nearSlot j.dst < 32 && nearByteOff j.dst == 0 && j.dst < 2 ^ 40 then
    some (some (Fin.ofNat 32 (nearSlot j.dst)))
  else none

/-- FIN and FOUT of CONVERT (R181). -/
def convertOk (j : Job) : Bool :=
  let i := j.typeIn
  let o := j.typeOut
  let block := optBlock i || optBlock o
  i.isSome && o.isSome && j.fout != 14 && !(j.fin == 13 && j.bwIn == 7) && !(j.fout == 13 && j.bwOut == 7)
    && (!block || (j.param % 32 == 0 && !j.flag 4))
    && (!j.flag 4 || (j.pats.1.esz == optSize i && j.pats.2.esz == optSize o))

/-- COMBO (R135). NPART, INDEX, ROOT and COUNT of a collective outside their ranges (R142) and a TLOAD whose PARAM is not 512 (R178) are
refused with it too, though no rule names their code (log entry 95). -/
def cardCombo (t : TileId) (j : Job) : Bool :=
  (j.flag 2 && j.flag 3)
    || (match j.type with
      | 1 => !noFormats j
      | 2 => !j.flag 4 || !noFormats j || leNat (j.descs.drop 12) == 0 || 4096 < leNat (j.descs.drop 12)
      | 3 => !j.flag 4 || !optFp j.typeIn || !optFp j.typeOut || 1 < j.coll 0 1 || 1 < j.coll 1 1 || j.coll 8 4 == 0
        || 65536 < j.coll 8 4 || j.coll 8 4 ≤ j.coll 12 4 || j.coll 16 4 % 32 != 0 || j.coll 8 4 ≤ j.coll 20 4
      | 4 => !convertOk j
      | 5 => j.flag 4 || j.field 28 1 != 0 || !(j.field 29 1 == 8 || j.field 29 1 == 9 || j.field 29 1 == 2)
        || j.param != 512 || (tloadDst t j).isNone
      | 6 => j.flag 4 || !optScal j.typeIn || j.field 29 1 != 0 || j.tgen != 0 || j.dst % 16 != 0
      | _ => j.flag 4 || !noFormats j || j.tgen != 0)

/-- A completion, counter or bitmap address (R135). -/
def nearWordOk (s : State) (a al : Nat) : Bool :=
  isNear a && nearExists a && s.inPartition (nearTile a) && !isSpill a && a % al == 0
def cardAddress (s : State) (j : Job) : Bool :=
  (j.flag 0 && !nearWordOk s j.recAddr 16) || ((j.flag 2 || j.flag 3) && !nearWordOk s j.cntAddr 8)

/-- The totals that the two descriptors of a card must agree on. -/
def patTotals (j : Job) : Nat × Nat :=
  if j.type = 1 then (j.pats.1.total * j.pats.1.esz, j.pats.2.total * j.pats.2.esz) else (j.pats.1.total, j.pats.2.total)
def twoPats (j : Job) : Bool := (j.type == 1 || j.type == 4) && j.flag 4
def cardPattern (j : Job) : Bool :=
  twoPats j && (10 < j.pats.1.ndim || 10 < j.pats.2.ndim || (patTotals j).1 != (patTotals j).2)
def cardDegenerate (j : Job) : Bool := twoPats j && (patTotals j).1 == 0

/-- The code a card receives (R135), 0 for accepted. -/
def cardCode (s : State) (t : TileId) (j : Job) : Nat :=
  if j.type = 0 ∨ 7 < j.type then 1 else if cardReserved j then 2 else if cardCombo t j then 3
  else if cardAddress s j then 4 else if cardPattern j then 5 else 0

/-! Footprints (R137). -/

def handleOf (ea : Nat) : Nat := ea / 2 ^ 40
def offsetOf (ea : Nat) : Nat := ea % 2 ^ 40
/-- The range an engine address names, for overlap only. -/
def engRange (d : Device) (ea len : Nat) : Range :=
  if handleOf ea = 0 then { near := true, lo := offsetOf ea, len := len }
  else match d.handles.find? fun h => h.val.toNat == handleOf ea with
    | some h => { near := false, lo := h.base + offsetOf ea, len := len }
    | none => { near := false, lo := 0, len := 0 }
/-- Table banks in the same space as near addresses, above them. -/
def bankRange (k : Nat) : Range := { near := true, lo := 2 ^ 50 + k, len := 1 }
def tloadBank (t : TileId) (j : Job) : Nat :=
  match tloadDst t j with
  | some (some c) => 2 + 2 * c.val + j.tgen
  | _ => j.tgen
def jobReads (d : Device) (j : Job) : List Range :=
  [engRange d j.src j.rlen]
    ++ (if j.type = 2 then [{ near := true, lo := leNat (j.descs.take 8), len := 4 * leNat ((j.descs.drop 8).take 4) }] else [])
    ++ (if j.type = 4 then [bankRange j.tgen] else [])
    ++ (if j.type = 7 then [bankRange 0, bankRange 1] else [])
/-- The ranges a card writes. A TLOAD with a nonzero WLEN is accepted, and [DST, DST + WLEN) counts too (log entry 95). -/
def jobWrites (d : Device) (t : TileId) (j : Job) : List Range :=
  [engRange d j.dst j.wlen] ++ (if j.type = 5 then [bankRange (tloadBank t j)] else [])

def rangesOverlap (a b : Range) : Bool := a.near == b.near && rangesMeet a.lo a.len b.lo b.len
def anyOverlap (xs ys : List Range) : Bool := xs.any fun x => ys.any fun y => rangesOverlap x y
def jobsConflict (q j : Job) : Bool :=
  anyOverlap q.writes j.reads || anyOverlap q.reads j.writes || anyOverlap q.writes j.writes

/-- Whether a job still has an edge (R137, R138). -/
def Tile.held (tl : Tile) (j : Job) : Bool := tl.jobs.any fun q => q.seq < j.seq && jobsConflict q j

/-! POST and JSTAT. -/

/-- A card accepted by the tile's scheduler. -/
def acceptJob (s : State) (t : TileId) (j : Job) : State :=
  s.updTile t fun tl => { tl with jobs := tl.jobs ++ [{ j with seq := tl.seq }], seq := tl.seq + 1 }

/-- R343. -/
def execPost (d : Opd) (m : MArgs) (s : State) : Res :=
  issue s 8 do
    checkDirs [m.base, m.idx] [d]
    dstEnd false d
    let ea ← effAddr m 8
    let rel := m.ord == .rel || m.ord == .acqrel
    warn (szBytes m.sz != 8 || !(rel || m.ord == .plain) || (!rel && m.scope != .core)) wCombo
    aligned ea 64
    let pl ← place ea 64 needR false
    whenM rel (releaseAt m.scope)
    awaitLoad ea 64
    let s ← getS
    let t := coreTile s.core.id
    let c := s.core.ctx
    let card0 (bs : List Byte) : Job :=
      { seq := 0, vd := s.vdNum, poster := some s.core.id, mark := c.mark, card := bs, descs := [], reads := [], writes := [] }
    -- R135, R343: a fault on the read traps precisely, a failed check too
    let j1 ← precise 0 do
      let card ← readPlace pl
      let ds ← readDescs ea (card0 card)
      return { card0 card with descs := ds }
    countable c.job
    let s ← getS
    if 64 ≤ (s.tileOf t).jobs.length then stopStall .backpressure
    else
      match cardCode s t j1, s.dev with
      | 0, some dv => do
        warn (cardDegenerate j1) wPattern
        modS fun s => acceptJob s t { j1 with reads := jobReads dv j1, writes := jobWrites dv t j1 }
        modC fun c => { c with job := c.job + 1 }
        writeOpd d 0
      | k, _ => do
        warn (k == 3) wCombo
        writeOpd d (BitVec.ofNat 64 (2 ^ 63 + k))

/-- STATE of JSTAT (R321). -/
def jobStateCode (tl : Tile) (j : Job) : Nat :=
  match j.state with
  | .running | .ended => 3
  | _ => if tl.held j then 1 else 2

/-- R321. -/
def execJstat (d : Opd) (m : MArgs) (s : State) : Res :=
  issue s 8 do
    checkDirs [m.base, m.idx] [d]
    dstEnd false d
    let ea ← effAddr m 8
    warn (szBytes m.sz != 8 || !(m.ord == .acq || m.ord == .plain)) wCombo
    aligned ea 16
    let s ← getS
    if !isNear ea.toNat || !nearOk s ea.toNat then stopTrap (trapAt .nearBounds ea)
    else do
      let tl := s.tileOf (coreTile s.core.id)
      let job := tl.jobs.find? fun j => some j.vd == s.vd && j.flag 0 && j.recAddr == ea.toNat
      awaitLoad ea 8
      let bs ← readPlace (.near ea.toNat 8)
      let w := leNat bs
      whenM (m.ord == .acq) (acquireAt m.scope ea)
      let v := if bitAt w 63 then 2 ^ 63 + w % 2 ^ 32
        else match job with
          | some j => jobStateCode tl j * 2 ^ 32 + j.xid
          | none => 0
      writeOpd d (BitVec.ofNat 64 v)

/-! Engine accesses (R130, R136). -/

/-- Whether [ea, ea + n) lies in the footprint [lo, lo + len). -/
def inFoot (ea n lo len : Nat) : Bool := lo ≤ ea && ea + n ≤ lo + len

/-- The first and last bytes of [a, a + n) in each 4 KiB page it meets: every near area starts and ends at a page (R37, R119, R207,
R239). -/
def nearSteps (a n : Nat) : List Nat :=
  if n = 0 then [] else a :: (a + n - 1) :: (List.range' (a / 4096 + 1) ((a + n - 1) / 4096 - a / 4096)).map (· * 4096)
/-- The status an engine access meets, 0 for none: the near range checks, or the handle's (R130), and MCHECK for what a read, or the
merge of a smaller write, finds (R128, R244). -/
def engStatus (s : State) (d : Device) (ea n : Nat) (write : Bool) : Nat :=
  let off := offsetOf ea
  if n = 0 then 0
  else if handleOf ea = 0 then
    if !isNear off || !isNear (off + n - 1) then 1
    else
      let ok (a : Nat) : Bool := nearExists a && d.tiles.contains (nearTile a) && !isSpill a && !isMigSlot a && !isObs a
      if !(nearSteps off n).all ok then 3
      else if s.poison.any fun w => rangesMeet w 8 off n && !(write && off ≤ w && w + 8 ≤ off + n) then 4 else 0
  else match d.handles.find? fun h => h.val.toNat == handleOf ea && h.live with
    | none => 1
    | some h =>
      if !(off + n ≤ h.len && (if write then h.w else h.r)) then 1
      else
        let pas := List.range' (h.base + off) n
        if (if write then !(partFails s d.key pas).isEmpty else (granulesOf pas).any (sealFails s d.key)) then 4 else 0

/-- The first byte of an access that its check fails at, as an engine address (R128). -/
def engBad (s : State) (d : Device) (write : Bool) (p : Nat × Nat) : Option Nat :=
  if engStatus s d p.1 p.2 write ≠ 4 then none
  else
    let bad (i : Nat) : Bool :=
      if handleOf p.1 = 0 then s.poison.contains ((offsetOf p.1 + i) / 8 * 8)
      else match d.handles.find? fun h => h.val.toNat == handleOf p.1 && h.live with
        | none => false
        | some h => sealFails s d.key ((h.base + offsetOf p.1 + i) / 256)
    some (p.1 + ((List.range p.2).find? bad).getD 0)
/-- The same for the first access of a list that fails. -/
def firstBad (s : State) (d : Device) (write : Bool) (ps : List (Nat × Nat)) : Nat := (ps.findSome? (engBad s d write)).getD 0

/-- Bytes read by an engine. At handle 0 a burst that runs past the end of a 1 MiB slot goes on in the next one (log entry 70). -/
def engBytes (s : State) (d : Device) (ea n : Nat) : List Byte :=
  if handleOf ea = 0 then memRead s.near (offsetOf ea) n
  else match d.handles.find? fun h => h.val.toNat == handleOf ea && h.live with
    | none => zeroBytes n
    | some h => (List.range' (h.base + offsetOf ea) n).map fun pa =>
        if pa < quarryHi then memGet s.quarry pa else Config.peerByte s.fresh pa

/-- A read of a job, within its read footprint: the bytes, or the status that ends the job. -/
def jobRead (s : State) (d : Device) (j : Job) (ea n : Nat) : Except Nat (List Byte) :=
  if n = 0 then .ok []
  else if !inFoot ea n j.src j.rlen then .error 2
  else match engStatus s d ea n false with
    | 0 => .ok (engBytes s d ea n)
    | k => .error k

/-- Bytes read piece by piece, up to the first piece that fails: what was read, and the status. -/
def jobReads' (s : State) (d : Device) (j : Job) : List (Nat × Nat) → List Byte × Nat
  | [] => ([], 0)
  | (ea, n) :: rest => match jobRead s d j ea n with
    | .error k => ([], k)
    | .ok bs =>
      let r := jobReads' s d j rest
      (bs ++ r.1, r.2)

/-- A contiguous access in bursts of 256 bytes (R130). -/
def bursts (ea n : Nat) : List (Nat × Nat) :=
  (List.range ((n + 255) / 256)).map fun i => (ea + 256 * i, min 256 (n - 256 * i))

/-- Bytes at consecutive addresses. -/
def runAt (ea : Nat) (bs : List Byte) : List (Nat × Byte) := (List.range' ea bs.length).zip bs

/-- Output bytes put together in bursts of consecutive addresses, of 256 bytes at most (R130); `cur` is the burst under
way, its bytes newest first. -/
def outBursts (start : Nat) (cur : List Byte) : List (Nat × Byte) → List (Nat × List Byte)
  | [] => [(start, cur.reverse)]
  | (a, b) :: rest =>
    if cur.isEmpty then outBursts a [b] rest
    else if a = start + cur.length && cur.length < 256 then outBursts start (b :: cur) rest
    else (start, cur.reverse) :: outBursts a [b] rest

/-- Bytes written by an engine from an address on: near words that they cover lose their poison (R244); the lines of the tile's
far cache are dropped (R129). -/
def engWrite (t : TileId) (d : Device) (s : State) (ea : Nat) (bs : List Byte) : State :=
  if handleOf ea = 0 then
    { s with near := nearWriteCells s.near (runAt (offsetOf ea) bs), poison := clearRange (offsetOf ea) bs.length s.poison }
  else match d.handles.find? fun h => h.val.toNat == handleOf ea && h.live with
    | none => s
    | some h =>
      let cells := runAt (h.base + offsetOf ea) bs
      (farWrite s t d.key cells).updTile t fun tl => { tl with fcache := cacheDrop (linesOf (cells.map (·.1))) tl.fcache }

/-- Bursts written in order up to the first one that fails, which is not made at all (R136): the state, the bytes written
and the status. -/
def writeBursts (t : TileId) (d : Device) (j : Job) : List (Nat × List Byte) → State → Nat → State × Nat × Nat
  | [], s, k => (s, k, 0)
  | (ea, bs) :: rest, s, k =>
    if !bs.isEmpty && !inFoot ea bs.length j.dst j.wlen then (s, k, 2)
    else match engStatus s d ea bs.length true with
      | 0 => writeBursts t d j rest (engWrite t d s ea bs) (k + bs.length)
      | e => (s, k, e)
def writeOut (t : TileId) (d : Device) (j : Job) (out : List (Nat × Byte)) (s : State) (k : Nat) : State × Nat × Nat :=
  writeBursts t d j (outBursts 0 [] out) s k

/-! What each engine produces: output bytes with their addresses, the status the reads end with, and COUNT when it is not
the bytes written. -/

structure Work where
  out    : List (Nat × Byte)
  status : Nat := 0
  count  : Option Nat := none
  deriving DecidableEq, Repr

/-- A stream of bytes spread over elements of n bytes at the addresses given. -/
def spread (n : Nat) : List Nat → List Byte → List (Nat × Byte)
  | [], _ => []
  | a :: as, bs => runAt a (bs.take n) ++ spread n as (bs.drop n)

def workCopy (s : State) (d : Device) (j : Job) : Work :=
  if j.flag 4 then
    let p := j.pats
    let r := jobReads' s d j ((p.1.addrs j.src).map fun a => (a, p.1.esz))
    let n := r.1.length / p.2.esz
    { out := spread p.2.esz ((p.2.addrs j.dst).take n) r.1, status := r.2 }
  else
    let r := jobReads' s d j (bursts j.src j.param)
    { out := runAt j.dst r.1, status := r.2 }

/-- Bytes read in bursts outside a footprint, up to the first that fails. -/
def engReads (s : State) (d : Device) : List (Nat × Nat) → List Byte × Nat
  | [] => ([], 0)
  | (ea, n) :: rest => match engStatus s d ea n false with
    | 0 => let r := engReads s d rest; (engBytes s d ea n ++ r.1, r.2)
    | k => ([], k)
/-- R134. The index array is read at its engine address, near or not and aligned or not (log entry 82). -/
def workGather (s : State) (d : Device) (j : Job) : Work :=
  let n := leNat ((j.descs.drop 8).take 4)
  let sz := leNat (j.descs.drop 12)
  let idx := engReads s d (bursts (leNat (j.descs.take 8)) (4 * n))
  let r := jobReads' s d j ((lanesOf 4 idx.1).map fun i => bursts (j.src + i * sz) sz).flatten
  { out := runAt j.dst r.1, status := if r.2 ≠ 0 then r.2 else idx.2 }

/-- Bytes of one record or element of a CONVERT side, and values a record holds. -/
def convUnit (t : ElemTy) (bw : Nat) : Nat := if elemIsBlock t then 1 + rowBytes t bw else elemSize t
/-- The values of a run of records or elements, as their exact values. -/
def convValues (b : Bank) (t : ElemTy) (bw : Nat) (bs : List Byte) : List FV :=
  if elemIsBlock t then
    ((chunksOf (convUnit t bw) (bs.length / convUnit t bw) bs).map fun r =>
      rowDecode t bw (nth r 0 0).toNat (r.drop 1)).flatten
  else if t = .lut8 then bs.map fun c => scalFV b.kind (b.entry c.toNat)
  else (lanesOf (elemSize t) bs).map (scalFV t)
/-- Output bytes of values converted tgt a type. -/
def convOut (t : ElemTy) (bw : Nat) (vs : List FV) : List Byte :=
  if elemIsBlock t then
    ((chunksOf 32 (vs.length / 32) vs).map fun r => let q := blockQuant t bw r; BitVec.ofNat 8 q.1 :: q.2.1).flatten
  else ofLanes (elemSize t) (vs.map fun v => (fvTo t v).1)
/-- Elements converted: scalar ones one by one (R90), and others through their exact values, also where R90 has no row for the pair of types
(an integer type and a block format, or two block formats: log entry 102). -/
def convBytes (b : Bank) (ti tgt : ElemTy) (bwi bwo : Nat) (bs : List Byte) : List Byte :=
  if elemIsScal ti && elemIsScal tgt then ofLanes (elemSize tgt) ((lanesOf (elemSize ti) bs).map fun v => (cvtScal tgt ti v).1)
  else if ti = .lut8 && elemIsScal tgt then ofLanes (elemSize tgt) (bs.map fun c => (laneCvt tgt b.kind (b.entry c.toNat)).1)
  else convOut tgt bwo (convValues b ti bwi bs)

def Tile.xbank (tl : Tile) (g : Bool) : Bank := if g then tl.xbank1 else tl.xbank0

def workConvert (s : State) (t : TileId) (d : Device) (j : Job) : Work :=
  let ti := j.typeIn.getD .i8
  let tgt := j.typeOut.getD .i8
  let b := (s.tileOf t).xbank (j.tgen == 1)
  if j.flag 4 then
    let p := j.pats
    let r := jobReads' s d j ((p.1.addrs j.src).map fun a => (a, p.1.esz))
    let o := convBytes b ti tgt j.bwIn j.bwOut r.1
    { out := spread p.2.esz ((p.2.addrs j.dst).take (o.length / p.2.esz)) o, status := r.2 }
  else
    let n := if elemIsBlock ti then j.param / 32 * convUnit ti j.bwIn else j.param * elemSize ti
    let r := jobReads' s d j (bursts j.src n)
    { out := runAt j.dst (convBytes b ti tgt j.bwIn j.bwOut r.1), status := r.2 }

/-- An EXPAND job block by block (R180): the output so far is given back with the status. -/
def expandBlocks (s : State) (t : TileId) (d : Device) (j : Job) : Nat → Nat → Nat → List Byte × Nat
  | 0, _, _ => ([], 0)
  | n + 1, ea, dst =>
    match jobRead s d j ea 64 with
    | .error k => ([], k)
    | .ok hb =>
      let h := blockHdr ea hb
      if !(if isWeight h then weightOk h && !h.delta else plainOk h) then ([], 7)
      else
        let r := jobReads' s d j (bursts (ea + 64) h.plen.toNat)
        if r.2 ≠ 0 then ([], r.2)
        else
          let b := (s.tileOf t).xbank h.tgen
          let o := if isWeight h && h.fmt == 14 && h.exp.toNat < 2 then
              expandedHeader hb h 6 ++ ((chunksOf 1024 (hdrK h / 32 * hdrG h) r.1).map (expandLut b)).flatten
            else hb ++ r.1
          let q := expandBlocks s t d j n (ea + storedSize h) (dst + o.length)
          (o ++ q.1, q.2)
def workExpand (s : State) (t : TileId) (d : Device) (j : Job) : Work :=
  let r := expandBlocks s t d j j.param j.src j.dst
  { out := runAt j.dst r.1, status := r.2 }

/-- The accesses that an EXPAND job reads with, block by block. -/
def expandSpans (s : State) (d : Device) (j : Job) : Nat → Nat → List (Nat × Nat)
  | 0, _ => []
  | n + 1, ea => (ea, 64) :: match jobRead s d j ea 64 with
    | .error _ => []
    | .ok hb => let h := blockHdr ea hb; bursts (ea + 64) h.plen.toNat ++ expandSpans s d j n (ea + storedSize h)
/-- The accesses that a job reads with, in order. -/
def Job.spans (s : State) (d : Device) (j : Job) : List (Nat × Nat) :=
  let n := j.param
  match j.type with
  | 2 =>
    let sz := leNat (j.descs.drop 12)
    let list := bursts (leNat (j.descs.take 8)) (4 * leNat ((j.descs.drop 8).take 4))
    ((lanesOf 4 (engReads s d list).1).map fun i => bursts (j.src + i * sz) sz).flatten ++ list
  | 3 => bursts j.src (j.coll 16 4 * optSize j.typeIn)
  | 5 => bursts j.src 512
  | 6 => bursts j.src j.rlen
  | 7 => expandSpans s d j n j.src
  | _ =>
    if j.flag 4 then (j.pats.1.addrs j.src).map fun a => (a, j.pats.1.esz)
    else bursts j.src (if j.type = 1 then n else
      let t := j.typeIn.getD .i8
      if elemIsBlock t then n / 32 * convUnit t j.bwIn else n * elemSize t)
/-- A job that has met a status; of MCHECK it keeps the address. -/
def Job.met (j : Job) (status bad : Nat) : Job :=
  { j with status := BitVec.ofNat 32 status, bad := if status = 4 then bad else j.bad }
/-- The accesses that write output bytes. -/
def outSpans (out : List (Nat × Byte)) : List (Nat × Nat) := (outBursts 0 [] out).map fun b => (b.1, b.2.length)

/-! GBUILD (R183-R185). -/

/-- A rule under construction: a terminal (data index, length) or a pair (left, right, length). -/
inductive GRule where
  | term (at_ len : Nat)
  | pair (a b len : Nat)
  deriving DecidableEq, Repr

def GRule.len : GRule → Nat
  | .term _ l => l
  | .pair _ _ l => l

structure GBuild where
  rules : List GRule := []
  /-- stored elements -/
  data  : List Nat := []
  /-- (rule, height), top first -/
  stack : List (Nat × Nat) := []
  deriving DecidableEq, Repr

/-- The terminal of a chunk: an earlier equal one, or a new one. -/
def gTerminal (g : GBuild) (c : List Nat) : Nat × GBuild :=
  let same (r : GRule) : Bool := match r with
    | .term a l => l == c.length && (g.data.drop a).take l == c
    | .pair _ _ _ => false
  match g.rules.findIdx? same with
  | some i => (i, g)
  | none => (g.rules.length, { g with rules := g.rules ++ [.term g.data.length c.length], data := g.data ++ c })
/-- The pair rule of two rules: an earlier one, or a new one. -/
def gPair (g : GBuild) (a b : Nat) : Nat × GBuild :=
  let same (r : GRule) : Bool := match r with
    | .pair x y _ => x == a && y == b
    | .term _ _ => false
  match g.rules.findIdx? same with
  | some i => (i, g)
  | none =>
    let l := (nth g.rules a (.term 0 0)).len + (nth g.rules b (.term 0 0)).len
    (g.rules.length, { g with rules := g.rules ++ [.pair a b l] })
/-- Equal heights at the top of the stack are paired. -/
def gMerge : Nat → GBuild → GBuild
  | 0, g => g
  | n + 1, g => match g.stack with
    | (b, hb) :: (a, ha) :: rest =>
      if ha = hb then
        let p := gPair g a b
        gMerge n { p.2 with stack := (p.1, ha + 1) :: rest }
      else g
    | _ => g
/-- Chunks taken until the check of R184 stops the job. -/
def gChunks (room : Nat) : List (List Nat) → GBuild → GBuild × Bool
  | [], g => (g, false)
  | c :: cs, g =>
    if room < 64 + 16 * (g.rules.length + 2 * g.stack.length + 2) then (g, true)
    else
      let t := gTerminal g c
      gChunks room cs (gMerge 64 { t.2 with stack := (t.1, 0) :: t.2.stack })
/-- The stack closed into the start rule. -/
def gClose (x : Nat) : List (Nat × Nat) → GBuild → Nat × GBuild
  | [], g => (x, g)
  | (y, _) :: rest, g => let p := gPair g y x; gClose p.1 rest p.2

def gRuleBytes : GRule → List Byte
  | .term a l => leBytes 4 0 ++ leBytes 4 a ++ leBytes 4 l ++ leBytes 4 l
  | .pair a b l => leBytes 4 1 ++ leBytes 4 a ++ leBytes 4 b ++ leBytes 4 l

def workGbuild (s : State) (d : Device) (j : Job) : Work :=
  let et := j.typeIn.getD .i8
  let sz := elemSize et
  if j.rlen = 0 then { out := [], count := some 0 }
  else if j.rlen % sz ≠ 0 then { out := [], status := 7 }
  else
    let r := jobReads' s d j (bursts j.src j.rlen)
    if r.2 ≠ 0 then { out := [], status := r.2, count := some 0 }
    else
      let room := (j.param - j.rlen) / 8 * 8
      let els := lanesOf sz r.1
      let chunks := chunksOf 16 ((els.length + 15) / 16) els
      let g := gChunks room chunks {}
      match g.1.stack with
      | [] => { out := [], status := 5, count := some 0 }
      | (x, _) :: rest =>
        let q := gClose x rest g.1
        let b := q.2
        let hdr := leBytes 4 0x47594B56 ++ leBytes 2 1 ++ leBytes 1 (elemCode et) ++ leBytes 1 16 ++ leBytes 4 b.rules.length
          ++ leBytes 4 b.data.length ++ leBytes 4 q.1 ++ leBytes 4 0 ++ leBytes 8 64 ++ leBytes 8 room ++ zeroBytes 24
        { out := runAt (j.dst + room) (ofLanes sz b.data) ++ runAt (j.dst + 64) (b.rules.map gRuleBytes).flatten ++ runAt j.dst hdr
          status := if g.2 then 5 else 0, count := some b.rules.length }

/-! Running a job (R138). -/

def setJob (s : State) (t : TileId) (j : Job) : State :=
  s.updTile t fun tl => { tl with jobs := tl.jobs.map fun k => if k.seq = j.seq then j else k }
def Tile.job (tl : Tile) (seq : Nat) : Option Job := tl.jobs.find? (·.seq == seq)

/-- Engine class of a type: 0 copy engines, 1 the expander/converter (R133). -/
def engineClass (type : Nat) : Nat := if type ≤ 3 then 0 else 1
/-- Engines of a class on a tile (R7). -/
def engineCount (cls : Nat) : Nat := if cls = 0 then 2 else 1
/-- An engine of the job's type is free: a running job holds one (R138). -/
def Tile.engineFree (tl : Tile) (j : Job) : Bool :=
  (tl.jobs.filter fun q => q.state == .running && engineClass q.type == engineClass j.type).length < engineCount (engineClass j.type)
/-- The priority that orders a job (R38). -/
def Job.rank (j : Job) : Nat := (clampPrio j.prio).toNat
/-- Whether a job may start: no edge left, a free engine, and no ready job of its engine with a higher priority, or an equal one
accepted earlier. -/
def mayStart (tl : Tile) (j : Job) : Bool :=
  (j.state == .waiting || j.state == .ready) && !tl.held j && tl.engineFree j
    && !(tl.jobs.any fun q => q.seq != j.seq && (q.state == .waiting || q.state == .ready) && engineClass q.type == engineClass j.type
        && !tl.held q && (j.rank < q.rank || (j.rank == q.rank && q.seq < j.seq)))

/-! The context that reads an expander job's stream: on its core, on its way there, or in a migration slot (R352). -/

/-- A context with a mark found on its core, returned, waiting or on its way, and changed. -/
def updPoster (s : State) (c : CoreId) (mark : Word) (f : Ctx → Ctx) : State :=
  let g (x : Ctx) : Ctx := if x.mark = mark then f x else x
  let s := s.updCore c fun co =>
    { co with ctx := if co.mode = .idle then co.ctx else g co.ctx, back := co.back.map g, svcq := co.svcq.map g }
  { s with returning := s.returning.map fun p => if p.1 = c then (p.1, g p.2) else p }
/-- The near addresses of the images of a core's context on a tile. -/
def imagesOf (s : State) (t : TileId) (c : CoreId) (mark : Word) : List Nat :=
  ((List.range 64).filter fun k => match nth (s.tileOf t).slots.toList k .free with
    | .image _ => memWord s.near (slotAddr t k + 0x8020) == mark && memWord s.near (slotAddr t k + 0x8030) == c.setWidth 64
    | _ => false).map (slotAddr t)
/-- The image of a migrated context changed, by its near address. -/
def updImage (s : State) (t : TileId) (c : CoreId) (mark : Word) (f : State → Nat → State) : State :=
  (imagesOf s t c mark).foldl f s
/-- A word of an image written by hardware. -/
def setNearWord (s : State) (a : Nat) (v : Word) : State := s.hwWrite a (wordBytes v)

/-- The stream that an expander job feeds, as its context has it. -/
def jobStream (s : State) (t : TileId) (j : Job) : Option Stream :=
  match j.stream with
  | none => none
  | some (c, n) =>
    let co := s.coreOf c
    let mine (x : Ctx) : Bool := x.mark == j.smark
    let found : List Stream := ((if co.mode = .idle then [] else [co.ctx]) ++ co.back ++ co.svcq
        ++ (s.returning.filter (·.1 == c)).map (·.2)).filterMap (fun x => if mine x then some x.streams[n] else none)
      ++ (imagesOf s t c j.smark).map fun base =>
        streamOf (fun off n => leNat (nearBytes s (base + off) n)) (0x8600 + 256 * n.val) (0x8E00 + 256 * n.val)
    found.find? fun x => x.bound && x.kind == .expander && x.arg == j.xid

/-- Whole elements, and the end when `closed`, joining a stream's buffer. -/
def Stream.take (t : Stream) (bs : List Byte) (closed : Bool) : Stream :=
  { t with buf := t.buf ++ chunksOf t.esz (bs.length / t.esz) bs, closed := t.closed || closed, moved := t.moved + bs.length / t.esz }
/-- The expander stream of a context takes bytes. -/
def Ctx.feed (n : Fin 8) (xid : Nat) (bs : List Byte) (closed : Bool) (x : Ctx) : Ctx :=
  let t := x.streams[n]
  if t.bound && t.kind == .expander && t.arg == xid then { x with streams := x.streams.set n.val (t.take bs closed) } else x
/-- The device whose image lies at an address. -/
def imageVd (s : State) (base : Nat) : Option Nat := (s.tileOf (nearTile base)).vd
/-- More bytes than an image has a place for: put aside together with those it has put aside before (log entry 72). -/
def moreOver (s : State) (base : Nat) (ticket : Option Nat) (bs : List Byte) : Nat × State :=
  putOver s ((imageVd s base).getD 0) (s.overBytes (imageVd s base) ticket ++ bs)
/-- A fault held in the first free place of an image, or beside the image when all are taken (R204, log entries 8 and 72). A place whose
words are uncorrectable is no free one. -/
def imageHold (trap : Trap) (s : State) (base : Nat) : State :=
  let place (i : Nat) : Nat := base + 0x8600 + 256 * (i / 3) + 200 + 16 * (i % 3)
  match (List.range heldMax).find? fun i => memWord s.near (place i) == 0 && !poisoned s (place i) 16 with
  | some i => setNearWord (setNearWord s (place i) trap.word) (place i + 8) trap.faddr
  | none =>
    let k := nearRd s base 0x8658 8
    let q := moreOver s base (if k = 0 then none else some (k - 1)) (trapBytes trap)
    setNearWord q.2 (base + 0x8658) (BitVec.ofNat 64 (q.1 + 1))
/-- The same of a context in a slot: what its area has room for stands there, and the rest beside the image (log entry 72). The stream's
area is read and written whole: an uncorrectable word of it gives no bytes that the manual names, is sound again afterwards, and raises
MCHECK in the context (R244, log entry 91). -/
def imageFeed (n : Fin 8) (xid : Nat) (bs : List Byte) (closed : Bool) (s : State) (base : Nat) : State :=
  -- the held faults of the context stand in the same area (R204)
  let parts := [(base + 0x8600 + 256 * n.val, 200), (base + 0x8600 + 256 * n.val + 248, 8), (base + 0x8E00 + 256 * n.val, 256)]
  let ws := (parts.map fun p => poisonIn s p.1 p.2).flatten
  let s0 := s
  let s := wordsFound s ws
  let t := streamOf (nearRd s base) (0x8600 + 256 * n.val) (0x8E00 + 256 * n.val)
  if !(t.bound && t.kind == .expander && t.arg == xid) then s0
  else
    let room := if t.ticket.isSome then 0 else (bufLimit - t.buf.length * t.esz) / t.esz * t.esz
    let u := t.take (bs.take room) closed
    let more := bs.drop room
    let q : Option Nat × State := if more.isEmpty then (t.ticket, s) else let p := moreOver s base t.ticket more; (some p.1, p.2)
    let v := { u with moved := u.moved + more.length / t.esz, ticket := q.1 }
    let cells := streamCells (256 * n.val) v ++ streamDataCells (0x800 + 256 * n.val) v
    let keep (o : Nat) : Bool := o % 256 < 200 || 248 ≤ o % 256 || 0x800 ≤ o
    let near := parts.foldl (fun m p => memClear m p.1 p.2) q.2.near
    let w := { q.2 with near := memWriteAll near ((cells.filter fun p => keep p.1).map fun p => (base + 0x8600 + p.1, p.2))
                        poison := parts.foldl (fun ps p => clearRange p.1 p.2 ps) q.2.poison }
    ws.foldl (fun s a => imageHold { trapNat .mcheck a with async := true } s base) w
/-- The stream of a job gets bytes, or its end, wherever its context is. -/
def feedStream (s : State) (t : TileId) (j : Job) (bs : List Byte) (closed : Bool) : State :=
  match j.stream with
  | none => s
  | some (c, n) => updImage (updPoster s c j.smark (Ctx.feed n j.xid bs closed)) t c j.smark (imageFeed n j.xid bs closed)

/-- The end of the aligned 8-byte word that the first n bytes of a job's output end in: how many bytes go before it (R140). -/
def wordEnd (d : Device) (out : List (Nat × Byte)) (n : Nat) : Nat :=
  let word (ea : Nat) : Nat × Nat := (handleOf ea, (engRange d ea 1).lo / 8)
  match (out.take n).getLast? with
  | none => 0
  | some c => n + ((out.drop n).takeWhile fun x => word x.1 == word c.1).length

/-- The output of a job written: all of it, or as much as the stream's buffer takes (R352), and then to the end of the word (R140). The job
ends after its last byte or with a status. -/
def putOut (s : State) (t : TileId) (d : Device) (j : Job) (count : Option Nat) : State :=
  let finish (s : State) (j : Job) : State := feedStream (setJob s t { j with state := .ended, out := [], ahead := 0 }) t j [] true
  -- R208: the engines of a FAULTED device drain without the streams
  let j := if d.state = .faulted then { j with stream := none } else j
  match j.stream, jobStream s t j with
  | some _, none => setJob s t { j with state := .running }
  | none, _ =>
    let new := j.out.drop j.ahead
    let r := writeOut t d j new s 0
    let j1 := { j with count := BitVec.ofNat 64 (count.getD (j.count.toNat + r.2.1)) }
    finish r.1 (if r.2.2 ≠ 0 then j1.met r.2.2 (firstBad r.1 d true (outSpans new)) else j1)
  | some _, some x =>
    let room := (bufLimit - x.buf.length * x.esz) / x.esz * x.esz
    let k := if j.out.length ≤ room then j.out.length else room
    let w := wordEnd d j.out (max k j.ahead)
    let new := (j.out.take w).drop j.ahead
    let r := writeOut t d j new s 0
    let s1 := feedStream r.1 t j ((j.out.take (if r.2.2 ≠ 0 then j.ahead + r.2.1 else k)).map (·.2)) false
    let j1 := { j with count := BitVec.ofNat 64 (count.getD (j.count.toNat + r.2.1)), out := j.out.drop k, ahead := w - k, state := .running }
    if r.2.2 ≠ 0 then finish s1 (j1.met r.2.2 (firstBad r.1 d true (outSpans new)))
    else if j1.out.isEmpty then finish s1 j1 else setJob s1 t j1

/-- Output bytes in order of address, those of one address as they stand: the order in which a stream takes them (R352). -/
def outInsert (c : Nat × Byte) : List (Nat × Byte) → List (Nat × Byte)
  | [] => [c]
  | x :: xs => if c.1 ≤ x.1 then c :: x :: xs else x :: outInsert c xs
def outSorted (out : List (Nat × Byte)) : List (Nat × Byte) := out.foldr outInsert []

/-- One step of a job's engine: the start of a job that may start, or more output of one that feeds a stream. -/
def runJob (s : State) (t : TileId) (seq type : Nat) (work : State → Device → Job → Work) : State :=
  match (s.tileOf t).job seq with
  | none => s
  | some j => match s.devOf j.vd with
    | none => s
    | some d =>
      if j.type ≠ type then s
      else if j.state = .running then putOut s t d j none
      else if mayStart (s.tileOf t) j then
        let w := work s d j
        let out := if j.stream.isSome && j.flag 4 then outSorted w.out else w.out
        putOut { s with fresh := s.fresh + 1 } t d { j.met w.status (firstBad s d false (j.spans s d)) with out := out, ahead := 0 } w.count
      else s

/-- R133, R138. -/
def execJobCopy (t : TileId) (seq : Nat) (s : State) : Res := eventStep (runJob s t seq 1 workCopy)
/-- R134. -/
def execJobGather (t : TileId) (seq : Nat) (s : State) : Res := eventStep (runJob s t seq 2 workGather)
/-- R181. -/
def execJobConvert (t : TileId) (seq : Nat) (s : State) : Res := eventStep (runJob s t seq 4 fun s d j => workConvert s t d j)
/-- R183-R185. -/
def execJobGbuild (t : TileId) (seq : Nat) (s : State) : Res := eventStep (runJob s t seq 6 workGbuild)
/-- R180. -/
def execJobExpand (t : TileId) (seq : Nat) (s : State) : Res := eventStep (runJob s t seq 7 fun s d j => workExpand s t d j)

/-- The KIND a TLOAD sets (R178). -/
def tloadKind (j : Job) : ElemTy := if j.fout = 9 then .fp16 else if j.fout = 2 then .i16 else .bf16
/-- The bank a TLOAD fills; staged LUT8 blocks of a tile bank are dropped (R193). -/
def fillBank (s : State) (t : TileId) (j : Job) (b : Bank) : State :=
  match tloadDst t j with
  | some (some c) => s.updCore (mkCore t c.val) fun co => if j.tgen = 1 then { co with bank1 := b } else { co with bank0 := b }
  | _ => s.updTile t fun tl =>
    let keep (e : Staged) : Bool := !(e.lut && (blockHdr e.addr e.bytes).tgen == (j.tgen == 1))
    let tl := { tl with staging := tl.staging.filter keep }
    if j.tgen = 1 then { tl with xbank1 := b } else { tl with xbank0 := b }
/-- Whether a core of a running device is inside a weight block that decodes through the tile bank a TLOAD fills (R179). -/
def bankInUse (s : State) (t : TileId) (d : Device) (j : Job) : Bool :=
  d.state == .running && tloadDst t j == some none
    && s.allCores.any fun co => coreTile co.id == t && midLut (s.focusOn co.id) (j.tgen == 1)
/-- R178: a TLOAD that may start. -/
def tloadRun (s : State) (t : TileId) (seq : Nat) : State :=
  match (s.tileOf t).job seq with
  | none => s
  | some j => match s.devOf j.vd with
    | none => s
    | some d =>
      if j.type ≠ 5 || !mayStart (s.tileOf t) j then s
      else
        let r := jobReads' s d j (bursts j.src 512)
        let bad := firstBad s d false (j.spans s d)
        let s := { s with fresh := s.fresh + 1 }
        if j.rlen < 512 then setJob s t { j with state := .ended, status := 2 }
        else if r.2 ≠ 0 then setJob s t { j.met r.2 bad with state := .ended }
        else fillBank (setJob s t { j with state := .ended, count := 512 }) t j { kind := tloadKind j, bytes := memWrite [] 0 r.1 }
/-- R178, R179: the write of a tile bank waits for the weight blocks under way that decode through it. -/
def tloadStep (s : State) (t : TileId) (seq : Nat) : State :=
  match (s.tileOf t).job seq with
  | none => s
  | some j => match s.devOf j.vd with
    | none => s
    | some d => if bankInUse s t d j then s else tloadRun s t seq
def execJobTload (t : TileId) (seq : Nat) (s : State) : Res := eventStep (tloadStep s t seq)

/-! Collectives (R142-R144). -/

/-- A class 3 packet (R182): group, block, tree node, scale and elements of a block quantised to MXFP8.E4M3 (R86). -/
def collPacket (group block level i : Nat) (vs : List FV) : List Byte :=
  let q := blockQuant .e4m3 0 vs
  leBytes 4 group ++ leBytes 4 block ++ leBytes 4 (level * 2 ^ 24 + i) ++ [BitVec.ofNat 8 q.1] ++ zeroBytes 3 ++ fitBytes 32 q.2.1
    ++ zeroBytes 16
def packetField (off : Nat) (p : List Byte) : Nat := leNat ((p.drop off).take 4)
/-- The values of a packet, exactly (R143). -/
def packetVals (p : List Byte) : List FV := rowDecode .e4m3 0 (nth p 12 0).toNat ((p.drop 16).take 32)
/-- A node of the tree: FP32 sums or maxima of its two operands, quantised again (R143). -/
def collNode (isMax : Bool) (level i : Nat) (a b : List Byte) : List Byte :=
  let f (v : FV) : FV := unpack fp32 (packFV fp32 v).1
  collPacket (packetField 0 a) (packetField 4 a) level i (List.zipWith (fun u v =>
    unpack fp32 (if isMax then minmaxFV fp32 true (f u) (f v) else addFV fp32 (f u) (f v)).1) (packetVals a) (packetVals b))
/-- One level of the tree from node i on; an odd last node passes up unchanged. -/
def collLevel (isMax : Bool) (level : Nat) : Nat → List (List Byte) → List (List Byte)
  | i, a :: b :: rest => collNode isMax level i a b :: collLevel isMax level (i + 1) rest
  | _, l => l
/-- The root of the tree over the leaves, `level` the level of the next nodes; 17 levels hold 65,536 leaves. -/
def collTree (isMax : Bool) : Nat → Nat → List (List Byte) → List Byte
  | 0, _, l => nth l 0 []
  | n + 1, level, l => if l.length ≤ 1 then nth l 0 [] else collTree isMax n (level + 1) (collLevel isMax level 0 l)

/-- OP, MODE, NPART, COUNT and ROOT, on which the participants must agree. -/
def collShape (j : Job) : List Byte := j.descs.take 2 ++ (j.descs.drop 8).take 4 ++ (j.descs.drop 16).take 8
def endJob (s : State) (t : TileId) (seq status : Nat) : State :=
  match (s.tileOf t).job seq with
  | none => s
  | some j => setJob s t { j with state := .ended, status := BitVec.ofNat 32 status }
def putColl (c : Coll) (cs : List Coll) : List Coll := cs.filter (fun k => !(k.group == c.group && k.vd == c.vd)) ++ [c]

/-- Participants that a collective waits for. -/
def Coll.npart (c : Coll) : Nat := leNat ((c.shape.drop 2).take 4)
def Coll.count (c : Coll) : Nat := leNat ((c.shape.drop 6).take 4)
def dropColl (c : Coll) (cs : List Coll) : List Coll := cs.filter fun k => !(k.group == c.group && k.vd == c.vd)
/-- How many participants a collective whose cards differ is taken to have: the NPART that most of them name, of equal ones the largest
(log entry 83). -/
def Coll.expected (c : Coll) : Nat :=
  let times (n : Nat) : Nat := (c.nparts.filter (· == n)).length
  c.nparts.foldl (fun best n => if times best < times n || (times best == times n && best < n) then n else best) 0
/-- Every joined participant's job ends with a status, unless it has one. -/
def endParts (s : State) (c : Coll) (status : Nat) : State :=
  c.parts.foldl (fun s p => match (s.tileOf p.2.1).job p.2.2 with
    | none => s
    | some j => endJob s p.2.1 p.2.2 (if j.status = 0 then status else j.status.toNat)) s

/-- A participant joins its collective: its blocks are quantised and travel (R143). A card that differs from the first one's, or an
INDEX that has joined already (log entry 83), ends every participant's job, those that join later too (R142). A participant whose
read fails ends alone and does not join (log entry 96). -/
def collStep (s : State) (t : TileId) (seq : Nat) : State :=
  match (s.tileOf t).job seq with
  | none => s
  | some j => match s.devOf j.vd with
    | none => s
    | some d =>
      if j.type ≠ 3 || !mayStart (s.tileOf t) j then s
      else
        let et := j.typeIn.getD .fp32
        let n := j.coll 16 4
        let r := jobReads' s d j (bursts j.src (n * elemSize et))
        let bad := firstBad s d false (j.spans s d)
        let s := { s with fresh := s.fresh + 1 }
        if r.2 ≠ 0 then setJob s t { j.met r.2 bad with state := .ended }
        else
          let group := BitVec.ofNat 32 (j.coll 4 4)
          let index := j.coll 12 4
          let vals := (lanesOf (elemSize et) r.1).map (laneFV et)
          let blocks := chunksOf 32 (n / 32) vals
          let leaves := ((List.range blocks.length).zip blocks).map fun b => collPacket group.toNat b.1 0 index b.2
          let c := (s.colls.find? fun k => k.group == group && k.vd == j.vd).getD
            { group := group, vd := j.vd, shape := collShape j, parts := [] }
          let c1 := { c with parts := c.parts ++ [(index, t, seq)], leaves := c.leaves ++ leaves, nparts := c.nparts ++ [j.coll 8 4]
                             mismatch := c.mismatch || c.shape != collShape j || c.parts.any (·.1 == index) }
          let s1 := setJob s t { j with state := .running }
          let whole := (if c1.mismatch then c1.expected else c1.npart) ≤ c1.parts.length
          let ends := c1.mismatch || (whole && c1.count == 0)
          let s2 := if ends then endParts s1 c1 (if c1.mismatch then 6 else 0) else s1
          { s2 with colls := if whole && ends then dropColl c1 s2.colls else putColl c1 s2.colls }
def execJobColl (t : TileId) (seq : Nat) (s : State) : Res := eventStep (collStep s t seq)

/-- A result block delivered to a participant: decoded and converted to FOUT at its place in DST, in bursts (R143). A job that has
met a status writes no more (R136). -/
def collDeliver (root : List Byte) (s : State) (p : Nat × TileId × Nat) : State :=
  match (s.tileOf p.2.1).job p.2.2 with
  | none => s
  | some j => match s.devOf j.vd with
    | none => s
    | some d =>
      if j.status ≠ 0 then s
      else
        let et := j.typeOut.getD .fp32
        let bs := convOut et 0 (packetVals root)
        let r := writeOut p.2.1 d j (runAt (j.dst + packetField 4 root * 32 * elemSize et) bs) s 0
        let out := runAt (j.dst + packetField 4 root * 32 * elemSize et) bs
        setJob r.1 p.2.1 ({ j with count := j.count + BitVec.ofNat 64 r.2.1 }.met r.2.2 (firstBad r.1 d true (outSpans out)))

/-- The leaves of a block in index order. -/
def Coll.leavesOf (c : Coll) (block : Nat) : List (List Byte) :=
  (List.range c.npart).filterMap fun i => c.leaves.find? fun p => packetField 4 p == block && packetField 8 p == i
/-- A block whose contributions are all there is combined and delivered; after the last one the jobs end (R143, R144). -/
def collPacketStep (s : State) (group : BitVec 32) (block : Nat) : State :=
  match s.colls.find? fun c => c.group == group && !c.mismatch && c.parts.length == c.npart with
  | none => s
  | some c =>
    let sh (off n : Nat) : Nat := leNat ((c.shape.drop off).take n)
    let nblocks := c.count / 32
    let leaves := c.leavesOf block
    if leaves.length ≠ c.npart ∨ nblocks ≤ block ∨ c.roots.any (fun p => packetField 4 p == block) then s
    else
      let root := collTree (sh 0 1 == 1) 17 1 leaves
      let recv := if sh 1 1 = 1 then c.parts.filter (·.1 == sh 10 4) else c.parts
      let s1 := recv.foldl (collDeliver root) s
      let c1 := { c with roots := c.roots ++ [root] }
      if c1.roots.length = nblocks then
        let s2 := endParts s1 c1 0
        { s2 with colls := dropColl c s2.colls }
      else { s1 with colls := putColl c1 s1.colls }
/-- R143, R144. -/
def execCollPacket (group : BitVec 32) (block : Nat) (s : State) : Res := eventStep (collPacketStep s group block)

end Sys2Proof.Machine
end

