-- ==== Sys2Proof/Machine/Chain.lean ====
section
/-! DEFINITION. Weight-driven mode (R186-R200): WDENTER and WDEXIT, one step for each block opcode and for a k-block, the
staging buffer with its prefetches (R193, R194). -/

namespace Sys2Proof.Machine

/-! The staging buffer (R193, R194). -/

/-- The oldest entries, but for those kept, leave until `excess` bytes are free. -/
def stagingTrim (keep : Staged → Bool) : Nat → List Staged → List Staged
  | _, [] => []
  | excess, e :: es =>
    if excess = 0 || keep e then e :: stagingTrim keep excess es else stagingTrim keep (excess - e.bytes.length) es
def stagedBytes (es : List Staged) : Nat := (es.map fun e => e.bytes.length).sum
/-- A block put into the 256 KiB buffer, where it fits beside the blocks at the addresses kept. -/
def stageBlock (s : State) (kept : List Nat) (addr : Nat) (bs : List Byte) (gone : List (Nat × Nat)) (table : Option Bank) : State :=
  match s.vd with
  | none => s
  | some v =>
    let keep (e : Staged) : Bool := e.vd == v && kept.contains e.addr
    s.updTile (coreTile s.core.id) fun tl =>
      let es := stagingTrim keep (stagedBytes tl.staging + bs.length - 262144) tl.staging
      if 262144 < stagedBytes es + bs.length then tl
      else { tl with staging := es ++ [{ vd := v, addr := addr, bytes := bs, at_ := s.time, gone := gone, table := table }] }

/-- Whether an address is one the staging buffer may be filled for. Of a hint list, an entry with bits 5:0 set is left out alone (log
entry 52). -/
def State.canStage (s : State) (addr : Nat) : Bool := isFar addr && addr % 64 == 0 && (s.staged addr).isNone

/-- Bytes of a payload page by page, and the pieces that cannot be fetched, which are dropped (R278). -/
def fetchPart (addr : Nat) : Nat → Nat → Nat → State → List Byte × List (Nat × Nat) × State
  | 0, _, _, s => ([], [], s)
  | fuel + 1, off, n, s =>
    if n = 0 then ([], [], s)
    else
      let k := min n (4096 - (addr + off) % 4096)
      let here : List Byte × List (Nat × Nat) × State := match blkFetch (addr + off) k s with
        | .error _ => (zeroBytes k, [(off, k)], s)
        | .ok (bs, s1) => (bs, [], s1)
      let r := fetchPart addr fuel (off + k) (n - k) here.2.2
      (here.1 ++ r.1, here.2.1 ++ r.2.1, r.2.2)
/-- The table through which the quarry-port expander expands a block: that of a LUT8 block marked EXP 0 (R174). -/
def portTable (s : State) (h : BlockHdr) : Option Bank :=
  if weightOk h && h.fmt == 14 && h.exp == 0 then some ((s.tileOf (coreTile s.core.id)).xbank h.tgen) else none

/-- A block fetched into the staging buffer; bytes that a fetch cannot reach, and a header that fails its check, are dropped. The
answer tells whether the header's page is not present. -/
def prefetchBlock (kept : List Nat) (addr : Nat) (s : State) : State × Bool :=
  if !s.canStage addr then (s, false)
  else match blkFetch addr 64 s with
    | .error (.trap t) => (s, t.cause == .pageNp)
    | .error _ => (s, false)
    | .ok (hb, s1) =>
      let h := blockHdr addr hb
      if !(weightOk h || plainOk h) then (s, false)
      else
        let r := fetchPart addr (h.plen.toNat / 4096 + 2) 64 h.plen.toNat s1
        (stageBlock r.2.2 kept addr (hb ++ r.1) r.2.1 (portTable s1 h), false)

/-- The addresses of a hint list (R171); none where the list is malformed or cannot be read. -/
def hintList (at_ : Nat) (s : State) : List Nat :=
  match blkFetch at_ 8 s with
  | .error _ => []
  | .ok (hd, s1) =>
    let n := leNat hd
    if 64 < n then []
    else match blkFetch (at_ + 8) (8 * n) s1 with
      | .error _ => []
      | .ok (bs, _) => lanesOf 8 bs
/-- The blocks that a block's fetches use: itself, and the base block of a delta block (R173). -/
def hdrUses (h : BlockHdr) : List Nat := if isWeight h && h.delta then [h.addr, h.base.toNat] else [h.addr]
/-- One entry of a hint list: a block whose page is not present goes to the keystone as page-in advice (R194). What the current block
uses stays in the buffer as it is, since a hint is advice only (R171, log entry 52). -/
def hintOne (h : BlockHdr) (s : State) (a : Nat) : State :=
  let r := if (hdrUses h).contains a then (s, false) else prefetchBlock (hdrUses h) a s
  if r.2 then r.1.updTile (coreTile s.core.id) fun tl => { tl with advice := if tl.advice.contains a then tl.advice else tl.advice ++ [a] }
  else r.1
/-- R194: the hint prefetch of a block. -/
def hintPrefetch (h : BlockHdr) (s : State) : State :=
  if h.hintp = 0 then s else (hintList h.hintp.toNat s).foldl (hintOne h) s

/-- The block a block makes current next (R189). -/
def nextBlock (h : BlockHdr) (link : List Word) : Option Nat :=
  if h.opc = 8 ∨ h.opc = 9 ∨ 10 ≤ h.opc.toNat then none
  else if h.opc = 4 then some h.base.toNat
  else if h.opc = 5 then link.head?.map (·.toNat)
  else some h.succ.toNat

/-! The frame of a block's step. -/

/-- A trap of the mode (R198). -/
def blkTrap (c : Cause) (fa : Nat) : Trap := trapNat c fa false 1
/-- The block fetch has taken the staged entries of the block and of its base (R193). -/
def takeStaged (h : BlockHdr) (s : State) : State :=
  let used (e : Staged) : Bool := some e.vd == s.vd && (hdrUses h).contains e.addr
  s.updTile (coreTile s.core.id) fun tl => { tl with staging := tl.staging.filter fun e => !used e }
def illegalBlock {α : Type} (h : BlockHdr) : M α := fun s => .error (.trapIn (blkTrap .blockIllegal h.addr) (takeStaged h s))

/-- A block becomes current: BREAK and the checks on its header (R189, R199). -/
def blkCheck (h : BlockHdr) (ok : Bool) : M Unit := do
  let s ← getS
  if s.core.ctx.kb = 0 && !s.core.ctx.resumed && bkptMatch s.core h.addr then stopTrap (blkTrap .brk h.addr)
  else if !ok then illegalBlock h
  else modS id

/-- STEP after a whole block (R199). -/
def blkStep (s : State) : State :=
  if stepping s && s.core.ctx.asyncs.isEmpty then
    takeTrap (blkTrap .step (if s.core.ctx.wd then s.core.ctx.wdblk else s.core.ctx.pc).toNat) s
  else s
/-- The block is complete and another one becomes current (R189, R193). -/
def blkNext (h : BlockHdr) (next : Word) : M Unit := modS fun s =>
  blkStep ((retireCore (takeStaged h s)).mapCtx fun c => { c with wdblk := next, mxprog := 0, wdst := { c.wdst with table := none } })

/-- A block's step: its core is in the mode, and the block is the current one. Once its header has passed, its hint prefetch is started,
whatever becomes of the step (R194). -/
def blkRun (h : BlockHdr) (s : State) (ok : Ctx → Bool) (body : M Unit) : Res :=
  if s.core.ctx.wd then
    let s0 := s.mapCtx fun c => { c with wdblk := BitVec.ofNat 64 h.addr }
    match blkCheck h (ok s0.core.ctx) s0 with
    | .ok _ => let s1 := hintPrefetch h s0; outcome s1 (body s1)
    | .error e => outcome s0 (.error e)
  else .next s

/-- A step that stops keeps a state reached within it. -/
def keepHere (s : State) : Except Stop (Unit × State) → Except Stop (Unit × State)
  | .error (.trap t) => .error (.trapIn t s)
  | .error (.stall r) => .error (.stallIn r s)
  | .error (.stallDo r f) => .error (.stallIn r (f s))
  | r => r

/-! MAC and MACZ (R190, R191). -/

/-- The checks on a weight block at the load pipe (R172, R174, R191). -/
def macOk (h : BlockHdr) (w : WdState) : Bool :=
  weightOk h && h.exp != 3 && !(h.fmt == 14 && h.exp == 2) && hdrG h ≤ w.acnt

/-- The base block of a delta block passes its check, or the delta block fails its own; what counts is the header as it is stored
(R173). -/
def baseCheck (h : BlockHdr) : M Unit := whenM h.delta do
  let hb ← blkStored h.base.toNat 0 64
  if baseOk h (blockHdr h.base.toNat hb) then modS id else illegalBlock h

/-- The current block's codes are begun with a bank (R179). -/
def Ctx.beginLut (c : Ctx) (g : Bool) (b : Bank) : Ctx := { c with wdst := { c.wdst with table := some { block := c.wdblk, gen := g, bank := b } } }
/-- The table that the codes of the current block are read through: the bank as it stands at the first of them (R179). -/
def blockTable (g : Bool) : M Bank := do
  let s ← getS
  match s.core.ctx.lutTable g with
  | some b => pure b
  | none => do
    let b := (s.tileOf (coreTile s.core.id)).xbank g
    modC (·.beginLut g b)
    return b
/-- The table through which the port expanded the current block stays that of the whole block (R179). -/
def keepTable (s : State) : State :=
  let a := s.core.ctx.wdblk.toNat
  match (s.staged a).bind fun e => e.table.map fun b => ((blockHdr a e.bytes).tgen, b) with
  | some (g, b) => if (s.core.ctx.lutTable g).isSome then s else s.mapCtx (·.beginLut g b)
  | none => s
/-- The tile image (kb, nt) as the matrix unit consumes it: its type, width code and bytes (R173-R175). -/
def weightImage (h : BlockHdr) (kb nt : Nat) : M (ElemTy × Nat × List Byte) := do
  let idx := kb * hdrG h + nt
  let tb := tileBytes (hdrType h) h.bw.toNat
  modS keepTable
  let img ← blkRead h.addr (64 + idx * tb) tb
  if h.fmt = 14 then do
    let b ← blockTable h.tgen
    return (.bfp, 6, expandLut b img)
  else if h.delta then do
    let hb ← blkStored h.base.toNat 0 64
    let b := blockHdr h.base.toNat hb
    if !baseOk h b then illegalBlock h
    else do
      let bb := tileBytes .bfp b.bw.toNat
      let bimg ← blkStored h.base.toNat (64 + idx * bb) bb
      return (.bfp, b.bw.toNat, expandDelta h.bw.toNat b.bw.toNat img bimg)
  else return (hdrType h, h.bw.toNat, img)

/-- The rows of an activation image (R190). -/
def actRows (t : ElemTy) (bw : Nat) (img : List Byte) : List (List FV) :=
  match t with
  | .bf16 | .fp16 => (chunksOf 64 32 img).map fun r => (unpackCodes 16 32 (leNat r)).map (unpack (elemFmt t))
  | _ => (tileRows t bw img).map (·.2)

/-- Up to k elements taken from a stream for the image under way; an arrival-queue entry is acquired as it is taken (R162). -/
def takePart (n : Fin 8) (k : Nat) (s : State) : State :=
  let t := s.core.ctx.streams[n]
  let keep (m : Nat) (got : List (List Byte)) (t' : Stream) (s : State) : State := s.mapCtx fun c =>
    { c with streams := c.streams.set n.val { t' with done := t.done + m }, wdst := { c.wdst with part := c.wdst.part ++ got } }
  match t.kind with
  | .queue =>
    let q : Fin 8 := Fin.ofNat 8 t.arg
    let got := (s.core.arrq[q].take k).map fun w => (wordBytes w).take t.esz
    if got.isEmpty then s
    else dropStaged (keep got.length got t { s with core := { s.core with arrq := s.core.arrq.set q.val (s.core.arrq[q].drop k) } })
  | _ => let got := t.buf.take k; keep got.length got { t with buf := t.buf.drop k } s

/-- n bytes popped from a stream: its elements are taken as they come, and the image is whole when the last one has (R66, R190). A
fault held on prefetched data is raised by the pop that reaches it (R204). -/
def popImage (n : Fin 8) (bytes : Nat) : M (List Byte) := do
  let s ← getS
  let c := s.core.ctx
  match srcDir c (.str n) with
  | some n => stopTrap { dirTrap n with unit := 1 }
  | none =>
    let t := c.streams[n]
    if bytes % t.esz ≠ 0 then stopTrap { dirTrap n with unit := 1 }
    else
      let k := bytes / t.esz - c.wdst.part.length
      if t.ends k then stopTrap { exhTrap n with unit := 1 }
      else if s.core.available t < k then
        match t.held with
        | some h => stopTrap { h with async := false, unit := 1 }
        | none => do
          modS (takePart n k)
          stopStallIn .stream
      else do
        modS (takePart n k)
        let c ← getC
        modC fun c => { c with wdst := { c.wdst with part := [] } }
        return c.wdst.part.flatten

/-- The activation image of k-block kb. -/
def actImage (w : WdState) (t : ElemTy) (kb : Nat) : M (List Byte) :=
  let n := imageBytes t w.abw.toNat
  match w.src with
  | some st => popImage st n
  | none => do
    let a := w.base + BitVec.ofNat 64 kb * w.stride
    let pl ← place a n needR false 1
    awaitLoad a n
    checked (readPlace pl true 1)

/-- One column group of a k-block added to its accumulator (R93). -/
def macGroup (acc : Nat) (rows cols : List (List FV)) : M Unit := do
  let old ← readUrs acc 4096
  let r := kblock old rows cols
  writeUrs acc r.1
  raiseFp r.2

/-- One k-block of a weight block; the block ends with its last one. -/
def macStep (h : BlockHdr) : M Unit := do
  let c ← getC
  let w := c.wdst
  let kb := c.kb
  match elemOfCode w.aet.toNat with
  | none => illegalBlock h
  | some t =>
    if hdrK h / 32 ≤ kb then blkNext h (h.succ.setWidth 64)
    else do
      let imgs ← mapM' (weightImage h kb) (List.range (hdrG h))
      let act ← actImage w t kb
      let rows := actRows t w.abw.toNat act
      modS fun s => s.lose ((imgs.map fun i => 4 * bitSteps i.1 i.2.1).foldl (· + ·) 0)
      eachM (fun p => macGroup (c.aOff (w.abase + p.1)) rows (bImageCols p.2.1 p.2.2.1 p.2.2.2))
        ((List.range imgs.length).zip imgs)
      if kb + 1 = hdrK h / 32 then blkNext h (h.succ.setWidth 64)
      else modS fun s => (retireCore s).mapCtx fun c => { c with mxprog := BitVec.ofNat 64 (kb + 1) }

/-- R190, R191: a MAC block becomes current and its k-block KB runs; the others follow as `wdKblock`. -/
def execBlockMac (h : BlockHdr) (s : State) : Res :=
  blkRun h s (fun c => h.opc == 0 && macOk h c.wdst) do
    baseCheck h
    macStep h

/-- The accumulators of a MACZ block zeroed when it starts. -/
def maczStart (h : BlockHdr) : M Unit := do
  baseCheck h
  let c ← getC
  whenM (c.kb == 0) (eachM (fun nt => writeUrs (c.aOff (c.wdst.abase + nt)) (zeroBytes 4096)) (List.range (hdrG h)))

/-- R191: a MACZ block: what its k-block 0 does not reach stays zeroed when a fetch of it faults. -/
def execBlockMacz (h : BlockHdr) (s : State) : Res :=
  blkRun h s (fun c => h.opc == 1 && macOk h c.wdst) fun s1 =>
    match maczStart h s1 with
    | .ok (_, s2) => keepHere s2 (macStep h s2)
    | .error e => .error e

/-- R191: the next k-block of the current weight block. -/
def execWdKblock (h : BlockHdr) (s : State) : Res :=
  if s.core.ctx.wd then
    let s0 := s.mapCtx fun c => { c with wdblk := BitVec.ofNat 64 h.addr }
    outcome s0 ((if macOk h s0.core.ctx.wdst then macStep h else illegalBlock h) s0)
  else .next s

/-! EMIT (R192). -/

def emitMode (h : BlockHdr) : Nat := h.route.toNat / 2 ^ 14
def emitMap (h : BlockHdr) : Bool := bitAt h.route.toNat 13
def emitTarget (h : BlockHdr) : Nat := h.route.toNat % 64
def emitOk (h : BlockHdr) (w : WdState) : Bool :=
  plainOk h && h.opc == 2 && emitMode h != 3 && bitsAt h.route.toNat 6 7 == 0
    && (8 ≤ h.fmt.toNat && h.fmt.toNat ≤ 13) && !(h.fmt == 13 && h.bw == 7) && hdrG h ≤ w.acnt
    && !(emitMode h == 1 && 7 < emitTarget h) && !(emitMode h == 0 && emitTarget h != 0)
    && !(emitMode h == 2 && !isNear h.base.toNat)

/-- A value passed through a table bank (R192). -/
def emitLookup (b : Bank) (v : FV) : FV :=
  let entry (c : Int) : FV := scalFV b.kind (b.entry (clampI 0 255 c).toNat)
  match v with
  | .nan _ => v
  | .inf neg => entry (if neg then 0 else 255)
  | .fin neg m e => entry ((fvToInt neg m (e + 4)).1 + 128)

/-- Pushes of a whole image to an output stream, whose transfer unit drains meanwhile; or the fault of a drain. -/
def pushAll (n : Fin 8) : List (List Byte) → State → Except (Trap × State) State
  | [], s => .ok s
  | e :: es, s =>
    let t := s.core.ctx.streams[n]
    match (if bufLimit < (t.buf.length + 1) * t.esz then drainElem n s else .ok s) with
    | .error h => .error (h, s)
    | .ok s1 => pushAll n es (s1.mapCtx fun c =>
        let t := c.streams[n]
        { c with streams := c.streams.set n.val { t with buf := t.buf ++ [e], done := t.done + 1 } })
/-- A stream put back to where it stood before an image, but for what has been written of what preceded it. -/
def rewindPush (n : Fin 8) (t0 : Stream) (c : Ctx) : Ctx :=
  let t := c.streams[n]
  let m := min t.moved t0.done
  { c with streams := c.streams.set n.val { t with buf := t0.buf.drop (m - t0.moved), moved := m, done := t0.done } }
/-- R192: a fault of the drain is asynchronous (R204), and the image will be pushed again whole, at the same positions. -/
def pushImage (n : Fin 8) (es : List (List Byte)) : M Unit := do
  let s ← getS
  match pushAll n es s with
  | .ok s' => setS s'
  | .error _ => stopStallDo .stream fun s0 => match pushAll n es s0 with
    | .ok _ => s0
    | .error (h, s') => s'.mapCtx fun c => (rewindPush n s0.core.ctx.streams[n] c).hold { h with unit := 3 }

/-- An image delivered as the mode says. -/
def emitDeliver (h : BlockHdr) (nt : Nat) (img : List Byte) : M Unit :=
  if emitMode h = 1 then do
    let n : Fin 8 := Fin.ofNat 8 (emitTarget h)
    let c ← getC
    match dstDir c (.str n) with
    | some n => stopTrap { dirTrap n with unit := 1 }
    | none =>
      let t := c.streams[n]
      if img.length % t.esz ≠ 0 then stopTrap { dirTrap n with unit := 1 }
      else if t.total < t.done + img.length / t.esz then stopTrap { exhTrap n with unit := 1 }
      else pushImage n (chunksOf t.esz (img.length / t.esz) img)
  else do
    let a := BitVec.ofNat 64 (h.base.toNat + nt * img.length)
    let pl ← place a img.length needW true 1
    awaitOwn a img.length
    writeNow pl img 1

/-- The message of NOTIFY after the last image: a release at the course's span (R162, R192). -/
def emitNotify (h : BlockHdr) : M Unit := do
  let s ← getS
  releaseAt s.spanOfTask
  let s ← getS
  let dst := ownerCore h.base.toNat
  if logFull s s.vdNum dst then stopStall .backpressure
  else modS fun s => { s with mortar := s.mortar ++ [{ src := s.core.id, dst := dst, vd := s.vdNum
                                                       body := .tag (Fin.ofNat 64 (emitTarget h)) (BitVec.ofNat 64 (h.base.toNat % 2 ^ 32)),
                                                       course := markCourse s.core.ctx.mark }] }

/-- The end of an EMIT block. -/
def emitEnd (h : BlockHdr) : M Unit := do
  whenM (emitMode h == 2) (emitNotify h)
  blkNext h (h.succ.setWidth 64)

/-- R192: one column group; the block ends with its last one. -/
def execBlockEmit (h : BlockHdr) (s : State) : Res :=
  blkRun h s (fun c => emitOk h c.wdst) do
    let c ← getC
    let nt := c.kb
    if hdrG h ≤ nt then emitEnd h
    else do
      let acc ← readUrs (c.aOff (c.wdst.abase + nt)) 4096
      let s ← getS
      let bank := if h.tgen then s.core.bank1 else s.core.bank0
      let rows := (accRows acc).map fun r => if emitMap h then r.map (emitLookup bank) else r
      let img := imageOut (hdrType h) h.bw.toNat rows
      emitDeliver h nt img.1
      raiseFp img.2
      if nt + 1 = hdrG h then emitEnd h
      else modS fun s => (retireCore s).mapCtx fun c => { c with mxprog := BitVec.ofNat 64 (nt + 1) }

/-! The other blocks (R189, R194-R196). -/

/-- R189. -/
def execBlockLink (h : BlockHdr) (s : State) : Res :=
  blkRun h s (fun c => plainOk h && h.opc == 3 && (h.base == 0 || (c.wdst.src.isNone && isNear h.base.toNat))) do
    whenM (h.base != 0) (modC fun c => { c with wdst := { c.wdst with base := h.base.setWidth 64 } })
    blkNext h (h.succ.setWidth 64)

/-- R189; a block is 64-byte aligned (R168), and so is the BASE that names one. -/
def execBlockCallb (h : BlockHdr) (s : State) : Res :=
  blkRun h s (fun c => plainOk h && h.opc == 4 && h.base.toNat % 64 == 0 && c.wdst.link.length < 4) do
    modC fun c => { c with wdst := { c.wdst with link := h.succ.setWidth 64 :: c.wdst.link } }
    blkNext h (h.base.setWidth 64)

/-- R189. -/
def execBlockRetb (h : BlockHdr) (s : State) : Res :=
  blkRun h s (fun c => plainOk h && h.opc == 5 && 0 < c.wdst.link.length) do
    let c ← getC
    modC fun c => { c with wdst := { c.wdst with link := c.wdst.link.drop 1 } }
    blkNext h (nth c.wdst.link 0 0)

/-- R194. -/
def execBlockHint (h : BlockHdr) (s : State) : Res :=
  blkRun h s (fun _ => plainOk h && h.opc == 6) do
    blkNext h (h.succ.setWidth 64)

/-- SYNC's fields (R195). -/
def syncScope (h : BlockHdr) : Option Scope :=
  match bitsAt h.route.toNat 2 3 with
  | 0 => some .core | 1 => some .quad | 2 => some .tile | 3 => some .die | 4 => some .pkg | 5 => some .pod | 6 => some .host
  | _ => none
def syncOk (h : BlockHdr) : Bool :=
  plainOk h && h.opc == 7 && !bitAt h.route.toNat 1 && bitsAt h.route.toNat 5 11 == 0 && (syncScope h).isSome

/-- R195. -/
def execBlockSync (h : BlockHdr) (s : State) : Res :=
  blkRun h s (fun _ => syncOk h) do
    let sc := (syncScope h).getD .core
    let ea : Word := h.base.setWidth 64
    let far := !isNear ea.toNat
    whenM (!far) (aligned ea 8 (!bitAt h.route.toNat 0) 1)
    if bitAt h.route.toNat 0 then do
      let pl ← place ea 8 needR false 1
      awaitLoad ea 8
      let bs ← checked (readPlace pl true 1)
      warn far wOrder
      if leNat bs < h.word4.toNat then stopStall .acquire
      else do
        whenM (!far) (acquireAt sc ea)
        blkNext h (h.succ.setWidth 64)
    else do
      let pl ← place ea 8 needW true 1
      warn far wOrder
      releaseAt sc
      awaitOwn ea 8
      writeNow pl (leBytes 8 h.word4.toNat) 1
      blkNext h (h.succ.setWidth 64)

/-- Every store and push of the chain performed (R196). -/
def settlePushes : M Unit := do
  let s ← getS
  let r := drainForRelease s
  if r.2 then setS r.1 else stopStallDo .stream fun s0 => (drainForRelease s0).1

/-- The mode ends with a value for D (R196, R197). -/
def Ctx.leaveWd (c : Ctx) (v : Word) : Ctx :=
  let c := match c.wdst.dst with
    | .reg n => c.setX n v
    | .str _ => c
  { c with mxprog := 0, wd := false, pc := c.wdst.exit, wdst := { c.wdst with link := [] } }

/-- R196. -/
def execBlockExit (h : BlockHdr) (s : State) : Res :=
  blkRun h s (fun _ => plainOk h && h.opc == 8) do
    let c ← getC
    match c.wdst.dst with
    | .reg n => if c.pendingX n then stopStall .interlock else modS id
    | .str _ => modS id
    settlePushes
    modS fun s => blkStep ((retireCore (takeStaged h s)).mapCtx fun c => c.leaveWd (h.route.setWidth 64))

/-- R189, R198: the block is complete when it traps. -/
def execBlockTrapb (h : BlockHdr) (s : State) : Res :=
  blkRun h s (fun _ => plainOk h && h.opc == 9) do
    modS fun s => (retireCore (takeStaged h s)).mapCtx fun c => { c with wdblk := h.succ.setWidth 64, mxprog := 0 }
    stopTrapHere (blkTrap .trapi h.addr)

/-- R189: an opcode of 10 to 63. -/
def execBlockIllegal (h : BlockHdr) (s : State) : Res :=
  blkRun h s (fun _ => false) (modS id)

/-! The staging buffer on its own (R193). -/

/-- The block the load pipe would prefetch while the current one runs. -/
def State.prefetchTarget (s : State) : Option Nat :=
  let a := s.core.ctx.wdblk.toNat
  match blkRead a 0 64 s with
  | .error _ => none
  | .ok (hb, _) => nextBlock (blockHdr a hb) s.core.ctx.wdst.link

/-- R193. -/
def execLoadpipePrefetch (c : CoreId) (s : State) : Res :=
  eventStep (onCore s c fun s =>
    if s.core.ctx.wd then
      match s.prefetchTarget with
      | some a => (prefetchBlock [] a s).1
      | none => s
    else s)

/-- R193: an entry 65,536 cycles old is dropped. -/
def execStagingEntryExpire (t : TileId) (i : Nat) (s : State) : Res :=
  eventStep (s.updTile t fun tl =>
    match tl.staging[i]? with
    | some e => if 65536 ≤ (s.time - e.at_).toNat then { tl with staging := tl.staging.eraseIdx i } else tl
    | none => tl)

/-! WDENTER and WDEXIT (R186, R187, R197, R375). -/

/-- STREAM_DIR of WDENTER: D, A and C take no stream, and B takes a bound input one; fields in the order A, B, C, D. -/
def wdenterDirs (d a b c : Opd) : M Unit := do
  noStream a
  dirCheck [b] []
  noStream c
  noStream d

/-- R186, R187. -/
def execWdenter (abase acntm1 : Fin 4) (pg : Fin 8) (d a b c : Opd) (exit : BitVec 48) (aet : BitVec 4) (abw : BitVec 3)
    (s : State) : Res :=
  outcome s ((do
    needsMatrix
    wdenterDirs d a b c
    let first ← readOpd a
    let src : Option (Fin 8) := match b with | .str n => some n | .reg _ => none
    let base ← match b with | .reg n => readX n | .str _ => pure 0
    let stride ← readOpd c
    aligned first 64
    let ok := match elemOfCode aet.toNat with
      | some t => mmaTypeA t && !(aet == 13 && abw == 7)
      | none => false
    let refuse (v : Word) : M Unit := do
      modC Ctx.dropPrefix
      ignoredPg pg
      warn true wCombo
      writeOpd d v
      modS fun s => stepTrap ((retireCore s).mapCtx fun c => { c.endRep with pc := c.pc + 16 })
    if !ok then refuse 0x8000000000000002
    else if src.isNone && !(isNear base.toNat && base.toNat % 8 == 0) then refuse 0x8000000000000003
    else do
      let cx ← getC
      if cx.mx ≠ 0 then stopStall .counter
      else do
        let t := (elemOfCode aet.toNat).getD .bf16
        let n := min (acntm1.val + 1) (4 - abase.val)
        modC Ctx.dropPrefix
        ignoredPg pg
        warn (src.isSome && c != Opd.reg 0) wCombo
        warn (n < acntm1.val + 1) wCombo
        modS fun s => blkStep ((retireCore s).mapCtx fun c =>
          { c.endRep with
            pc := exit.setWidth 64, wd := true, mxprog := 0, wdblk := first
            wdst := { exit := exit.setWidth 64, dst := d, aet := aet, abw := abw, abase := abase.val, acnt := n, src := src
                      base := base, stride := if stride = 0 then BitVec.ofNat 64 (imageBytes t abw.toNat) else stride } })) s)

/-- The serviced image leaves the mode (R197): D, MXPROG, SR.WD, the PC and the link stack of its bytes. -/
def wdexitImage (base : Nat) (v : Word) : M Unit := do
  let rd (off : Nat) : M Nat := do
    let bs ← readPlace (.near (base + off) 8)
    return leNat bs
  let sr ← rd 0x8000
  if !bitAt sr 33 then warn true wCombo
  else do
    let h ← rd 0x8220
    let exit ← rd 0x8218
    let d := h % 2 ^ 8
    whenM (0 < d && d < 32) (writeNear (base + 8 * d) (wordBytes v))
    writeNear (base + 0x8000) (leBytes 8 (sr - 2 ^ 33))
    writeNear (base + 0x8058) (zeroBytes 8)
    writeNear (base + 0x80D0) (leBytes 8 exit)
    writeNear (base + 0x8220) (leBytes 8 (h - bitsAt h 32 8 * 2 ^ 32))
    writeNear (base + 0x8238) (zeroBytes 32)

/-- R197. -/
def execWdexit (pg : Fin 8) (a : Opd) (s : State) : Res :=
  issue s 8 do
    ignoredPg pg
    noStream a
    let x ← readOpd a
    let s ← getS
    match s.core.ctx.svc, s.core.ctx.under with
    | true, some k => wdexitImage (slotAddr (coreTile s.core.id) k.val) (BitVec.ofNat 64 (x.toNat % 2 ^ 16 + 2 ^ 16))
    | _, _ => warn true wCombo

end Sys2Proof.Machine
end

