-- ==== Sys2Proof/Machine/Service.lean ====
section
/-! DEFINITION. Instructions of service tasks: TLBI (R363), CTXSV and CTXLD (R303-R305). ERET stands with the control
family and WDEXIT with weight-driven mode. -/

namespace Sys2Proof.Machine

/-- What a TLBI removes from one tile: entries of the tile TLB and of the micro-TLBs, and fetched and staged bytes of the
affected pages. A page is at most 1 GiB, so the lines of the whole GiB around VA leave. -/
def invalidateTile (k : TlbiKind) (dev : Nat) (va : Nat) (s : State) (t : TileId) : State :=
  let gone (e : TlbEntry) : Bool := e.dev == dev && match k with
    | .page => e.vpage ≤ va && va < e.vpage + e.size
    | .asid => !bitAt e.pte.toNat 6
    | .all => true
  let near (a : Nat) : Bool := match k with
    | .page => a / 2 ^ 30 == va / 2 ^ 30
    | .asid | .all => true
  let s := s.updTile t fun tl =>
    { tl with tlb := tl.tlb.filter fun e => !gone e
              staging := tl.staging.filter fun e => !(e.vd == dev && (near e.addr || near (e.addr + e.bytes.length - 1)))
              icache := tl.icache.filter fun l => !(l.vd == dev && near (l.block * 32)) }
  let drop (co : Core) : Core :=
    if coreTile co.id = t then { co with mtlb := co.mtlb.filter fun e => !gone e
                                         fblock := co.fblock.filter fun l => !near (l.1 * 32) }
    else co
  { s with core := drop s.core, others := s.others.map drop }

/-- A wait of a service task's own instruction shows as service (R23). -/
def serviceWait {α : Type} (m : M α) : M α := fun s => match m s with
  | .error (.stall _) => .error (.stall .service)
  | .error (.stallDo _ f) => .error (.stallDo .service f)
  | r => r

/-- R363. -/
def execTlbi (k : TlbiKind) (part : Bool) (pg : Fin 8) (a : Opd) (s : State) : Res :=
  issue s 8 do
    privileged
    ignoredPg pg
    checkDirs [a] []
    let va ← readOpd a
    serviceWait (releaseDrain .pkg)
    modS fun s =>
      match s.dev with
      | none => s
      | some d =>
        let ts := if part then d.tiles else [coreTile s.core.id]
        ts.foldl (invalidateTile k d.num va.toNat) s

/-! Parked contexts (R303-R305). -/

/-- A near byte that a parked image may take: the observation block is open to service mode (R239, R303). -/
def parkOk (s : State) (a : Nat) : Bool := nearExists a && s.inPartition (nearTile a) && !isSpill a && !isMigSlot a
/-- The 0xB000 bytes that CTXSV writes or CTXLD reads: near outside the areas of R303, or far. -/
def parkPlace (ea : Word) (need : Need) (write : Bool) : M Place := do
  aligned ea 64 write
  let s ← getS
  let a := ea.toNat
  if isNear a then
    if (List.range 704).all fun i => parkOk s (nearWrap a (64 * i)) then pure (.near a slotSize)
    else stopTrap (trapNat .nearBounds a write)
  else place ea slotSize need write

/-- The bytes of a migration slot (R207): the keystone's slice is one piece there. An uncorrectable word raises MCHECK (R244). -/
def slotBytes (a : Nat) : M (List Byte) := do
  let s ← getS
  match s.poison.find? fun w => rangesMeet w 8 a slotSize with
  | none => pure (memRead s.near a slotSize)
  | some w => do
    holdCheck w false 0
    modS fun s => { s with fresh := s.fresh + 1 }
    return (List.range' a slotSize).map fun b => if s.poison.contains (b / 8 * 8) then Config.badByte s.fresh b else memGet s.near b
/-- A migration slot filled. -/
def fillSlot (a : Nat) (img : List Byte) : M Unit := modS fun s =>
  { s with near := memWrite s.near a img, poison := clearRange a img.length s.poison }

/-- The migration slot of the tile whose near address is given, when it holds a context of the issuing device. -/
def occupiedSlot (s : State) (a : Nat) : Option (Fin 64) :=
  let t := coreTile s.core.id
  if isNear a && nearTile a == t && isMigSlot a && keyByte a % slotSize == 0 then
    let k : Fin 64 := Fin.ofNat 64 (migSlotOf a)
    match (s.tileOf t).slots[k] with
    | .image n => if some n = s.vd then some k else none
    | _ => none
  else none

/-- R303, R304: the copy follows the task's earlier stores and is written at once, and the slot is free with it; ST counts it until
it drains. -/
def execCtxsv (d : Opd) (m : MArgs) (s : State) : Res :=
  issue s 8 do
    privileged
    checkDirs [m.base, m.idx, d] []
    let ea ← effAddr m (szBytes m.sz)
    let x ← readOpd d
    plainOrd false m
    let pl ← parkPlace ea needW true
    let s ← getS
    match occupiedSlot s x.toNat with
    | none => stopTrap (trapAt .nearBounds x)
    | some k =>
      if bitsAt (nearRd s x.toNat 0x80F8 8) 12 6 != 0 then stopStall .service
      else do
        serviceWait do
          awaitOwn x slotSize
          awaitOwn ea slotSize
        let img ← slotBytes x.toNat
        countable s.core.ctx.st
        writeNow pl img
        modC fun c => { c with st := c.st + 1, stores := c.stores ++ [{ va := ea.toNat, cells := [] }] }
        modS fun s => s.updTile (coreTile s.core.id) fun tl => { tl with slots := tl.slots.set k.val .free }
        modC fun c => if c.under = some k then { c with under := none } else c

/-- R305: MARK's ASID bits and the DIE and TILE fields of CORE become the issuing device's and tile's. -/
def retarget (dev : Nat) (t : TileId) (mark home : Nat) : Nat × Nat :=
  (mark % 2 ^ 50 + (asidOf dev).toNat * 2 ^ 50, t.toNat * 64 + (if home % 64 < 32 then home % 64 else 0))

/-- R303, R305: LD counts the copy until it has returned, and an ERET waits for LD. -/
def execCtxld (d : Opd) (m : MArgs) (s : State) : Res :=
  issue s 8 do
    privileged
    checkDirs [m.base, m.idx] [d]
    dstEnd false d
    let ea ← effAddr m (szBytes m.sz)
    plainOrd false m
    let pl ← parkPlace ea needR false
    let s ← getS
    let t := coreTile s.core.id
    match freeSlot (s.tileOf t), s.vd with
    | none, _ => writeOpd d 0x8000000000000001
    | some _, none => writeOpd d 0x8000000000000001
    | some k, some n =>
      if s.core.ctx.under.isSome then writeOpd d 0x8000000000000002
      else do
        let img ← serviceWait do
          awaitLoad ea slotSize
          readPlace pl
        countLoad { dst := .none, data := [] }
        let a := slotAddr t k.val
        fillSlot a img
        let r := retarget n t (leNat ((img.drop 0x8020).take 8)) (leNat ((img.drop 0x8030).take 8))
        writeNear (a + 0x8020) (leBytes 8 r.1)
        writeNear (a + 0x8030) (leBytes 8 r.2)
        modS fun s => s.updTile t fun tl => { tl with slots := tl.slots.set k.val (.image n) }
        modC fun c => { c with under := some k }
        writeOpd d (BitVec.ofNat 64 a)

end Sys2Proof.Machine
end

