-- ==== Sys2Proof/Machine/Saves.lean ====
section
/-! DEFINITION. The save record of a core as bytes (R212): the running task's image, tags, arrival queues, run queue, deque, queue
state, lock bits, the message log and, at EVICT, the slice. Where the area lies, and the fields of a log entry, are
this model's choice (log entry 84). -/

namespace Sys2Proof.Machine

def kindCode : Kind → Nat
  | .tile => 0 | .fork => 1 | .handler => 2 | .completion => 3 | .continuation => 4
/-- A task record (R25). -/
def recordBytes (r : TaskRec) : List Byte :=
  leBytes 8 (b2n r.wait * 2 ^ 61 + r.sscope.toNat * 2 ^ 58 + r.prio.toNat * 2 ^ 51 + kindCode r.kind * 2 ^ 48 + r.entry.toNat)
    ++ wordBytes r.mark ++ wordBytes r.arg0 ++ wordBytes r.arg1
/-- A tag table entry (R47): HANDLER, PRIO, EN and PEND, then COURSE. -/
def tagBytes (co : Core) (t : Fin 64) : List Byte :=
  let g := co.tags[t]
  leBytes 8 (g.handler.toNat + g.prio.toNat * 2 ^ 48 + b2n g.en * 2 ^ 55 + b2n (co.pendBit t) * 2 ^ 56) ++ leBytes 8 g.course.toNat
/-- An entry of the message log (R166): payload, then sender, target, kind and course. -/
def logBytes (m : Msg) : List Byte :=
  let p : Word × Nat × Nat := match m.body with
    | .tag t v => (v, t.val, 0)
    | .queue q v => (v, q.val, 1)
    | .bounce v => (v, 63, 2)
    | .tileTask r | .record r => (r.arg1, kindCode r.kind, 3)
  wordBytes p.1 ++ leBytes 8 (m.src.toNat + p.2.1 * 2 ^ 16 + p.2.2 * 2 ^ 24 + m.course.toNat * 2 ^ 32)
def logAt (n : Nat) : Nat := 0xD000 + 16 * n

/-- The lock word of a bank of a core's slice. -/
def lockWordOf (locks : List Lock) (bank : Nat) : Nat :=
  locks.foldl (fun w l => if l.bank = bank then natOr 64 w (2 ^ l.bit.toNat) else w) 0

/-- The record of a core without its log and its slice: what PAUSE writes. -/
def saveBytes (time : Word) (co : Core) (locks : List Lock) : Memory :=
  let image := if co.mode = .idle then itemsAt wordAt 8 0 co.ctx.x.toList ++ co.ctx.urs else imageCells time co co.ctx 0 0 0
  let queued := co.runq.take 64
  memWriteAll [] (image
    ++ itemsAt (fun o t => pieceAt o (tagBytes co t)) 16 0xB000 (List.finRange 64)
    ++ itemsAt (fun o q => itemsAt wordAt 8 o q) 128 0xB400 co.arrq.toList
    ++ itemsAt (fun o r => pieceAt o (recordBytes r)) 32 0xB800 queued
    ++ itemsAt (fun o r => pieceAt o (recordBytes r)) 32 0xC000 co.deque.reverse
    ++ natAt 0xC800 8 (queued.length + co.deque.length * 2 ^ 8 + (co.runq.length - 64) * 2 ^ 16)
    ++ itemsAt (fun o b => natAt o 8 (lockWordOf locks b)) 8 0xC840 (List.range 8))

/-- Near addresses of a core's slice: the first one and its size. -/
def sliceOf (c : CoreId) : Nat × Nat :=
  (nearAddr (coreTile c) (coreSlot c) 0, if coreSlot c = 32 then 2 ^ 22 else 2 ^ 20)
/-- The spilled records of a core's run queue, where its slice holds them (R37); a task reaches no byte of that area. -/
def spillCells (co : Core) : List (Nat × Byte) :=
  if coreSlot co.id = 32 then []
  else itemsAt (fun o r => pieceAt o (recordBytes r)) 32 (nearAddr (coreTile co.id) (coreSlot co.id) 0xE0000) (co.runq.drop 64)
/-- A message appended to the log. -/
def SaveRec.logged (r : SaveRec) (m : Msg) : SaveRec :=
  { r with log := r.log ++ [m], bytes := memWrite r.bytes (logAt r.log.length) (logBytes m) }

end Sys2Proof.Machine
end

