-- ==== Sys2Proof/Machine/Units.lean ====
section
/-! DEFINITION. Steps of the task machinery and of a core's units: TASK_SELECT to BARRIER_COMPLETE and FETCH_DELIVER to
SETTLE_REQUEST, each acting on the core, message or barrier it names and doing nothing where that is not due. -/

namespace Sys2Proof.Machine

/-! Selecting and stealing (R39, R43, R44). -/

/-- R39. -/
def execTaskSelect (c : CoreId) (s : State) : Res := eventStep (onCore s c selectTask)

/-- R43, R44: one request of an idle core with no other candidate. -/
def execStealRequest (thief victim : CoreId) (s : State) : Res :=
  eventStep (onCore s thief fun s =>
    if s.liveOn thief && coreSlot thief < 32 && (bestOf (candidates s.core)).isNone then stealOne s victim else s)

/-! Messages (R48, R68, R166, R167). -/

def MsgBody.isTask : MsgBody → Bool
  | .tileTask _ => true
  | _ => false
def MsgBody.isRecord : MsgBody → Bool
  | .record _ => true
  | _ => false
def Msg.isTileOf (vd : Nat) (course : BitVec 16) (m : Msg) : Bool := m.vd == vd && m.course == course && m.body.isTask
/-- Whether an earlier message of the mortar must be delivered first: one of the same source and destination (R164), an earlier
tile-task record of the course (R34), a record that waits for room in the same run queue, or a logged message for the same core
(R166). -/
def goesFirst (k m : Msg) : Bool :=
  match m.body with
  | .tileTask _ => k.isTileOf m.vd m.course || (k.logged && k.dst == m.dst && k.vd == m.vd)
  | .record _ => k.dst == m.dst && k.body.isRecord
  | _ => (k.src == m.src && k.dst == m.dst && !k.body.isTask && !k.body.isRecord) || (k.logged && k.dst == m.dst && k.vd == m.vd)
/-- No earlier message of the mortar must be delivered before message i. -/
def inOrder (ms : List Msg) (i : Nat) (m : Msg) : Bool := !((ms.take i).any fun k => goesFirst k m)

/-- The bounce of a discarded message (R167). -/
def bounceOf (m : Msg) : Option Msg :=
  let word (payload : Word) (target : Nat) (q : Bool) : Word :=
    BitVec.ofNat 64 (payload.toNat % 2 ^ 32 * 2 ^ 32 + target * 2 ^ 10 + b2n q * 2 ^ 9 + 1)
  let back (w : Word) : Msg := { src := m.dst, dst := m.src, vd := m.vd, body := .bounce w, course := m.course }
  match m.body with
  | .tag t p => some (back (word p t.val false))
  | .queue q p => some (back (word p q.val true))
  | .tileTask _ | .record _ | .bounce _ => none
def MsgBody.isBounce : MsgBody → Bool
  | .bounce _ => true
  | _ => false

/-- A message for a device that is no more: discarded, with a bounce or a count of the bounce lost. -/
def discardMsg (s : State) (m : Msg) : State :=
  let s := match bounceOf m with
    | some b => { s with mortar := s.mortar ++ [b] }
    | none => s
  if m.body.isBounce then { s with host := { s.host with lostBounce := s.host.lostBounce + 1 } } else s

/-- A message delivered to a resident context (R48, R68); none while it stays in the mortar, where it is behind the pending signals
that are due (R49). -/
def landMsg (s : State) (m : Msg) : Option State :=
  let co := s.coreOf m.dst
  let room := co.hasRoomLeft
  match m.body with
  | .tag t p => if room then some (handlerRec s m.dst m.vd t p (handlerArg m.src t false)) else none
  | .bounce w => if room then some (handlerRec s m.dst m.vd 63 w (handlerArg m.src 63 false)) else none
  | .queue q p =>
    if co.arrq[q].length < 16 then
      some (s.updCore m.dst fun co => { co with arrq := co.arrq.set q.val (co.arrq[q] ++ [p]) })
    else none
  | .tileTask r | .record r => if room then some (queueRec s m.dst r) else none

/-- A message appended to the log of a paused or evicted context (R166); none when the log is full. -/
def logMsg (s : State) (d : Device) (m : Msg) : Option State :=
  let f (r : SaveRec) : SaveRec := if r.core.id = m.dst then r.logged m else r
  match d.saves.find? fun r => r.core.id == m.dst with
  | none => none
  | some r => if 1024 ≤ r.log.length then none else some (s.updDev d.num fun d => { d with saves := d.saves.map f })

/-- The fate of message i (R166). -/
def arrive (s : State) (i : Nat) (task : Bool) : State :=
  match s.mortar[i]? with
  | none => s
  | some m =>
    if m.body.isTask != task || !inOrder s.mortar i m then s
    else
      let gone := { s with mortar := s.mortar.eraseIdx i }
      match s.devOf m.vd with
      | none => discardMsg gone m
      | some d =>
        match d.state with
        | .faulted => gone
        | .paused | .evicted => if m.body.isRecord then s else (logMsg gone d m).getD s
        | .running => (landMsg gone m).getD s

/-- R34. -/
def execTileTaskRecordArrive (i : Nat) (s : State) : Res := eventStep (arrive s i true)
/-- R166. -/
def execMessageArrival (i : Nat) (s : State) : Res := eventStep (arrive s i false)

/-- R49. -/
def execPendingSignalRecord (c : CoreId) (tag : Fin 64) (s : State) : Res :=
  eventStep (match s.vdOf c with
    | some n => if s.liveOn c then signalRec s c n tag else s
    | none => s)

/-! Barriers (R52). -/

/-- Every barrier under way, in order of device. -/
def State.barriers (s : State) : List Barrier := (s.devs.map (·.barriers)).flatten
/-- A barrier whose count is reached: its generation flips. -/
def completeBarrier (s : State) (b : Barrier) : State :=
  if 0 < b.expect && b.expect ≤ b.count then
    s.updDev b.vd fun d => { d with barriers := putBarrier { b with gen := !b.gen, count := 0 } d.barriers }
  else s
/-- R52. -/
def execBarrierComplete (i : Nat) (s : State) : Res :=
  eventStep (match s.barriers[i]? with
    | some b => completeBarrier s b
    | none => s)

/-! Units of a core (R53, R71, R120, R141, R204, R207-R209, R238, R378). -/

/-- R53. -/
def execFetchDeliver (c : CoreId) (s : State) : Res := eventStep (deliverBlock s c)
/-- R71. -/
def execFarLoadReturn (c : CoreId) (s : State) : Res := eventStep (onCore s c fun s => s.mapCtx returnOne)
/-- R71. -/
def execFarStoreDrain (c : CoreId) (s : State) : Res := eventStep (onCore s c drainOne)

/-- R120: the owning slice performs the access; a read changes nothing there. -/
def execRemoteNearAccess (write : Bool) (addr : Nat) (data : List Byte) (s : State) : Res :=
  eventStep (if write && isNear addr && nearExists addr then
      { (s.nearWrite addr data) with poison := clearPoison addr data.length s.poison }
    else s)

/-- R141. -/
def execGatherElementReply (c : CoreId) (s : State) : Res := eventStep (onCore s c gatherStep)

/-- R378, R125: the walk of an access to a far address fills the TLBs and sets A, and D for a write to a page that may be written (R122);
one that ends in a fault is found by the access that waits for it. -/
def execPageWalkComplete (c : CoreId) (va : Nat) (write : Bool) (s : State) : Res :=
  eventStep (onCore s c fun s => if !isFar va then s else match translate va { w := write } write s with
    | .ok (_, s') => s'
    | .error _ => s)

/-- R204: the first of the held faults is taken. -/
def takeAsync (s : State) : State :=
  match s.core.ctx.asyncs with
  | t :: _ => if s.core.mode = .running ∧ s.liveOn s.core.id then takeTrap t s else s
  | [] => s
def execAsyncFaultTake (c : CoreId) (s : State) : Res := eventStep (onCore s c takeAsync)

/-- R207, R238: a trapped context that waited for a migration slot takes one; while it waits, the core stalls (R23, R55). -/
def retryMigrate (s : State) : State :=
  if s.core.mode = .trapped ∧ s.liveOn s.core.id then
    let t := if isDebugStop s (causeOf (s.core.ctx.fault.toNat % 64)) then debugHold s else migrate (settle s)
    if t.core.mode = .trapped then { t with core := t.core.stalled } else t
  else s
def execTrapMigrate (c : CoreId) (s : State) : Res := eventStep (onCore s c retryMigrate)

/-- Whether a keystone has, or will run, a service task for a slot. -/
def serviced (s : State) (t : TileId) (k : Fin 64) : Bool :=
  let co := s.coreOf (keystoneOf t)
  (co.mode == .running && co.ctx.under == some k) || co.svcq.any (fun c => c.under == some k) || co.back.any fun c => c.under == some k
/-- R208. -/
def execServiceTaskCreate (t : TileId) (slot : Fin 64) (s : State) : Res :=
  eventStep (match (s.tileOf t).slots[slot] with
    | .image _ => if serviced s t slot then s else serviceTask s t slot
    | _ => s)

/-- R209: the context is ready at the head of its priority level on its core. -/
def contextBack (s : State) (i : Nat) : State :=
  match s.returning[i]? with
  | none => s
  | some (c, x) => giveBack ({ s with returning := s.returning.eraseIdx i }.traceAt c 3 x.mark x.pc) c x
def execContextReturn (i : Nat) (s : State) : Res := eventStep (contextBack s i)

/-- R238: once every counter of the held context is zero, the keystone's acquire load of its counter word goes on. -/
def settleDone (s : State) (c : CoreId) : State :=
  let co := s.coreOf c
  let x := co.ctx
  match co.mode with
  | .held _ =>
    if x.ld == 0 && x.st == 0 && x.job == 0 && x.mx == 0 && x.gr == 0 then
      s.updCore (keystoneOf (coreTile c)) fun k =>
        if k.ctx.stall = some .acquire then k.mapCtx fun y => { y with stall := none } else k
    else s
  | _ => s
def execSettleRequest (c : CoreId) (s : State) : Res := eventStep (settleDone s c)

end Sys2Proof.Machine
end

