-- ==== Sys2Proof/Machine/Lintel.lean ====
section
/-! DEFINITION. The lintel cores: completion of jobs (R139) and of packets (R232), launches (R31-R34), the queue packets
(R227-R231), the end of a course (R36), pre-emption, saving and restarting of a device (R211, R212), the time slice. -/

namespace Sys2Proof.Machine

/-! Device memory as the lintels and the capstone see it. -/

/-- Where a virtual address of a device lies: near, in a slice of its partition (R119), or a physical address of the quarry or of an approved peer window (R127). -/
def devPlace (s : State) (d : Device) (a : Nat) : Option (Bool × Nat) :=
  if isNear a then (if nearExists a && d.tiles.contains (nearTile a) then some (true, a) else none)
  else if isNull a || 2 ^ 48 ≤ a then none
  else match walkDev s d a with
    | .ok l => let pa := leafPa l.vpage l.pte a
      if quarryHi ≤ pa && !peerOk d pa then none else some (false, pa)
    | .error _ => none
def devByte (s : State) (d : Device) (a : Nat) : Option Byte :=
  (devPlace s d a).bind fun p =>
    if p.1 then (if s.poison.contains (p.2 / 8 * 8) then none else some (memGet s.near p.2))
    else if quarryHi ≤ p.2 then some (Config.peerByte s.fresh p.2)
    else if sealFails s d.key (p.2 / 256) then none else some (memGet s.quarry p.2)
/-- n bytes at a virtual address; none where one is not mapped or its check fails (R128, R244, log entry 97). -/
def devBytes (s : State) (d : Device) (a n : Nat) : Option (List Byte) :=
  let bs := (List.range n).filterMap fun i => devByte s d (a + i)
  if bs.length = n then some bs else none
/-- Bytes put into the quarry under the keys of a device (R128), or written to a peer (R127). -/
def portWrite (d : Device) (pa : Nat) (bs : List Byte) (s : State) : State :=
  if quarryHi ≤ pa then { s with peerOut := s.peerOut ++ [(pa, bs)] }
  else (granulesOf (List.range' pa bs.length)).foldl (sealOne d.key) { s with quarry := memWrite s.quarry pa bs }
/-- Bytes that lie in one page written at a virtual address. -/
def devPut (s : State) (d : Device) (a : Nat) (bs : List Byte) : State :=
  match devPlace s d a with
  | none => s
  | some (true, p) => s.hwWrite p bs
  | some (false, p) => portWrite d p bs (devTouch d true s a)
/-- n added to a word with a plain store, page by page; a word that is not whole there takes nothing (log entry 97). -/
def devAdd (s : State) (d : Device) (a : Nat) (n : Word) : State :=
  match devBytes s d a 8 with
  | none => s
  | some bs =>
    let out := wordBytes (bytesWord bs + n)
    let k := min 8 (4096 - a % 4096)
    let s1 := devPut s d a (out.take k)
    if k = 8 then s1 else devPut s1 d (a + k) (out.drop k)

/-- The live handle an engine address names, when n bytes at it lie in its extent. -/
def extent (d : Device) (ea n : Nat) : Option Handle :=
  match d.handles.find? fun h => h.val.toNat == handleOf ea && h.live && handleOf ea != 0 with
  | none => none
  | some h => if offsetOf ea + n ≤ h.len then some h else none

/-! Vectors, signals and queues. -/

/-- A vector raised on the port that holds the lease, or left pending while it is expired (R214, R217). -/
def raiseVector (s : State) (v : Nat) : State :=
  match s.host.lease with
  | .held => { s with host := { s.host with raised := s.host.raised ++ [(s.host.port, v)] } }
  | .expired => { s with host := { s.host with pending := s.host.pending ++ [v] } }
  | .vacant => s

def State.queueOf (s : State) (q : Nat) : Option (Device × Queue) :=
  s.devs.findSome? fun d => (d.queues.find? fun k => k.num == q).map fun k => (d, k)
def State.updQueue (s : State) (vd q : Nat) (f : Queue → Queue) : State :=
  s.updDev vd fun d => { d with queues := d.queues.map fun k => if k.num = q then f k else k }

/-- A completion signal decremented: a far atomic subtract at the quarry port (R232). -/
def decSignal (s : State) (d : Device) (csig : Nat) (n : Word) : State :=
  if csig = 0 then s
  else match extent d csig 8 with
    | none => s
    | some h =>
      let pa := h.base + offsetOf csig
      { s with quarry := memWrite s.quarry pa (wordBytes (memWord s.quarry pa - n)) }
/-- A packet completes: its signal, then its vector (R232). -/
def completePacket (s : State) (d : Device) (p : PacketRef) (n : Word) : State :=
  let s := decSignal s d p.csig n
  let s := if p.irq then raiseVector s p.queue else s
  s.updQueue d.num p.queue fun k => { k with pending := k.pending.filter (· != p.num) }

/-- ERR of a ring (R227). -/
def writeErr (s : State) (k : Queue) (seq : BitVec 16) (status reason : Nat) : State :=
  { s with quarry := memWrite s.quarry (k.ring + 8) (leBytes 8 (2 ^ 63 + seq.toNat * 2 ^ 32 + status % 256 * 2 ^ 8 + reason)) }
/-- HDR := 0 and HEAD := HEAD + 1 (R230). -/
def Queue.slotAt (k : Queue) : Nat := k.ring + 64 + 64 * (k.head.toNat % 2 ^ k.log2)
def consume (s : State) (d : Device) (k : Queue) : State :=
  let s := { s with quarry := memWrite (memSet s.quarry k.slotAt 0) k.ring (wordBytes (k.head + 1)) }
  s.updQueue d.num k.num fun k => { k with head := k.head + 1 }

/-! Completion of a job (R139, R51, R72). -/

/-- A near word changed by hardware; an uncorrectable one gives nothing to change (R244, log entry 97). -/
def hwUpdate (s : State) (a : Nat) (f : Word → Word) : State := if poisoned s a 8 then s else setNearWord s a (f (memWord s.near a))
/-- The JOB field of an image lowered (R207). -/
def imageJob (s : State) (base : Nat) : State :=
  hwUpdate s (base + 0x80F8) fun w => if bitsAt w.toNat 12 6 = 0 then w else w - 0x1000
/-- Status actions of a job's card: CNT, BIT, REC and MSG in this order. -/
def jobActions (s : State) (d : Device) (j : Job) : State :=
  let s := if j.flag 2 then
      hwUpdate s j.cntAddr (· + j.count)
    else s
  let s := if j.flag 3 then
      hwUpdate s j.cntAddr (· ||| BitVec.ofNat 64 (2 ^ (j.xid % 64)))
    else s
  let s := if j.flag 0 then
      setNearWord (setNearWord s (j.recAddr + 8) j.count) j.recAddr (BitVec.ofNat 64 (2 ^ 63 + j.status.toNat))
    else s
  match j.poster with
  | none => s
  | some c =>
    let s := s.traceAt c 6 j.mark (BitVec.ofNat 64 (j.xid * 2 ^ 32 + j.status.toNat))
    if j.flag 1 then
      let r : TaskRec := { kind := .completion, prio := clampPrio j.prio, entry := entryOf j.entry
                           mark := freshMark s c d.num (markCourse j.mark), arg0 := BitVec.ofNat 64 j.recAddr
                           arg1 := j.status.setWidth 64, xid := BitVec.ofNat 32 j.xid, combo := decide (119 < j.prio) }
      countCreation (giveRec s c d.num r) c
    else s

/-- The machine check of a job in the task that posted it (R128), held by its context wherever that is; FADDR is the engine address at
which the check failed. -/
def jobCheck (s : State) (t : TileId) (j : Job) (c : CoreId) : State :=
  if j.status = 4 then
    let trap : Trap := { trapNat .mcheck j.bad false 5 with async := true }
    updImage (updPoster s c j.mark (·.hold trap)) t c j.mark (imageHold trap)
  else s

/-- R139: the completion actions of an ended job; then the JOB counter of its context falls, or its packet completes. -/
def completeJob (s : State) (t : TileId) (seq : Nat) : State :=
  match (s.tileOf t).job seq with
  | none => s
  | some j => match s.devOf j.vd with
    | none => s
    | some d =>
      if j.state ≠ .ended then s
      else
        let s := jobActions s d j
        let s := s.updTile t fun tl => { tl with jobs := tl.jobs.filter fun k => k.seq != seq }
        let s := match j.poster with
          | none => s
          | some c => updImage (updPoster (jobCheck s t j c) c j.mark fun x => { x with job := x.job - 1 }) t c j.mark imageJob
        match j.packet with
        | none => s
        | some p =>
          -- R208: no completion signal of a FAULTED device is decremented
          if d.state = .faulted then s
          else
          let s := match d.queues.find? fun k => k.num == p.queue with
            | some k => if j.status = 0 then s else writeErr s k p.seq j.status.toNat 7
            | none => s
          completePacket s d p 1
def execJobComplete (t : TileId) (seq : Nat) (s : State) : Res := eventStep (completeJob s t seq)

/-! Draining the engines at pre-emption (R72). -/

/-- One step of a job's engine at pre-emption, by its type: every core has stopped, and one inside a weight block keeps the table it
reads (R179). -/
def jobStep (s : State) (t : TileId) (j : Job) : State :=
  match j.type with
  | 1 => runJob s t j.seq 1 workCopy
  | 2 => runJob s t j.seq 2 workGather
  | 3 => collStep s t j.seq
  | 4 => runJob s t j.seq 4 fun s d j => workConvert s t d j
  | 5 => tloadRun s t j.seq
  | 6 => runJob s t j.seq 6 workGbuild
  | 7 => runJob s t j.seq 7 fun s d j => workExpand s t d j
  | _ => s
/-- A running job that a stream holds up writes the rest of its output, and the stream keeps it wherever its context is. -/
def flushJob (s : State) (t : TileId) (d : Device) (j : Job) : State :=
  let r := writeOut t d j (j.out.drop j.ahead) s 0
  let j1 := { j with state := .ended, out := [], ahead := 0, count := j.count + BitVec.ofNat 64 r.2.1 }
  let j1 := if r.2.2 ≠ 0 then j1.met r.2.2 (firstBad r.1 d true (outSpans (j.out.drop j.ahead))) else j1
  feedStream (setJob r.1 t j1) t j1 ((j.out.take (j.ahead + r.2.1)).map (·.2)) true
/-- A collective whose participants have all joined runs to its end. -/
def runColl (s : State) (c : Coll) : State := (List.range (c.count / 32)).foldl (fun s b => collPacketStep s c.group b) s
/-- Jobs of a tile run, flushed and completed one after the other, n steps at most. -/
def drainJobs (t : TileId) : Nat → State → State
  | 0, s => s
  | n + 1, s =>
    let tl := s.tileOf t
    match tl.jobs.find? (fun j => j.state == .ended) with
    | some j => drainJobs t n (completeJob s t j.seq)
    | none => match tl.jobs.find? (fun j => j.state == .running && j.type != 3) with
      | some j => match s.devOf j.vd with
        | some d => drainJobs t n (flushJob s t d j)
        | none => s
      | none => match tl.jobs.find? (mayStart tl) with
        | some j => drainJobs t n (jobStep s t j)
        | none => s
/-- The participants of a device's collectives that will not be whole: their jobs end with COLL_MISMATCH (log entry 98). -/
def endColls (s : State) (d : Device) : State :=
  let mine (c : Coll) : Bool := c.vd == d.num
  { (s.colls.filter mine).foldl (fun s c => endParts s c 6) s with colls := s.colls.filter fun c => !mine c }
/-- The engines of a device drained: each tile's own jobs, then the collectives that are whole, then what those held up. Before the
device leaves its tiles (`evict`) the collectives that still lack a participant end too: JOB is zero after it (R72, log entry 98). -/
def drainDevice (evict : Bool) (s : State) (d : Device) : State :=
  let jobs (s : State) : Nat := (d.tiles.map fun t => (s.tileOf t).jobs.length).sum
  let tiles (s : State) : State := d.tiles.foldl (fun s t => drainJobs t (4 * (s.tileOf t).jobs.length) s) s
  let whole (s : State) : List Coll := s.colls.filter fun c => c.vd == d.num && !c.mismatch && c.parts.length == c.npart
  let again (s : State) : State :=
    if !(whole s).isEmpty then tiles ((whole s).foldl runColl s) else if evict then tiles (endColls s d) else s
  (List.range (jobs s)).foldl (fun s _ => if jobs s = 0 then s else again s) (tiles s)

/-! Saving and restarting a device (R211, R212). -/

/-- One core pre-empted: a pending trap first, then steps 1 and 2 of R207. -/
def preemptCore (s : State) : State :=
  let s := takeAsync s
  let s := retryMigrate s
  match s.core.mode with
  | .idle => s
  | .running | .trapped | .held _ =>
    ((settle s).trace 7 s.core.ctx.pc).mapCtx fun c => { c with stall := none }

def deviceCores (s : State) (d : Device) : List CoreId := (s.allCores.map (·.id)).filter fun c => d.tiles.contains (coreTile c)
/-- The cores of a tile that have save records. -/
def tileCores (t : TileId) : List CoreId := (List.range 33).map (mkCore t)
/-- A held context whose queued grammar operations still run: a pre-emption waits for them (R238). -/
def heldBusy (s : State) (d : Device) : Bool :=
  s.allCores.any fun co => d.tiles.contains (coreTile co.id) && !co.ctx.gops.isEmpty && co.ctx.asyncs.isEmpty
    && match co.mode with | .held _ => true | _ => false

/-- Contexts on their way back reach their cores. -/
def landReturning (s : State) (d : Device) : State :=
  let mine := s.returning.filter fun p => d.tiles.contains (coreTile p.1)
  mine.foldl (fun s p => giveBack (s.traceAt p.1 3 p.2.mark p.2.pc) p.1 p.2) { s with returning := s.returning.filter fun p => !d.tiles.contains (coreTile p.1) }

/-- The state of a stopped device goes into its save records; messages that are logged already stay logged. -/
def recordDevice (s : State) (d : Device) : State :=
  let record (c : CoreId) : SaveRec :=
    let locks := s.locks.filter fun l => l.slice == c.toNat
    let r : SaveRec := { core := s.coreOf c, locks := locks, bytes := saveBytes s.time (s.coreOf c) locks
                         slots := if coreSlot c = 32 then (s.tileOf (coreTile c)).slots else Vector.replicate 64 .free }
    (((d.saves.filter fun k => k.core.id == c).map (·.log)).flatten).foldl SaveRec.logged r
  let recs := (d.tiles.map fun t => (tileCores t).map record).flatten
  let ours (c : CoreId) : Bool := d.tiles.contains (coreTile c)
  { s.updDev d.num (fun d => { d with saves := recs }) with
    core := if ours s.core.id then { id := s.core.id } else s.core
    others := s.others.filter fun co => !ours co.id
    locks := s.locks.filter fun l => !d.tiles.contains (BitVec.ofNat 9 (l.slice / 64)) }
/-- Every core of a device stops, its work drains, and its state goes into save records. -/
def saveDevice (evict : Bool) (s : State) (d : Device) : State :=
  let s := landReturning s d
  let s := (deviceCores s d).foldl (fun s c => onCore s c preemptCore) s
  recordDevice (drainDevice evict s d) d
/-- The saved cores of a device in their places, stopped. -/
def loadSaves (f : Core → Core) (s : State) (d : Device) : State :=
  d.saves.foldl (fun s r => { s.setCore (f r.core) with locks := s.locks ++ r.locks }) s
/-- A paused device about to leave its tiles: what its engines still hold drains into its records. -/
def drainPaused (s : State) (d : Device) : State :=
  if d.tiles.all fun t => (s.tileOf t).jobs.isEmpty then s else recordDevice (drainDevice true (loadSaves id s d) d) d

/-- A saved core as it restarts: it asks for its fetch block again, and JOB counts the jobs that are outstanding (R210). -/
def Core.restarted (s : State) (co : Core) : Core :=
  let f (x : Ctx) : Ctx := { x with job := BitVec.ofNat 6 (s.jobsOf (coreTile co.id) co.id x.mark) }
  { co with ctx := f co.ctx, back := co.back.map f, fblock := none, asked := none }
/-- Every core of a device takes its saved state back; the logged messages come first (R166, R212), and every context finds nothing
cached (R161), one that the debugger holds too. -/
def restartDevice (s : State) (d : Device) : State :=
  let s := loadSaves (·.restarted s) s d
  let log := (d.saves.map SaveRec.log).flatten.map fun m => { m with logged := true }
  let s := { s with mortar := log ++ s.mortar }
  let s := s.updDev d.num fun d => { d with saves := [], state := .running, sliceAt := s.time }
  (deviceCores s d).foldl (fun s c => onCore s c fun s => if s.core.mode = .idle then s else invalidateAllBound s) s

/-! Phase counts (R55, R56). -/

/-- Distinct cores of a placement map in order of first appearance. -/
def ordinals : List CoreId → List CoreId
  | [] => []
  | c :: cs => c :: (ordinals cs).filter (· != c)
/-- A core's counts of a course added into its phase table. -/
def addCounts (d : Device) (c : Course) (k : Nat) (s : State) (p : PhaseCount) : State :=
  let a := c.ptab + 32 * (64 * k + p.phase.toNat)
  devAdd (devAdd (devAdd (devAdd s d a p.busy) d (a + 8) p.stall) d (a + 16) p.idle) d (a + 24) p.tasks
def addPhases (s : State) (d : Device) (c : Course) : State :=
  let cs := ordinals c.place
  let s := ((List.range cs.length).zip cs).foldl (fun s q =>
    (((s.coreOf q.2).phases.filter fun p => p.course == c.num)).foldl (addCounts d c q.1) s) s
  let clear (co : Core) : Core :=
    if d.tiles.contains (coreTile co.id) then { co with phases := co.phases.filter fun p => p.course != c.num } else co
  { s with core := clear s.core, others := s.others.map clear }

/-! The end of a course (R36). -/

/-- Whether a core holds a task of a course, waiting handler records aside. -/
def Core.holds (co : Core) (n : BitVec 16) : Bool :=
  (co.mode != .idle && markCourse co.ctx.mark == n) || co.back.any (fun x => markCourse x.mark == n)
    || co.svcq.any (fun x => markCourse x.mark == n) || co.runq.any (fun r => !r.wait && markCourse r.mark == n)
    || co.deque.any fun r => markCourse r.mark == n
/-- What keeps a course from ending (R36). The spec does not say whether a context parked by CTXSV (R304) does; here it does not
(DESIGN CHOICE, log entry 85). -/
def courseBusy (s : State) (d : Device) (c : Course) : Bool :=
  c.undone != 0
    || s.allCores.any (fun co => d.tiles.contains (coreTile co.id) && co.holds c.num)
    || s.returning.any (fun p => d.tiles.contains (coreTile p.1) && markCourse p.2.mark == c.num)
    || s.mortar.any (fun m => m.vd == d.num && (m.course == c.num
        || match m.body with | .tileTask r | .record r => markCourse r.mark == c.num | _ => false))
    || d.tiles.any fun t => (s.tileOf t).jobs.any (fun j => j.poster.isSome && markCourse j.mark == c.num)
        || (List.range 64).any fun k => match nth (s.tileOf t).slots.toList k .free with
          | .image _ => markCourse (memWord s.near (slotAddr t k + 0x8020)) == c.num
          | _ => false

/-- The counts of an ended course go into its table, and its packet completes. -/
def endCourse (s : State) (d : Device) (c : Course) : State :=
  let s := addPhases s d c
  let forget (co : Core) : Core :=
    if d.tiles.contains (coreTile co.id) then
      { co with lastCourse := if co.lastCourse = some c.num then none else co.lastCourse
                curPhase := co.curPhase.filter fun p => p.1 != c.num }
    else co
  let s := { s with core := forget s.core, others := s.others.map forget }
  let s := s.updDev d.num fun d => { d with courses := d.courses.filter fun k => k.num != c.num
                                            barriers := d.barriers.filter fun b => b.course != c.num }
  match c.packet with
  | none => s
  | some p => completePacket s d p 1

/-- Every launched course, in order of device. -/
def State.courses (s : State) : List Course := (s.devs.map (·.courses)).flatten
def courseEndStep (s : State) (i : Nat) : State :=
  match s.courses[i]? with
  | none => s
  | some c => match s.devOf c.vd with
    | none => s
    | some d => if d.state = .running && !courseBusy s d c then endCourse s d c else s
def execCourseEnd (i : Nat) (s : State) : Res := eventStep (courseEndStep s i)

/-! Packets (R228-R231). -/

structure Packet where
  typ  : Nat
  irq  : Bool
  seq  : BitVec 16
  desc : Nat
  csig : Nat
  value : Word
  bad  : Bool
  deriving DecidableEq, Repr

def packetOf (bs : List Byte) : Packet :=
  let f (off n : Nat) : Nat := leNat ((bs.drop off).take n)
  let hdr := f 0 1
  let t := bitsAt hdr 1 3
  { typ := t, irq := bitAt hdr 4, seq := BitVec.ofNat 16 (f 2 2), desc := f 8 8, csig := f 16 8, value := BitVec.ofNat 64 (f 24 8)
    bad := 32 ≤ hdr || f 1 1 != 0 || f 4 4 != 0 || f 32 32 != 0 || (2 ≤ t && f 8 8 != 0) || (t != 3 && f 24 8 != 0) }

def csigOk (d : Device) (ea : Nat) : Bool :=
  ea == 0 || (ea % 8 == 0 && match extent d ea 8 with | some h => h.shared && h.w | none => false)

/-- A launch's descriptor as read (R31), and whether it passes R32. -/
structure Launch where
  entry : Nat
  arg   : Word
  dx    : Nat
  dy    : Nat
  dz    : Nat
  prio  : Nat
  bitmap : Nat
  ptab  : Nat
  place : List CoreId
  deriving DecidableEq, Repr

/-- The bitmap of n tile tasks in every page it meets (R32). -/
def bitmapOk (d : Device) (a n : Nat) : Bool :=
  a % 8 == 0 && (nearSteps a (8 * ((n + 63) / 64))).all fun b =>
    isNear b && nearExists b && d.tiles.contains (nearTile b) && !isSpill b && !isMigSlot b && !isObs b
def placeOk (d : Device) (v : Nat) : Bool := v < 2 ^ 15 && v % 64 < 32 && d.tiles.contains (coreTile (BitVec.ofNat 15 v))

/-- The descriptor at an engine address, with its placement map; none where R32 or the extent refuses it. -/
def launchOf (s : State) (d : Device) (ea : Nat) : Option Launch :=
  match extent d ea 64 with
  | none => none
  | some h =>
    let bs := memRead s.quarry (h.base + offsetOf ea) 64
    let f (off n : Nat) : Nat := leNat ((bs.drop off).take n)
    let dx := f 16 2 + 1
    let dy := f 18 2 + 1
    let dz := f 20 2 + 1
    let n := dx * dy * dz
    let sealed := (granulesOf (List.range' (h.base + offsetOf ea) 64)).any (sealFails s d.key)
    if !h.launch || sealed || ea % 8 != 0 || 2 ^ 24 < n || f 23 1 != 0 || f 48 16 != 0 || 128 ≤ f 22 1 || !bitmapOk d (f 40 8) n then none
    else
      let ids := (List.range n).filterMap fun i => (devBytes s d (f 24 8 + 4 * i) 4).map leNat
      if ids.length ≠ n || !ids.all (placeOk d) then none
      else some { entry := f 0 8, arg := BitVec.ofNat 64 (f 8 8), dx := dx, dy := dy, dz := dz, prio := f 22 1, bitmap := f 40 8
                  ptab := f 32 8, place := ids.map (BitVec.ofNat 15) }

/-- A course number no course of the device bears. -/
def freeCourse (d : Device) : Nat → BitVec 16 → BitVec 16
  | 0, n => n
  | k + 1, n => if d.courses.any fun c => c.num == n then freeCourse d k (n + 1) else n

/-- One tag record written into its core's table: its priority is clamped (R38), bits 1:0 of its handler are zero (R25), and EN
turned on makes the waiting records of the tag ready (R48). -/
def loadTag (vd : Nat) (num : BitVec 16) (s : State) (r : TagRec) : State :=
  let was := (s.coreOf r.core).tags[r.tag].en
  let f (g : Tag) : Tag :=
    { g with handler := entryOf r.handler.toNat, prio := clampPrio r.prio.toNat, en := r.en, course := num }
  let s := s.updCore r.core fun co => { co with tags := co.tags.set r.tag.val (f co.tags[r.tag]) }
  if r.en && !was then enableTag s r.core vd r.tag else s
/-- The tag records of the image for a course descriptor, written before the first record (R271); `desc` is the descriptor's
address in the device, when it lies in the extent that mirrors the image. -/
def loadTags (s : State) (d : Device) (desc : Option Nat) (num : BitVec 16) : State :=
  (d.tagRecs.filter fun r => some r.desc == desc).foldl (loadTag d.num num) s

/-- The coordinate of linear index i in COORD layout (R28, R31). -/
def coordWord (l : Launch) (i : Nat) : Word :=
  BitVec.ofNat 64 (i % l.dx + i / l.dx % l.dy * 2 ^ 16 + i / l.dx / l.dy * 2 ^ 32)

/-- The instruction caches of the quads on whose cores a course is placed, emptied of the device's lines (R249). -/
def emptyQuads (s : State) (vd : Nat) (place : List CoreId) : State :=
  let drop (co : Core) : Core := if place.any (sameGroup .quad co.id) then { co with fblock := none } else co
  let hit (t : TileId) (q : Fin 8) : Bool := place.any fun c => coreTile c == t && quadOf c == q
  { s with core := drop s.core, others := s.others.map drop
           tiles := s.tiles.map fun tl => { tl with icache := tl.icache.filter fun l => !(l.vd == vd && hit tl.id l.quad) } }

/-- A course launched: number, cleared bitmap, tags, and its tile-task records in the mortar in linear order (R32-R34). -/
def launch (s : State) (d : Device) (l : Launch) (desc : Option Nat) (p : Option PacketRef) : State :=
  let num := freeCourse d (d.courses.length) d.nextCourse
  let n := l.place.length
  let prio := min l.prio (min d.policy.maxprio.toNat 119)
  let c : Course := { num := num, vd := d.num, dims := (l.dx, l.dy, l.dz), bitmap := l.bitmap, ptab := l.ptab, place := l.place
                      undone := n, span := spanOf l.place, packet := p }
  let s := s.updDev d.num fun d => { d with courses := d.courses ++ [c], nextCourse := num + 1 }
  let bytes := 8 * ((n + 63) / 64)
  let s := { s with near := memClear s.near l.bitmap bytes, poison := clearRange l.bitmap bytes s.poison }
  let s := emptyQuads (loadTags s d desc num) d.num l.place
  let rec_ (q : Nat × CoreId) : Msg :=
    { src := q.2, dst := q.2, vd := d.num, course := num
      body := .tileTask { kind := .tile, prio := BitVec.ofNat 7 prio, entry := entryOf l.entry, mark := mkMark (asidOf d.num) num q.1
                          arg0 := l.arg, arg1 := coordWord l q.1 } }
  { s with mortar := s.mortar ++ ((List.range n).zip l.place).map rec_ }

/-- The card of a COPY packet with its descriptors. -/
def cardOf (s : State) (d : Device) (ea : Nat) : Option Job :=
  match extent d ea 64 with
  | none => none
  | some h =>
    let at_ (off n : Nat) : List Byte := memRead s.quarry (h.base + offsetOf ea + off) n
    let j0 : Job := { seq := 0, vd := d.num, poster := none, mark := 0, card := at_ 0 64, descs := [], reads := [], writes := [] }
    let pat (off : Nat) : List Byte := let n := leNat (at_ off 8) % 16; at_ off (8 + 16 * (if 10 < n then 0 else n))
    let ds := if !j0.flag 4 then [] else if j0.type = 1 || j0.type = 4 then
        let a := pat j0.param
        a ++ pat (j0.param + a.length)
      else if j0.type = 2 then at_ j0.param 16 else if j0.type = 3 then at_ j0.param 32 else []
    if h.r && !(granulesOf (List.range' (h.base + offsetOf ea) 64)).any (sealFails s d.key) then some { j0 with descs := ds, reads := jobReads d { j0 with descs := ds } } else none

/-- The tile whose scheduler takes a lintel's card (R230). -/
def copyTile (d : Device) (k : Queue) : TileId :=
  match d.tiles.find? fun t => t.toNat / 128 == k.lintel.val with
  | some t => t
  | none => nth d.tiles 0 0

/-- A card checked in the tile that would take it, the checks made in the device's partition (R135). -/
def cardFails (s : State) (t : TileId) (j : Job) : Bool :=
  cardCode (s.focusOn (keystoneOf t)) t j != 0

/-- REASON of R231, 0 for none: the lowest that applies. -/
def packetReason (s : State) (d : Device) (k : Queue) (p : Packet) : Nat :=
  if 4 ≤ p.typ then 1
  else if p.typ = 0 && (launchOf s d p.desc).isNone then 2
  else if p.typ = 1 && (match cardOf s d p.desc with | some j => cardFails s (copyTile d k) j | none => true) then 2
  else if !csigOk d p.csig then 3
  else if p.bad then 4
  else if (p.typ = 0 && !bitAt d.policy.cmds.toNat 32) || (p.typ = 1 && !bitAt d.policy.cmds.toNat 33) then 5
  else if p.typ = 1 && (match cardOf s d p.desc with | some j => j.field 2 2 != 0 | none => false) then 6
  else 0

/-- A packet refused: ERR, then consumed without effect (R231). -/
def refuse (s : State) (d : Device) (k : Queue) (p : Packet) (reason : Nat) : State := consume (writeErr s k p.seq 0 reason) d k
/-- The packet a lintel reads next: VALID, on a queue of a running device that was notified and that no BARRIER holds. -/
def nextPacket (s : State) (q : Nat) : Option (Device × Queue × Packet) :=
  match s.queueOf q with
  | none => none
  | some (d, k) =>
    let bs := memRead s.quarry k.slotAt 64
    if s.host.lintelsReady && d.state == .running && k.notified && k.barrier.isNone && bitAt (leNat bs) 0 then
      some (d, k, packetOf bs)
    else none
def packetRef (k : Queue) (p : Packet) : PacketRef :=
  { queue := k.num, num := k.head.toNat, seq := p.seq, csig := p.csig, irq := p.irq }
/-- A packet whose completion stays outstanding. -/
def pend (s : State) (d : Device) (k : Queue) : State :=
  s.updQueue d.num k.num fun k => { k with pending := k.pending ++ [k.head.toNat] }

/-- A packet of one TYPE checked and acted on. -/
def onPacket (s : State) (q typ : Nat) (f : Device → Queue → Packet → State) : State :=
  match nextPacket s q with
  | none => s
  | some (d, k, p) =>
    if p.typ ≠ typ then s
    else match packetReason s d k p with
      | 0 => f d k p
      | r => refuse s d k p r

/-- R230-R234 for LAUNCH. -/
def execLaunchPacket (q : Nat) (s : State) : Res :=
  eventStep (onPacket s q 0 fun d k p =>
    match launchOf s d p.desc, extent d p.desc 64 with
    | some l, some h =>
      let at_ := h.base + offsetOf p.desc
      -- the extent that mirrors the image ends at its entry's length (R379)
      let size := ((d.policy.handles.find? fun e => bitAt e.2.2.toNat 3 && e.1 == d.lbase).map (·.2.1)).getD 0
      let va := if d.lbase ≤ at_ && at_ < d.lbase + size then some (d.vbase + (at_ - d.lbase)) else none
      let map := leNat (memRead s.quarry (at_ + 24) 8)
      let s := (nearSteps map (4 * l.place.length)).foldl (devTouch d false) s
      consume (pend (launch s d l va (some (packetRef k p))) d k) d k
    | _, _ => s)
/-- R230 for COPY; a full card queue holds the packet. -/
def execCopyPacket (q : Nat) (s : State) : Res :=
  eventStep (onPacket s q 1 fun d k p =>
    let t := copyTile d k
    match cardOf s d p.desc with
    | some j =>
      if 64 ≤ (s.tileOf t).jobs.length then s
      else consume (pend (acceptJob s t { j with packet := some (packetRef k p), writes := jobWrites d t j }) d k) d k
    | none => s)
/-- R230 for BARRIER: the queue is held. -/
def execBarrierPacket (q : Nat) (s : State) : Res :=
  eventStep (onPacket s q 2 fun d k p => s.updQueue d.num k.num fun k => { k with barrier := some (packetRef k p) })
/-- R230: every earlier packet of the queue has completed. -/
def barrierDone (s : State) (q : Nat) : State :=
  match s.queueOf q with
  | none => s
  | some (d, k) => match k.barrier with
    | none => s
    | some p =>
      if d.state = .running && k.pending.isEmpty then
        let s := consume (completePacket s d p 1) d k
        s.updQueue d.num k.num fun k => { k with barrier := none }
      else s
def execBarrierPacketComplete (q : Nat) (s : State) : Res := eventStep (barrierDone s q)
/-- R230 for SIGNAL. -/
def execSignalPacket (q : Nat) (s : State) : Res :=
  eventStep (onPacket s q 3 fun d k p => consume (completePacket s d (packetRef k p) p.value) d k)
/-- R231: a packet of TYPE 4-7. -/
def execReservedTypePacket (q : Nat) (s : State) : Res :=
  eventStep (match nextPacket s q with
    | none => s
    | some (d, k, p) => if 4 ≤ p.typ then refuse s d k p 1 else s)

/-! The time slice (R11, R211, R221). -/

/-- Whether a device has a tile in the quadrant of a lintel. -/
def inQuadrant (d : Device) (l : Fin 4) : Bool := d.tiles.any fun t => t.toNat / 128 == l.val
/-- A device pre-empted and, no other device holding its tiles, switched back in; one that a pending fault of a service task
stopped on the way stays FAULTED (R208). -/
def sliceSwitch (s : State) (d : Device) : State :=
  let s := saveDevice false s d
  match s.devOf d.num with
  | none => s
  | some d => if d.state = .running then restartDevice s d else s
def execTimeSliceSwitch (l : Fin 4) (s : State) : Res :=
  eventStep ((s.devs.filter fun d => d.state == .running && inQuadrant d l && !heldBusy s d).foldl (fun s d => sliceSwitch s d) s)

end Sys2Proof.Machine
end

