-- ==== Sys2Proof/Machine/HostSide.lean ====
section
/-! DEFINITION. The host side of the package: the lease (R215, R216), the registers of BAR0 (R214, R229) and the drive
window of BAR2 (R234, R236). -/

namespace Sys2Proof.Machine

/-! The lease. -/

/-- Microseconds since boot; a main-clock cycle is 1.25 ns (R216, log entry 2). -/
def State.micros (s : State) : Nat := s.time.toNat / 800
def State.updHost (s : State) (f : HostSide → HostSide) : State := { s with host := f s.host }

/-- TIME of an arrival in microseconds. -/
def Port.arrivedAt (k : Port) : Nat := k.arrived.toNat / 800
/-- Bytes of a port's mailbox as a number; ARGS start at byte 16 and the payload at byte 64. -/
def mbNat (s : State) (p : Fin 2) (off n : Nat) : Nat := leNat (memRead s.host.ports[p].mailbox off n)
def mbBytes (s : State) (p : Fin 2) (off n : Nat) : List Byte := memRead s.host.ports[p].mailbox off n
/-- The must-be-zero bytes of a header whose command uses `used` ARGS bytes. -/
def headerOk (s : State) (p : Fin 2) (used : Nat) : Bool :=
  mbNat s p 2 2 == 0 && mbNat s p 12 4 == 0 && mbNat s p (16 + used) (48 - used) == 0 && mbNat s p 8 4 ≤ 16320
/-- The lease taken, or renewed, by what arrived at a time under a period in milliseconds (R215). -/
def HostSide.take (h : HostSide) (p : Fin 2) (id : BitVec 32) (at_ period : Word) : HostSide :=
  { h with lease := .held, port := p, hostid := id, taken := at_, deadline := BitVec.ofNat 64 (at_.toNat / 800 + 1000 * period.toNat) }
/-- Whether the command in a port's mailbox is a renewal of the lease as it stands that arrived no earlier than what took the lease last
(R216). -/
def renewsLease (s : State) (p : Fin 2) : Bool :=
  let k := s.host.ports[p]
  k.busy && k.opcode == 9 && k.holder && headerOk s p 4 && mbNat s p 16 4 != 0 && mbNat s p 16 4 == s.host.hostid.toNat
    && s.host.lease == .held && s.host.port == p && s.host.taken.ule k.arrived
/-- Its effect, under the period of its arrival. -/
def renewLease (s : State) (p : Fin 2) : State :=
  if renewsLease s p then s.updHost fun h => h.take p h.hostid h.ports[p].arrived h.ports[p].period else s
/-- A renewal that arrived before the deadline and still waits for the capstone: it is judged by its arrival (R216). -/
def renewalWaits (s : State) : Option (Fin 2) :=
  (List.finRange 2).find? fun p => renewsLease s p && decide (s.host.ports[p].arrivedAt < s.host.deadline.toNat)
/-- Whether the deadline of a held lease has come. -/
def leaseOver (s : State) : Bool := s.host.lease == .held && decide (s.host.deadline.toNat ≤ s.micros)
/-- At the deadline a held lease expires, unless a renewal in time has moved it (R216). -/
def expireLease (s : State) : State :=
  if leaseOver s then
    let s := match renewalWaits s with
      | some p => renewLease s p
      | none => s
    if leaseOver s then s.updHost fun h => { h with lease := .expired } else s
  else s
def HostSide.lost (h : HostSide) : HostSide := { h with lostHlease := h.lostHlease + 1 }

/-- A write of HLEASE judged (R215). -/
def writeLease (s : State) (p : Fin 2) (v : Word) : State :=
  let s := expireLease s
  let id := BitVec.ofNat 32 (v.toNat / 2 ^ 32)
  if id = 0 || bitAt v.toNat 0 then s
  else match s.host.lease with
    | .vacant => s.updHost fun h => h.take p id s.time h.lperiod
    | .held => s.updHost fun h => if h.port = p ∧ h.hostid = id then h.take p id s.time h.lperiod else h.lost
    | .expired => s.updHost HostSide.lost
/-- R215. -/
def execHleaseWrite (port : Fin 2) (v : Word) (s : State) : Res := eventStep (writeLease s port v)

/-- Whether a port holds the lease now. -/
def holdsLease (s : State) (p : Fin 2) : Bool := s.host.lease == .held && s.host.port == p
/-- R215: the holder's write, clamped to 10-10,000. -/
def writePeriod (s : State) (p : Fin 2) (v : Word) : State :=
  let s := expireLease s
  if holdsLease s p then s.updHost fun h => { h with lperiod := BitVec.ofNat 64 (max 10 (min 10000 v.toNat)) } else s
def execLperiodWrite (port : Fin 2) (v : Word) (s : State) : Res := eventStep (writePeriod s port v)
/-- R216. -/
def execLeaseExpire (s : State) : Res := eventStep (expireLease s)

/-! BAR0. -/

def HostSide.lostNote (h : HostSide) : HostSide := { h with lostNotify := h.lostNotify + 1 }
/-- R229: the write on the port of the last holder reaches the queue's lintel; any other one is ignored and counted. -/
def writeNotify (s : State) (p : Fin 2) (q : Nat) : State :=
  if s.host.lease = .vacant ∨ s.host.port ≠ p then s.updHost HostSide.lostNote
  else match s.queueOf q with
    | none => s.updHost HostSide.lostNote
    | some (d, _) => s.updQueue d.num q fun k => { k with notified := true }
def execNotifyWrite (port : Fin 2) (q : Nat) (s : State) : Res := eventStep (writeNotify s port q)

def State.updPort (s : State) (p : Fin 2) (f : Port → Port) : State :=
  s.updHost fun h => { h with ports := h.ports.set p.val (f h.ports[p]) }
/-- Bytes put into the mailbox; those past its end are none of its. -/
def mailboxPut (m : Memory) (off : Nat) (bs : List Byte) : Memory :=
  let inside := ((List.range' off bs.length).zip bs).filter fun c => 0x4000 ≤ c.1 && c.1 < 0x8000
  memWriteAll m (inside.map fun c => (c.1 - 0x4000, c.2))
/-- A write of BAR0 (R214, R218). -/
def writeRegister (s : State) (p : Fin 2) (off : Nat) (data : List Byte) : State :=
  let v := bytesWord data
  if off = 0x08 && data.length == 8 then writeLease s p v
  else if off = 0x10 && data.length == 8 then writePeriod s p v
  else if 0x8000 ≤ off && off < 0xA000 && off % 8 == 0 then writeNotify s p ((off - 0x8000) / 8)
  else if off = 0x40 then
    if v = 1 then
      let s := expireLease s
      s.updPort p fun k =>
        if k.busy then k
        else { k with busy := true, opcode := BitVec.ofNat 16 (leNat (memRead k.mailbox 0 2))
                      vdid := BitVec.ofNat 32 (leNat (memRead k.mailbox 4 4)), arrived := s.time, period := s.host.lperiod, holder := holdsLease s p }
    else s
  else s.updPort p fun k => if k.busy then k else { k with mailbox := mailboxPut k.mailbox off data }
def execRegisterWrite (port : Fin 2) (off : Nat) (data : List Byte) (s : State) : Res := eventStep (writeRegister s port off data)

/-- The word a read of BAR0 finds at a register's offset (R214). -/
def readRegister (s : State) (p : Fin 2) (off : Nat) : Word :=
  let h := s.host
  if off = 0x00 then Config.ident.setWidth 64
  else if off = 0x08 then
    if h.lease ≠ .held then 0 else BitVec.ofNat 64 (h.hostid.toNat * 2 ^ 32 + b2n (holdsLease s p))
  else if off = 0x10 then h.lperiod
  else if off = 0x18 then
    BitVec.ofNat 64 (b2n h.capReady + 2 * b2n h.lintelsReady + 4 * b2n h.ports[p].busy + 8 * b2n (h.lease == .expired) + 16 * b2n h.thermal)
  else if 0x4000 ≤ off && off < 0x8000 then memWord h.ports[p].mailbox (off - 0x4000)
  else 0

/-! BAR2 (R234, R236). -/

/-- The device whose policy has an NVMe window. -/
def State.windowDev (s : State) : Option Device := s.devs.find? fun d => d.policy.nvlen != 0
/-- A byte of the window that a drive may reach. -/
def windowByteOk (d : Device) (off : Nat) : Bool :=
  let a := d.policy.nvbase + off
  off < d.policy.nvlen && isNear a && nearExists a && !isSpill a && !isMigSlot a && !isObs a
/-- A byte of the interrupt page. -/
def isIntByte (d : Device) (off : Nat) : Bool := d.policy.nvlen - 4096 ≤ off && off < d.policy.nvlen - 4096 + 64

def State.answer (s : State) (r : Option (List Byte)) : State := s.updHost fun h => { h with bar2 := h.bar2 ++ [r] }
/-- Unsupported Request, counted. -/
def unsupported (s : State) : State := (s.updHost HostSide.lostNote).answer none

/-- A drive's MSI-X write at an offset of the interrupt page (R236). -/
def interruptWrite (s : State) (off : Nat) (data : BitVec 32) : State :=
  match s.windowDev with
  | none => s.updHost HostSide.lostNote
  | some d =>
    if off % 4 ≠ 0 then s.updHost HostSide.lostNote
    else match d.policy.routes[off / 4]? with
      | none => s.updHost HostSide.lostNote
      | some (c, t) =>
        { s with mortar := s.mortar ++ [{ src := 0, dst := c, vd := d.num, body := .tag t (data.setWidth 64) }] }
def execNvmeInterruptWrite (_port : Fin 2) (off : Nat) (data : BitVec 32) (s : State) : Res := eventStep (interruptWrite s off data)

/-- A drive's access of `data.length` bytes: a write of the data, or a read (R234). The interrupt page is no memory, and stays reachable when
the device's slices are not (R236). A read of an uncorrectable word gives the drive no bytes that the manual names (R21, R244, log
entry 97). -/
def windowAccess (s : State) (write : Bool) (off : Nat) (data : List Byte) : State :=
  match s.windowDev with
  | none => unsupported s
  | some d =>
    let offs := List.range' off data.length
    if write && offs.any (isIntByte d) then
      -- R166: a message for an evicted device is logged
      if data.length = 4 && offs.all (isIntByte d) then
        interruptWrite s (off - (d.policy.nvlen - 4096)) (BitVec.ofNat 32 (leNat data))
      else s.updHost HostSide.lostNote
    else if !write && !offs.isEmpty && offs.all (isIntByte d) then s.answer (some (zeroBytes data.length))
    else if s.host.thermal || d.state = .evicted || !offs.all (fun o => windowByteOk d o || isIntByte d o) then unsupported s
    else
      let a := d.policy.nvbase + off
      if write then
        { s with near := memWrite s.near a data, poison := clearRange a data.length s.poison }
      else
        let found := wordsFound s (poisonIn s (a / 8 * 8) (a % 8 + data.length))
        let bs := offs.map fun o => if isIntByte d o then 0 else memGet found.near (d.policy.nvbase + o)
        { s.answer (some bs) with fresh := found.fresh }
def execNvmeWindowAccess (_port : Fin 2) (write : Bool) (off : Nat) (data : List Byte) (s : State) : Res :=
  eventStep (windowAccess s write off data)

end Sys2Proof.Machine
end

