-- ==== Sys2Proof/Machine/Load.lean ====
section
/-! DEFINITION. Policies and images: a policy read and checked (R222, R223), a signed executable read (R224, R272-R277),
and its segments, page tables and tag records put in place (R123, R274, R276, R379). -/

namespace Sys2Proof.Machine

def fld (bs : List Byte) (off n : Nat) : Nat := leNat ((bs.drop off).take n)

/-! Policies. -/

/-- A signature block over the bytes before it verifies under two keys (R223). -/
def blockVerifies (ed ml msg blk : List Byte) : Bool :=
  blk.length == 3392 && fld blk 0 8 == 0 && fld blk 3381 11 == 0 && Config.signaturesVerify ed ml msg blk
def polEd (bs : List Byte) : List Byte := (bs.drop 8).take 32
def polMl (bs : List Byte) : List Byte := (bs.drop 40).take 1952
def polSigned (bs ed ml : List Byte) : Bool := blockVerifies ed ml (bs.take 3944) ((bs.drop 3944).take 3392)

/-- The tile an ordinal of partition form names (R222, R276). -/
def ordinalTile (tiles : List TileId) (k : Nat) : Option TileId := tiles[k]?
/-- A near address in partition form resolved; other addresses are as they are. -/
def resolveNear (tiles : List TileId) (a : Nat) : Option Nat :=
  if isNear a then (ordinalTile tiles (bitsAt a 26 9)).map fun t => a - bitsAt a 26 9 * 2 ^ 26 + t.toNat * 2 ^ 26 else some a
/-- A CORE value in partition form resolved. -/
def resolveCore (tiles : List TileId) (c : Nat) : Option CoreId :=
  (ordinalTile tiles (bitsAt c 6 9)).map fun t => BitVec.ofNat 15 (t.toNat * 64 + c % 64)

/-- Whether the fields of a policy that do not depend on the partition are in range. -/
def policyFieldsOk (bs : List Byte) : Bool :=
  let f := fld bs
  let cmds := f 1992 8
  let nh := f 2004 1
  let np := f 2005 1
  let nq := f 2006 1
  let nr := f 2007 1
  let zeroAfter (base size count total : Nat) : Bool := ((bs.drop (base + size * count)).take (size * (total - count))).all (· == 0)
  let each (n : Nat) (g : Nat → Bool) : Bool := (List.range n).all g
  f 0 4 == 0x504B5956 && !bitAt cmds 0 && bitsAt cmds 15 17 == 0 && cmds / 2 ^ 34 == 0 && f 2001 1 < 2
    && 1 ≤ f 2002 2 && f 2002 2 ≤ 384 && nh ≤ 32 && np ≤ 8 && nq ≤ 16 && nr ≤ 16
    && zeroAfter 2024 32 nh 32 && zeroAfter 3048 16 np 8 && zeroAfter 3176 32 nq 16 && zeroAfter 3688 16 nr 16
    && each nh (fun i => let o := 2024 + 32 * i; f (o + 24) 1 < 16 && f (o + 25) 7 == 0)
    && each np (fun i => let b := f (3048 + 16 * i) 8; quarryHi ≤ b && b + f (3056 + 16 * i) 8 ≤ 2 ^ 52)
    && each nq (fun i => let o := 3176 + 32 * i
        f o 1 < nh && 4 ≤ f (o + 1) 1 && f (o + 1) 1 ≤ 16 && f (o + 2) 6 == 0 && f (o + 8) 8 % 64 == 0 && f (o + 16) 16 == 0
          && bitAt (f (2024 + 32 * f o 1 + 24) 1) 2 && f (o + 8) 8 + 64 + 64 * 2 ^ f (o + 1) 1 ≤ f (2024 + 32 * f o 1 + 16) 8)
    && each nr (fun i => let o := 3688 + 16 * i; f o 2 < 2 ^ 15 && f o 2 % 64 < 32 && f (o + 2) 1 < 64 && f (o + 3) 13 == 0)

/-- The NVMe window of a policy: a resolved base and a length that obey R234. -/
def policyWindow (bs : List Byte) (tiles : List TileId) : Option (Nat × Nat) :=
  let b := fld bs 2008 8
  let n := fld bs 2016 8
  if b = 0 then (if n = 0 then some (0, 0) else none)
  else if b % 65536 ≠ 0 || n = 0 || n % 65536 ≠ 0 || 2 ^ 26 < n || !isNear b || !isNear (b + n - 1) then none
  else match resolveNear tiles b with
    | none => none
    | some a => if nearTile a = nearTile (a + n - 1) then some (a, n) else none

/-- A policy bound to a partition (R222); none for BAD_ARG. -/
def bindPolicy (bs : List Byte) (tiles : List TileId) : Option Policy :=
  if !policyFieldsOk bs then none
  else
    let f := fld bs
    let hs := (List.range (f 2004 1)).filterMap fun i =>
      (Config.extentOf ((bs.drop (2024 + 32 * i)).take 16)).map fun e =>
        (e.1, min e.2 (f (2024 + 32 * i + 16) 8), BitVec.ofNat 8 (f (2024 + 32 * i + 24) 1))
    let rs := (List.range (f 2007 1)).filterMap fun i =>
      (resolveCore tiles (f (3688 + 16 * i) 2)).map fun c => (c, (Fin.ofNat 64 (f (3688 + 16 * i + 2) 1) : Fin 64))
    match policyWindow bs tiles with
    | none => none
    | some w =>
      -- a ring lies in its extent as the extent is (R227)
      let ringIn (i : Nat) : Bool :=
        let o := 3176 + 32 * i
        f (o + 8) 8 + 64 + 64 * 2 ^ f (o + 1) 1 ≤ (nth hs (f o 1) (0, 0, 0)).2.1
      if hs.length ≠ f 2004 1 || rs.length ≠ f 2007 1 || !(List.range (f 2006 1)).all ringIn then none
      else some { version := BitVec.ofNat 32 (f 4 4), edKey := polEd bs, mlKey := polMl bs, cmds := BitVec.ofNat 64 (f 1992 8)
                  maxprio := BitVec.ofNat 8 (min (f 2000 1) 119), debug := f 2001 1 == 1, tileq := f 2002 2, nvbase := w.1, nvlen := w.2
                  handles := hs, peers := (List.range (f 2005 1)).map fun i => (f (3048 + 16 * i) 8, f (3056 + 16 * i) 8)
                  routes := rs, bytes := bs.take 7336 }

/-! Images (R272-R277). -/

/-- A PT_LOAD segment: address in file form, flags, file bytes, size in memory. -/
structure Seg where
  vaddr : Nat
  flags : Nat
  bytes : List Byte
  memsz : Nat
  deriving DecidableEq, Repr

/-- A section: type, address, offset and size. -/
structure Sect where
  typ  : Nat
  addr : Nat
  off  : Nat
  size : Nat
  deriving DecidableEq, Repr

/-- The bytes of a name up to its zero. -/
def cString : List Byte → List Byte
  | [] => []
  | b :: bs => if b = 0 then [] else b :: cString bs
/-- ".rela.yv.load". -/
def relaLoad : List Byte := [0x2E, 0x72, 0x65, 0x6C, 0x61, 0x2E, 0x79, 0x76, 0x2E, 0x6C, 0x6F, 0x61, 0x64]
/-- The name of section i, from the section that holds the names. -/
def sectName (bs : List Byte) (i : Nat) : List Byte :=
  let at_ (k : Nat) : Nat := fld bs 40 8 + k * fld bs 58 2
  cString (bs.drop (fld bs (at_ (fld bs 62 2) + 24) 8 + fld bs (at_ i) 4))
def elfSects (bs : List Byte) : List Sect :=
  (List.range (fld bs 60 2)).map fun i =>
    let o := fld bs 40 8 + i * fld bs 58 2
    { typ := fld bs (o + 4) 4, addr := fld bs (o + 16) 8, off := fld bs (o + 24) 8, size := fld bs (o + 32) 8 }
/-- Program headers: type, flags, offset, address, file size, memory size, alignment. -/
def elfPhdrs (bs : List Byte) : List (Nat × Nat × Nat × Nat × Nat × Nat × Nat) :=
  (List.range (fld bs 56 2)).map fun i =>
    let o := fld bs 32 8 + i * fld bs 54 2
    (fld bs o 4, fld bs (o + 4) 4, fld bs (o + 8) 8, fld bs (o + 16) 8, fld bs (o + 32) 8, fld bs (o + 40) 8, fld bs (o + 48) 8)

/-- The header checks of R272. -/
def elfOk (bs : List Byte) : Bool :=
  fld bs 0 4 == 0x464C457F && fld bs 4 1 == 2 && fld bs 5 1 == 1 && fld bs 18 2 == 0xF3D1
    && fld bs 48 4 % 2 ^ 16 ≤ Config.ident.toNat % 2 ^ 16
/-- The segment checks of R274. -/
def segOk (p : Nat × Nat × Nat × Nat × Nat × Nat × Nat) : Bool :=
  let (ty, fl, _, va, fsz, msz, al) := p
  ty == 4 || (ty == 1 && !(bitAt fl 1 && (bitAt fl 0 || bitAt fl 28)) && 4096 ≤ al && fsz ≤ msz
    && (msz == 0 || (isNear va && isNear (va + msz - 1)) || (isFar va && isFar (va + msz - 1))))
def elfSegs (bs : List Byte) : List Seg :=
  ((elfPhdrs bs).filter fun p => p.1 == 1).map fun p =>
    let (_, fl, off, va, fsz, msz, _) := p
    { vaddr := va, flags := fl, bytes := fitBytes fsz (bs.drop off), memsz := msz }

/-- n file bytes at an address of the image, and their replacement. -/
def imageBytesAt (segs : List Seg) (a n : Nat) : Option (List Byte) :=
  (segs.find? fun g => g.vaddr ≤ a && a + n ≤ g.vaddr + g.bytes.length).map fun g => (g.bytes.drop (a - g.vaddr)).take n
def patchSegs (segs : List Seg) (a : Nat) (bs : List Byte) : List Seg :=
  segs.map fun g =>
    if g.vaddr ≤ a && a + bs.length ≤ g.vaddr + g.bytes.length then
      { g with bytes := g.bytes.take (a - g.vaddr) ++ bs ++ g.bytes.drop (a - g.vaddr + bs.length) }
    else g
/-- One load-time relocation (R276); NONE patches nothing. -/
def relocate (tiles : List TileId) (segs : List Seg) (typ a : Nat) : Option (List Seg) :=
  let n := if typ = 11 then 4 else 8
  let lo := if typ = 11 then 6 else 26
  if typ = 0 then some segs
  else if typ ≠ 11 ∧ typ ≠ 12 then none
  else match imageBytesAt segs a n with
    | none => none
    | some bs =>
      let v := leNat bs
      (ordinalTile tiles (bitsAt v lo 9)).map fun t =>
        patchSegs segs a (leBytes n (v - bitsAt v lo 9 * 2 ^ lo + t.toNat * 2 ^ lo))
def relocateAll (tiles : List TileId) : List (Nat × Nat) → List Seg → Option (List Seg)
  | [], segs => some segs
  | (typ, a) :: rs, segs => match relocate tiles segs typ a with
    | none => none
    | some g => relocateAll tiles rs g
/-- The entries of .rela.yv.load: type and address (R276). -/
def elfRelas (bs : List Byte) : List (Nat × Nat) :=
  ((((List.range (fld bs 60 2)).zip (elfSects bs)).filter fun x => x.2.typ == 4 && sectName bs x.1 == relaLoad).map fun x =>
    (List.range (x.2.size / 24)).map fun i => (fld bs (x.2.off + 24 * i + 8) 4, fld bs (x.2.off + 24 * i) 8)).flatten
/-- The bits a relocation patches: from its first byte's bit number on. -/
def relaBits (r : Nat × Nat) : Nat × Nat := if r.1 = 11 then (8 * r.2 + 6, 9) else if r.1 = 12 then (8 * r.2 + 26, 9) else (0, 0)
/-- No two relocations patch overlapping bits (R276). -/
def relasApart : List (Nat × Nat) → Bool
  | [] => true
  | r :: rs => rs.all (fun q => !rangesMeet (relaBits r).1 (relaBits r).2 (relaBits q).1 (relaBits q).2) && relasApart rs

/-- An executable read: relocated segments, the service table and the tag records. -/
structure Image where
  segs   : List Seg
  svctab : Nat
  tags   : List TagRec
  deriving DecidableEq, Repr

def tagRecOf (r : List Byte) : TagRec :=
  { desc := fld r 0 8, core := BitVec.ofNat 15 (fld r 8 4), tag := Fin.ofNat 64 (fld r 12 1), prio := BitVec.ofNat 7 (fld r 13 1)
    en := bitAt (fld r 14 1) 0, handler := BitVec.ofNat 48 (fld r 16 8) }
/-- R272-R276; none for BAD_ARG. -/
def readImage (tiles : List TileId) (bs : List Byte) : Option Image :=
  let svc := (elfSects bs).filter fun x => x.typ == 0x70000004
  if !elfOk bs || !(elfPhdrs bs).all segOk || 1 < svc.length || !svc.all (fun x => x.size == 512 && x.addr % 8 == 0)
      || !relasApart (elfRelas bs) then none
  else match relocateAll tiles (elfRelas bs) (elfSegs bs), (svc.head?.map fun x => resolveNear tiles x.addr).getD (some 0) with
    | some segs, some sv =>
      let tags := (((elfSects bs).filter fun x => x.typ == 0x70000002).map fun x =>
        (List.range (x.size / 24)).filterMap fun i => (imageBytesAt segs (x.addr + 24 * i) 24).map tagRecOf).flatten
      some { segs := segs, svctab := sv, tags := tags }
    | _, _ => none

/-! Far segments and page tables (R123, R379). -/

def farSegs (g : List Seg) : List Seg := g.filter fun x => isFar x.vaddr && x.memsz != 0
/-- V0 and the length of the far range from it. -/
def farRange (g : List Seg) : Nat × Nat :=
  match farSegs g with
  | [] => (0, 0)
  | x :: xs =>
    let v0 := xs.foldl (fun m y => min m y.vaddr) x.vaddr / 4096 * 4096
    (v0, (farSegs g).foldl (fun m y => max m (y.vaddr + y.memsz)) 0 - v0)

/-- Page tables under construction: the quarry and the frames taken. -/
structure Tables where
  q : Memory
  frames : Nat
  deriving DecidableEq, Repr

/-- The table an entry names, made when the entry is not valid. -/
def tableAt (vd : Nat) (t : Tables) (entry : Nat) : Nat × Tables :=
  let e := pteAt t.q entry
  if pteV e then (pteFrame e * 4096, t)
  else
    let f := (Config.frameOf vd t.frames).toNat % 2 ^ 39
    (f * 4096, { q := memWrite (memClear t.q (f * 4096) 4096) entry (leBytes 8 (f * 4096 + 1)), frames := t.frames + 1 })
/-- Leaf permissions of a segment: V, R, W, X, BX and U (R274). -/
def leafBits (fl : Nat) : Nat := 1 + 2 * b2n (bitAt fl 2) + 4 * b2n (bitAt fl 1) + 8 * b2n (bitAt fl 0) + 16 * b2n (bitAt fl 28) + 32
/-- A page of a size mapped. -/
def mapPage (vd root : Nat) (bits : Nat) (t : Tables) (va pa size : Nat) : Tables :=
  let leaf (tbl i : Nat) (ps : Nat) (t : Tables) : Tables := { t with q := memWrite t.q (tbl + 8 * i) (leBytes 8 (pa + bits + ps)) }
  let r1 := tableAt vd t (root + 8 * (va / 2 ^ 39 % 512))
  if size = 2 ^ 30 then leaf r1.1 (va / 2 ^ 30 % 512) 512 r1.2
  else
    let r2 := tableAt vd r1.2 (r1.1 + 8 * (va / 2 ^ 30 % 512))
    if size = 2 ^ 21 then leaf r2.1 (va / 2 ^ 21 % 512) 512 r2.2
    else
      let r3 := tableAt vd r2.2 (r2.1 + 8 * (va / 2 ^ 21 % 512))
      leaf r3.1 (va / 2 ^ 12 % 512) (if size = 65536 then 512 else 0) r3.2
/-- The largest page that fits at an address with so much left (R274). -/
def pageFor (va pa left : Nat) : Nat :=
  match [2 ^ 30, 2 ^ 21, 65536].find? fun z => va % z == 0 && pa % z == 0 && z ≤ left with
  | some z => z
  | none => 4096
/-- [va, va + left) mapped from pa on, by fuel. -/
def mapRange (vd root bits : Nat) : Nat → Nat → Nat → Nat → Tables → Tables
  | 0, _, _, _, t => t
  | n + 1, va, pa, left, t =>
    if left = 0 then t
    else
      let z := pageFor va pa left
      mapRange vd root bits n (va + z) (pa + z) (left - z) (mapPage vd root bits t va pa z)
def mapSeg (vd root v0 base : Nat) (t : Tables) (g : Seg) : Tables :=
  let lo := g.vaddr / 4096 * 4096
  let hi := (g.vaddr + g.memsz + 4095) / 4096 * 4096
  mapRange vd root (leafBits g.flags) ((hi - lo) / 4096) lo (base + (lo - v0)) (hi - lo) t

/-- The segments written: near ones into their slices, far ones into the extent that mirrors them, with their tables. -/
def placeImage (s : State) (tiles : List TileId) (vd root base : Nat) (g : List Seg) : State × Nat :=
  let near := (g.filter fun x => isNear x.vaddr).foldl (fun m x => match resolveNear tiles x.vaddr with
    | some a => memWrite m a x.bytes
    | none => m) s.near
  let r := farRange g
  let q0 := memClear s.quarry base r.2
  let q1 := (farSegs g).foldl (fun m x => memWrite m (base + (x.vaddr - r.1)) x.bytes) q0
  let t := (farSegs g).foldl (mapSeg vd root r.1 base) { q := memClear q1 root 4096, frames := 1 }
  ({ s with near := near, quarry := t.q }, t.frames)

end Sys2Proof.Machine
end

