-- ==== Sys2Proof/Machine/Capstone.lean ====
section
/-! DEFINITION. The capstone's management commands (R217-R225, R233, R245): one step for each mailbox opcode. -/

namespace Sys2Proof.Machine

/-! The mailbox (R218, R220). -/

def stOk : Nat := 0
def stBadOpcode : Nat := 1
def stDenied : Nat := 2
def stBadSignature : Nat := 3
def stBadVd : Nat := 4
def stBadState : Nat := 5
def stLeaseHeld : Nat := 6
def stNotHolder : Nat := 7
def stQuota : Nat := 8
def stBadArg : Nat := 9

/-- The response: STATUS, its length, its results; then the mailbox is free and vector 1,024 is raised (R218, R214). -/
def respond (s : State) (p : Fin 2) (status : Nat) (res : List Byte) : State :=
  let s := s.updPort p fun k =>
    { mailbox := memWrite [] 0 (leBytes 4 status ++ leBytes 4 res.length ++ res), busy := false, opcode := 0, vdid := 0, msix := k.msix }
  if holdsLease s p then s.updHost fun h => { h with raised := h.raised ++ [(p, 1024)] } else s

/-- Management waits for the capstone and the lintel cores to boot (R20). -/
def HostSide.booted (h : HostSide) : Bool := h.capReady && h.lintelsReady
/-- A command of an opcode under way on a port. -/
def pendingOp (s : State) (p : Fin 2) (op : Nat) : Bool := s.host.ports[p].busy && s.host.booted && mbNat s p 0 2 == op

/-- A command on the package: its holder, as the port stood when the command arrived (R217), and its header checked (R218). -/
def command (s : State) (p : Fin 2) (op used : Nat) (anyPort : Bool) (f : State → State × Nat × List Byte) : State :=
  if !pendingOp s p op then s
  else
    let s := expireLease s
    if !anyPort && !s.host.ports[p].holder then respond s p stNotHolder []
    else if !headerOk s p used then respond s p stBadArg []
    else
      let r := f s
      if r.2.1 = stOk then respond r.1 p stOk r.2.2 else respond s p r.2.1 []

/-- A command on a device: VDID, FAULTED, CMDS and state checked (R219). -/
def deviceCommand (s : State) (p : Fin 2) (op used : Nat) (anyPort : Bool) (states : List VdState)
    (f : State → Device → State × Nat × List Byte) : State :=
  command s p op used anyPort fun s =>
    match s.devs.find? fun d => vdidOf d.num == BitVec.ofNat 32 (mbNat s p 4 4) with
    | none => (s, stBadVd, [])
    | some d =>
      if d.state = .faulted && op != 2 then (s, stBadState, [])
      else if !bitAt d.policy.cmds.toNat op then (s, stDenied, [])
      else if !states.contains d.state then (s, stBadState, [])
      else f s d

/-! CREATE_VD (R224, R379). -/

/-- Tiles no device holds, in order (R5, R224). -/
def freeTiles (s : State) : List TileId :=
  if s.host.thermal then []
  else ((List.range 512).filter fun t => t % 64 < 48).map (BitVec.ofNat 9) |>.filter fun t =>
    !(s.devs.any fun d => d.state != .evicted && d.tiles.contains t)

/-- The lowest queue numbers no queue bears. -/
def freeQueues (s : State) (n : Nat) : List Nat := ((List.range 1024).filter fun q => (s.queueOf q).isNone).take n

/-- The tiles of a new device, all their state as at its creation (R47, R177, R237). -/
def freshTiles (s : State) (tiles : List TileId) (vd : Nat) : State :=
  let s := tiles.foldl (fun s t => s.setTile { id := t, vd := some vd }) s
  let mine (a : Nat) : Bool := isNear a && tiles.contains (nearTile a)
  { s with
    near := s.near.filter fun c => !mine c.1
    poison := s.poison.filter fun a => !mine a
    core := if tiles.contains (coreTile s.core.id) then { id := s.core.id } else s.core
    others := s.others.filter fun co => !tiles.contains (coreTile co.id) }

/-- The queues of a policy (R222, R219). -/
def policyQueues (bs : List Byte) (hs : List (Nat × Nat × BitVec 8)) (nums : List Nat) : List Queue :=
  ((List.range nums.length).zip nums).map fun p =>
    let o := 3176 + 32 * p.1
    { num := p.2, lintel := Fin.ofNat 4 p.1, ring := (nth hs (fld bs o 1) (0, 0, 0)).1 + fld bs (o + 8) 8, log2 := fld bs (o + 1) 1 }

/-- The located bytes of an image (R224). -/
def locate (s : State) (loc : List Byte) : Option (List Byte) :=
  match Config.extentOf (loc.take 16) with
  | none => none
  | some e => if fld loc 16 8 + fld loc 24 8 ≤ e.2 then some (memRead s.quarry (e.1 + fld loc 16 8) (fld loc 24 8)) else none

/-- What is left of a seal outside granules lo to hi - 1. -/
def cutSeal (lo hi : Nat) (r : Seal) : List Seal :=
  ([{ r with n := min r.n (lo - r.lo) }, { r with lo := max r.lo hi, n := r.lo + r.n - max r.lo hi }] : List Seal).filter (·.n != 0)
/-- The granules of an extent: those whose first byte lies in it. -/
def extentGranules (h : Nat × Nat × BitVec 8) : Nat × Nat := ((h.1 + 255) / 256, (h.1 + h.2.1 + 255) / 256)
/-- An extent becomes SHARED (R222): what its granules hold under a key is read as it stands there, as ciphertext, of which the spec
gives no byte (R128, R219, log entry 73), and nothing there has a MAC any more. -/
def openExtent (s : State) (h : Nat × Nat × BitVec 8) : State :=
  let e := extentGranules h
  let gs := (List.range' e.1 (e.2 - e.1)).filter fun g => (s.sealOf g).isSome
  { s with quarry := memWriteAll s.quarry (gs.map fun g => (List.range' (256 * g) 256).map fun a => (a, Config.badByte s.fresh a)).flatten
           sealed := (s.sealed.map (cutSeal e.1 e.2)).flatten, fresh := s.fresh + 1 }
def Policy.shared (p : Policy) : List (Nat × Nat × BitVec 8) := p.handles.filter fun h => bitAt h.2.2.toNat 2
def openShared (s : State) (p : Policy) : State := p.shared.foldl openExtent s
/-- Seals outside every SHARED extent of a policy. -/
def privateSeals (p : Policy) (rs : List Seal) : List Seal :=
  p.shared.foldl (fun rs h => (rs.map (cutSeal (extentGranules h).1 (extentGranules h).2)).flatten) rs

/-- A number whose ASID no device bears (R121, R128), searched from n on. -/
def numberFrom (used : List Nat) : Nat → Nat → Nat
  | 0, n => n
  | k + 1, n => if used.contains (n % 2 ^ 14) then numberFrom used k (n + 1) else n
/-- The number of a new device: the next one whose ASID is free (log entry 19). -/
def State.nextNumber (s : State) : Nat := numberFrom (s.devs.map (·.num % 2 ^ 14)) (s.devs.length + 1) s.devCount
/-- The device made of a bound policy and a read image. -/
def createDevice (s : State) (tiles : List TileId) (pol : Policy) (img : Image) (bs : List Byte) : State × Nat × List Byte :=
  let n := s.nextNumber
  let far := farRange img.segs
  let nums := freeQueues s (fld bs 2006 1)
  match pol.handles.find? (fun h => bitAt h.2.2.toNat 3), nums.length == fld bs 2006 1 with
  | _, false => (s, stQuota, [])
  | e, true =>
    let base := (e.map (·.1)).getD 0
    let limit := (e.map (·.2.1)).getD 0
    if limit < far.2 then (s, stBadArg, [])
    else
      let root := (Config.frameOf n 0).toNat % 2 ^ 39 * 4096
      let s := openShared (freshTiles s tiles n) pol
      let r := placeImage s tiles n root base img.segs
      let key := s.keyCount + 1
      let d : Device := { num := n, tiles := tiles, policy := pol, root := root, svctab := img.svctab, frames := r.2, vbase := far.1
                          lbase := base, tagRecs := img.tags, queues := policyQueues bs pol.handles nums, key := key, sliceAt := s.time }
      -- the image and the page tables stand in the quarry under the new keys (R224, R121, R128)
      let image : List Seal := if far.2 = 0 then [] else [{ lo := base / 256, n := (far.2 + 255) / 256, key := key }]
      let tables : List Seal := (List.range r.2).map fun i => { lo := (Config.frameOf n i).toNat % 2 ^ 39 * 16, n := 16, key := key }
      ({ r.1 with devs := r.1.devs ++ [d], devCount := n + 1, keyCount := key
                  sealed := tables ++ privateSeals pol image ++ r.1.sealed }, stOk,
        leBytes 4 (vdidOf n).toNat ++ (nums.map (leBytes 2)).flatten)

/-- R224 in its order. -/
def createVd (s : State) (p : Fin 2) : State × Nat × List Byte :=
  let want := mbNat s p 16 2
  let bs := mbBytes s p 64 7336
  if mbNat s p 8 4 < 8456 then (s, stBadArg, [])
  else if !polSigned bs (polEd bs) (polMl bs) then (s, stBadSignature, [])
  else match locate s (mbBytes s p 8488 32) with
    | none => (s, stBadArg, [])
    | some loc =>
      match Config.decryptImage (mbBytes s p 7400 1088) (bs.take 7336) loc with
      | none => (s, stBadSignature, [])
      | some exe =>
        let k := exe.length - 3392
        if exe.length < 3392 || !blockVerifies (polEd bs) (polMl bs) (exe.take k) (exe.drop k) then (s, stBadSignature, [])
        else if !elfOk exe then (s, stBadArg, [])
        else if !((elfSects exe).any fun x => x.typ == 0x70000003 && x.size == 3392 && x.off + x.size == exe.length)
            || k < fld exe 40 8 + fld exe 60 2 * fld exe 58 2 then (s, stBadSignature, [])
        else if !policyFieldsOk bs then (s, stBadArg, [])
        else if !bitAt (fld bs 1992 8) 1 then (s, stDenied, [])
        else if want = 0 || fld bs 2002 2 < want then (s, stBadArg, [])
        else
          let tiles := (freeTiles s).take want
          if tiles.length ≠ want || 16383 ≤ s.devs.length then (s, stQuota, [])
          else match bindPolicy bs tiles, readImage tiles exe with
            | some pol, some img => createDevice s tiles pol img bs
            | _, _ => (s, stBadArg, [])
def execCreateVd (port : Fin 2) (s : State) : Res := eventStep (command s port 1 2 false fun s => createVd s port)

/-! The other commands on devices. -/

/-- Every trace of a device on its tiles gone; an evicted device holds none. -/
def clearTiles (s : State) (d : Device) : State :=
  if d.state = .evicted then s
  else
    let ours (c : CoreId) : Bool := d.tiles.contains (coreTile c)
    let mine (a : Nat) : Bool := isNear a && d.tiles.contains (nearTile a)
    let s := d.tiles.foldl (fun s t => s.setTile { id := t }) s
    { s with
      near := s.near.filter fun c => !mine c.1
      poison := s.poison.filter fun a => !mine a
      locks := s.locks.filter fun l => !d.tiles.contains (BitVec.ofNat 9 (l.slice / 64))
      returning := s.returning.filter fun r => !ours r.1
      core := if ours s.core.id then { id := s.core.id } else s.core
      others := s.others.filter fun co => !ours co.id }

/-- R219: DESTROY_VD. -/
def execDestroyVd (port : Fin 2) (s : State) : Res :=
  eventStep (deviceCommand s port 2 0 false [.running, .paused, .evicted, .faulted] fun s d =>
    let s := clearTiles s d
    ({ s with devs := s.devs.filter fun k => k.num != d.num, colls := s.colls.filter fun c => c.vd != d.num
              overs := s.overs.filter fun o => o.vd != d.num }, stOk, []))

/-- A handle value that no device bears, neither 0 nor 0xFF_FFFF (R130), searched from a value on. -/
def handleFrom (used : List Nat) : Nat → Nat → Nat
  | 0, v => v
  | n + 1, v => if v = 0 ∨ v = 0xFFFFFF ∨ used.contains v then handleFrom used n ((v + 1) % 2 ^ 24) else v
def freshHandle (s : State) : BitVec 24 :=
  let used := (s.devs.map fun d => d.handles.map fun h => h.val.toNat).flatten
  BitVec.ofNat 24 (handleFrom used (used.length + 2) (Config.handleOf s.handleCount).toNat)
/-- R219: MAP_HANDLE. ARGS: entry at byte 0, rights at byte 1, offset at bytes 8-15, length at bytes 16-23. -/
def execMapHandle (port : Fin 2) (s : State) : Res :=
  eventStep (deviceCommand s port 3 24 false [.running, .paused, .evicted] fun s d =>
    let i := mbNat s port 16 1
    let rights := mbNat s port 17 1
    let off := mbNat s port 24 8
    let len := mbNat s port 32 8
    match d.policy.handles[i]? with
    | none => (s, stBadArg, [])
    | some e =>
      if mbNat s port 18 6 ≠ 0 || natAnd 8 rights (255 - e.2.2.toNat) != 0 || e.2.1 < off + len || 2 ^ 40 < len then (s, stBadArg, [])
      else
        let v := freshHandle s
        let h : Handle := { val := v, entry := i, base := e.1 + off, len := len, r := bitAt rights 0, w := bitAt rights 1
                            shared := bitAt e.2.2.toNat 2, launch := bitAt rights 3 }
        ({ s.updDev d.num (fun d => { d with handles := d.handles ++ [h] }) with handleCount := s.handleCount + 1 }, stOk,
          leBytes 4 v.toNat))

/-- R219: SCHEDULE. ARGS: the lintel of queue i at byte i, the slice length at bytes 16-23. -/
def execSchedule (port : Fin 2) (s : State) : Res :=
  eventStep (deviceCommand s port 4 24 false [.running, .paused] fun s d =>
    let n := d.queues.length
    let ls := (List.range 16).map fun i => mbNat s port (16 + i) 1
    if ls.any (fun l => 4 ≤ l) || (ls.drop n).any (· != 0) || mbNat s port 32 8 == 0 then (s, stBadArg, [])
    else
      let qs := ((List.range n).zip d.queues).map fun q => { q.2 with lintel := Fin.ofNat 4 (nth ls q.1 0) }
      (s.updDev d.num fun d => { d with queues := qs, slice := BitVec.ofNat 64 (mbNat s port 32 8) }, stOk, []))

/-- Whether a device that was to be pre-empted met a pending fault of a service task on the way: the command then finds it
FAULTED (R208, R219). -/
def faultedNow (s : State) (d : Device) : Bool :=
  match s.devOf d.num with
  | some e => e.state == .faulted
  | none => false
/-- A command that pre-empts waits while a held context of the device named has rule work under way (R238). -/
def preemptWaits (s : State) (p : Fin 2) : Bool :=
  match s.devs.find? fun d => vdidOf d.num == BitVec.ofNat 32 (mbNat s p 4 4) with
  | some d => d.state == .running && heldBusy s d
  | none => false
/-- R219: PAUSE (R211, R221). -/
def execPause (port : Fin 2) (s : State) : Res :=
  eventStep (if preemptWaits s port then s else deviceCommand s port 5 0 false [.running] fun s d =>
    let u := saveDevice false s d
    if faultedNow u d then (s, stBadState, []) else (u.updDev d.num fun d => { d with state := .paused }, stOk, []))

/-- R219: RESUME (R166, R212). -/
def execResume (port : Fin 2) (s : State) : Res :=
  eventStep (deviceCommand s port 6 0 false [.paused] fun s d => (restartDevice s d, stOk, []))

/-- A paused device's slices, slots and phase counts leave its tiles (R55, R212). -/
def evictTiles (s : State) (d : Device) : State :=
  let s := d.saves.foldl (fun s r => s.setCore { id := r.core.id, phases := r.core.phases }) s
  let s := d.courses.foldl (fun s c => addPhases s d c) s
  let recs := d.saves.map fun r =>
    let z := sliceOf r.core.id
    { r with core := { r.core with phases := [] }, slice := memWriteAll (memCells s.near z.1 z.2) (spillCells r.core)
             poison := s.poison.filter fun a => z.1 ≤ a && a < z.1 + z.2
             ppos := if coreSlot r.core.id = 32 then (s.tileOf (coreTile r.core.id)).ppos else 0 }
  let s := clearTiles s d
  s.updDev d.num fun d => { d with saves := recs, state := .evicted }
/-- R219: EVICT (R211, R212). -/
def execEvict (port : Fin 2) (s : State) : Res :=
  eventStep (if preemptWaits s port then s else deviceCommand s port 7 0 false [.running, .paused] fun s d =>
    let s := if d.state = .running then saveDevice true s d else drainPaused s d
    match s.devOf d.num with
    | none => (s, stBadState, [])
    | some d => if d.state = .faulted then (s, stBadState, []) else (evictTiles s d, stOk, []))

/-- The slices and slots of an evicted device put back on its tiles; spilled records return to their run queues (R37). -/
def restoreTiles (s : State) (d : Device) : State :=
  let s := freshTiles s d.tiles d.num
  d.saves.foldl (fun s r =>
    let s := { s with near := memWriteAll s.near (r.slice.filter fun c => !isSpill c.1), poison := s.poison ++ r.poison }
    if coreSlot r.core.id = 32 then s.updTile (coreTile r.core.id) fun tl => { tl with slots := r.slots, ppos := r.ppos } else s) s
/-- R219: RESTORE (R212); QUOTA while another device holds one of its tiles. -/
def execRestore (port : Fin 2) (s : State) : Res :=
  eventStep (deviceCommand s port 8 0 false [.evicted] fun s d =>
    if d.tiles.all fun t => (freeTiles s).contains t then (restartDevice (restoreTiles s d) d, stOk, []) else (s, stQuota, []))

/-! Lease commands (R215-R217). -/

/-- A renewal that R215 ignores is counted as a write of HLEASE is: not one whose HOSTID is 0. -/
def refuseRenewal (s : State) (p : Fin 2) : State :=
  let s := expireLease s
  respond (if s.host.lease = .vacant || mbNat s p 16 4 == 0 then s else s.updHost HostSide.lost) p stNotHolder []
/-- R215, R216: as a write of HLEASE with the HOSTID of ARGS bytes 0-3, judged by its arrival: one that a later write has overtaken moves
no deadline. -/
def execLeaseRenew (port : Fin 2) (s : State) : Res :=
  let id := mbNat s port 16 4
  eventStep (
    if pendingOp s port 9 && (!s.host.ports[port].holder || (headerOk s port 4 && id != 0 && s.host.hostid.toNat != id)) then
      refuseRenewal s port
    else command s port 9 4 false fun s =>
      if id = 0 then (s, stBadArg, [])
      else (renewLease s port, stOk, []))

/-- R216, R217: judged by its arrival; notifies, vectors and command slots move with the lease. -/
def execClaim (port : Fin 2) (s : State) : Res :=
  eventStep (command s port 10 4 true fun s =>
    let id := mbNat s port 16 4
    let at_ := s.host.ports[port].arrivedAt
    if s.host.lease = .held || (s.host.lease == .expired && at_ < s.host.deadline.toNat) then (s, stLeaseHeld, [])
    else if s.host.lease = .vacant then (s, stBadState, [])
    else if id = 0 then (s, stBadArg, [])
    else
      let f (h : HostSide) : HostSide :=
        let h := h.take port (BitVec.ofNat 32 id) h.ports[port].arrived h.ports[port].period
        { h with raised := h.raised ++ h.pending.map fun v => (port, v), pending := [] }
      (s.updHost f, stOk, []))

/-! Reports. -/

/-- HEALTH bytes 8-151 (R245). -/
def healthBytes (s : State) : List Byte :=
  let ind (lo n : Nat) : List Byte := (List.range' lo n).map (Config.healthByte s.time)
  ind 8 8 ++ leBytes 8 (b2n s.host.thermal) ++ ind 24 64 ++ (s.eccDie.toList.map wordBytes).flatten
/-- R245. -/
def execHealth (port : Fin 2) (s : State) : Res :=
  eventStep (command s port 14 0 true fun s => (s, stOk, healthBytes s))

def vdStateCode : VdState → Nat
  | .running => 1 | .paused => 2 | .evicted => 3 | .faulted => 4
/-- A device record of RESYNC, 264 bytes (R233). -/
def deviceRecord (d : Device) : List Byte :=
  let q (k : Queue) : List Byte := leBytes 2 k.num ++ leBytes 1 k.lintel.val ++ zeroBytes 5 ++ wordBytes k.head
  fitBytes 264 (leBytes 4 (vdidOf d.num).toNat ++ leBytes 1 (vdStateCode d.state)
    ++ [if d.state = .faulted then d.why else 0] ++ leBytes 1 d.queues.length ++ zeroBytes 1 ++ (d.queues.map q).flatten)
/-- Devices in VDID order. -/
def insertDev (d : Device) : List Device → List Device
  | [] => [d]
  | x :: xs => if (vdidOf d.num).toNat ≤ (vdidOf x.num).toNat then d :: x :: xs else x :: insertDev d xs
def portRecord (k : Port) : List Byte :=
  if k.busy then leBytes 2 k.opcode.toNat ++ zeroBytes 2 ++ leBytes 4 k.vdid.toNat ++ zeroBytes 8 else zeroBytes 16
/-- The response of RESYNC from byte 8 on (R233). -/
def resyncBytes (s : State) (first : Nat) : List Byte :=
  let h := s.host
  let ds := (s.devs.foldr insertDev []).drop first
  let shown := ds.take 61
  let left := if h.lease = .held then (h.deadline.toNat - s.micros) / 1000 else 0
  leBytes 4 (if h.lease = .held then h.hostid.toNat else 0)
    ++ leBytes 1 (match h.lease with | .vacant => 0 | .held => 1 | .expired => 2) ++ zeroBytes 3 ++ leBytes 8 left
    ++ (healthBytes s).take 16 ++ wordBytes h.lostHlease ++ wordBytes h.lostNotify ++ wordBytes h.lostBounce ++ wordBytes h.lostService
    ++ portRecord h.ports[0] ++ portRecord h.ports[1] ++ leBytes 4 shown.length ++ leBytes 4 (b2n (decide (61 < ds.length)))
    ++ (shown.map deviceRecord).flatten
/-- R233. -/
def execResync (port : Fin 2) (s : State) : Res :=
  eventStep (command s port 11 4 true fun s => (s, stOk, resyncBytes s (mbNat s port 16 4)))

/-- The report of ATTEST with its signature block (R225). -/
def attestBytes (d : Device) (nonce : List Byte) : List Byte :=
  let rep := nonce ++ (List.range 64).map Config.firmwareHash ++ (List.range 64).map (Config.sha512 d.policy.bytes)
    ++ leBytes 8 (vdidOf d.num).toNat ++ leBytes 8 (vdStateCode d.state) ++ wordBytes Config.serial ++ zeroBytes 8
  rep ++ zeroBytes 8 ++ (List.range' 8 3373).map (Config.deviceSignature rep) ++ zeroBytes 11
/-- R225. -/
def execAttest (port : Fin 2) (s : State) : Res :=
  eventStep (deviceCommand s port 12 32 true [.running, .paused, .evicted] fun s d =>
    (s, stOk, attestBytes d (mbBytes s port 16 32)))

/-- R223: under the bound keys, with a greater VERSION and a quota that covers the tiles in use. -/
def execSetPolicy (port : Fin 2) (s : State) : Res :=
  eventStep (deviceCommand s port 13 0 false [.running, .paused, .evicted] fun s d =>
    let bs := mbBytes s port 64 7336
    if mbNat s port 8 4 < 7336 then (s, stBadArg, [])
    else if !polSigned bs d.policy.edKey d.policy.mlKey then (s, stBadSignature, [])
    else match bindPolicy bs d.tiles with
      | none => (s, stBadArg, [])
      | some p =>
        if p.version ≤ d.policy.version then (s, stBadArg, [])
        else if p.tileq < d.tiles.length then (s, stQuota, [])
        else ((openShared s p).updDev d.num fun d => { d with policy := { p with edKey := d.policy.edKey, mlKey := d.policy.mlKey } }, stOk, []))

/-- R219, R220: an opcode of 0 or above 14. -/
def execMailboxBadOpcode (port : Fin 2) (s : State) : Res :=
  eventStep (
    let op := mbNat s port 0 2
    if pendingOp s port op && (op == 0 || 14 < op) then
      let s := expireLease s
      respond s port (if s.host.ports[port].holder then stBadOpcode else stNotHolder) []
    else s)

end Sys2Proof.Machine
end

