-- ==== Sys2Proof/Machine/Floating.lean ====
section
/-! DEFINITION. The scalar floating-point mould (R310-R314). -/

namespace Sys2Proof.Machine

/-- An operand's value in the low bits of an x register (R311). -/
def fpOf (t : ElemTy) (v : Word) : FV := unpack (elemFmt t) (v.toNat % 2 ^ fmtBits (elemFmt t))

/-- A result and its flags, given when bit 0 of the predicate is 1 (R257, R311). -/
def fpPut (p : Bool) (d : Opd) (r : Nat × Flags) : M Unit := do
  putPred p d (BitVec.ofNat 64 r.1)
  raiseFp (if p then r.2 else 0)

/-- The mould with one, two and three operands. -/
def falu1 (t : ElemTy) (pg : Fin 8) (d a : Opd) (f : Fmt → FV → Nat × Flags) (s : State) : Res :=
  issue s 8 do
    checkDirs [a] [d]
    let p ← predEnd pg d
    let x ← readOpd a
    fpPut p d (f (elemFmt t) (fpOf t x))
def falu2 (t : ElemTy) (pg : Fin 8) (d a b : Opd) (f : Fmt → FV → FV → Nat × Flags) (s : State) : Res :=
  issue s 8 do
    checkDirs [a, b] [d]
    let p ← predEnd pg d
    let x ← readOpd a
    let y ← readOpd b
    fpPut p d (f (elemFmt t) (fpOf t x) (fpOf t y))

/-- R311. -/
def execFadd (t : ElemTy) (pg : Fin 8) (d a b : Opd) (s : State) : Res := falu2 t pg d a b addFV s
/-- R311. -/
def execFsub (t : ElemTy) (pg : Fin 8) (d a b : Opd) (s : State) : Res := falu2 t pg d a b subFV s
/-- R311. -/
def execFmul (t : ElemTy) (pg : Fin 8) (d a b : Opd) (s : State) : Res := falu2 t pg d a b mulFV s
/-- R311: one rounding. -/
def execFfma (t : ElemTy) (pg : Fin 8) (d a b c : Opd) (s : State) : Res :=
  issue s 8 do
    checkDirs [a, b, c] [d]
    let p ← predEnd pg d
    let x ← readOpd a
    let y ← readOpd b
    let z ← readOpd c
    fpPut p d (fmaFV (elemFmt t) (fpOf t x) (fpOf t y) (fpOf t z))
/-- R311. -/
def execFdiv (t : ElemTy) (pg : Fin 8) (d a b : Opd) (s : State) : Res := falu2 t pg d a b divFV s
/-- R311. -/
def execFsqrt (t : ElemTy) (pg : Fin 8) (d a : Opd) (s : State) : Res := falu1 t pg d a sqrtFV s
/-- R84, R311. -/
def execFmin (t : ElemTy) (pg : Fin 8) (d a b : Opd) (s : State) : Res :=
  falu2 t pg d a b (fun f x y => minmaxFV f false x y) s
/-- R84, R311. -/
def execFmax (t : ElemTy) (pg : Fin 8) (d a b : Opd) (s : State) : Res :=
  falu2 t pg d a b (fun f x y => minmaxFV f true x y) s

/-- R313: -1, 0, 1 or 2, a quiet comparison. -/
def fcmpResult (_f : Fmt) (x y : FV) : Nat × Flags :=
  if fvIsNan x || fvIsNan y then (2, snanFlag [x, y])
  else (wrapTo 64 (cmpFV x y), 0)
/-- R313. -/
def execFcmp (t : ElemTy) (pg : Fin 8) (d a b : Opd) (s : State) : Res := falu2 t pg d a b fcmpResult s

/-- R314: I results sign-extended, N results zero-extended. -/
def cvtWord (td ts : ElemTy) (v : Word) : Nat × Flags :=
  let n := 8 * elemSize ts
  let r := cvtScal td ts (v.toNat % 2 ^ n)
  (if elemSigned td then (sextW (8 * elemSize td) r.1).toNat else r.1, r.2)
/-- R314. -/
def execFcvt (td ts : ElemTy) (pg : Fin 8) (d a : Opd) (s : State) : Res :=
  issue s 8 do
    checkDirs [a] [d]
    let p ← predEnd pg d
    let x ← readOpd a
    fpPut p d (cvtWord td ts x)

end Sys2Proof.Machine
end

