-- ==== Sys2Proof/Machine/Observe.lean ====
section
/-! DEFINITION. Observation, soft errors and power: the plumb pulse (R241, R242), trace records (R240), the scrubber (R244),
the current limit (R18), the thermal faults (R19) and the package reset (R20). -/

namespace Sys2Proof.Machine

/-! Rings of the observation block (R239). -/

def obsAddr (t : TileId) (off : Nat) : Nat := nearAddr t 35 (0xFF000 + off)
def obsWord (s : State) (t : TileId) (off : Nat) : Nat := (memWord s.near (obsAddr t off)).toNat

/-- Whether a ring write lies in the partition of the tile's device. -/
def ringOk (s : State) (t : TileId) (a n : Nat) : Bool :=
  match (s.tileOf t).vd.bind s.devOf with
  | none => false
  | some d => (nearSteps a n).all fun b => isNear b && nearExists b && d.tiles.contains (nearTile b)

/-- A record written to a ring at a position, or dropped and counted: base, length and head offsets of the ring. The answer
is the position after it. -/
def ringWrite (s : State) (t : TileId) (base len head pos : Nat) (rec_ : List Byte) : State × Nat :=
  let b := obsWord s t base
  let l := obsWord s t len
  let p := if pos + rec_.length ≤ l then pos else 0
  if l < rec_.length || !ringOk s t (b + p) rec_.length then (s.obsAdd t 0x48 1, pos)
  else ((s.hwWrite (b + p) rec_).obsAdd t head rec_.length, p + rec_.length)

/-! Trace (R240). -/

def traceBytes (c : CoreId) (r : TraceRec) : List Byte :=
  wordBytes r.time ++ wordBytes r.mark ++ leBytes 8 (r.event.toNat + c.toNat * 2 ^ 8) ++ wordBytes r.data
def writeTrace (s : State) (c : CoreId) : State :=
  match (s.coreOf c).traceBuf with
  | [] => s
  | r :: rest =>
    let t := coreTile c
    let len := obsWord s t 0x30
    let s := s.updCore c fun co => { co with traceBuf := rest }
    (ringWrite s t 0x28 0x30 0x38 (if len = 0 then 0 else obsWord s t 0x38 % len) (traceBytes c r)).1
def execTraceRecordWrite (c : CoreId) (s : State) : Res := eventStep (writeTrace s c)

/-! The plumb pulse (R241, R242). -/

/-- What one core shows: PC, STATE, REASON and mark. -/
structure Plumb where
  pc    : Nat
  state : Nat
  reason : Nat
  mark  : Word
  deriving DecidableEq, Repr

/-- Whether a context of the core is at the keystone. -/
def migratedFrom (s : State) (c : CoreId) : Bool :=
  let t := coreTile c
  (List.range 64).any fun k => match nth (s.tileOf t).slots.toList k .free with
    | .image _ => memWord s.near (slotAddr t k + 0x8030) == c.setWidth 64
    | _ => false
/-- A stall that the matrix unit's work can end. -/
def Stall.onMatrix : Stall → Bool
  | .counter | .interlock | .full63 => true
  | _ => false
/-- A stall's reason; a core that waits for its matrix work in a throttled window shows "power" (R18). -/
def stallReason (s : State) (c : CoreId) (x : Ctx) (r : Stall) : Nat :=
  if s.throttle.contains (Fin.ofNat 8 (coreDie c)) && !x.mxops.isEmpty && r.onMatrix then 7 else r.code
def plumbOf (s : State) (c : CoreId) : Plumb :=
  let co := s.coreOf c
  let x := co.ctx
  let pc := x.pc.toNat % 2 ^ 48
  match co.mode with
  | .idle => { pc := 0, state := if migratedFrom s c then 3 else 2, reason := 0, mark := 0 }
  | .held _ => { pc := pc, state := 4, reason := 0, mark := x.mark }
  | .trapped => { pc := pc, state := 1, reason := 13, mark := x.mark }
  | .running =>
    if x.wd then { pc := x.wdblk.toNat % 2 ^ 48, state := 5, reason := if x.stall.isSome then 11 else 0, mark := x.mark }
    else match x.stall with
      | some r => { pc := pc, state := 1, reason := stallReason s c x r, mark := x.mark }
      | none => { pc := pc, state := 0, reason := 0, mark := x.mark }

/-- An entry: its core, CMASK and quads covered minus 1. -/
structure PlumbEntry where
  p     : Plumb
  cmask : Nat
  runm1 : Nat := 0
  deriving DecidableEq, Repr

def samePlumb (a b : Plumb) : Bool :=
  a.pc == b.pc && a.state == b.state && a.reason == b.reason && a.mark.toNat / 2 ^ 34 == b.mark.toNat / 2 ^ 34
/-- A core of a quad merged into the entries before it. -/
def mergeCore (i : Nat) (p : Plumb) : List PlumbEntry → List PlumbEntry
  | [] => [{ p := p, cmask := 2 ^ i }]
  | e :: es => if samePlumb e.p p then { e with cmask := e.cmask + 2 ^ i } :: es else e :: mergeCore i p es
def quadEntries (s : State) (t : TileId) (q : Nat) : List PlumbEntry :=
  (List.range 4).foldl (fun es i => mergeCore i (plumbOf s (mkCore t (4 * q + i))) es) []
/-- Equal neighbours folded. -/
def foldEntries : List PlumbEntry → List PlumbEntry
  | [] => []
  | e :: es => match foldEntries es with
    | [] => [e]
    | f :: fs => if samePlumb e.p f.p && e.cmask == f.cmask then { e with runm1 := e.runm1 + f.runm1 + 1 } :: fs else e :: f :: fs
def plumbEntryBytes (e : PlumbEntry) : List Byte :=
  leBytes 8 (e.runm1 * 2 ^ 59 + e.cmask * 2 ^ 55 + e.p.reason * 2 ^ 51 + e.p.state * 2 ^ 48 + e.p.pc) ++ wordBytes e.p.mark
def plumbRecord (s : State) (t : TileId) : List Byte :=
  let es := foldEntries ((List.range 8).map (quadEntries s t)).flatten
  wordBytes s.time ++ leBytes 8 (t.toNat + es.length * 2 ^ 16) ++ (es.map plumbEntryBytes).flatten
/-- Whether a pulse fires on a tile now. -/
def pulseDue (s : State) (t : TileId) : Bool :=
  let k := obsWord s t 0 % 32
  k != 0 && s.time.toNat % 2 ^ k == 0
def pulse (s : State) (t : TileId) : State :=
  if pulseDue s t then
    let pos := if obsWord s t 0x18 = 0 then 0 else (s.tileOf t).ppos
    let r := ringWrite s t 0x08 0x10 0x18 pos (plumbRecord s t)
    r.1.updTile t fun tl => { tl with ppos := r.2, plast := some s.time }
  else s
/-- A tile whose pulse fires in this cycle and has not yet (R241). -/
def State.pulseWaits (s : State) : Option TileId := (s.tiles.find? fun tl => pulseDue s tl.id && tl.plast != some s.time).map (·.id)
/-- R241, R242. -/
def execPlumbPulse (t : TileId) (s : State) : Res := eventStep (pulse s t)

/-! Soft errors (R244). -/

/-- A register of a core fails its parity: the machine check of the context it holds has FADDR 0 (R202, R243). -/
def parityError (s : State) (c : CoreId) : State :=
  s.updCore c fun co => if co.mode = .idle then co else co.mapCtx fun x => x.hold (trapAt .mcheck 0)
/-- The scrubber at one word of a slice, or a register that fails its parity. -/
def scrub (s : State) (addr : Nat) (f : ScrubFind) : State :=
  let a := addr / 8 * 8
  match f with
  | .parity c => parityError s c
  | .clean | .corrected | .uncorrectable =>
  if !isNear a || !nearExists a then s
  else match f with
    | .clean | .parity _ => s
    | .corrected =>
      let die := Fin.ofNat 8 (tileDie (nearTile a))
      { s.obsAdd (nearTile a) 0x50 1 with eccDie := s.eccDie.set die.val (s.eccDie[die] + 1) }
    | .uncorrectable => if s.poison.contains a then s else { s with poison := s.poison ++ [a] }
def execScrubStep (addr : Nat) (f : ScrubFind) (s : State) : Res := eventStep (scrub s addr f)

/-! Power (R18-R20). -/

/-- R18: matrix units of a die over its share issue at half rate in the next window. -/
def execPowerWindow (die : Fin 8) (hot : Bool) (s : State) : Res :=
  eventStep { s with throttle := if hot then (if s.throttle.contains die then s.throttle else s.throttle ++ [die])
                                 else s.throttle.filter (· != die) }
/-- R19: every compute die loses its rails, all work on them stops without a save, and every device is faulted with the thermal
cause. -/
def execThermalFault (_die : Fin 8) (s : State) : Res :=
  eventStep { s with
    host := { s.host with thermal := true }
    devs := s.devs.map fun d => { d with state := .faulted, why := 0xFF }
    tiles := s.tiles.map fun tl => { id := tl.id, vd := tl.vd }
    core := { id := s.core.id }
    others := []
    locks := []
    mortar := []
    returning := []
    colls := [] }
/-- R19, R20: the rail enable of the package falls, and nothing runs. -/
def execIoDieOverheat (_die : Fin 2) (s : State) : Res := eventStep { s with powered := false }
/-- R20, R215, R223: power up and boot; what the quarry holds stays, and firmware that fails leaves the lintels in reset. -/
def execPackageReset (firmwareOk : Bool) (s : State) : Res :=
  eventStep { State.reset with quarry := s.quarry, peerOut := s.peerOut, fresh := s.fresh
                               host := { capReady := true, lintelsReady := firmwareOk } }

end Sys2Proof.Machine
end

