-- ==== Sys2Proof/Machine/Dispatch.lean ====
section
/-! DEFINITION. The dispatch of a step to its meaning: one arm per constructor of `Instr`. -/

namespace Sys2Proof.Machine

def exec (i : Instr) (s : State) : Host.Outcome State Fault Refusal :=
  match i with
  | .skipWord => Sys2Proof.Machine.execSkipWord s
  | .nop pg => Sys2Proof.Machine.execNop pg s
  | .pbr pg d reg a imm => Sys2Proof.Machine.execPbr pg d reg a imm s
  | .br c hint bt a b => Sys2Proof.Machine.execBr c hint bt a b s
  | .bri c hint bt a b off => Sys2Proof.Machine.execBri c hint bt a b off s
  | .jmpr pg a => Sys2Proof.Machine.execJmpr pg a s
  | .call reg d a imm => Sys2Proof.Machine.execCall reg d a imm s
  | .ret pg a => Sys2Proof.Machine.execRet pg a s
  | .rep step fmask km1 nm1 => Sys2Proof.Machine.execRep step fmask km1 nm1 s
  | .endTask pg => Sys2Proof.Machine.execEndTask pg s
  | .brk code => Sys2Proof.Machine.execBrk code s
  | .trap code => Sys2Proof.Machine.execTrap code s
  | .eret pg => Sys2Proof.Machine.execEret pg s
  | .fmt v => Sys2Proof.Machine.execFmt v s
  | .phase n => Sys2Proof.Machine.execPhase n s
  | .wait ld st job mx gr => Sys2Proof.Machine.execWait ld st job mx gr s
  | .add m pg d a b => Sys2Proof.Machine.execAdd m pg d a b s
  | .addImm m d a imm => Sys2Proof.Machine.execAddImm m d a imm s
  | .sub m pg d a b => Sys2Proof.Machine.execSub m pg d a b s
  | .mul m pg d a b => Sys2Proof.Machine.execMul m pg d a b s
  | .mulh m pg d a b => Sys2Proof.Machine.execMulh m pg d a b s
  | .div m pg d a b => Sys2Proof.Machine.execDiv m pg d a b s
  | .rem m pg d a b => Sys2Proof.Machine.execRem m pg d a b s
  | .and m pg d a b => Sys2Proof.Machine.execAnd m pg d a b s
  | .andImm m d a imm => Sys2Proof.Machine.execAndImm m d a imm s
  | .or m pg d a b => Sys2Proof.Machine.execOr m pg d a b s
  | .orImm m d a imm => Sys2Proof.Machine.execOrImm m d a imm s
  | .xor m pg d a b => Sys2Proof.Machine.execXor m pg d a b s
  | .xorImm m d a imm => Sys2Proof.Machine.execXorImm m d a imm s
  | .andn m pg d a b => Sys2Proof.Machine.execAndn m pg d a b s
  | .shl m pg d a b => Sys2Proof.Machine.execShl m pg d a b s
  | .shlImm m d a imm => Sys2Proof.Machine.execShlImm m d a imm s
  | .shr m pg d a b => Sys2Proof.Machine.execShr m pg d a b s
  | .shrImm m d a imm => Sys2Proof.Machine.execShrImm m d a imm s
  | .rot m pg d a b => Sys2Proof.Machine.execRot m pg d a b s
  | .rotImm m d a imm => Sys2Proof.Machine.execRotImm m d a imm s
  | .min m pg d a b => Sys2Proof.Machine.execMin m pg d a b s
  | .minImm m d a imm => Sys2Proof.Machine.execMinImm m d a imm s
  | .max m pg d a b => Sys2Proof.Machine.execMax m pg d a b s
  | .maxImm m d a imm => Sys2Proof.Machine.execMaxImm m d a imm s
  | .cmp m pg d a b => Sys2Proof.Machine.execCmp m pg d a b s
  | .cmpImm m d a imm => Sys2Proof.Machine.execCmpImm m d a imm s
  | .sel m pg d a b c => Sys2Proof.Machine.execSel m pg d a b c s
  | .clz m pg d a => Sys2Proof.Machine.execClz m pg d a s
  | .popc m pg d a => Sys2Proof.Machine.execPopc m pg d a s
  | .bfx m pg d a b c => Sys2Proof.Machine.execBfx m pg d a b c s
  | .bfi m pg d a b c => Sys2Proof.Machine.execBfi m pg d a b c s
  | .madd m pg d a b c => Sys2Proof.Machine.execMadd m pg d a b c s
  | .lea m pg d a b c => Sys2Proof.Machine.execLea m pg d a b c s
  | .leaImm m d imm => Sys2Proof.Machine.execLeaImm m d imm s
  | .li pg d imm => Sys2Proof.Machine.execLi pg d imm s
  | .liLong pg d imm => Sys2Proof.Machine.execLiLong pg d imm s
  | .fadd t pg d a b => Sys2Proof.Machine.execFadd t pg d a b s
  | .fsub t pg d a b => Sys2Proof.Machine.execFsub t pg d a b s
  | .fmul t pg d a b => Sys2Proof.Machine.execFmul t pg d a b s
  | .ffma t pg d a b c => Sys2Proof.Machine.execFfma t pg d a b c s
  | .fdiv t pg d a b => Sys2Proof.Machine.execFdiv t pg d a b s
  | .fsqrt t pg d a => Sys2Proof.Machine.execFsqrt t pg d a s
  | .fmin t pg d a b => Sys2Proof.Machine.execFmin t pg d a b s
  | .fmax t pg d a b => Sys2Proof.Machine.execFmax t pg d a b s
  | .fcmp t pg d a b => Sys2Proof.Machine.execFcmp t pg d a b s
  | .fcvt td ts pg d a => Sys2Proof.Machine.execFcvt td ts pg d a s
  | .ld d m => Sys2Proof.Machine.execLd d m s
  | .st d m => Sys2Proof.Machine.execSt d m s
  | .ldv d m => Sys2Proof.Machine.execLdv d m s
  | .stv d m => Sys2Proof.Machine.execStv d m s
  | .ldg et bytes pg d a b => Sys2Proof.Machine.execLdg et bytes pg d a b s
  | .sts et bytes pg d a b => Sys2Proof.Machine.execSts et bytes pg d a b s
  | .pref m => Sys2Proof.Machine.execPref m s
  | .atom op s4 ord scope pg d a b c => Sys2Proof.Machine.execAtom op s4 ord scope pg d a b c s
  | .acq d m => Sys2Proof.Machine.execAcq d m s
  | .rel d m => Sys2Proof.Machine.execRel d m s
  | .bind mod pg d a b c => Sys2Proof.Machine.execBind mod pg d a b c s
  | .fence k scope => Sys2Proof.Machine.execFence k scope s
  | .bar scope idx => Sys2Proof.Machine.execBar scope idx s
  | .fork inh ss pg d a b c imm => Sys2Proof.Machine.execFork inh ss pg d a b c imm s
  | .join d m => Sys2Proof.Machine.execJoin d m s
  | .send queue rel scope target pg a b => Sys2Proof.Machine.execSend queue rel scope target pg a b s
  | .sendImm queue rel scope target pg a imm => Sys2Proof.Machine.execSendImm queue rel scope target pg a imm s
  | .tagctl act d a tag prio => Sys2Proof.Machine.execTagctl act d a tag prio s
  | .cont pg d a b c imm => Sys2Proof.Machine.execCont pg d a b c imm s
  | .sbind k out esz pg d a b => Sys2Proof.Machine.execSbind k out esz pg d a b s
  | .sunb pg d => Sys2Proof.Machine.execSunb pg d s
  | .sstat pg d s1 => Sys2Proof.Machine.execSstat pg d s1 s
  | .crr d reg => Sys2Proof.Machine.execCrr d reg s
  | .crw reg a => Sys2Proof.Machine.execCrw reg a s
  | .vadd et pg d a b => Sys2Proof.Machine.execVadd et pg d a b s
  | .vsub et pg d a b => Sys2Proof.Machine.execVsub et pg d a b s
  | .vmul et pg d a b => Sys2Proof.Machine.execVmul et pg d a b s
  | .vfma et pg d a b c => Sys2Proof.Machine.execVfma et pg d a b c s
  | .vmin et pg d a b => Sys2Proof.Machine.execVmin et pg d a b s
  | .vmax et pg d a b => Sys2Proof.Machine.execVmax et pg d a b s
  | .vand et pg d a b => Sys2Proof.Machine.execVand et pg d a b s
  | .vor et pg d a b => Sys2Proof.Machine.execVor et pg d a b s
  | .vxor et pg d a b => Sys2Proof.Machine.execVxor et pg d a b s
  | .vshl et pg d a b => Sys2Proof.Machine.execVshl et pg d a b s
  | .vshr et pg d a b => Sys2Proof.Machine.execVshr et pg d a b s
  | .vcmp cond et pg d a b => Sys2Proof.Machine.execVcmp cond et pg d a b s
  | .vsel et pg d a b c => Sys2Proof.Machine.execVsel et pg d a b c s
  | .vabs et pg d a => Sys2Proof.Machine.execVabs et pg d a s
  | .vneg et pg d a => Sys2Proof.Machine.execVneg et pg d a s
  | .vsadd et pg d a b => Sys2Proof.Machine.execVsadd et pg d a b s
  | .vrcp et pg d a => Sys2Proof.Machine.execVrcp et pg d a s
  | .vexp2 et pg d a => Sys2Proof.Machine.execVexp2 et pg d a s
  | .vmov et pg d a => Sys2Proof.Machine.execVmov et pg d a s
  | .vbcast et pg d a => Sys2Proof.Machine.execVbcast et pg d a s
  | .vred op et pg d a => Sys2Proof.Machine.execVred op et pg d a s
  | .vscan op et pg d a => Sys2Proof.Machine.execVscan op et pg d a s
  | .vperm et pg d a b c => Sys2Proof.Machine.execVperm et pg d a b c s
  | .vcvt td ts pg d a => Sys2Proof.Machine.execVcvt td ts pg d a s
  | .vlut et part pg d a => Sys2Proof.Machine.execVlut et part pg d a s
  | .vsrp op et pg d a => Sys2Proof.Machine.execVsrp op et pg d a s
  | .mma eta etb pg d a b c sa sb => Sys2Proof.Machine.execMma eta etb pg d a b c sa sb s
  | .mxst d m => Sys2Proof.Machine.execMxst d m s
  | .mxld d m => Sys2Proof.Machine.execMxld d m s
  | .mxz pg d => Sys2Proof.Machine.execMxz pg d s
  | .gred op mod pg d a b c => Sys2Proof.Machine.execGred op mod pg d a b c s
  | .gmap op mod pg d a b c => Sys2Proof.Machine.execGmap op mod pg d a b c s
  | .gpos q mod pg d a b c => Sys2Proof.Machine.execGpos q mod pg d a b c s
  | .gexp scan mod pg d a b c => Sys2Proof.Machine.execGexp scan mod pg d a b c s
  | .post d m => Sys2Proof.Machine.execPost d m s
  | .rgath pg d a b c => Sys2Proof.Machine.execRgath pg d a b c s
  | .jstat d m => Sys2Proof.Machine.execJstat d m s
  | .wdenter abase acntm1 pg d a b c exit aet abw => Sys2Proof.Machine.execWdenter abase acntm1 pg d a b c exit aet abw s
  | .wdexit pg a => Sys2Proof.Machine.execWdexit pg a s
  | .tlbi k part pg a => Sys2Proof.Machine.execTlbi k part pg a s
  | .ctxsv d m => Sys2Proof.Machine.execCtxsv d m s
  | .ctxld d m => Sys2Proof.Machine.execCtxld d m s
  | .taskSelect c => Sys2Proof.Machine.execTaskSelect c s
  | .stealRequest thief victim => Sys2Proof.Machine.execStealRequest thief victim s
  | .tileTaskRecordArrive n => Sys2Proof.Machine.execTileTaskRecordArrive n s
  | .messageArrival n => Sys2Proof.Machine.execMessageArrival n s
  | .pendingSignalRecord c tag => Sys2Proof.Machine.execPendingSignalRecord c tag s
  | .barrierComplete n => Sys2Proof.Machine.execBarrierComplete n s
  | .courseEnd n => Sys2Proof.Machine.execCourseEnd n s
  | .fetchDeliver c => Sys2Proof.Machine.execFetchDeliver c s
  | .farLoadReturn c => Sys2Proof.Machine.execFarLoadReturn c s
  | .farStoreDrain c => Sys2Proof.Machine.execFarStoreDrain c s
  | .remoteNearAccess write addr data => Sys2Proof.Machine.execRemoteNearAccess write addr data s
  | .mmaKblockComplete c => Sys2Proof.Machine.execMmaKblockComplete c s
  | .mxOpComplete c => Sys2Proof.Machine.execMxOpComplete c s
  | .ruleEvaluate c => Sys2Proof.Machine.execRuleEvaluate c s
  | .grammarOpComplete c => Sys2Proof.Machine.execGrammarOpComplete c s
  | .streamTransfer c s1 => Sys2Proof.Machine.execStreamTransfer c s1 s
  | .gatherElementReply c => Sys2Proof.Machine.execGatherElementReply c s
  | .pageWalkComplete c va write => Sys2Proof.Machine.execPageWalkComplete c va write s
  | .asyncFaultTake c => Sys2Proof.Machine.execAsyncFaultTake c s
  | .trapMigrate c => Sys2Proof.Machine.execTrapMigrate c s
  | .serviceTaskCreate t slot => Sys2Proof.Machine.execServiceTaskCreate t slot s
  | .contextReturn n => Sys2Proof.Machine.execContextReturn n s
  | .settleRequest c => Sys2Proof.Machine.execSettleRequest c s
  | .timeSliceSwitch lintel => Sys2Proof.Machine.execTimeSliceSwitch lintel s
  | .jobCopy t seq => Sys2Proof.Machine.execJobCopy t seq s
  | .jobGather t seq => Sys2Proof.Machine.execJobGather t seq s
  | .jobColl t seq => Sys2Proof.Machine.execJobColl t seq s
  | .jobConvert t seq => Sys2Proof.Machine.execJobConvert t seq s
  | .jobTload t seq => Sys2Proof.Machine.execJobTload t seq s
  | .jobGbuild t seq => Sys2Proof.Machine.execJobGbuild t seq s
  | .jobExpand t seq => Sys2Proof.Machine.execJobExpand t seq s
  | .jobComplete t seq => Sys2Proof.Machine.execJobComplete t seq s
  | .collPacket group block => Sys2Proof.Machine.execCollPacket group block s
  | .blockMac h => Sys2Proof.Machine.execBlockMac h s
  | .blockMacz h => Sys2Proof.Machine.execBlockMacz h s
  | .wdKblock h => Sys2Proof.Machine.execWdKblock h s
  | .blockEmit h => Sys2Proof.Machine.execBlockEmit h s
  | .blockLink h => Sys2Proof.Machine.execBlockLink h s
  | .blockCallb h => Sys2Proof.Machine.execBlockCallb h s
  | .blockRetb h => Sys2Proof.Machine.execBlockRetb h s
  | .blockHint h => Sys2Proof.Machine.execBlockHint h s
  | .blockSync h => Sys2Proof.Machine.execBlockSync h s
  | .blockExit h => Sys2Proof.Machine.execBlockExit h s
  | .blockTrapb h => Sys2Proof.Machine.execBlockTrapb h s
  | .loadpipePrefetch c => Sys2Proof.Machine.execLoadpipePrefetch c s
  | .stagingEntryExpire t n => Sys2Proof.Machine.execStagingEntryExpire t n s
  | .plumbPulse t => Sys2Proof.Machine.execPlumbPulse t s
  | .traceRecordWrite c => Sys2Proof.Machine.execTraceRecordWrite c s
  | .powerWindow die hot => Sys2Proof.Machine.execPowerWindow die hot s
  | .scrubStep addr f => Sys2Proof.Machine.execScrubStep addr f s
  | .thermalFault die => Sys2Proof.Machine.execThermalFault die s
  | .ioDieOverheat die => Sys2Proof.Machine.execIoDieOverheat die s
  | .packageReset firmwareOk => Sys2Proof.Machine.execPackageReset firmwareOk s
  | .hleaseWrite port v => Sys2Proof.Machine.execHleaseWrite port v s
  | .lperiodWrite port v => Sys2Proof.Machine.execLperiodWrite port v s
  | .leaseExpire => Sys2Proof.Machine.execLeaseExpire s
  | .notifyWrite port q => Sys2Proof.Machine.execNotifyWrite port q s
  | .registerWrite port off data => Sys2Proof.Machine.execRegisterWrite port off data s
  | .createVd port => Sys2Proof.Machine.execCreateVd port s
  | .destroyVd port => Sys2Proof.Machine.execDestroyVd port s
  | .mapHandle port => Sys2Proof.Machine.execMapHandle port s
  | .schedule port => Sys2Proof.Machine.execSchedule port s
  | .pause port => Sys2Proof.Machine.execPause port s
  | .resume port => Sys2Proof.Machine.execResume port s
  | .evict port => Sys2Proof.Machine.execEvict port s
  | .restore port => Sys2Proof.Machine.execRestore port s
  | .leaseRenew port => Sys2Proof.Machine.execLeaseRenew port s
  | .claim port => Sys2Proof.Machine.execClaim port s
  | .resync port => Sys2Proof.Machine.execResync port s
  | .attest port => Sys2Proof.Machine.execAttest port s
  | .setPolicy port => Sys2Proof.Machine.execSetPolicy port s
  | .health port => Sys2Proof.Machine.execHealth port s
  | .mailboxBadOpcode port => Sys2Proof.Machine.execMailboxBadOpcode port s
  | .launchPacket q => Sys2Proof.Machine.execLaunchPacket q s
  | .copyPacket q => Sys2Proof.Machine.execCopyPacket q s
  | .barrierPacket q => Sys2Proof.Machine.execBarrierPacket q s
  | .barrierPacketComplete q => Sys2Proof.Machine.execBarrierPacketComplete q s
  | .signalPacket q => Sys2Proof.Machine.execSignalPacket q s
  | .nvmeWindowAccess port write off data => Sys2Proof.Machine.execNvmeWindowAccess port write off data s
  | .nvmeInterruptWrite port off data => Sys2Proof.Machine.execNvmeInterruptWrite port off data s
  | .illegalOpc k => Sys2Proof.Machine.execIllegalOpc k s
  | .reservedTypePacket q => Sys2Proof.Machine.execReservedTypePacket q s
  | .blockIllegal h => Sys2Proof.Machine.execBlockIllegal h s

end Sys2Proof.Machine
end

