-- ==== Sys2Proof/Machine/Sched.lean ====
section
/-! DEFINITION. What a step of the package does next (log entry 1): the agenda first; then the core in focus, while it can
issue and its turn lasts; else the steps that are due, in their order, and after the last the next core comes into focus. -/

namespace Sys2Proof.Machine

/-- One clock (R76, log entry 2). -/
def State.tick (s : State) : State := { s with time := s.time + 1 }

/-- What the next step does. -/
inductive Act where
  | run (i : Instr) (s : State)
  | done (s : State)
  deriving DecidableEq, Repr

/-! The core in focus. -/

/-- The step of the block that is current (R189). -/
def blockInstr (h : BlockHdr) (kb : Nat) : Instr :=
  match h.opc.toNat with
  | 0 => if kb = 0 then .blockMac h else .wdKblock h
  | 1 => if kb = 0 then .blockMacz h else .wdKblock h
  | 2 => .blockEmit h
  | 3 => .blockLink h
  | 4 => .blockCallb h
  | 5 => .blockRetb h
  | 6 => .blockHint h
  | 7 => .blockSync h
  | 8 => .blockExit h
  | 9 => .blockTrapb h
  | _ => .blockIllegal h

/-- In weight-driven mode the load pipe fetches the current block's header. -/
def chainAct (s : State) : Act :=
  let a := s.core.ctx.wdblk.toNat
  match blkRead a 0 64 s with
  | .ok (hb, s1) => .run (blockInstr (blockHdr a hb) s.core.ctx.kb) s1
  | .error (.trap t) => .done (takeTrap t s)
  | .error (.trapIn t s1) => .done (takeTrap t s1)
  | .error (.stall r) => .done (s.stalled r)
  | .error (.stallIn r s1) => .done (s1.stalled r)
  | .error (.stallDo r f) => .done ((f s).stalled r)

/-- The core in focus moves. -/
def coreAct (s : State) : Act :=
  if s.core.ctx.wd then chainAct s
  else match fetch s with
    | .run i s' => .run i s'
    | .trap t s' => .done (takeTrap t s')
    | .wait s' => .done (s'.stalled .fetch)

/-- Whether the core in focus tries to issue now: it does not stall, or something has moved since it did. -/
def canIssue (s : State) : Bool :=
  s.core.mode == .running && (s.core.ctx.stall.isNone || s.retry) && s.core.ctx.asyncs.isEmpty && s.liveOn s.core.id
/-- The core in focus tries: one more move of its turn, and no stall. -/
def State.issuing (s : State) : State := { s with turn := s.turn + 1, retry := false }.mapCtx fun c => { c with stall := none }

/-! Steps that are due. -/

def dueIf (c : Bool) (i : Instr) : List Instr := if c then [i] else []

/-- The load pipe can prefetch (R193). -/
def prefetchDue (s : State) (c : CoreId) : Bool :=
  let s := s.focusOn c
  s.core.ctx.wd && match s.prefetchTarget with
    | some a => s.canStage a
    | none => false
/-- Steps of one core's units, while the device resident on it runs (R19, R208, R211). -/
def coreDue (s : State) (co : Core) : List Instr :=
  if !s.liveOn co.id then [] else
  let c := co.id
  let x := co.ctx
  let tags := dueIf (!co.traceBuf.isEmpty) (.traceRecordWrite c) ++ dueIf (co.hasRoom && co.tags.toList.any fun g => g.en && g.signal) (.pendingSignalRecord c
    (Fin.ofNat 64 ((co.tags.toList.findIdx? fun g => g.en && g.signal).getD 0)))
  match co.mode with
  | .idle =>
    tags ++ dueIf ((bestOf (candidates co)).isSome || (coreSlot c < 32 && !co.resting)) (.taskSelect c)
  | .trapped => tags ++ [.trapMigrate c]
  | .running | .held _ =>
    tags ++ dueIf (co.mode == .running && !x.asyncs.isEmpty) (.asyncFaultTake c)
      ++ dueIf (!x.loads.isEmpty) (.farLoadReturn c)
      ++ dueIf (!x.stores.isEmpty) (.farStoreDrain c)
      ++ (match x.mxops with
        | [] => []
        | .done _ :: _ => [.mxOpComplete c]
        | .mma _ _ _ _ _ _ _ _ _ _ _ :: _ => [.mmaKblockComplete c])
      ++ (match x.gops with
        | [] => []
        | g :: _ => if g.result.isSome then [.grammarOpComplete c] else [.ruleEvaluate c])
      ++ dueIf (!x.gathers.isEmpty) (.gatherElementReply c)
      ++ dueIf ((quadTurn s c).any (·.id == c)) (.fetchDeliver c)
      ++ ((List.finRange 8).filter fun n =>
          let t := x.streams[n]
          t.bound && t.kind == .pattern && (if t.out then !t.buf.isEmpty else decide (t.moved < t.total) && t.held.isNone)).map
          (.streamTransfer c)
      ++ dueIf (x.wd && prefetchDue s c) (.loadpipePrefetch c)

/-- The step of a job's engine, or of its completion. -/
def jobInstr (t : TileId) (j : Job) : Instr :=
  match j.type with
  | 1 => .jobCopy t j.seq
  | 2 => .jobGather t j.seq
  | 3 => .jobColl t j.seq
  | 4 => .jobConvert t j.seq
  | 5 => .jobTload t j.seq
  | 6 => .jobGbuild t j.seq
  | _ => .jobExpand t j.seq
def tileDue (s : State) (tl : Tile) : List Instr :=
  (tl.jobs.filter (·.state == .ended)).map (fun j => .jobComplete tl.id j.seq)
    ++ (tl.jobs.filter fun j => mayStart tl j || (j.state == .running && j.type != 3)).map (jobInstr tl.id)
    ++ ((List.range tl.staging.length).zip tl.staging).filterMap fun p =>
        if 65536 ≤ (s.time - p.2.at_).toNat then some (.stagingEntryExpire tl.id p.1) else none
/-- The next step of a queue's lintel. -/
def queueDue (s : State) (k : Queue) : List Instr :=
  match nextPacket s k.num with
  | some (_, _, p) =>
    [match p.typ with
      | 0 => .launchPacket k.num
      | 1 => .copyPacket k.num
      | 2 => .barrierPacket k.num
      | 3 => .signalPacket k.num
      | _ => .reservedTypePacket k.num]
  | none => dueIf (k.barrier.isSome && k.pending.isEmpty) (.barrierPacketComplete k.num)
/-- The command in a port's mailbox. -/
def portDue (s : State) (p : Fin 2) : List Instr :=
  if s.host.ports[p].busy && s.host.booted then
    [match mbNat s p 0 2 with
      | 1 => .createVd p
      | 2 => .destroyVd p
      | 3 => .mapHandle p
      | 4 => .schedule p
      | 5 => .pause p
      | 6 => .resume p
      | 7 => .evict p
      | 8 => .restore p
      | 9 => .leaseRenew p
      | 10 => .claim p
      | 11 => .resync p
      | 12 => .attest p
      | 13 => .setPolicy p
      | 14 => .health p
      | _ => .mailboxBadOpcode p]
  else []

/-- The capstone takes the ports' commands in order of arrival, port 0's first at a tie (R216, R218). -/
def hostDue (s : State) : List Instr :=
  let a := s.host.ports[0]
  let b := s.host.ports[1]
  if a.busy && !(b.busy && b.arrived.ult a.arrived) then portDue s 0 else portDue s 1

/-- Every step that is due. -/
def State.due (s : State) : List Instr :=
  (s.allCores.map (coreDue s)).flatten ++ (s.tiles.map (tileDue s)).flatten
    ++ ((s.colls.filter fun c => !c.mismatch && c.parts.length == c.npart).map fun c => .collPacket c.group c.roots.length)
    ++ ((List.range s.mortar.length).zip s.mortar).filterMap (fun p =>
        if inOrder s.mortar p.1 p.2 then some (if p.2.body.isTask then .tileTaskRecordArrive p.1 else .messageArrival p.1) else none)
    ++ dueIf (!s.returning.isEmpty) (.contextReturn 0)
    ++ ((List.range s.barriers.length).zip s.barriers).filterMap (fun p =>
        if 0 < p.2.expect && p.2.expect ≤ p.2.count then some (.barrierComplete p.1) else none)
    ++ ((List.range s.courses.length).zip s.courses).filterMap (fun p => if p.2.undone = 0 then some (.courseEnd p.1) else none)
    ++ (s.devs.map fun d => (d.queues.map (queueDue s)).flatten).flatten
    ++ hostDue s
    ++ dueIf (s.host.lease == .held && decide (s.host.deadline.toNat ≤ s.micros)) .leaseExpire
    ++ (s.devs.filter fun d => d.state == .running && decide (d.slice.toNat ≤ (s.time - d.sliceAt).toNat) && !heldBusy s d).map fun d =>
        .timeSliceSwitch (Fin.ofNat 4 ((nth d.tiles 0 0).toNat / 128))

/-- Queues read to their first slot that is not VALID are left (R229). -/
def restQueues (s : State) : State :=
  { s with devs := s.devs.map fun d =>
      { d with queues := d.queues.map fun k =>
          if k.notified && d.state == .running && k.barrier.isNone && (nextPacket s k.num).isNone then { k with notified := false } else k } }

/-- An idle cycle, charged to the course whose task ran last on the core (R55). -/
def Core.idleCycle (co : Core) : Core :=
  match co.mode, co.lastCourse with
  | .idle, some c => { co with phases := bumpPhase c (co.phaseOf c) (fun p => { p with idle := p.idle + 1 }) co.phases }
  | _, _ => co
/-- The next core that a task occupies comes into focus and tries; every idle core counts a cycle (R55). -/
def nextCore (s : State) : State :=
  let s := restQueues { s with core := s.core.idleCycle, others := s.others.map Core.idleCycle }
  match s.others.find? fun co => co.mode == .running with
  | some co => { s.focusOn co.id with turn := 0, rotor := 0, retry := true }
  | none => { s with turn := 0, rotor := 0, retry := true }

/-- Something other than the core in focus moves: the steps due, one after another, and past the last of them the focus. -/
def otherAct (s : State) : Act :=
  match s.due[s.rotor]? with
  | some i => .run i { s with rotor := s.rotor + 1, retry := true }
  | none => .done (nextCore s)

/-- Moves of one core in focus before something else moves. -/
def turnLen : Nat := 64

def nextAct (s : State) : Act :=
  match s.agenda with
  | .event i :: rest => .run i { s with agenda := rest }
  | .turn c :: rest => .done ({ s with agenda := rest, turn := 0, rotor := 0, retry := true }.focusOn c)
  | [] => if canIssue s && s.turn < turnLen then coreAct s.issuing else otherAct s

/-! Placing one instruction (log entry 3). -/

/-- A device of one tile made resident on the tile of the core in focus. -/
def hostProgram (s : State) : State :=
  let t := coreTile s.core.id
  let n := s.devCount
  { s.updTile t fun tl => { tl with vd := some n } with
    devs := { num := n, tiles := [t], sliceAt := s.time } :: s.devs, devCount := n + 1 }

/-- The core in focus, or core 0 where its number names none, belongs to a running device. -/
def hostedCore (s : State) : State :=
  let s := if (coreTile s.core.id).toNat % 64 < 48 && coreSlot s.core.id ≤ 32 then s else s.focusOn 0
  match s.dev with
  | some d => if d.tiles.contains (coreTile s.core.id) && d.state == .running then s else hostProgram s
  | none => hostProgram s

/-- The core in focus runs the bytes given, placed in near memory of its tile and delivered as its fetch block; no stall,
repetition, breakpoint, held fault, pulse or due step is left before them. -/
def placeProgram (s : State) (bs : List Byte) : State :=
  let s := hostedCore s
  let a := nearAddr (coreTile s.core.id) (coreSlot s.core.id % 32) 0
  let near := memWrite s.near a bs
  { s with powered := true, agenda := [], turn := 0, rotor := 0, retry := false, near := near
           poison := s.poison.filter fun p => !rangesMeet p 8 a bs.length
           tiles := s.tiles.map fun tl => { tl with plast := some s.time }
           core := { s.core with mode := .running, bkpt := Vector.replicate 4 0, fblock := some (a / 32, memRead near a 32), asked := none
                                 ctx := { s.core.ctx with pc := BitVec.ofNat 64 a, rep := none, wd := false, stall := none, asyncs := [] } } }

end Sys2Proof.Machine
end

