-- ==== Sys2Proof/Machine/Step.lean ====
section
/-! DEFINITION. One step of the package, and the placing of one instruction where the next step fetches it. -/

namespace Sys2Proof.Machine

/-- One step: a package without power does nothing (R19, R20); a pulse that fires in this cycle comes first (R241); otherwise a
clock passes and the next act happens. -/
def step (s : State) : Host.Outcome State Fault Refusal :=
  if s.powered then
    match s.pulseWaits with
    | some t => exec (.plumbPulse t) s
    | none => match nextAct s.tick with
      | .run i s' => exec i s'
      | .done s' => .next s'
  else .fault .unpowered

/-- The state with one instruction placed where the next step fetches it (log entry 3). -/
def State.withFetchWord (s : State) (nbits w : Nat) : State := placeProgram s (tableBytes nbits w)

end Sys2Proof.Machine
end

