-- ==== Sys2Proof/Laws/State.lean ====
section
/-! SUPPORT. What the updates of a context, a core and the package leave alone: one lemma per field and update, and what a
register reads after a write. -/

namespace Sys2Proof.Machine

/-! A context. -/

@[simp] theorem Ctx.setX_urs (c : Ctx) (n : Fin 32) (v : Word) : (c.setX n v).urs = c.urs := by unfold Ctx.setX; split <;> rfl
@[simp] theorem Ctx.setX_pc (c : Ctx) (n : Fin 32) (v : Word) : (c.setX n v).pc = c.pc := by unfold Ctx.setX; split <;> rfl
@[simp] theorem Ctx.setX_b (c : Ctx) (n : Fin 32) (v : Word) : (c.setX n v).b = c.b := by unfold Ctx.setX; split <;> rfl
@[simp] theorem Ctx.setX_pfx (c : Ctx) (n : Fin 32) (v : Word) : (c.setX n v).pfx = c.pfx := by unfold Ctx.setX; split <;> rfl
@[simp] theorem Ctx.setX_pfxv (c : Ctx) (n : Fin 32) (v : Word) : (c.setX n v).pfxv = c.pfxv := by unfold Ctx.setX; split <;> rfl
@[simp] theorem Ctx.setX_svc (c : Ctx) (n : Fin 32) (v : Word) : (c.setX n v).svc = c.svc := by unfold Ctx.setX; split <;> rfl
@[simp] theorem Ctx.setX_wd (c : Ctx) (n : Fin 32) (v : Word) : (c.setX n v).wd = c.wd := by unfold Ctx.setX; split <;> rfl
@[simp] theorem Ctx.setX_warn (c : Ctx) (n : Fin 32) (v : Word) : (c.setX n v).warn = c.warn := by unfold Ctx.setX; split <;> rfl
@[simp] theorem Ctx.setX_fpf (c : Ctx) (n : Fin 32) (v : Word) : (c.setX n v).fpf = c.fpf := by unfold Ctx.setX; split <;> rfl
@[simp] theorem Ctx.setX_xid (c : Ctx) (n : Fin 32) (v : Word) : (c.setX n v).xid = c.xid := by unfold Ctx.setX; split <;> rfl
@[simp] theorem Ctx.setX_mark (c : Ctx) (n : Fin 32) (v : Word) : (c.setX n v).mark = c.mark := by unfold Ctx.setX; split <;> rfl
@[simp] theorem Ctx.setX_coord (c : Ctx) (n : Fin 32) (v : Word) : (c.setX n v).coord = c.coord := by unfold Ctx.setX; split <;> rfl
@[simp] theorem Ctx.setX_vwV (c : Ctx) (n : Fin 32) (v : Word) : (c.setX n v).vwV = c.vwV := by unfold Ctx.setX; split <;> rfl
@[simp] theorem Ctx.setX_vwM (c : Ctx) (n : Fin 32) (v : Word) : (c.setX n v).vwM = c.vwM := by unfold Ctx.setX; split <;> rfl
@[simp] theorem Ctx.setX_vwA (c : Ctx) (n : Fin 32) (v : Word) : (c.setX n v).vwA = c.vwA := by unfold Ctx.setX; split <;> rfl
@[simp] theorem Ctx.setX_vwP (c : Ctx) (n : Fin 32) (v : Word) : (c.setX n v).vwP = c.vwP := by unfold Ctx.setX; split <;> rfl
@[simp] theorem Ctx.setX_mxprog (c : Ctx) (n : Fin 32) (v : Word) : (c.setX n v).mxprog = c.mxprog := by unfold Ctx.setX; split <;> rfl
@[simp] theorem Ctx.setX_mxfaddr (c : Ctx) (n : Fin 32) (v : Word) : (c.setX n v).mxfaddr = c.mxfaddr := by unfold Ctx.setX; split <;> rfl
@[simp] theorem Ctx.setX_wdblk (c : Ctx) (n : Fin 32) (v : Word) : (c.setX n v).wdblk = c.wdblk := by unfold Ctx.setX; split <;> rfl
@[simp] theorem Ctx.setX_fault (c : Ctx) (n : Fin 32) (v : Word) : (c.setX n v).fault = c.fault := by unfold Ctx.setX; split <;> rfl
@[simp] theorem Ctx.setX_faddr (c : Ctx) (n : Fin 32) (v : Word) : (c.setX n v).faddr = c.faddr := by unfold Ctx.setX; split <;> rfl
@[simp] theorem Ctx.setX_prio (c : Ctx) (n : Fin 32) (v : Word) : (c.setX n v).prio = c.prio := by unfold Ctx.setX; split <;> rfl
@[simp] theorem Ctx.setX_phaseid (c : Ctx) (n : Fin 32) (v : Word) : (c.setX n v).phaseid = c.phaseid := by unfold Ctx.setX; split <;> rfl
@[simp] theorem Ctx.setX_lutsel (c : Ctx) (n : Fin 32) (v : Word) : (c.setX n v).lutsel = c.lutsel := by unfold Ctx.setX; split <;> rfl
@[simp] theorem Ctx.setX_ld (c : Ctx) (n : Fin 32) (v : Word) : (c.setX n v).ld = c.ld := by unfold Ctx.setX; split <;> rfl
@[simp] theorem Ctx.setX_st (c : Ctx) (n : Fin 32) (v : Word) : (c.setX n v).st = c.st := by unfold Ctx.setX; split <;> rfl
@[simp] theorem Ctx.setX_job (c : Ctx) (n : Fin 32) (v : Word) : (c.setX n v).job = c.job := by unfold Ctx.setX; split <;> rfl
@[simp] theorem Ctx.setX_mx (c : Ctx) (n : Fin 32) (v : Word) : (c.setX n v).mx = c.mx := by unfold Ctx.setX; split <;> rfl
@[simp] theorem Ctx.setX_gr (c : Ctx) (n : Fin 32) (v : Word) : (c.setX n v).gr = c.gr := by unfold Ctx.setX; split <;> rfl
@[simp] theorem Ctx.setX_rep (c : Ctx) (n : Fin 32) (v : Word) : (c.setX n v).rep = c.rep := by unfold Ctx.setX; split <;> rfl
@[simp] theorem Ctx.setX_arrived (c : Ctx) (n : Fin 32) (v : Word) : (c.setX n v).arrived = c.arrived := by unfold Ctx.setX; split <;> rfl
@[simp] theorem Ctx.setX_wdst (c : Ctx) (n : Fin 32) (v : Word) : (c.setX n v).wdst = c.wdst := by unfold Ctx.setX; split <;> rfl
@[simp] theorem Ctx.setX_binds (c : Ctx) (n : Fin 32) (v : Word) : (c.setX n v).binds = c.binds := by unfold Ctx.setX; split <;> rfl
@[simp] theorem Ctx.setX_streams (c : Ctx) (n : Fin 32) (v : Word) : (c.setX n v).streams = c.streams := by unfold Ctx.setX; split <;> rfl
@[simp] theorem Ctx.setX_loads (c : Ctx) (n : Fin 32) (v : Word) : (c.setX n v).loads = c.loads := by unfold Ctx.setX; split <;> rfl
@[simp] theorem Ctx.setX_stores (c : Ctx) (n : Fin 32) (v : Word) : (c.setX n v).stores = c.stores := by unfold Ctx.setX; split <;> rfl
@[simp] theorem Ctx.setX_mxops (c : Ctx) (n : Fin 32) (v : Word) : (c.setX n v).mxops = c.mxops := by unfold Ctx.setX; split <;> rfl
@[simp] theorem Ctx.setX_gops (c : Ctx) (n : Fin 32) (v : Word) : (c.setX n v).gops = c.gops := by unfold Ctx.setX; split <;> rfl
@[simp] theorem Ctx.setX_gathers (c : Ctx) (n : Fin 32) (v : Word) : (c.setX n v).gathers = c.gathers := by unfold Ctx.setX; split <;> rfl
@[simp] theorem Ctx.setX_asyncs (c : Ctx) (n : Fin 32) (v : Word) : (c.setX n v).asyncs = c.asyncs := by unfold Ctx.setX; split <;> rfl
@[simp] theorem Ctx.setX_resumed (c : Ctx) (n : Fin 32) (v : Word) : (c.setX n v).resumed = c.resumed := by unfold Ctx.setX; split <;> rfl
@[simp] theorem Ctx.setX_stall (c : Ctx) (n : Fin 32) (v : Word) : (c.setX n v).stall = c.stall := by unfold Ctx.setX; split <;> rfl
@[simp] theorem Ctx.setX_ticket (c : Ctx) (n : Fin 32) (v : Word) : (c.setX n v).ticket = c.ticket := by unfold Ctx.setX; split <;> rfl
@[simp] theorem Ctx.setX_under (c : Ctx) (n : Fin 32) (v : Word) : (c.setX n v).under = c.under := by unfold Ctx.setX; split <;> rfl
@[simp] theorem Ctx.ursWrite_x (c : Ctx) (o : Nat) (bs : List Byte) : (c.ursWrite o bs).x = c.x := rfl
@[simp] theorem Ctx.ursWrite_pc (c : Ctx) (o : Nat) (bs : List Byte) : (c.ursWrite o bs).pc = c.pc := rfl
@[simp] theorem Ctx.ursWrite_b (c : Ctx) (o : Nat) (bs : List Byte) : (c.ursWrite o bs).b = c.b := rfl
@[simp] theorem Ctx.ursWrite_pfx (c : Ctx) (o : Nat) (bs : List Byte) : (c.ursWrite o bs).pfx = c.pfx := rfl
@[simp] theorem Ctx.ursWrite_pfxv (c : Ctx) (o : Nat) (bs : List Byte) : (c.ursWrite o bs).pfxv = c.pfxv := rfl
@[simp] theorem Ctx.ursWrite_svc (c : Ctx) (o : Nat) (bs : List Byte) : (c.ursWrite o bs).svc = c.svc := rfl
@[simp] theorem Ctx.ursWrite_wd (c : Ctx) (o : Nat) (bs : List Byte) : (c.ursWrite o bs).wd = c.wd := rfl
@[simp] theorem Ctx.ursWrite_warn (c : Ctx) (o : Nat) (bs : List Byte) : (c.ursWrite o bs).warn = c.warn := rfl
@[simp] theorem Ctx.ursWrite_fpf (c : Ctx) (o : Nat) (bs : List Byte) : (c.ursWrite o bs).fpf = c.fpf := rfl
@[simp] theorem Ctx.ursWrite_xid (c : Ctx) (o : Nat) (bs : List Byte) : (c.ursWrite o bs).xid = c.xid := rfl
@[simp] theorem Ctx.ursWrite_mark (c : Ctx) (o : Nat) (bs : List Byte) : (c.ursWrite o bs).mark = c.mark := rfl
@[simp] theorem Ctx.ursWrite_coord (c : Ctx) (o : Nat) (bs : List Byte) : (c.ursWrite o bs).coord = c.coord := rfl
@[simp] theorem Ctx.ursWrite_vwV (c : Ctx) (o : Nat) (bs : List Byte) : (c.ursWrite o bs).vwV = c.vwV := rfl
@[simp] theorem Ctx.ursWrite_vwM (c : Ctx) (o : Nat) (bs : List Byte) : (c.ursWrite o bs).vwM = c.vwM := rfl
@[simp] theorem Ctx.ursWrite_vwA (c : Ctx) (o : Nat) (bs : List Byte) : (c.ursWrite o bs).vwA = c.vwA := rfl
@[simp] theorem Ctx.ursWrite_vwP (c : Ctx) (o : Nat) (bs : List Byte) : (c.ursWrite o bs).vwP = c.vwP := rfl
@[simp] theorem Ctx.ursWrite_mxprog (c : Ctx) (o : Nat) (bs : List Byte) : (c.ursWrite o bs).mxprog = c.mxprog := rfl
@[simp] theorem Ctx.ursWrite_mxfaddr (c : Ctx) (o : Nat) (bs : List Byte) : (c.ursWrite o bs).mxfaddr = c.mxfaddr := rfl
@[simp] theorem Ctx.ursWrite_wdblk (c : Ctx) (o : Nat) (bs : List Byte) : (c.ursWrite o bs).wdblk = c.wdblk := rfl
@[simp] theorem Ctx.ursWrite_fault (c : Ctx) (o : Nat) (bs : List Byte) : (c.ursWrite o bs).fault = c.fault := rfl
@[simp] theorem Ctx.ursWrite_faddr (c : Ctx) (o : Nat) (bs : List Byte) : (c.ursWrite o bs).faddr = c.faddr := rfl
@[simp] theorem Ctx.ursWrite_prio (c : Ctx) (o : Nat) (bs : List Byte) : (c.ursWrite o bs).prio = c.prio := rfl
@[simp] theorem Ctx.ursWrite_phaseid (c : Ctx) (o : Nat) (bs : List Byte) : (c.ursWrite o bs).phaseid = c.phaseid := rfl
@[simp] theorem Ctx.ursWrite_lutsel (c : Ctx) (o : Nat) (bs : List Byte) : (c.ursWrite o bs).lutsel = c.lutsel := rfl
@[simp] theorem Ctx.ursWrite_ld (c : Ctx) (o : Nat) (bs : List Byte) : (c.ursWrite o bs).ld = c.ld := rfl
@[simp] theorem Ctx.ursWrite_st (c : Ctx) (o : Nat) (bs : List Byte) : (c.ursWrite o bs).st = c.st := rfl
@[simp] theorem Ctx.ursWrite_job (c : Ctx) (o : Nat) (bs : List Byte) : (c.ursWrite o bs).job = c.job := rfl
@[simp] theorem Ctx.ursWrite_mx (c : Ctx) (o : Nat) (bs : List Byte) : (c.ursWrite o bs).mx = c.mx := rfl
@[simp] theorem Ctx.ursWrite_gr (c : Ctx) (o : Nat) (bs : List Byte) : (c.ursWrite o bs).gr = c.gr := rfl
@[simp] theorem Ctx.ursWrite_rep (c : Ctx) (o : Nat) (bs : List Byte) : (c.ursWrite o bs).rep = c.rep := rfl
@[simp] theorem Ctx.ursWrite_arrived (c : Ctx) (o : Nat) (bs : List Byte) : (c.ursWrite o bs).arrived = c.arrived := rfl
@[simp] theorem Ctx.ursWrite_wdst (c : Ctx) (o : Nat) (bs : List Byte) : (c.ursWrite o bs).wdst = c.wdst := rfl
@[simp] theorem Ctx.ursWrite_binds (c : Ctx) (o : Nat) (bs : List Byte) : (c.ursWrite o bs).binds = c.binds := rfl
@[simp] theorem Ctx.ursWrite_streams (c : Ctx) (o : Nat) (bs : List Byte) : (c.ursWrite o bs).streams = c.streams := rfl
@[simp] theorem Ctx.ursWrite_loads (c : Ctx) (o : Nat) (bs : List Byte) : (c.ursWrite o bs).loads = c.loads := rfl
@[simp] theorem Ctx.ursWrite_stores (c : Ctx) (o : Nat) (bs : List Byte) : (c.ursWrite o bs).stores = c.stores := rfl
@[simp] theorem Ctx.ursWrite_mxops (c : Ctx) (o : Nat) (bs : List Byte) : (c.ursWrite o bs).mxops = c.mxops := rfl
@[simp] theorem Ctx.ursWrite_gops (c : Ctx) (o : Nat) (bs : List Byte) : (c.ursWrite o bs).gops = c.gops := rfl
@[simp] theorem Ctx.ursWrite_gathers (c : Ctx) (o : Nat) (bs : List Byte) : (c.ursWrite o bs).gathers = c.gathers := rfl
@[simp] theorem Ctx.ursWrite_asyncs (c : Ctx) (o : Nat) (bs : List Byte) : (c.ursWrite o bs).asyncs = c.asyncs := rfl
@[simp] theorem Ctx.ursWrite_resumed (c : Ctx) (o : Nat) (bs : List Byte) : (c.ursWrite o bs).resumed = c.resumed := rfl
@[simp] theorem Ctx.ursWrite_stall (c : Ctx) (o : Nat) (bs : List Byte) : (c.ursWrite o bs).stall = c.stall := rfl
@[simp] theorem Ctx.ursWrite_ticket (c : Ctx) (o : Nat) (bs : List Byte) : (c.ursWrite o bs).ticket = c.ticket := rfl
@[simp] theorem Ctx.ursWrite_under (c : Ctx) (o : Nat) (bs : List Byte) : (c.ursWrite o bs).under = c.under := rfl
@[simp] theorem Ctx.warnOr_x (c : Ctx) (w : Warn) : (c.warnOr w).x = c.x := rfl
@[simp] theorem Ctx.warnOr_urs (c : Ctx) (w : Warn) : (c.warnOr w).urs = c.urs := rfl
@[simp] theorem Ctx.warnOr_pc (c : Ctx) (w : Warn) : (c.warnOr w).pc = c.pc := rfl
@[simp] theorem Ctx.warnOr_b (c : Ctx) (w : Warn) : (c.warnOr w).b = c.b := rfl
@[simp] theorem Ctx.warnOr_pfx (c : Ctx) (w : Warn) : (c.warnOr w).pfx = c.pfx := rfl
@[simp] theorem Ctx.warnOr_pfxv (c : Ctx) (w : Warn) : (c.warnOr w).pfxv = c.pfxv := rfl
@[simp] theorem Ctx.warnOr_svc (c : Ctx) (w : Warn) : (c.warnOr w).svc = c.svc := rfl
@[simp] theorem Ctx.warnOr_wd (c : Ctx) (w : Warn) : (c.warnOr w).wd = c.wd := rfl
@[simp] theorem Ctx.warnOr_fpf (c : Ctx) (w : Warn) : (c.warnOr w).fpf = c.fpf := rfl
@[simp] theorem Ctx.warnOr_xid (c : Ctx) (w : Warn) : (c.warnOr w).xid = c.xid := rfl
@[simp] theorem Ctx.warnOr_mark (c : Ctx) (w : Warn) : (c.warnOr w).mark = c.mark := rfl
@[simp] theorem Ctx.warnOr_coord (c : Ctx) (w : Warn) : (c.warnOr w).coord = c.coord := rfl
@[simp] theorem Ctx.warnOr_vwV (c : Ctx) (w : Warn) : (c.warnOr w).vwV = c.vwV := rfl
@[simp] theorem Ctx.warnOr_vwM (c : Ctx) (w : Warn) : (c.warnOr w).vwM = c.vwM := rfl
@[simp] theorem Ctx.warnOr_vwA (c : Ctx) (w : Warn) : (c.warnOr w).vwA = c.vwA := rfl
@[simp] theorem Ctx.warnOr_vwP (c : Ctx) (w : Warn) : (c.warnOr w).vwP = c.vwP := rfl
@[simp] theorem Ctx.warnOr_mxprog (c : Ctx) (w : Warn) : (c.warnOr w).mxprog = c.mxprog := rfl
@[simp] theorem Ctx.warnOr_mxfaddr (c : Ctx) (w : Warn) : (c.warnOr w).mxfaddr = c.mxfaddr := rfl
@[simp] theorem Ctx.warnOr_wdblk (c : Ctx) (w : Warn) : (c.warnOr w).wdblk = c.wdblk := rfl
@[simp] theorem Ctx.warnOr_fault (c : Ctx) (w : Warn) : (c.warnOr w).fault = c.fault := rfl
@[simp] theorem Ctx.warnOr_faddr (c : Ctx) (w : Warn) : (c.warnOr w).faddr = c.faddr := rfl
@[simp] theorem Ctx.warnOr_prio (c : Ctx) (w : Warn) : (c.warnOr w).prio = c.prio := rfl
@[simp] theorem Ctx.warnOr_phaseid (c : Ctx) (w : Warn) : (c.warnOr w).phaseid = c.phaseid := rfl
@[simp] theorem Ctx.warnOr_lutsel (c : Ctx) (w : Warn) : (c.warnOr w).lutsel = c.lutsel := rfl
@[simp] theorem Ctx.warnOr_ld (c : Ctx) (w : Warn) : (c.warnOr w).ld = c.ld := rfl
@[simp] theorem Ctx.warnOr_st (c : Ctx) (w : Warn) : (c.warnOr w).st = c.st := rfl
@[simp] theorem Ctx.warnOr_job (c : Ctx) (w : Warn) : (c.warnOr w).job = c.job := rfl
@[simp] theorem Ctx.warnOr_mx (c : Ctx) (w : Warn) : (c.warnOr w).mx = c.mx := rfl
@[simp] theorem Ctx.warnOr_gr (c : Ctx) (w : Warn) : (c.warnOr w).gr = c.gr := rfl
@[simp] theorem Ctx.warnOr_rep (c : Ctx) (w : Warn) : (c.warnOr w).rep = c.rep := rfl
@[simp] theorem Ctx.warnOr_arrived (c : Ctx) (w : Warn) : (c.warnOr w).arrived = c.arrived := rfl
@[simp] theorem Ctx.warnOr_wdst (c : Ctx) (w : Warn) : (c.warnOr w).wdst = c.wdst := rfl
@[simp] theorem Ctx.warnOr_binds (c : Ctx) (w : Warn) : (c.warnOr w).binds = c.binds := rfl
@[simp] theorem Ctx.warnOr_streams (c : Ctx) (w : Warn) : (c.warnOr w).streams = c.streams := rfl
@[simp] theorem Ctx.warnOr_loads (c : Ctx) (w : Warn) : (c.warnOr w).loads = c.loads := rfl
@[simp] theorem Ctx.warnOr_stores (c : Ctx) (w : Warn) : (c.warnOr w).stores = c.stores := rfl
@[simp] theorem Ctx.warnOr_mxops (c : Ctx) (w : Warn) : (c.warnOr w).mxops = c.mxops := rfl
@[simp] theorem Ctx.warnOr_gops (c : Ctx) (w : Warn) : (c.warnOr w).gops = c.gops := rfl
@[simp] theorem Ctx.warnOr_gathers (c : Ctx) (w : Warn) : (c.warnOr w).gathers = c.gathers := rfl
@[simp] theorem Ctx.warnOr_asyncs (c : Ctx) (w : Warn) : (c.warnOr w).asyncs = c.asyncs := rfl
@[simp] theorem Ctx.warnOr_resumed (c : Ctx) (w : Warn) : (c.warnOr w).resumed = c.resumed := rfl
@[simp] theorem Ctx.warnOr_stall (c : Ctx) (w : Warn) : (c.warnOr w).stall = c.stall := rfl
@[simp] theorem Ctx.warnOr_ticket (c : Ctx) (w : Warn) : (c.warnOr w).ticket = c.ticket := rfl
@[simp] theorem Ctx.warnOr_under (c : Ctx) (w : Warn) : (c.warnOr w).under = c.under := rfl
@[simp] theorem Ctx.fpfOr_x (c : Ctx) (f : Flags) : (c.fpfOr f).x = c.x := rfl
@[simp] theorem Ctx.fpfOr_urs (c : Ctx) (f : Flags) : (c.fpfOr f).urs = c.urs := rfl
@[simp] theorem Ctx.fpfOr_pc (c : Ctx) (f : Flags) : (c.fpfOr f).pc = c.pc := rfl
@[simp] theorem Ctx.fpfOr_b (c : Ctx) (f : Flags) : (c.fpfOr f).b = c.b := rfl
@[simp] theorem Ctx.fpfOr_pfx (c : Ctx) (f : Flags) : (c.fpfOr f).pfx = c.pfx := rfl
@[simp] theorem Ctx.fpfOr_pfxv (c : Ctx) (f : Flags) : (c.fpfOr f).pfxv = c.pfxv := rfl
@[simp] theorem Ctx.fpfOr_svc (c : Ctx) (f : Flags) : (c.fpfOr f).svc = c.svc := rfl
@[simp] theorem Ctx.fpfOr_wd (c : Ctx) (f : Flags) : (c.fpfOr f).wd = c.wd := rfl
@[simp] theorem Ctx.fpfOr_warn (c : Ctx) (f : Flags) : (c.fpfOr f).warn = c.warn := rfl
@[simp] theorem Ctx.fpfOr_xid (c : Ctx) (f : Flags) : (c.fpfOr f).xid = c.xid := rfl
@[simp] theorem Ctx.fpfOr_mark (c : Ctx) (f : Flags) : (c.fpfOr f).mark = c.mark := rfl
@[simp] theorem Ctx.fpfOr_coord (c : Ctx) (f : Flags) : (c.fpfOr f).coord = c.coord := rfl
@[simp] theorem Ctx.fpfOr_vwV (c : Ctx) (f : Flags) : (c.fpfOr f).vwV = c.vwV := rfl
@[simp] theorem Ctx.fpfOr_vwM (c : Ctx) (f : Flags) : (c.fpfOr f).vwM = c.vwM := rfl
@[simp] theorem Ctx.fpfOr_vwA (c : Ctx) (f : Flags) : (c.fpfOr f).vwA = c.vwA := rfl
@[simp] theorem Ctx.fpfOr_vwP (c : Ctx) (f : Flags) : (c.fpfOr f).vwP = c.vwP := rfl
@[simp] theorem Ctx.fpfOr_mxprog (c : Ctx) (f : Flags) : (c.fpfOr f).mxprog = c.mxprog := rfl
@[simp] theorem Ctx.fpfOr_mxfaddr (c : Ctx) (f : Flags) : (c.fpfOr f).mxfaddr = c.mxfaddr := rfl
@[simp] theorem Ctx.fpfOr_wdblk (c : Ctx) (f : Flags) : (c.fpfOr f).wdblk = c.wdblk := rfl
@[simp] theorem Ctx.fpfOr_fault (c : Ctx) (f : Flags) : (c.fpfOr f).fault = c.fault := rfl
@[simp] theorem Ctx.fpfOr_faddr (c : Ctx) (f : Flags) : (c.fpfOr f).faddr = c.faddr := rfl
@[simp] theorem Ctx.fpfOr_prio (c : Ctx) (f : Flags) : (c.fpfOr f).prio = c.prio := rfl
@[simp] theorem Ctx.fpfOr_phaseid (c : Ctx) (f : Flags) : (c.fpfOr f).phaseid = c.phaseid := rfl
@[simp] theorem Ctx.fpfOr_lutsel (c : Ctx) (f : Flags) : (c.fpfOr f).lutsel = c.lutsel := rfl
@[simp] theorem Ctx.fpfOr_ld (c : Ctx) (f : Flags) : (c.fpfOr f).ld = c.ld := rfl
@[simp] theorem Ctx.fpfOr_st (c : Ctx) (f : Flags) : (c.fpfOr f).st = c.st := rfl
@[simp] theorem Ctx.fpfOr_job (c : Ctx) (f : Flags) : (c.fpfOr f).job = c.job := rfl
@[simp] theorem Ctx.fpfOr_mx (c : Ctx) (f : Flags) : (c.fpfOr f).mx = c.mx := rfl
@[simp] theorem Ctx.fpfOr_gr (c : Ctx) (f : Flags) : (c.fpfOr f).gr = c.gr := rfl
@[simp] theorem Ctx.fpfOr_rep (c : Ctx) (f : Flags) : (c.fpfOr f).rep = c.rep := rfl
@[simp] theorem Ctx.fpfOr_arrived (c : Ctx) (f : Flags) : (c.fpfOr f).arrived = c.arrived := rfl
@[simp] theorem Ctx.fpfOr_wdst (c : Ctx) (f : Flags) : (c.fpfOr f).wdst = c.wdst := rfl
@[simp] theorem Ctx.fpfOr_binds (c : Ctx) (f : Flags) : (c.fpfOr f).binds = c.binds := rfl
@[simp] theorem Ctx.fpfOr_streams (c : Ctx) (f : Flags) : (c.fpfOr f).streams = c.streams := rfl
@[simp] theorem Ctx.fpfOr_loads (c : Ctx) (f : Flags) : (c.fpfOr f).loads = c.loads := rfl
@[simp] theorem Ctx.fpfOr_stores (c : Ctx) (f : Flags) : (c.fpfOr f).stores = c.stores := rfl
@[simp] theorem Ctx.fpfOr_mxops (c : Ctx) (f : Flags) : (c.fpfOr f).mxops = c.mxops := rfl
@[simp] theorem Ctx.fpfOr_gops (c : Ctx) (f : Flags) : (c.fpfOr f).gops = c.gops := rfl
@[simp] theorem Ctx.fpfOr_gathers (c : Ctx) (f : Flags) : (c.fpfOr f).gathers = c.gathers := rfl
@[simp] theorem Ctx.fpfOr_asyncs (c : Ctx) (f : Flags) : (c.fpfOr f).asyncs = c.asyncs := rfl
@[simp] theorem Ctx.fpfOr_resumed (c : Ctx) (f : Flags) : (c.fpfOr f).resumed = c.resumed := rfl
@[simp] theorem Ctx.fpfOr_stall (c : Ctx) (f : Flags) : (c.fpfOr f).stall = c.stall := rfl
@[simp] theorem Ctx.fpfOr_ticket (c : Ctx) (f : Flags) : (c.fpfOr f).ticket = c.ticket := rfl
@[simp] theorem Ctx.fpfOr_under (c : Ctx) (f : Flags) : (c.fpfOr f).under = c.under := rfl
@[simp] theorem Ctx.usePrefix_x (c : Ctx) : (c.usePrefix).x = c.x := rfl
@[simp] theorem Ctx.usePrefix_urs (c : Ctx) : (c.usePrefix).urs = c.urs := rfl
@[simp] theorem Ctx.usePrefix_pc (c : Ctx) : (c.usePrefix).pc = c.pc := rfl
@[simp] theorem Ctx.usePrefix_b (c : Ctx) : (c.usePrefix).b = c.b := rfl
@[simp] theorem Ctx.usePrefix_pfxv (c : Ctx) : (c.usePrefix).pfxv = c.pfxv := rfl
@[simp] theorem Ctx.usePrefix_svc (c : Ctx) : (c.usePrefix).svc = c.svc := rfl
@[simp] theorem Ctx.usePrefix_wd (c : Ctx) : (c.usePrefix).wd = c.wd := rfl
@[simp] theorem Ctx.usePrefix_warn (c : Ctx) : (c.usePrefix).warn = c.warn := rfl
@[simp] theorem Ctx.usePrefix_fpf (c : Ctx) : (c.usePrefix).fpf = c.fpf := rfl
@[simp] theorem Ctx.usePrefix_xid (c : Ctx) : (c.usePrefix).xid = c.xid := rfl
@[simp] theorem Ctx.usePrefix_mark (c : Ctx) : (c.usePrefix).mark = c.mark := rfl
@[simp] theorem Ctx.usePrefix_coord (c : Ctx) : (c.usePrefix).coord = c.coord := rfl
@[simp] theorem Ctx.usePrefix_vwV (c : Ctx) : (c.usePrefix).vwV = c.vwV := rfl
@[simp] theorem Ctx.usePrefix_vwM (c : Ctx) : (c.usePrefix).vwM = c.vwM := rfl
@[simp] theorem Ctx.usePrefix_vwA (c : Ctx) : (c.usePrefix).vwA = c.vwA := rfl
@[simp] theorem Ctx.usePrefix_vwP (c : Ctx) : (c.usePrefix).vwP = c.vwP := rfl
@[simp] theorem Ctx.usePrefix_mxprog (c : Ctx) : (c.usePrefix).mxprog = c.mxprog := rfl
@[simp] theorem Ctx.usePrefix_mxfaddr (c : Ctx) : (c.usePrefix).mxfaddr = c.mxfaddr := rfl
@[simp] theorem Ctx.usePrefix_wdblk (c : Ctx) : (c.usePrefix).wdblk = c.wdblk := rfl
@[simp] theorem Ctx.usePrefix_fault (c : Ctx) : (c.usePrefix).fault = c.fault := rfl
@[simp] theorem Ctx.usePrefix_faddr (c : Ctx) : (c.usePrefix).faddr = c.faddr := rfl
@[simp] theorem Ctx.usePrefix_prio (c : Ctx) : (c.usePrefix).prio = c.prio := rfl
@[simp] theorem Ctx.usePrefix_phaseid (c : Ctx) : (c.usePrefix).phaseid = c.phaseid := rfl
@[simp] theorem Ctx.usePrefix_lutsel (c : Ctx) : (c.usePrefix).lutsel = c.lutsel := rfl
@[simp] theorem Ctx.usePrefix_ld (c : Ctx) : (c.usePrefix).ld = c.ld := rfl
@[simp] theorem Ctx.usePrefix_st (c : Ctx) : (c.usePrefix).st = c.st := rfl
@[simp] theorem Ctx.usePrefix_job (c : Ctx) : (c.usePrefix).job = c.job := rfl
@[simp] theorem Ctx.usePrefix_mx (c : Ctx) : (c.usePrefix).mx = c.mx := rfl
@[simp] theorem Ctx.usePrefix_gr (c : Ctx) : (c.usePrefix).gr = c.gr := rfl
@[simp] theorem Ctx.usePrefix_rep (c : Ctx) : (c.usePrefix).rep = c.rep := rfl
@[simp] theorem Ctx.usePrefix_arrived (c : Ctx) : (c.usePrefix).arrived = c.arrived := rfl
@[simp] theorem Ctx.usePrefix_wdst (c : Ctx) : (c.usePrefix).wdst = c.wdst := rfl
@[simp] theorem Ctx.usePrefix_binds (c : Ctx) : (c.usePrefix).binds = c.binds := rfl
@[simp] theorem Ctx.usePrefix_streams (c : Ctx) : (c.usePrefix).streams = c.streams := rfl
@[simp] theorem Ctx.usePrefix_loads (c : Ctx) : (c.usePrefix).loads = c.loads := rfl
@[simp] theorem Ctx.usePrefix_stores (c : Ctx) : (c.usePrefix).stores = c.stores := rfl
@[simp] theorem Ctx.usePrefix_mxops (c : Ctx) : (c.usePrefix).mxops = c.mxops := rfl
@[simp] theorem Ctx.usePrefix_gops (c : Ctx) : (c.usePrefix).gops = c.gops := rfl
@[simp] theorem Ctx.usePrefix_gathers (c : Ctx) : (c.usePrefix).gathers = c.gathers := rfl
@[simp] theorem Ctx.usePrefix_asyncs (c : Ctx) : (c.usePrefix).asyncs = c.asyncs := rfl
@[simp] theorem Ctx.usePrefix_resumed (c : Ctx) : (c.usePrefix).resumed = c.resumed := rfl
@[simp] theorem Ctx.usePrefix_stall (c : Ctx) : (c.usePrefix).stall = c.stall := rfl
@[simp] theorem Ctx.usePrefix_ticket (c : Ctx) : (c.usePrefix).ticket = c.ticket := rfl
@[simp] theorem Ctx.usePrefix_under (c : Ctx) : (c.usePrefix).under = c.under := rfl
@[simp] theorem Ctx.dropPrefix_x (c : Ctx) : (c.dropPrefix).x = c.x := by unfold Ctx.dropPrefix; split <;> rfl
@[simp] theorem Ctx.dropPrefix_urs (c : Ctx) : (c.dropPrefix).urs = c.urs := by unfold Ctx.dropPrefix; split <;> rfl
@[simp] theorem Ctx.dropPrefix_pc (c : Ctx) : (c.dropPrefix).pc = c.pc := by unfold Ctx.dropPrefix; split <;> rfl
@[simp] theorem Ctx.dropPrefix_b (c : Ctx) : (c.dropPrefix).b = c.b := by unfold Ctx.dropPrefix; split <;> rfl
@[simp] theorem Ctx.dropPrefix_pfxv (c : Ctx) : (c.dropPrefix).pfxv = c.pfxv := by unfold Ctx.dropPrefix; split <;> rfl
@[simp] theorem Ctx.dropPrefix_svc (c : Ctx) : (c.dropPrefix).svc = c.svc := by unfold Ctx.dropPrefix; split <;> rfl
@[simp] theorem Ctx.dropPrefix_wd (c : Ctx) : (c.dropPrefix).wd = c.wd := by unfold Ctx.dropPrefix; split <;> rfl
@[simp] theorem Ctx.dropPrefix_fpf (c : Ctx) : (c.dropPrefix).fpf = c.fpf := by unfold Ctx.dropPrefix; split <;> rfl
@[simp] theorem Ctx.dropPrefix_xid (c : Ctx) : (c.dropPrefix).xid = c.xid := by unfold Ctx.dropPrefix; split <;> rfl
@[simp] theorem Ctx.dropPrefix_mark (c : Ctx) : (c.dropPrefix).mark = c.mark := by unfold Ctx.dropPrefix; split <;> rfl
@[simp] theorem Ctx.dropPrefix_coord (c : Ctx) : (c.dropPrefix).coord = c.coord := by unfold Ctx.dropPrefix; split <;> rfl
@[simp] theorem Ctx.dropPrefix_vwV (c : Ctx) : (c.dropPrefix).vwV = c.vwV := by unfold Ctx.dropPrefix; split <;> rfl
@[simp] theorem Ctx.dropPrefix_vwM (c : Ctx) : (c.dropPrefix).vwM = c.vwM := by unfold Ctx.dropPrefix; split <;> rfl
@[simp] theorem Ctx.dropPrefix_vwA (c : Ctx) : (c.dropPrefix).vwA = c.vwA := by unfold Ctx.dropPrefix; split <;> rfl
@[simp] theorem Ctx.dropPrefix_vwP (c : Ctx) : (c.dropPrefix).vwP = c.vwP := by unfold Ctx.dropPrefix; split <;> rfl
@[simp] theorem Ctx.dropPrefix_mxprog (c : Ctx) : (c.dropPrefix).mxprog = c.mxprog := by unfold Ctx.dropPrefix; split <;> rfl
@[simp] theorem Ctx.dropPrefix_mxfaddr (c : Ctx) : (c.dropPrefix).mxfaddr = c.mxfaddr := by unfold Ctx.dropPrefix; split <;> rfl
@[simp] theorem Ctx.dropPrefix_wdblk (c : Ctx) : (c.dropPrefix).wdblk = c.wdblk := by unfold Ctx.dropPrefix; split <;> rfl
@[simp] theorem Ctx.dropPrefix_fault (c : Ctx) : (c.dropPrefix).fault = c.fault := by unfold Ctx.dropPrefix; split <;> rfl
@[simp] theorem Ctx.dropPrefix_faddr (c : Ctx) : (c.dropPrefix).faddr = c.faddr := by unfold Ctx.dropPrefix; split <;> rfl
@[simp] theorem Ctx.dropPrefix_prio (c : Ctx) : (c.dropPrefix).prio = c.prio := by unfold Ctx.dropPrefix; split <;> rfl
@[simp] theorem Ctx.dropPrefix_phaseid (c : Ctx) : (c.dropPrefix).phaseid = c.phaseid := by unfold Ctx.dropPrefix; split <;> rfl
@[simp] theorem Ctx.dropPrefix_lutsel (c : Ctx) : (c.dropPrefix).lutsel = c.lutsel := by unfold Ctx.dropPrefix; split <;> rfl
@[simp] theorem Ctx.dropPrefix_ld (c : Ctx) : (c.dropPrefix).ld = c.ld := by unfold Ctx.dropPrefix; split <;> rfl
@[simp] theorem Ctx.dropPrefix_st (c : Ctx) : (c.dropPrefix).st = c.st := by unfold Ctx.dropPrefix; split <;> rfl
@[simp] theorem Ctx.dropPrefix_job (c : Ctx) : (c.dropPrefix).job = c.job := by unfold Ctx.dropPrefix; split <;> rfl
@[simp] theorem Ctx.dropPrefix_mx (c : Ctx) : (c.dropPrefix).mx = c.mx := by unfold Ctx.dropPrefix; split <;> rfl
@[simp] theorem Ctx.dropPrefix_gr (c : Ctx) : (c.dropPrefix).gr = c.gr := by unfold Ctx.dropPrefix; split <;> rfl
@[simp] theorem Ctx.dropPrefix_rep (c : Ctx) : (c.dropPrefix).rep = c.rep := by unfold Ctx.dropPrefix; split <;> rfl
@[simp] theorem Ctx.dropPrefix_arrived (c : Ctx) : (c.dropPrefix).arrived = c.arrived := by unfold Ctx.dropPrefix; split <;> rfl
@[simp] theorem Ctx.dropPrefix_wdst (c : Ctx) : (c.dropPrefix).wdst = c.wdst := by unfold Ctx.dropPrefix; split <;> rfl
@[simp] theorem Ctx.dropPrefix_binds (c : Ctx) : (c.dropPrefix).binds = c.binds := by unfold Ctx.dropPrefix; split <;> rfl
@[simp] theorem Ctx.dropPrefix_streams (c : Ctx) : (c.dropPrefix).streams = c.streams := by unfold Ctx.dropPrefix; split <;> rfl
@[simp] theorem Ctx.dropPrefix_loads (c : Ctx) : (c.dropPrefix).loads = c.loads := by unfold Ctx.dropPrefix; split <;> rfl
@[simp] theorem Ctx.dropPrefix_stores (c : Ctx) : (c.dropPrefix).stores = c.stores := by unfold Ctx.dropPrefix; split <;> rfl
@[simp] theorem Ctx.dropPrefix_mxops (c : Ctx) : (c.dropPrefix).mxops = c.mxops := by unfold Ctx.dropPrefix; split <;> rfl
@[simp] theorem Ctx.dropPrefix_gops (c : Ctx) : (c.dropPrefix).gops = c.gops := by unfold Ctx.dropPrefix; split <;> rfl
@[simp] theorem Ctx.dropPrefix_gathers (c : Ctx) : (c.dropPrefix).gathers = c.gathers := by unfold Ctx.dropPrefix; split <;> rfl
@[simp] theorem Ctx.dropPrefix_asyncs (c : Ctx) : (c.dropPrefix).asyncs = c.asyncs := by unfold Ctx.dropPrefix; split <;> rfl
@[simp] theorem Ctx.dropPrefix_resumed (c : Ctx) : (c.dropPrefix).resumed = c.resumed := by unfold Ctx.dropPrefix; split <;> rfl
@[simp] theorem Ctx.dropPrefix_stall (c : Ctx) : (c.dropPrefix).stall = c.stall := by unfold Ctx.dropPrefix; split <;> rfl
@[simp] theorem Ctx.dropPrefix_ticket (c : Ctx) : (c.dropPrefix).ticket = c.ticket := by unfold Ctx.dropPrefix; split <;> rfl
@[simp] theorem Ctx.dropPrefix_under (c : Ctx) : (c.dropPrefix).under = c.under := by unfold Ctx.dropPrefix; split <;> rfl
@[simp] theorem Ctx.endRep_x (c : Ctx) : (c.endRep).x = c.x := by unfold Ctx.endRep; split <;> rfl
@[simp] theorem Ctx.endRep_urs (c : Ctx) : (c.endRep).urs = c.urs := by unfold Ctx.endRep; split <;> rfl
@[simp] theorem Ctx.endRep_pc (c : Ctx) : (c.endRep).pc = c.pc := by unfold Ctx.endRep; split <;> rfl
@[simp] theorem Ctx.endRep_b (c : Ctx) : (c.endRep).b = c.b := by unfold Ctx.endRep; split <;> rfl
@[simp] theorem Ctx.endRep_pfx (c : Ctx) : (c.endRep).pfx = c.pfx := by unfold Ctx.endRep; split <;> rfl
@[simp] theorem Ctx.endRep_pfxv (c : Ctx) : (c.endRep).pfxv = c.pfxv := by unfold Ctx.endRep; split <;> rfl
@[simp] theorem Ctx.endRep_svc (c : Ctx) : (c.endRep).svc = c.svc := by unfold Ctx.endRep; split <;> rfl
@[simp] theorem Ctx.endRep_wd (c : Ctx) : (c.endRep).wd = c.wd := by unfold Ctx.endRep; split <;> rfl
@[simp] theorem Ctx.endRep_fpf (c : Ctx) : (c.endRep).fpf = c.fpf := by unfold Ctx.endRep; split <;> rfl
@[simp] theorem Ctx.endRep_xid (c : Ctx) : (c.endRep).xid = c.xid := by unfold Ctx.endRep; split <;> rfl
@[simp] theorem Ctx.endRep_mark (c : Ctx) : (c.endRep).mark = c.mark := by unfold Ctx.endRep; split <;> rfl
@[simp] theorem Ctx.endRep_coord (c : Ctx) : (c.endRep).coord = c.coord := by unfold Ctx.endRep; split <;> rfl
@[simp] theorem Ctx.endRep_vwV (c : Ctx) : (c.endRep).vwV = c.vwV := by unfold Ctx.endRep; split <;> rfl
@[simp] theorem Ctx.endRep_vwM (c : Ctx) : (c.endRep).vwM = c.vwM := by unfold Ctx.endRep; split <;> rfl
@[simp] theorem Ctx.endRep_vwA (c : Ctx) : (c.endRep).vwA = c.vwA := by unfold Ctx.endRep; split <;> rfl
@[simp] theorem Ctx.endRep_vwP (c : Ctx) : (c.endRep).vwP = c.vwP := by unfold Ctx.endRep; split <;> rfl
@[simp] theorem Ctx.endRep_mxprog (c : Ctx) : (c.endRep).mxprog = c.mxprog := by unfold Ctx.endRep; split <;> rfl
@[simp] theorem Ctx.endRep_mxfaddr (c : Ctx) : (c.endRep).mxfaddr = c.mxfaddr := by unfold Ctx.endRep; split <;> rfl
@[simp] theorem Ctx.endRep_wdblk (c : Ctx) : (c.endRep).wdblk = c.wdblk := by unfold Ctx.endRep; split <;> rfl
@[simp] theorem Ctx.endRep_fault (c : Ctx) : (c.endRep).fault = c.fault := by unfold Ctx.endRep; split <;> rfl
@[simp] theorem Ctx.endRep_faddr (c : Ctx) : (c.endRep).faddr = c.faddr := by unfold Ctx.endRep; split <;> rfl
@[simp] theorem Ctx.endRep_prio (c : Ctx) : (c.endRep).prio = c.prio := by unfold Ctx.endRep; split <;> rfl
@[simp] theorem Ctx.endRep_phaseid (c : Ctx) : (c.endRep).phaseid = c.phaseid := by unfold Ctx.endRep; split <;> rfl
@[simp] theorem Ctx.endRep_lutsel (c : Ctx) : (c.endRep).lutsel = c.lutsel := by unfold Ctx.endRep; split <;> rfl
@[simp] theorem Ctx.endRep_ld (c : Ctx) : (c.endRep).ld = c.ld := by unfold Ctx.endRep; split <;> rfl
@[simp] theorem Ctx.endRep_st (c : Ctx) : (c.endRep).st = c.st := by unfold Ctx.endRep; split <;> rfl
@[simp] theorem Ctx.endRep_job (c : Ctx) : (c.endRep).job = c.job := by unfold Ctx.endRep; split <;> rfl
@[simp] theorem Ctx.endRep_mx (c : Ctx) : (c.endRep).mx = c.mx := by unfold Ctx.endRep; split <;> rfl
@[simp] theorem Ctx.endRep_gr (c : Ctx) : (c.endRep).gr = c.gr := by unfold Ctx.endRep; split <;> rfl
@[simp] theorem Ctx.endRep_arrived (c : Ctx) : (c.endRep).arrived = c.arrived := by unfold Ctx.endRep; split <;> rfl
@[simp] theorem Ctx.endRep_wdst (c : Ctx) : (c.endRep).wdst = c.wdst := by unfold Ctx.endRep; split <;> rfl
@[simp] theorem Ctx.endRep_binds (c : Ctx) : (c.endRep).binds = c.binds := by unfold Ctx.endRep; split <;> rfl
@[simp] theorem Ctx.endRep_streams (c : Ctx) : (c.endRep).streams = c.streams := by unfold Ctx.endRep; split <;> rfl
@[simp] theorem Ctx.endRep_loads (c : Ctx) : (c.endRep).loads = c.loads := by unfold Ctx.endRep; split <;> rfl
@[simp] theorem Ctx.endRep_stores (c : Ctx) : (c.endRep).stores = c.stores := by unfold Ctx.endRep; split <;> rfl
@[simp] theorem Ctx.endRep_mxops (c : Ctx) : (c.endRep).mxops = c.mxops := by unfold Ctx.endRep; split <;> rfl
@[simp] theorem Ctx.endRep_gops (c : Ctx) : (c.endRep).gops = c.gops := by unfold Ctx.endRep; split <;> rfl
@[simp] theorem Ctx.endRep_gathers (c : Ctx) : (c.endRep).gathers = c.gathers := by unfold Ctx.endRep; split <;> rfl
@[simp] theorem Ctx.endRep_asyncs (c : Ctx) : (c.endRep).asyncs = c.asyncs := by unfold Ctx.endRep; split <;> rfl
@[simp] theorem Ctx.endRep_resumed (c : Ctx) : (c.endRep).resumed = c.resumed := by unfold Ctx.endRep; split <;> rfl
@[simp] theorem Ctx.endRep_stall (c : Ctx) : (c.endRep).stall = c.stall := by unfold Ctx.endRep; split <;> rfl
@[simp] theorem Ctx.endRep_ticket (c : Ctx) : (c.endRep).ticket = c.ticket := by unfold Ctx.endRep; split <;> rfl
@[simp] theorem Ctx.endRep_under (c : Ctx) : (c.endRep).under = c.under := by unfold Ctx.endRep; split <;> rfl
@[simp] theorem Ctx.advance_x (c : Ctx) (k : Nat) : (c.advance k).x = c.x := by unfold Ctx.advance; dsimp only; split <;> [rfl; (split_ifs <;> rfl)]
@[simp] theorem Ctx.advance_urs (c : Ctx) (k : Nat) : (c.advance k).urs = c.urs := by unfold Ctx.advance; dsimp only; split <;> [rfl; (split_ifs <;> rfl)]
@[simp] theorem Ctx.advance_b (c : Ctx) (k : Nat) : (c.advance k).b = c.b := by unfold Ctx.advance; dsimp only; split <;> [rfl; (split_ifs <;> rfl)]
@[simp] theorem Ctx.advance_pfx (c : Ctx) (k : Nat) : (c.advance k).pfx = c.pfx := by unfold Ctx.advance; dsimp only; split <;> [rfl; (split_ifs <;> rfl)]
@[simp] theorem Ctx.advance_pfxv (c : Ctx) (k : Nat) : (c.advance k).pfxv = c.pfxv := by unfold Ctx.advance; dsimp only; split <;> [rfl; (split_ifs <;> rfl)]
@[simp] theorem Ctx.advance_svc (c : Ctx) (k : Nat) : (c.advance k).svc = c.svc := by unfold Ctx.advance; dsimp only; split <;> [rfl; (split_ifs <;> rfl)]
@[simp] theorem Ctx.advance_wd (c : Ctx) (k : Nat) : (c.advance k).wd = c.wd := by unfold Ctx.advance; dsimp only; split <;> [rfl; (split_ifs <;> rfl)]
@[simp] theorem Ctx.advance_warn (c : Ctx) (k : Nat) : (c.advance k).warn = c.warn := by unfold Ctx.advance; dsimp only; split <;> [rfl; (split_ifs <;> rfl)]
@[simp] theorem Ctx.advance_fpf (c : Ctx) (k : Nat) : (c.advance k).fpf = c.fpf := by unfold Ctx.advance; dsimp only; split <;> [rfl; (split_ifs <;> rfl)]
@[simp] theorem Ctx.advance_xid (c : Ctx) (k : Nat) : (c.advance k).xid = c.xid := by unfold Ctx.advance; dsimp only; split <;> [rfl; (split_ifs <;> rfl)]
@[simp] theorem Ctx.advance_mark (c : Ctx) (k : Nat) : (c.advance k).mark = c.mark := by unfold Ctx.advance; dsimp only; split <;> [rfl; (split_ifs <;> rfl)]
@[simp] theorem Ctx.advance_coord (c : Ctx) (k : Nat) : (c.advance k).coord = c.coord := by unfold Ctx.advance; dsimp only; split <;> [rfl; (split_ifs <;> rfl)]
@[simp] theorem Ctx.advance_vwV (c : Ctx) (k : Nat) : (c.advance k).vwV = c.vwV := by unfold Ctx.advance; dsimp only; split <;> [rfl; (split_ifs <;> rfl)]
@[simp] theorem Ctx.advance_vwM (c : Ctx) (k : Nat) : (c.advance k).vwM = c.vwM := by unfold Ctx.advance; dsimp only; split <;> [rfl; (split_ifs <;> rfl)]
@[simp] theorem Ctx.advance_vwA (c : Ctx) (k : Nat) : (c.advance k).vwA = c.vwA := by unfold Ctx.advance; dsimp only; split <;> [rfl; (split_ifs <;> rfl)]
@[simp] theorem Ctx.advance_vwP (c : Ctx) (k : Nat) : (c.advance k).vwP = c.vwP := by unfold Ctx.advance; dsimp only; split <;> [rfl; (split_ifs <;> rfl)]
@[simp] theorem Ctx.advance_mxprog (c : Ctx) (k : Nat) : (c.advance k).mxprog = c.mxprog := by unfold Ctx.advance; dsimp only; split <;> [rfl; (split_ifs <;> rfl)]
@[simp] theorem Ctx.advance_mxfaddr (c : Ctx) (k : Nat) : (c.advance k).mxfaddr = c.mxfaddr := by unfold Ctx.advance; dsimp only; split <;> [rfl; (split_ifs <;> rfl)]
@[simp] theorem Ctx.advance_wdblk (c : Ctx) (k : Nat) : (c.advance k).wdblk = c.wdblk := by unfold Ctx.advance; dsimp only; split <;> [rfl; (split_ifs <;> rfl)]
@[simp] theorem Ctx.advance_fault (c : Ctx) (k : Nat) : (c.advance k).fault = c.fault := by unfold Ctx.advance; dsimp only; split <;> [rfl; (split_ifs <;> rfl)]
@[simp] theorem Ctx.advance_faddr (c : Ctx) (k : Nat) : (c.advance k).faddr = c.faddr := by unfold Ctx.advance; dsimp only; split <;> [rfl; (split_ifs <;> rfl)]
@[simp] theorem Ctx.advance_prio (c : Ctx) (k : Nat) : (c.advance k).prio = c.prio := by unfold Ctx.advance; dsimp only; split <;> [rfl; (split_ifs <;> rfl)]
@[simp] theorem Ctx.advance_phaseid (c : Ctx) (k : Nat) : (c.advance k).phaseid = c.phaseid := by unfold Ctx.advance; dsimp only; split <;> [rfl; (split_ifs <;> rfl)]
@[simp] theorem Ctx.advance_lutsel (c : Ctx) (k : Nat) : (c.advance k).lutsel = c.lutsel := by unfold Ctx.advance; dsimp only; split <;> [rfl; (split_ifs <;> rfl)]
@[simp] theorem Ctx.advance_ld (c : Ctx) (k : Nat) : (c.advance k).ld = c.ld := by unfold Ctx.advance; dsimp only; split <;> [rfl; (split_ifs <;> rfl)]
@[simp] theorem Ctx.advance_st (c : Ctx) (k : Nat) : (c.advance k).st = c.st := by unfold Ctx.advance; dsimp only; split <;> [rfl; (split_ifs <;> rfl)]
@[simp] theorem Ctx.advance_job (c : Ctx) (k : Nat) : (c.advance k).job = c.job := by unfold Ctx.advance; dsimp only; split <;> [rfl; (split_ifs <;> rfl)]
@[simp] theorem Ctx.advance_mx (c : Ctx) (k : Nat) : (c.advance k).mx = c.mx := by unfold Ctx.advance; dsimp only; split <;> [rfl; (split_ifs <;> rfl)]
@[simp] theorem Ctx.advance_gr (c : Ctx) (k : Nat) : (c.advance k).gr = c.gr := by unfold Ctx.advance; dsimp only; split <;> [rfl; (split_ifs <;> rfl)]
@[simp] theorem Ctx.advance_arrived (c : Ctx) (k : Nat) : (c.advance k).arrived = c.arrived := by unfold Ctx.advance; dsimp only; split <;> [rfl; (split_ifs <;> rfl)]
@[simp] theorem Ctx.advance_wdst (c : Ctx) (k : Nat) : (c.advance k).wdst = c.wdst := by unfold Ctx.advance; dsimp only; split <;> [rfl; (split_ifs <;> rfl)]
@[simp] theorem Ctx.advance_binds (c : Ctx) (k : Nat) : (c.advance k).binds = c.binds := by unfold Ctx.advance; dsimp only; split <;> [rfl; (split_ifs <;> rfl)]
@[simp] theorem Ctx.advance_streams (c : Ctx) (k : Nat) : (c.advance k).streams = c.streams := by unfold Ctx.advance; dsimp only; split <;> [rfl; (split_ifs <;> rfl)]
@[simp] theorem Ctx.advance_loads (c : Ctx) (k : Nat) : (c.advance k).loads = c.loads := by unfold Ctx.advance; dsimp only; split <;> [rfl; (split_ifs <;> rfl)]
@[simp] theorem Ctx.advance_stores (c : Ctx) (k : Nat) : (c.advance k).stores = c.stores := by unfold Ctx.advance; dsimp only; split <;> [rfl; (split_ifs <;> rfl)]
@[simp] theorem Ctx.advance_mxops (c : Ctx) (k : Nat) : (c.advance k).mxops = c.mxops := by unfold Ctx.advance; dsimp only; split <;> [rfl; (split_ifs <;> rfl)]
@[simp] theorem Ctx.advance_gops (c : Ctx) (k : Nat) : (c.advance k).gops = c.gops := by unfold Ctx.advance; dsimp only; split <;> [rfl; (split_ifs <;> rfl)]
@[simp] theorem Ctx.advance_gathers (c : Ctx) (k : Nat) : (c.advance k).gathers = c.gathers := by unfold Ctx.advance; dsimp only; split <;> [rfl; (split_ifs <;> rfl)]
@[simp] theorem Ctx.advance_asyncs (c : Ctx) (k : Nat) : (c.advance k).asyncs = c.asyncs := by unfold Ctx.advance; dsimp only; split <;> [rfl; (split_ifs <;> rfl)]
@[simp] theorem Ctx.advance_resumed (c : Ctx) (k : Nat) : (c.advance k).resumed = c.resumed := by unfold Ctx.advance; dsimp only; split <;> [rfl; (split_ifs <;> rfl)]
@[simp] theorem Ctx.advance_stall (c : Ctx) (k : Nat) : (c.advance k).stall = c.stall := by unfold Ctx.advance; dsimp only; split <;> [rfl; (split_ifs <;> rfl)]
@[simp] theorem Ctx.advance_ticket (c : Ctx) (k : Nat) : (c.advance k).ticket = c.ticket := by unfold Ctx.advance; dsimp only; split <;> [rfl; (split_ifs <;> rfl)]
@[simp] theorem Ctx.advance_under (c : Ctx) (k : Nat) : (c.advance k).under = c.under := by unfold Ctx.advance; dsimp only; split <;> [rfl; (split_ifs <;> rfl)]

/-! A core. -/

@[simp] theorem Core.mapCtx_id (co : Core) (f : Ctx → Ctx) : (co.mapCtx f).id = co.id := rfl
@[simp] theorem Core.mapCtx_mode (co : Core) (f : Ctx → Ctx) : (co.mapCtx f).mode = co.mode := rfl
@[simp] theorem Core.mapCtx_runq (co : Core) (f : Ctx → Ctx) : (co.mapCtx f).runq = co.runq := rfl
@[simp] theorem Core.mapCtx_back (co : Core) (f : Ctx → Ctx) : (co.mapCtx f).back = co.back := rfl
@[simp] theorem Core.mapCtx_svcq (co : Core) (f : Ctx → Ctx) : (co.mapCtx f).svcq = co.svcq := rfl
@[simp] theorem Core.mapCtx_deque (co : Core) (f : Ctx → Ctx) : (co.mapCtx f).deque = co.deque := rfl
@[simp] theorem Core.mapCtx_creations (co : Core) (f : Ctx → Ctx) : (co.mapCtx f).creations = co.creations := rfl
@[simp] theorem Core.mapCtx_tags (co : Core) (f : Ctx → Ctx) : (co.mapCtx f).tags = co.tags := rfl
@[simp] theorem Core.mapCtx_arrq (co : Core) (f : Ctx → Ctx) : (co.mapCtx f).arrq = co.arrq := rfl
@[simp] theorem Core.mapCtx_bkpt (co : Core) (f : Ctx → Ctx) : (co.mapCtx f).bkpt = co.bkpt := rfl
@[simp] theorem Core.mapCtx_bank0 (co : Core) (f : Ctx → Ctx) : (co.mapCtx f).bank0 = co.bank0 := rfl
@[simp] theorem Core.mapCtx_bank1 (co : Core) (f : Ctx → Ctx) : (co.mapCtx f).bank1 = co.bank1 := rfl
@[simp] theorem Core.mapCtx_victimQ (co : Core) (f : Ctx → Ctx) : (co.mapCtx f).victimQ = co.victimQ := rfl
@[simp] theorem Core.mapCtx_victimT (co : Core) (f : Ctx → Ctx) : (co.mapCtx f).victimT = co.victimT := rfl
@[simp] theorem Core.mapCtx_victimD (co : Core) (f : Ctx → Ctx) : (co.mapCtx f).victimD = co.victimD := rfl
@[simp] theorem Core.mapCtx_resting (co : Core) (f : Ctx → Ctx) : (co.mapCtx f).resting = co.resting := rfl
@[simp] theorem Core.mapCtx_phases (co : Core) (f : Ctx → Ctx) : (co.mapCtx f).phases = co.phases := rfl
@[simp] theorem Core.mapCtx_curPhase (co : Core) (f : Ctx → Ctx) : (co.mapCtx f).curPhase = co.curPhase := rfl
@[simp] theorem Core.mapCtx_lastCourse (co : Core) (f : Ctx → Ctx) : (co.mapCtx f).lastCourse = co.lastCourse := rfl
@[simp] theorem Core.mapCtx_mtlb (co : Core) (f : Ctx → Ctx) : (co.mapCtx f).mtlb = co.mtlb := rfl
@[simp] theorem Core.mapCtx_fblock (co : Core) (f : Ctx → Ctx) : (co.mapCtx f).fblock = co.fblock := rfl
@[simp] theorem Core.mapCtx_asked (co : Core) (f : Ctx → Ctx) : (co.mapCtx f).asked = co.asked := rfl
@[simp] theorem Core.mapCtx_traceBuf (co : Core) (f : Ctx → Ctx) : (co.mapCtx f).traceBuf = co.traceBuf := rfl
@[simp] theorem Core.mapCtx_ctx (co : Core) (f : Ctx → Ctx) : (co.mapCtx f).ctx = f co.ctx := rfl
@[simp] theorem Core.busy_id (co : Core) : (co.busy).id = co.id := rfl
@[simp] theorem Core.busy_mode (co : Core) : (co.busy).mode = co.mode := rfl
@[simp] theorem Core.busy_ctx (co : Core) : (co.busy).ctx = co.ctx := rfl
@[simp] theorem Core.busy_runq (co : Core) : (co.busy).runq = co.runq := rfl
@[simp] theorem Core.busy_back (co : Core) : (co.busy).back = co.back := rfl
@[simp] theorem Core.busy_svcq (co : Core) : (co.busy).svcq = co.svcq := rfl
@[simp] theorem Core.busy_deque (co : Core) : (co.busy).deque = co.deque := rfl
@[simp] theorem Core.busy_creations (co : Core) : (co.busy).creations = co.creations := rfl
@[simp] theorem Core.busy_tags (co : Core) : (co.busy).tags = co.tags := rfl
@[simp] theorem Core.busy_arrq (co : Core) : (co.busy).arrq = co.arrq := rfl
@[simp] theorem Core.busy_bkpt (co : Core) : (co.busy).bkpt = co.bkpt := rfl
@[simp] theorem Core.busy_bank0 (co : Core) : (co.busy).bank0 = co.bank0 := rfl
@[simp] theorem Core.busy_bank1 (co : Core) : (co.busy).bank1 = co.bank1 := rfl
@[simp] theorem Core.busy_victimQ (co : Core) : (co.busy).victimQ = co.victimQ := rfl
@[simp] theorem Core.busy_victimT (co : Core) : (co.busy).victimT = co.victimT := rfl
@[simp] theorem Core.busy_victimD (co : Core) : (co.busy).victimD = co.victimD := rfl
@[simp] theorem Core.busy_resting (co : Core) : (co.busy).resting = co.resting := rfl
@[simp] theorem Core.busy_curPhase (co : Core) : (co.busy).curPhase = co.curPhase := rfl
@[simp] theorem Core.busy_lastCourse (co : Core) : (co.busy).lastCourse = co.lastCourse := rfl
@[simp] theorem Core.busy_mtlb (co : Core) : (co.busy).mtlb = co.mtlb := rfl
@[simp] theorem Core.busy_fblock (co : Core) : (co.busy).fblock = co.fblock := rfl
@[simp] theorem Core.busy_asked (co : Core) : (co.busy).asked = co.asked := rfl
@[simp] theorem Core.busy_traceBuf (co : Core) : (co.busy).traceBuf = co.traceBuf := rfl
@[simp] theorem Core.stalled_id (co : Core) : (co.stalled).id = co.id := rfl
@[simp] theorem Core.stalled_mode (co : Core) : (co.stalled).mode = co.mode := rfl
@[simp] theorem Core.stalled_ctx (co : Core) : (co.stalled).ctx = co.ctx := rfl
@[simp] theorem Core.stalled_runq (co : Core) : (co.stalled).runq = co.runq := rfl
@[simp] theorem Core.stalled_back (co : Core) : (co.stalled).back = co.back := rfl
@[simp] theorem Core.stalled_svcq (co : Core) : (co.stalled).svcq = co.svcq := rfl
@[simp] theorem Core.stalled_deque (co : Core) : (co.stalled).deque = co.deque := rfl
@[simp] theorem Core.stalled_creations (co : Core) : (co.stalled).creations = co.creations := rfl
@[simp] theorem Core.stalled_tags (co : Core) : (co.stalled).tags = co.tags := rfl
@[simp] theorem Core.stalled_arrq (co : Core) : (co.stalled).arrq = co.arrq := rfl
@[simp] theorem Core.stalled_bkpt (co : Core) : (co.stalled).bkpt = co.bkpt := rfl
@[simp] theorem Core.stalled_bank0 (co : Core) : (co.stalled).bank0 = co.bank0 := rfl
@[simp] theorem Core.stalled_bank1 (co : Core) : (co.stalled).bank1 = co.bank1 := rfl
@[simp] theorem Core.stalled_victimQ (co : Core) : (co.stalled).victimQ = co.victimQ := rfl
@[simp] theorem Core.stalled_victimT (co : Core) : (co.stalled).victimT = co.victimT := rfl
@[simp] theorem Core.stalled_victimD (co : Core) : (co.stalled).victimD = co.victimD := rfl
@[simp] theorem Core.stalled_resting (co : Core) : (co.stalled).resting = co.resting := rfl
@[simp] theorem Core.stalled_curPhase (co : Core) : (co.stalled).curPhase = co.curPhase := rfl
@[simp] theorem Core.stalled_lastCourse (co : Core) : (co.stalled).lastCourse = co.lastCourse := rfl
@[simp] theorem Core.stalled_mtlb (co : Core) : (co.stalled).mtlb = co.mtlb := rfl
@[simp] theorem Core.stalled_fblock (co : Core) : (co.stalled).fblock = co.fblock := rfl
@[simp] theorem Core.stalled_asked (co : Core) : (co.stalled).asked = co.asked := rfl
@[simp] theorem Core.stalled_traceBuf (co : Core) : (co.stalled).traceBuf = co.traceBuf := rfl
@[simp] theorem Core.free_id (co : Core) : (co.free).id = co.id := rfl
@[simp] theorem Core.free_runq (co : Core) : (co.free).runq = co.runq := rfl
@[simp] theorem Core.free_back (co : Core) : (co.free).back = co.back := rfl
@[simp] theorem Core.free_svcq (co : Core) : (co.free).svcq = co.svcq := rfl
@[simp] theorem Core.free_deque (co : Core) : (co.free).deque = co.deque := rfl
@[simp] theorem Core.free_creations (co : Core) : (co.free).creations = co.creations := rfl
@[simp] theorem Core.free_tags (co : Core) : (co.free).tags = co.tags := rfl
@[simp] theorem Core.free_arrq (co : Core) : (co.free).arrq = co.arrq := rfl
@[simp] theorem Core.free_bkpt (co : Core) : (co.free).bkpt = co.bkpt := rfl
@[simp] theorem Core.free_bank0 (co : Core) : (co.free).bank0 = co.bank0 := rfl
@[simp] theorem Core.free_bank1 (co : Core) : (co.free).bank1 = co.bank1 := rfl
@[simp] theorem Core.free_victimQ (co : Core) : (co.free).victimQ = co.victimQ := rfl
@[simp] theorem Core.free_victimT (co : Core) : (co.free).victimT = co.victimT := rfl
@[simp] theorem Core.free_victimD (co : Core) : (co.free).victimD = co.victimD := rfl
@[simp] theorem Core.free_phases (co : Core) : (co.free).phases = co.phases := rfl
@[simp] theorem Core.free_curPhase (co : Core) : (co.free).curPhase = co.curPhase := rfl
@[simp] theorem Core.free_mtlb (co : Core) : (co.free).mtlb = co.mtlb := rfl
@[simp] theorem Core.free_traceBuf (co : Core) : (co.free).traceBuf = co.traceBuf := rfl

/-! The package. -/

@[simp] theorem State.mapCtx_powered (s : State) (f : Ctx → Ctx) : (s.mapCtx f).powered = s.powered := rfl
@[simp] theorem State.mapCtx_time (s : State) (f : Ctx → Ctx) : (s.mapCtx f).time = s.time := rfl
@[simp] theorem State.mapCtx_fresh (s : State) (f : Ctx → Ctx) : (s.mapCtx f).fresh = s.fresh := rfl
@[simp] theorem State.mapCtx_agenda (s : State) (f : Ctx → Ctx) : (s.mapCtx f).agenda = s.agenda := rfl
@[simp] theorem State.mapCtx_turn (s : State) (f : Ctx → Ctx) : (s.mapCtx f).turn = s.turn := rfl
@[simp] theorem State.mapCtx_rotor (s : State) (f : Ctx → Ctx) : (s.mapCtx f).rotor = s.rotor := rfl
@[simp] theorem State.mapCtx_retry (s : State) (f : Ctx → Ctx) : (s.mapCtx f).retry = s.retry := rfl
@[simp] theorem State.mapCtx_near (s : State) (f : Ctx → Ctx) : (s.mapCtx f).near = s.near := rfl
@[simp] theorem State.mapCtx_quarry (s : State) (f : Ctx → Ctx) : (s.mapCtx f).quarry = s.quarry := rfl
@[simp] theorem State.mapCtx_peerOut (s : State) (f : Ctx → Ctx) : (s.mapCtx f).peerOut = s.peerOut := rfl
@[simp] theorem State.mapCtx_poison (s : State) (f : Ctx → Ctx) : (s.mapCtx f).poison = s.poison := rfl
@[simp] theorem State.mapCtx_sealed (s : State) (f : Ctx → Ctx) : (s.mapCtx f).sealed = s.sealed := rfl
@[simp] theorem State.mapCtx_keyCount (s : State) (f : Ctx → Ctx) : (s.mapCtx f).keyCount = s.keyCount := rfl
@[simp] theorem State.mapCtx_overs (s : State) (f : Ctx → Ctx) : (s.mapCtx f).overs = s.overs := rfl
@[simp] theorem State.mapCtx_locks (s : State) (f : Ctx → Ctx) : (s.mapCtx f).locks = s.locks := rfl
@[simp] theorem State.mapCtx_mortar (s : State) (f : Ctx → Ctx) : (s.mapCtx f).mortar = s.mortar := rfl
@[simp] theorem State.mapCtx_returning (s : State) (f : Ctx → Ctx) : (s.mapCtx f).returning = s.returning := rfl
@[simp] theorem State.mapCtx_colls (s : State) (f : Ctx → Ctx) : (s.mapCtx f).colls = s.colls := rfl
@[simp] theorem State.mapCtx_throttle (s : State) (f : Ctx → Ctx) : (s.mapCtx f).throttle = s.throttle := rfl
@[simp] theorem State.mapCtx_eccDie (s : State) (f : Ctx → Ctx) : (s.mapCtx f).eccDie = s.eccDie := rfl
@[simp] theorem State.mapCtx_others (s : State) (f : Ctx → Ctx) : (s.mapCtx f).others = s.others := rfl
@[simp] theorem State.mapCtx_tiles (s : State) (f : Ctx → Ctx) : (s.mapCtx f).tiles = s.tiles := rfl
@[simp] theorem State.mapCtx_devs (s : State) (f : Ctx → Ctx) : (s.mapCtx f).devs = s.devs := rfl
@[simp] theorem State.mapCtx_devCount (s : State) (f : Ctx → Ctx) : (s.mapCtx f).devCount = s.devCount := rfl
@[simp] theorem State.mapCtx_handleCount (s : State) (f : Ctx → Ctx) : (s.mapCtx f).handleCount = s.handleCount := rfl
@[simp] theorem State.mapCtx_host (s : State) (f : Ctx → Ctx) : (s.mapCtx f).host = s.host := rfl
@[simp] theorem State.mapCtx_core (s : State) (f : Ctx → Ctx) : (s.mapCtx f).core = s.core.mapCtx f := rfl
@[simp] theorem State.setTile_powered (s : State) (tl : Tile) : (s.setTile tl).powered = s.powered := rfl
@[simp] theorem State.setTile_time (s : State) (tl : Tile) : (s.setTile tl).time = s.time := rfl
@[simp] theorem State.setTile_fresh (s : State) (tl : Tile) : (s.setTile tl).fresh = s.fresh := rfl
@[simp] theorem State.setTile_agenda (s : State) (tl : Tile) : (s.setTile tl).agenda = s.agenda := rfl
@[simp] theorem State.setTile_turn (s : State) (tl : Tile) : (s.setTile tl).turn = s.turn := rfl
@[simp] theorem State.setTile_rotor (s : State) (tl : Tile) : (s.setTile tl).rotor = s.rotor := rfl
@[simp] theorem State.setTile_retry (s : State) (tl : Tile) : (s.setTile tl).retry = s.retry := rfl
@[simp] theorem State.setTile_near (s : State) (tl : Tile) : (s.setTile tl).near = s.near := rfl
@[simp] theorem State.setTile_quarry (s : State) (tl : Tile) : (s.setTile tl).quarry = s.quarry := rfl
@[simp] theorem State.setTile_peerOut (s : State) (tl : Tile) : (s.setTile tl).peerOut = s.peerOut := rfl
@[simp] theorem State.setTile_poison (s : State) (tl : Tile) : (s.setTile tl).poison = s.poison := rfl
@[simp] theorem State.setTile_sealed (s : State) (tl : Tile) : (s.setTile tl).sealed = s.sealed := rfl
@[simp] theorem State.setTile_keyCount (s : State) (tl : Tile) : (s.setTile tl).keyCount = s.keyCount := rfl
@[simp] theorem State.setTile_overs (s : State) (tl : Tile) : (s.setTile tl).overs = s.overs := rfl
@[simp] theorem State.setTile_locks (s : State) (tl : Tile) : (s.setTile tl).locks = s.locks := rfl
@[simp] theorem State.setTile_mortar (s : State) (tl : Tile) : (s.setTile tl).mortar = s.mortar := rfl
@[simp] theorem State.setTile_returning (s : State) (tl : Tile) : (s.setTile tl).returning = s.returning := rfl
@[simp] theorem State.setTile_colls (s : State) (tl : Tile) : (s.setTile tl).colls = s.colls := rfl
@[simp] theorem State.setTile_throttle (s : State) (tl : Tile) : (s.setTile tl).throttle = s.throttle := rfl
@[simp] theorem State.setTile_eccDie (s : State) (tl : Tile) : (s.setTile tl).eccDie = s.eccDie := rfl
@[simp] theorem State.setTile_core (s : State) (tl : Tile) : (s.setTile tl).core = s.core := rfl
@[simp] theorem State.setTile_others (s : State) (tl : Tile) : (s.setTile tl).others = s.others := rfl
@[simp] theorem State.setTile_devs (s : State) (tl : Tile) : (s.setTile tl).devs = s.devs := rfl
@[simp] theorem State.setTile_devCount (s : State) (tl : Tile) : (s.setTile tl).devCount = s.devCount := rfl
@[simp] theorem State.setTile_handleCount (s : State) (tl : Tile) : (s.setTile tl).handleCount = s.handleCount := rfl
@[simp] theorem State.setTile_host (s : State) (tl : Tile) : (s.setTile tl).host = s.host := rfl
@[simp] theorem State.updTile_powered (s : State) (t : TileId) (f : Tile → Tile) : (s.updTile t f).powered = s.powered := rfl
@[simp] theorem State.updTile_time (s : State) (t : TileId) (f : Tile → Tile) : (s.updTile t f).time = s.time := rfl
@[simp] theorem State.updTile_fresh (s : State) (t : TileId) (f : Tile → Tile) : (s.updTile t f).fresh = s.fresh := rfl
@[simp] theorem State.updTile_agenda (s : State) (t : TileId) (f : Tile → Tile) : (s.updTile t f).agenda = s.agenda := rfl
@[simp] theorem State.updTile_turn (s : State) (t : TileId) (f : Tile → Tile) : (s.updTile t f).turn = s.turn := rfl
@[simp] theorem State.updTile_rotor (s : State) (t : TileId) (f : Tile → Tile) : (s.updTile t f).rotor = s.rotor := rfl
@[simp] theorem State.updTile_retry (s : State) (t : TileId) (f : Tile → Tile) : (s.updTile t f).retry = s.retry := rfl
@[simp] theorem State.updTile_near (s : State) (t : TileId) (f : Tile → Tile) : (s.updTile t f).near = s.near := rfl
@[simp] theorem State.updTile_quarry (s : State) (t : TileId) (f : Tile → Tile) : (s.updTile t f).quarry = s.quarry := rfl
@[simp] theorem State.updTile_peerOut (s : State) (t : TileId) (f : Tile → Tile) : (s.updTile t f).peerOut = s.peerOut := rfl
@[simp] theorem State.updTile_poison (s : State) (t : TileId) (f : Tile → Tile) : (s.updTile t f).poison = s.poison := rfl
@[simp] theorem State.updTile_sealed (s : State) (t : TileId) (f : Tile → Tile) : (s.updTile t f).sealed = s.sealed := rfl
@[simp] theorem State.updTile_keyCount (s : State) (t : TileId) (f : Tile → Tile) : (s.updTile t f).keyCount = s.keyCount := rfl
@[simp] theorem State.updTile_overs (s : State) (t : TileId) (f : Tile → Tile) : (s.updTile t f).overs = s.overs := rfl
@[simp] theorem State.updTile_locks (s : State) (t : TileId) (f : Tile → Tile) : (s.updTile t f).locks = s.locks := rfl
@[simp] theorem State.updTile_mortar (s : State) (t : TileId) (f : Tile → Tile) : (s.updTile t f).mortar = s.mortar := rfl
@[simp] theorem State.updTile_returning (s : State) (t : TileId) (f : Tile → Tile) : (s.updTile t f).returning = s.returning := rfl
@[simp] theorem State.updTile_colls (s : State) (t : TileId) (f : Tile → Tile) : (s.updTile t f).colls = s.colls := rfl
@[simp] theorem State.updTile_throttle (s : State) (t : TileId) (f : Tile → Tile) : (s.updTile t f).throttle = s.throttle := rfl
@[simp] theorem State.updTile_eccDie (s : State) (t : TileId) (f : Tile → Tile) : (s.updTile t f).eccDie = s.eccDie := rfl
@[simp] theorem State.updTile_core (s : State) (t : TileId) (f : Tile → Tile) : (s.updTile t f).core = s.core := rfl
@[simp] theorem State.updTile_others (s : State) (t : TileId) (f : Tile → Tile) : (s.updTile t f).others = s.others := rfl
@[simp] theorem State.updTile_devs (s : State) (t : TileId) (f : Tile → Tile) : (s.updTile t f).devs = s.devs := rfl
@[simp] theorem State.updTile_devCount (s : State) (t : TileId) (f : Tile → Tile) : (s.updTile t f).devCount = s.devCount := rfl
@[simp] theorem State.updTile_handleCount (s : State) (t : TileId) (f : Tile → Tile) : (s.updTile t f).handleCount = s.handleCount := rfl
@[simp] theorem State.updTile_host (s : State) (t : TileId) (f : Tile → Tile) : (s.updTile t f).host = s.host := rfl
@[simp] theorem State.updDev_powered (s : State) (n : Nat) (f : Device → Device) : (s.updDev n f).powered = s.powered := rfl
@[simp] theorem State.updDev_time (s : State) (n : Nat) (f : Device → Device) : (s.updDev n f).time = s.time := rfl
@[simp] theorem State.updDev_fresh (s : State) (n : Nat) (f : Device → Device) : (s.updDev n f).fresh = s.fresh := rfl
@[simp] theorem State.updDev_agenda (s : State) (n : Nat) (f : Device → Device) : (s.updDev n f).agenda = s.agenda := rfl
@[simp] theorem State.updDev_turn (s : State) (n : Nat) (f : Device → Device) : (s.updDev n f).turn = s.turn := rfl
@[simp] theorem State.updDev_rotor (s : State) (n : Nat) (f : Device → Device) : (s.updDev n f).rotor = s.rotor := rfl
@[simp] theorem State.updDev_retry (s : State) (n : Nat) (f : Device → Device) : (s.updDev n f).retry = s.retry := rfl
@[simp] theorem State.updDev_near (s : State) (n : Nat) (f : Device → Device) : (s.updDev n f).near = s.near := rfl
@[simp] theorem State.updDev_quarry (s : State) (n : Nat) (f : Device → Device) : (s.updDev n f).quarry = s.quarry := rfl
@[simp] theorem State.updDev_peerOut (s : State) (n : Nat) (f : Device → Device) : (s.updDev n f).peerOut = s.peerOut := rfl
@[simp] theorem State.updDev_poison (s : State) (n : Nat) (f : Device → Device) : (s.updDev n f).poison = s.poison := rfl
@[simp] theorem State.updDev_sealed (s : State) (n : Nat) (f : Device → Device) : (s.updDev n f).sealed = s.sealed := rfl
@[simp] theorem State.updDev_keyCount (s : State) (n : Nat) (f : Device → Device) : (s.updDev n f).keyCount = s.keyCount := rfl
@[simp] theorem State.updDev_overs (s : State) (n : Nat) (f : Device → Device) : (s.updDev n f).overs = s.overs := rfl
@[simp] theorem State.updDev_locks (s : State) (n : Nat) (f : Device → Device) : (s.updDev n f).locks = s.locks := rfl
@[simp] theorem State.updDev_mortar (s : State) (n : Nat) (f : Device → Device) : (s.updDev n f).mortar = s.mortar := rfl
@[simp] theorem State.updDev_returning (s : State) (n : Nat) (f : Device → Device) : (s.updDev n f).returning = s.returning := rfl
@[simp] theorem State.updDev_colls (s : State) (n : Nat) (f : Device → Device) : (s.updDev n f).colls = s.colls := rfl
@[simp] theorem State.updDev_throttle (s : State) (n : Nat) (f : Device → Device) : (s.updDev n f).throttle = s.throttle := rfl
@[simp] theorem State.updDev_eccDie (s : State) (n : Nat) (f : Device → Device) : (s.updDev n f).eccDie = s.eccDie := rfl
@[simp] theorem State.updDev_core (s : State) (n : Nat) (f : Device → Device) : (s.updDev n f).core = s.core := rfl
@[simp] theorem State.updDev_others (s : State) (n : Nat) (f : Device → Device) : (s.updDev n f).others = s.others := rfl
@[simp] theorem State.updDev_tiles (s : State) (n : Nat) (f : Device → Device) : (s.updDev n f).tiles = s.tiles := rfl
@[simp] theorem State.updDev_devCount (s : State) (n : Nat) (f : Device → Device) : (s.updDev n f).devCount = s.devCount := rfl
@[simp] theorem State.updDev_handleCount (s : State) (n : Nat) (f : Device → Device) : (s.updDev n f).handleCount = s.handleCount := rfl
@[simp] theorem State.updDev_host (s : State) (n : Nat) (f : Device → Device) : (s.updDev n f).host = s.host := rfl
@[simp] theorem State.nearWrite_powered (s : State) (a : Nat) (bs : List Byte) : (s.nearWrite a bs).powered = s.powered := rfl
@[simp] theorem State.nearWrite_time (s : State) (a : Nat) (bs : List Byte) : (s.nearWrite a bs).time = s.time := rfl
@[simp] theorem State.nearWrite_fresh (s : State) (a : Nat) (bs : List Byte) : (s.nearWrite a bs).fresh = s.fresh := rfl
@[simp] theorem State.nearWrite_agenda (s : State) (a : Nat) (bs : List Byte) : (s.nearWrite a bs).agenda = s.agenda := rfl
@[simp] theorem State.nearWrite_turn (s : State) (a : Nat) (bs : List Byte) : (s.nearWrite a bs).turn = s.turn := rfl
@[simp] theorem State.nearWrite_rotor (s : State) (a : Nat) (bs : List Byte) : (s.nearWrite a bs).rotor = s.rotor := rfl
@[simp] theorem State.nearWrite_retry (s : State) (a : Nat) (bs : List Byte) : (s.nearWrite a bs).retry = s.retry := rfl
@[simp] theorem State.nearWrite_quarry (s : State) (a : Nat) (bs : List Byte) : (s.nearWrite a bs).quarry = s.quarry := rfl
@[simp] theorem State.nearWrite_peerOut (s : State) (a : Nat) (bs : List Byte) : (s.nearWrite a bs).peerOut = s.peerOut := rfl
@[simp] theorem State.nearWrite_poison (s : State) (a : Nat) (bs : List Byte) : (s.nearWrite a bs).poison = s.poison := rfl
@[simp] theorem State.nearWrite_sealed (s : State) (a : Nat) (bs : List Byte) : (s.nearWrite a bs).sealed = s.sealed := rfl
@[simp] theorem State.nearWrite_keyCount (s : State) (a : Nat) (bs : List Byte) : (s.nearWrite a bs).keyCount = s.keyCount := rfl
@[simp] theorem State.nearWrite_overs (s : State) (a : Nat) (bs : List Byte) : (s.nearWrite a bs).overs = s.overs := rfl
@[simp] theorem State.nearWrite_locks (s : State) (a : Nat) (bs : List Byte) : (s.nearWrite a bs).locks = s.locks := rfl
@[simp] theorem State.nearWrite_mortar (s : State) (a : Nat) (bs : List Byte) : (s.nearWrite a bs).mortar = s.mortar := rfl
@[simp] theorem State.nearWrite_returning (s : State) (a : Nat) (bs : List Byte) : (s.nearWrite a bs).returning = s.returning := rfl
@[simp] theorem State.nearWrite_colls (s : State) (a : Nat) (bs : List Byte) : (s.nearWrite a bs).colls = s.colls := rfl
@[simp] theorem State.nearWrite_throttle (s : State) (a : Nat) (bs : List Byte) : (s.nearWrite a bs).throttle = s.throttle := rfl
@[simp] theorem State.nearWrite_eccDie (s : State) (a : Nat) (bs : List Byte) : (s.nearWrite a bs).eccDie = s.eccDie := rfl
@[simp] theorem State.nearWrite_core (s : State) (a : Nat) (bs : List Byte) : (s.nearWrite a bs).core = s.core := rfl
@[simp] theorem State.nearWrite_others (s : State) (a : Nat) (bs : List Byte) : (s.nearWrite a bs).others = s.others := rfl
@[simp] theorem State.nearWrite_tiles (s : State) (a : Nat) (bs : List Byte) : (s.nearWrite a bs).tiles = s.tiles := rfl
@[simp] theorem State.nearWrite_devs (s : State) (a : Nat) (bs : List Byte) : (s.nearWrite a bs).devs = s.devs := rfl
@[simp] theorem State.nearWrite_devCount (s : State) (a : Nat) (bs : List Byte) : (s.nearWrite a bs).devCount = s.devCount := rfl
@[simp] theorem State.nearWrite_handleCount (s : State) (a : Nat) (bs : List Byte) : (s.nearWrite a bs).handleCount = s.handleCount := rfl
@[simp] theorem State.nearWrite_host (s : State) (a : Nat) (bs : List Byte) : (s.nearWrite a bs).host = s.host := rfl
@[simp] theorem State.obsAdd_powered (s : State) (t : TileId) (o n : Nat) : (s.obsAdd t o n).powered = s.powered := rfl
@[simp] theorem State.obsAdd_time (s : State) (t : TileId) (o n : Nat) : (s.obsAdd t o n).time = s.time := rfl
@[simp] theorem State.obsAdd_fresh (s : State) (t : TileId) (o n : Nat) : (s.obsAdd t o n).fresh = s.fresh := rfl
@[simp] theorem State.obsAdd_agenda (s : State) (t : TileId) (o n : Nat) : (s.obsAdd t o n).agenda = s.agenda := rfl
@[simp] theorem State.obsAdd_turn (s : State) (t : TileId) (o n : Nat) : (s.obsAdd t o n).turn = s.turn := rfl
@[simp] theorem State.obsAdd_rotor (s : State) (t : TileId) (o n : Nat) : (s.obsAdd t o n).rotor = s.rotor := rfl
@[simp] theorem State.obsAdd_retry (s : State) (t : TileId) (o n : Nat) : (s.obsAdd t o n).retry = s.retry := rfl
@[simp] theorem State.obsAdd_quarry (s : State) (t : TileId) (o n : Nat) : (s.obsAdd t o n).quarry = s.quarry := rfl
@[simp] theorem State.obsAdd_peerOut (s : State) (t : TileId) (o n : Nat) : (s.obsAdd t o n).peerOut = s.peerOut := rfl
@[simp] theorem State.obsAdd_poison (s : State) (t : TileId) (o n : Nat) : (s.obsAdd t o n).poison = s.poison := rfl
@[simp] theorem State.obsAdd_sealed (s : State) (t : TileId) (o n : Nat) : (s.obsAdd t o n).sealed = s.sealed := rfl
@[simp] theorem State.obsAdd_keyCount (s : State) (t : TileId) (o n : Nat) : (s.obsAdd t o n).keyCount = s.keyCount := rfl
@[simp] theorem State.obsAdd_overs (s : State) (t : TileId) (o n : Nat) : (s.obsAdd t o n).overs = s.overs := rfl
@[simp] theorem State.obsAdd_locks (s : State) (t : TileId) (o n : Nat) : (s.obsAdd t o n).locks = s.locks := rfl
@[simp] theorem State.obsAdd_mortar (s : State) (t : TileId) (o n : Nat) : (s.obsAdd t o n).mortar = s.mortar := rfl
@[simp] theorem State.obsAdd_returning (s : State) (t : TileId) (o n : Nat) : (s.obsAdd t o n).returning = s.returning := rfl
@[simp] theorem State.obsAdd_colls (s : State) (t : TileId) (o n : Nat) : (s.obsAdd t o n).colls = s.colls := rfl
@[simp] theorem State.obsAdd_throttle (s : State) (t : TileId) (o n : Nat) : (s.obsAdd t o n).throttle = s.throttle := rfl
@[simp] theorem State.obsAdd_eccDie (s : State) (t : TileId) (o n : Nat) : (s.obsAdd t o n).eccDie = s.eccDie := rfl
@[simp] theorem State.obsAdd_core (s : State) (t : TileId) (o n : Nat) : (s.obsAdd t o n).core = s.core := rfl
@[simp] theorem State.obsAdd_others (s : State) (t : TileId) (o n : Nat) : (s.obsAdd t o n).others = s.others := rfl
@[simp] theorem State.obsAdd_tiles (s : State) (t : TileId) (o n : Nat) : (s.obsAdd t o n).tiles = s.tiles := rfl
@[simp] theorem State.obsAdd_devs (s : State) (t : TileId) (o n : Nat) : (s.obsAdd t o n).devs = s.devs := rfl
@[simp] theorem State.obsAdd_devCount (s : State) (t : TileId) (o n : Nat) : (s.obsAdd t o n).devCount = s.devCount := rfl
@[simp] theorem State.obsAdd_handleCount (s : State) (t : TileId) (o n : Nat) : (s.obsAdd t o n).handleCount = s.handleCount := rfl
@[simp] theorem State.obsAdd_host (s : State) (t : TileId) (o n : Nat) : (s.obsAdd t o n).host = s.host := rfl
@[simp] theorem State.setCore_powered (s : State) (co : Core) : (s.setCore co).powered = s.powered := by unfold State.setCore; split <;> rfl
@[simp] theorem State.setCore_time (s : State) (co : Core) : (s.setCore co).time = s.time := by unfold State.setCore; split <;> rfl
@[simp] theorem State.setCore_fresh (s : State) (co : Core) : (s.setCore co).fresh = s.fresh := by unfold State.setCore; split <;> rfl
@[simp] theorem State.setCore_agenda (s : State) (co : Core) : (s.setCore co).agenda = s.agenda := by unfold State.setCore; split <;> rfl
@[simp] theorem State.setCore_turn (s : State) (co : Core) : (s.setCore co).turn = s.turn := by unfold State.setCore; split <;> rfl
@[simp] theorem State.setCore_rotor (s : State) (co : Core) : (s.setCore co).rotor = s.rotor := by unfold State.setCore; split <;> rfl
@[simp] theorem State.setCore_retry (s : State) (co : Core) : (s.setCore co).retry = s.retry := by unfold State.setCore; split <;> rfl
@[simp] theorem State.setCore_near (s : State) (co : Core) : (s.setCore co).near = s.near := by unfold State.setCore; split <;> rfl
@[simp] theorem State.setCore_quarry (s : State) (co : Core) : (s.setCore co).quarry = s.quarry := by unfold State.setCore; split <;> rfl
@[simp] theorem State.setCore_peerOut (s : State) (co : Core) : (s.setCore co).peerOut = s.peerOut := by unfold State.setCore; split <;> rfl
@[simp] theorem State.setCore_poison (s : State) (co : Core) : (s.setCore co).poison = s.poison := by unfold State.setCore; split <;> rfl
@[simp] theorem State.setCore_sealed (s : State) (co : Core) : (s.setCore co).sealed = s.sealed := by unfold State.setCore; split <;> rfl
@[simp] theorem State.setCore_keyCount (s : State) (co : Core) : (s.setCore co).keyCount = s.keyCount := by unfold State.setCore; split <;> rfl
@[simp] theorem State.setCore_overs (s : State) (co : Core) : (s.setCore co).overs = s.overs := by unfold State.setCore; split <;> rfl
@[simp] theorem State.setCore_locks (s : State) (co : Core) : (s.setCore co).locks = s.locks := by unfold State.setCore; split <;> rfl
@[simp] theorem State.setCore_mortar (s : State) (co : Core) : (s.setCore co).mortar = s.mortar := by unfold State.setCore; split <;> rfl
@[simp] theorem State.setCore_returning (s : State) (co : Core) : (s.setCore co).returning = s.returning := by unfold State.setCore; split <;> rfl
@[simp] theorem State.setCore_colls (s : State) (co : Core) : (s.setCore co).colls = s.colls := by unfold State.setCore; split <;> rfl
@[simp] theorem State.setCore_throttle (s : State) (co : Core) : (s.setCore co).throttle = s.throttle := by unfold State.setCore; split <;> rfl
@[simp] theorem State.setCore_eccDie (s : State) (co : Core) : (s.setCore co).eccDie = s.eccDie := by unfold State.setCore; split <;> rfl
@[simp] theorem State.setCore_tiles (s : State) (co : Core) : (s.setCore co).tiles = s.tiles := by unfold State.setCore; split <;> rfl
@[simp] theorem State.setCore_devs (s : State) (co : Core) : (s.setCore co).devs = s.devs := by unfold State.setCore; split <;> rfl
@[simp] theorem State.setCore_devCount (s : State) (co : Core) : (s.setCore co).devCount = s.devCount := by unfold State.setCore; split <;> rfl
@[simp] theorem State.setCore_handleCount (s : State) (co : Core) : (s.setCore co).handleCount = s.handleCount := by unfold State.setCore; split <;> rfl
@[simp] theorem State.setCore_host (s : State) (co : Core) : (s.setCore co).host = s.host := by unfold State.setCore; split <;> rfl
@[simp] theorem State.updCore_powered (s : State) (c : CoreId) (f : Core → Core) : (s.updCore c f).powered = s.powered := by unfold State.updCore; simp
@[simp] theorem State.updCore_time (s : State) (c : CoreId) (f : Core → Core) : (s.updCore c f).time = s.time := by unfold State.updCore; simp
@[simp] theorem State.updCore_fresh (s : State) (c : CoreId) (f : Core → Core) : (s.updCore c f).fresh = s.fresh := by unfold State.updCore; simp
@[simp] theorem State.updCore_agenda (s : State) (c : CoreId) (f : Core → Core) : (s.updCore c f).agenda = s.agenda := by unfold State.updCore; simp
@[simp] theorem State.updCore_turn (s : State) (c : CoreId) (f : Core → Core) : (s.updCore c f).turn = s.turn := by unfold State.updCore; simp
@[simp] theorem State.updCore_rotor (s : State) (c : CoreId) (f : Core → Core) : (s.updCore c f).rotor = s.rotor := by unfold State.updCore; simp
@[simp] theorem State.updCore_retry (s : State) (c : CoreId) (f : Core → Core) : (s.updCore c f).retry = s.retry := by unfold State.updCore; simp
@[simp] theorem State.updCore_near (s : State) (c : CoreId) (f : Core → Core) : (s.updCore c f).near = s.near := by unfold State.updCore; simp
@[simp] theorem State.updCore_quarry (s : State) (c : CoreId) (f : Core → Core) : (s.updCore c f).quarry = s.quarry := by unfold State.updCore; simp
@[simp] theorem State.updCore_peerOut (s : State) (c : CoreId) (f : Core → Core) : (s.updCore c f).peerOut = s.peerOut := by unfold State.updCore; simp
@[simp] theorem State.updCore_poison (s : State) (c : CoreId) (f : Core → Core) : (s.updCore c f).poison = s.poison := by unfold State.updCore; simp
@[simp] theorem State.updCore_sealed (s : State) (c : CoreId) (f : Core → Core) : (s.updCore c f).sealed = s.sealed := by unfold State.updCore; simp
@[simp] theorem State.updCore_keyCount (s : State) (c : CoreId) (f : Core → Core) : (s.updCore c f).keyCount = s.keyCount := by unfold State.updCore; simp
@[simp] theorem State.updCore_overs (s : State) (c : CoreId) (f : Core → Core) : (s.updCore c f).overs = s.overs := by unfold State.updCore; simp
@[simp] theorem State.updCore_locks (s : State) (c : CoreId) (f : Core → Core) : (s.updCore c f).locks = s.locks := by unfold State.updCore; simp
@[simp] theorem State.updCore_mortar (s : State) (c : CoreId) (f : Core → Core) : (s.updCore c f).mortar = s.mortar := by unfold State.updCore; simp
@[simp] theorem State.updCore_returning (s : State) (c : CoreId) (f : Core → Core) : (s.updCore c f).returning = s.returning := by unfold State.updCore; simp
@[simp] theorem State.updCore_colls (s : State) (c : CoreId) (f : Core → Core) : (s.updCore c f).colls = s.colls := by unfold State.updCore; simp
@[simp] theorem State.updCore_throttle (s : State) (c : CoreId) (f : Core → Core) : (s.updCore c f).throttle = s.throttle := by unfold State.updCore; simp
@[simp] theorem State.updCore_eccDie (s : State) (c : CoreId) (f : Core → Core) : (s.updCore c f).eccDie = s.eccDie := by unfold State.updCore; simp
@[simp] theorem State.updCore_tiles (s : State) (c : CoreId) (f : Core → Core) : (s.updCore c f).tiles = s.tiles := by unfold State.updCore; simp
@[simp] theorem State.updCore_devs (s : State) (c : CoreId) (f : Core → Core) : (s.updCore c f).devs = s.devs := by unfold State.updCore; simp
@[simp] theorem State.updCore_devCount (s : State) (c : CoreId) (f : Core → Core) : (s.updCore c f).devCount = s.devCount := by unfold State.updCore; simp
@[simp] theorem State.updCore_handleCount (s : State) (c : CoreId) (f : Core → Core) : (s.updCore c f).handleCount = s.handleCount := by unfold State.updCore; simp
@[simp] theorem State.updCore_host (s : State) (c : CoreId) (f : Core → Core) : (s.updCore c f).host = s.host := by unfold State.updCore; simp
@[simp] theorem State.focusOn_powered (s : State) (c : CoreId) : (s.focusOn c).powered = s.powered := by unfold State.focusOn; split <;> rfl
@[simp] theorem State.focusOn_time (s : State) (c : CoreId) : (s.focusOn c).time = s.time := by unfold State.focusOn; split <;> rfl
@[simp] theorem State.focusOn_fresh (s : State) (c : CoreId) : (s.focusOn c).fresh = s.fresh := by unfold State.focusOn; split <;> rfl
@[simp] theorem State.focusOn_agenda (s : State) (c : CoreId) : (s.focusOn c).agenda = s.agenda := by unfold State.focusOn; split <;> rfl
@[simp] theorem State.focusOn_turn (s : State) (c : CoreId) : (s.focusOn c).turn = s.turn := by unfold State.focusOn; split <;> rfl
@[simp] theorem State.focusOn_rotor (s : State) (c : CoreId) : (s.focusOn c).rotor = s.rotor := by unfold State.focusOn; split <;> rfl
@[simp] theorem State.focusOn_retry (s : State) (c : CoreId) : (s.focusOn c).retry = s.retry := by unfold State.focusOn; split <;> rfl
@[simp] theorem State.focusOn_near (s : State) (c : CoreId) : (s.focusOn c).near = s.near := by unfold State.focusOn; split <;> rfl
@[simp] theorem State.focusOn_quarry (s : State) (c : CoreId) : (s.focusOn c).quarry = s.quarry := by unfold State.focusOn; split <;> rfl
@[simp] theorem State.focusOn_peerOut (s : State) (c : CoreId) : (s.focusOn c).peerOut = s.peerOut := by unfold State.focusOn; split <;> rfl
@[simp] theorem State.focusOn_poison (s : State) (c : CoreId) : (s.focusOn c).poison = s.poison := by unfold State.focusOn; split <;> rfl
@[simp] theorem State.focusOn_sealed (s : State) (c : CoreId) : (s.focusOn c).sealed = s.sealed := by unfold State.focusOn; split <;> rfl
@[simp] theorem State.focusOn_keyCount (s : State) (c : CoreId) : (s.focusOn c).keyCount = s.keyCount := by unfold State.focusOn; split <;> rfl
@[simp] theorem State.focusOn_overs (s : State) (c : CoreId) : (s.focusOn c).overs = s.overs := by unfold State.focusOn; split <;> rfl
@[simp] theorem State.focusOn_locks (s : State) (c : CoreId) : (s.focusOn c).locks = s.locks := by unfold State.focusOn; split <;> rfl
@[simp] theorem State.focusOn_mortar (s : State) (c : CoreId) : (s.focusOn c).mortar = s.mortar := by unfold State.focusOn; split <;> rfl
@[simp] theorem State.focusOn_returning (s : State) (c : CoreId) : (s.focusOn c).returning = s.returning := by unfold State.focusOn; split <;> rfl
@[simp] theorem State.focusOn_colls (s : State) (c : CoreId) : (s.focusOn c).colls = s.colls := by unfold State.focusOn; split <;> rfl
@[simp] theorem State.focusOn_throttle (s : State) (c : CoreId) : (s.focusOn c).throttle = s.throttle := by unfold State.focusOn; split <;> rfl
@[simp] theorem State.focusOn_eccDie (s : State) (c : CoreId) : (s.focusOn c).eccDie = s.eccDie := by unfold State.focusOn; split <;> rfl
@[simp] theorem State.focusOn_tiles (s : State) (c : CoreId) : (s.focusOn c).tiles = s.tiles := by unfold State.focusOn; split <;> rfl
@[simp] theorem State.focusOn_devs (s : State) (c : CoreId) : (s.focusOn c).devs = s.devs := by unfold State.focusOn; split <;> rfl
@[simp] theorem State.focusOn_devCount (s : State) (c : CoreId) : (s.focusOn c).devCount = s.devCount := by unfold State.focusOn; split <;> rfl
@[simp] theorem State.focusOn_handleCount (s : State) (c : CoreId) : (s.focusOn c).handleCount = s.handleCount := by unfold State.focusOn; split <;> rfl
@[simp] theorem State.focusOn_host (s : State) (c : CoreId) : (s.focusOn c).host = s.host := by unfold State.focusOn; split <;> rfl

/-! What an update gives. -/

@[simp] theorem Ctx.warnOr_warn (c : Ctx) (w : Warn) : (c.warnOr w).warn = c.warn ||| w := rfl
@[simp] theorem Ctx.fpfOr_fpf (c : Ctx) (f : Flags) : (c.fpfOr f).fpf = c.fpf ||| f := rfl
@[simp] theorem Ctx.usePrefix_pfx (c : Ctx) : c.usePrefix.pfx = false := rfl
@[simp] theorem Ctx.dropPrefix_pfx (c : Ctx) : c.dropPrefix.pfx = false := by
  unfold Ctx.dropPrefix; split <;> simp_all
@[simp] theorem Ctx.endRep_rep (c : Ctx) : c.endRep.rep = none := by
  unfold Ctx.endRep; split <;> simp_all
@[simp] theorem Ctx.advance_pc (c : Ctx) (k : Nat) (h : c.rep = none) : (c.advance k).pc = c.pc + BitVec.ofNat 64 k := by
  simp [Ctx.advance, h]

/-- x0 reads as zero (R59). -/
@[simp] theorem Ctx.getX_zero (c : Ctx) : c.getX 0 = 0 := rfl
/-- A write of x0 is discarded (R59). -/
@[simp] theorem Ctx.setX_zero (c : Ctx) (v : Word) : c.setX 0 v = c := rfl
theorem Ctx.getX_setX_same (c : Ctx) (n : Fin 32) (v : Word) (h : n ≠ 0) : (c.setX n v).getX n = v := by
  simp [Ctx.getX, Ctx.setX, h]
theorem Ctx.getX_setX_other (c : Ctx) (n k : Fin 32) (v : Word) (h : k ≠ n) : (c.setX n v).getX k = c.getX k := by
  unfold Ctx.getX Ctx.setX
  by_cases hn : n = 0
  · simp [hn]
  · have : (n : Nat) ≠ k := fun e => h (Fin.ext e.symm)
    simp [hn, Vector.getElem_set_ne _ _ this]
theorem Ctx.getX_setX (c : Ctx) (n k : Fin 32) (v : Word) :
    (c.setX n v).getX k = if k = n ∧ n ≠ 0 then v else c.getX k := by
  by_cases h : k = n
  · by_cases hn : n = 0
    · subst h; simp [hn]
    · subst h; simp [hn, Ctx.getX_setX_same]
  · simp [h, Ctx.getX_setX_other]

end Sys2Proof.Machine
end

