-- ==== Sys2Proof/Laws/Issue.lean ====
section
/-! SUPPORT. How a meaning is put together and how it ends: the answers of the meaning monad, of an instruction's issue and
of its outcome, cited instead of being unfolded. -/

namespace Sys2Proof.Machine

/-! The meaning monad. -/

theorem M.bind_ok {α β : Type} {m : M α} {f : α → M β} {s t : State} {a : α} (h : m s = .ok (a, t)) : (m >>= f) s = f a t := by
  show (m s).bind (fun p => f p.1 p.2) = f a t
  rw [h]; rfl
theorem M.bind_error {α β : Type} {m : M α} {f : α → M β} {s : State} {e : Stop} (h : m s = .error e) :
    (m >>= f) s = .error e := by
  show (m s).bind (fun p => f p.1 p.2) = .error e
  rw [h]; rfl
/-- What a sequence that completes has done. -/
theorem M.bind_eq_ok {α β : Type} {m : M α} {f : α → M β} {s t : State} {b : β} :
    (m >>= f) s = .ok (b, t) ↔ ∃ a u, m s = .ok (a, u) ∧ f a u = .ok (b, t) := by
  cases h : m s with
  | error e => rw [M.bind_error h]; simp
  | ok p =>
    obtain ⟨a, u⟩ := p
    rw [M.bind_ok h]
    constructor
    · exact fun hf => ⟨a, u, rfl, hf⟩
    · rintro ⟨a', u', he, hf⟩; cases he; exact hf
theorem M.pure_run {α : Type} (a : α) (s : State) : (pure a : M α) s = .ok (a, s) := rfl
@[simp] theorem getS_run (s : State) : getS s = .ok (s, s) := rfl
@[simp] theorem getC_run (s : State) : getC s = .ok (s.core.ctx, s) := rfl
@[simp] theorem setS_run (t s : State) : setS t s = .ok ((), t) := rfl
@[simp] theorem modS_run (f : State → State) (s : State) : modS f s = .ok ((), f s) := rfl
@[simp] theorem modC_run (f : Ctx → Ctx) (s : State) : modC f s = .ok ((), s.mapCtx f) := rfl
@[simp] theorem warn_run (c : Bool) (w : Warn) (s : State) :
    warn c w s = .ok ((), if c then s.mapCtx (·.warnOr w) else s) := by
  cases c <;> rfl
@[simp] theorem raiseFp_run (f : Flags) (s : State) : raiseFp f s = .ok ((), s.mapCtx (·.fpfOr f)) := rfl
@[simp] theorem whenM_true (m : M Unit) : whenM true m = m := rfl
theorem whenM_false_run (m : M Unit) (s : State) : whenM false m s = .ok ((), s) := rfl

/-! Outcomes. -/

/-- Every answer is a next state, and no meaning stops the machine. -/
theorem outcome_next (s0 : State) (r : Except Stop (Unit × State)) : ∃ t, outcome s0 r = .next t := by
  unfold outcome; split <;> exact ⟨_, rfl⟩

theorem retire_run (n : Nat) (s : State) :
    retire n s = .ok ((), stepTrap ((retireCore s).mapCtx fun c => c.advance n)) := rfl

/-- An instruction whose body completes. -/
theorem issue_ok {s u : State} {n : Nat} {body : M Unit} (h : body (s.mapCtx Ctx.dropPrefix) = .ok ((), u)) :
    issue s n body = .next (stepTrap ((retireCore u).mapCtx fun c => c.advance n)) := by
  unfold issue
  rw [M.bind_ok (modC_run _ _), M.bind_ok h]
  rfl
theorem issueTarget_ok {s u : State} {n : Nat} {body : M Unit} (h : body s = .ok ((), u)) :
    issueTarget s n body = .next (stepTrap ((retireCore (u.mapCtx Ctx.usePrefix)).mapCtx fun c => c.advance n)) := by
  unfold issueTarget
  rw [M.bind_ok h, M.bind_ok (modC_run _ _)]
  rfl

/-- Everything an instruction can do: it completes over what its body leaves, or its body stops. -/
theorem issue_cases {s t : State} {n : Nat} {body : M Unit} (h : issue s n body = .next t) :
    (∃ u, body (s.mapCtx Ctx.dropPrefix) = .ok ((), u) ∧ t = stepTrap ((retireCore u).mapCtx fun c => c.advance n))
      ∨ (∃ e, body (s.mapCtx Ctx.dropPrefix) = .error e ∧ outcome s (.error e) = .next t) := by
  cases hb : body (s.mapCtx Ctx.dropPrefix) with
  | ok p =>
    obtain ⟨⟨⟩, u⟩ := p
    rw [issue_ok hb] at h
    cases h
    exact .inl ⟨u, rfl, rfl⟩
  | error e =>
    refine .inr ⟨e, rfl, ?_⟩
    unfold issue at h
    rwa [M.bind_ok (modC_run _ _), M.bind_error hb] at h

end Sys2Proof.Machine
end

