-- ==== Sys2Proof/Laws/Memory.lean ====
section
/-! SUPPORT. The byte memories: every operation keeps the canonical form, and what a read finds after a write. -/

namespace Sys2Proof.Machine

/-! The canonical form. -/

theorem memWfFrom_cons {lo a : Nat} {v : Byte} {m : Memory} :
    memWfFrom lo ((a, v) :: m) = true ↔ lo ≤ a ∧ v ≠ 0 ∧ memWfFrom (a + 1) m = true := by
  simp [memWfFrom, and_assoc]

theorem memWfFrom_mono {lo lo' : Nat} {m : Memory} (h : memWfFrom lo m = true) (hl : lo' ≤ lo) :
    memWfFrom lo' m = true := by
  cases m with
  | nil => rfl
  | cons p m =>
    obtain ⟨a, v⟩ := p
    rw [memWfFrom_cons] at h ⊢
    exact ⟨hl.trans h.1, h.2⟩

theorem memSet_wfFrom {m : Memory} {lo a : Nat} {v : Byte} (h : memWfFrom lo m = true) (ha : lo ≤ a) :
    memWfFrom lo (memSet m a v) = true := by
  induction m generalizing lo with
  | nil =>
    simp only [memSet]
    split
    · rfl
    · rw [memWfFrom_cons]; exact ⟨ha, ‹_›, rfl⟩
  | cons p m ih =>
    obtain ⟨b, w⟩ := p
    rw [memWfFrom_cons] at h
    obtain ⟨hb, hw, hm⟩ := h
    simp only [memSet]
    split_ifs with h1 h2 h3 h4
    · rw [memWfFrom_cons]; exact ⟨hb, hw, hm⟩
    · rw [memWfFrom_cons, memWfFrom_cons]; exact ⟨ha, h2, h1, hw, hm⟩
    · exact memWfFrom_mono hm (by omega)
    · rw [memWfFrom_cons]; exact ⟨ha, h4, by rw [h3]; exact hm⟩
    · rw [memWfFrom_cons]; exact ⟨hb, hw, ih hm (by omega)⟩

theorem memSet_wf {m : Memory} (h : memWf m = true) (a : Nat) (v : Byte) : memWf (memSet m a v) = true :=
  memSet_wfFrom h (Nat.zero_le a)

theorem memWrite_wf {m : Memory} (h : memWf m = true) (a : Nat) (bs : List Byte) : memWf (memWrite m a bs) = true := by
  induction bs generalizing m a with
  | nil => exact h
  | cons b bs ih => exact ih (memSet_wf h a b) (a + 1)

theorem memWriteAll_wf {m : Memory} (h : memWf m = true) (cs : List (Nat × Byte)) : memWf (memWriteAll m cs) = true := by
  induction cs generalizing m with
  | nil => exact h
  | cons c cs ih => exact ih (memSet_wf h c.1 c.2)

theorem memFilter_wfFrom {m : Memory} {lo : Nat} (h : memWfFrom lo m = true) (p : Nat × Byte → Bool) :
    memWfFrom lo (m.filter p) = true := by
  induction m generalizing lo with
  | nil => rfl
  | cons c m ih =>
    obtain ⟨a, v⟩ := c
    rw [memWfFrom_cons] at h
    obtain ⟨ha, hv, hm⟩ := h
    rw [List.filter_cons]
    split
    · rw [memWfFrom_cons]; exact ⟨ha, hv, ih hm⟩
    · exact memWfFrom_mono (ih hm) (by omega)

theorem memFilter_wf {m : Memory} (h : memWf m = true) (p : Nat × Byte → Bool) : memWf (m.filter p) = true :=
  memFilter_wfFrom h p
theorem memClear_wf {m : Memory} (h : memWf m = true) (lo n : Nat) : memWf (memClear m lo n) = true := memFilter_wf h _
theorem memCells_wf {m : Memory} (h : memWf m = true) (lo n : Nat) : memWf (memCells m lo n) = true := memFilter_wf h _

/-! What a read finds. -/

theorem memGet_below {m : Memory} {lo a : Nat} (h : memWfFrom lo m = true) (ha : a < lo) : memGet m a = 0 := by
  induction m generalizing lo with
  | nil => rfl
  | cons c m ih =>
    obtain ⟨b, v⟩ := c
    rw [memWfFrom_cons] at h
    have hb : ¬ a = b := by omega
    simp only [memGet, if_neg hb]
    exact ih h.2.2 (by omega)

theorem memGet_memSet_from {m : Memory} {lo : Nat} (h : memWfFrom lo m = true) (a b : Nat) (v : Byte) :
    memGet (memSet m a v) b = if b = a then v else memGet m b := by
  induction m generalizing lo with
  | nil =>
    simp only [memSet]
    split_ifs with h1 h2 h2
    · rw [h1]; rfl
    · rfl
    · simp only [memGet, if_pos h2]
    · simp only [memGet, if_neg h2]
  | cons c m ih =>
    obtain ⟨k, w⟩ := c
    rw [memWfFrom_cons] at h
    obtain ⟨hk, hw, hm⟩ := h
    have below : a < k → memGet ((k, w) :: m) a = 0 := fun hl => by
      rw [show memGet ((k, w) :: m) a = memGet m a from by simp only [memGet, if_neg (show ¬ a = k by omega)]]
      exact memGet_below hm (by omega)
    simp only [memSet]
    split_ifs with h1 h2 h3 h3 h4 h5 h6 h6
    · subst h3; rw [h2]; exact below h1
    · rfl
    · rw [h3]; simp [memGet]
    · simp only [memGet, if_neg h3]
    · rw [h6, h4, h5]; exact memGet_below hm (by omega)
    · simp only [memGet, if_neg (show ¬ b = k from fun hb => h6 (hb.trans h4.symm))]
    · simp only [memGet, if_pos ‹b = a›]
    · simp only [memGet, if_neg ‹¬ b = a›, if_neg (show ¬ b = k from fun hb => ‹¬ b = a› (hb.trans h4.symm))]
    · simp only [memGet, if_neg (show ¬ b = k by omega)]
      rw [ih hm, if_pos ‹b = a›]
    · simp only [memGet]
      split_ifs with h8
      · rfl
      · rw [ih hm, if_neg ‹¬ b = a›]

/-- A read after a write of one byte. -/
theorem memGet_memSet {m : Memory} (h : memWf m = true) (a b : Nat) (v : Byte) :
    memGet (memSet m a v) b = if b = a then v else memGet m b := memGet_memSet_from h a b v

theorem memGet_memWrite_out {m : Memory} (h : memWf m = true) (a b : Nat) (bs : List Byte) (hb : b < a ∨ a + bs.length ≤ b) :
    memGet (memWrite m a bs) b = memGet m b := by
  induction bs generalizing m a with
  | nil => rfl
  | cons x bs ih =>
    simp only [List.length_cons] at hb
    simp only [memWrite]
    rw [ih (memSet_wf h a x) (a + 1) (by omega), memGet_memSet h, if_neg (by omega)]

theorem memGet_memWrite_in {m : Memory} (h : memWf m = true) (a i : Nat) (bs : List Byte) (hi : i < bs.length) :
    memGet (memWrite m a bs) (a + i) = bs[i] := by
  induction bs generalizing m a i with
  | nil => simp at hi
  | cons x bs ih =>
    simp only [memWrite]
    cases i with
    | zero =>
      rw [memGet_memWrite_out (memSet_wf h a x) _ _ _ (by omega), memGet_memSet h]
      simp
    | succ i =>
      have := ih (memSet_wf h a x) (a + 1) i (by simpa using hi)
      rw [show a + (i + 1) = a + 1 + i by omega, this]
      simp

theorem memRead_length (m : Memory) (a n : Nat) : (memRead m a n).length = n := by
  induction n generalizing a with
  | zero => rfl
  | succ n ih => simp [memRead, ih]

theorem memRead_get (m : Memory) (a n i : Nat) (h : i < n) :
    (memRead m a n)[i]'(by rw [memRead_length]; exact h) = memGet m (a + i) := by
  induction n generalizing a i with
  | zero => omega
  | succ n ih =>
    cases i with
    | zero => simp [memRead]
    | succ i =>
      simp only [memRead, List.getElem_cons_succ]
      rw [ih (a + 1) i (by omega)]
      congr 1
      omega

/-- A read of what was just written. -/
theorem memRead_memWrite {m : Memory} (h : memWf m = true) (a : Nat) (bs : List Byte) :
    memRead (memWrite m a bs) a bs.length = bs := by
  apply List.ext_getElem
  · exact memRead_length _ _ _
  · intro i h1 h2
    rw [memRead_get _ _ _ _ h2, memGet_memWrite_in h _ _ _ h2]

theorem memGet_memClear (m : Memory) (lo n a : Nat) :
    memGet (memClear m lo n) a = if lo ≤ a ∧ a < lo + n then 0 else memGet m a := by
  induction m with
  | nil => simp [memClear, memGet]
  | cons c m ih =>
    obtain ⟨b, v⟩ := c
    have ih' : memGet (m.filter fun c => !(lo ≤ c.1 && c.1 < lo + n)) a = if lo ≤ a ∧ a < lo + n then 0 else memGet m a := ih
    simp only [memClear, List.filter_cons]
    by_cases hb : lo ≤ b ∧ b < lo + n
    · rw [if_neg (by simp [hb.1, hb.2]), ih']
      split_ifs with h1
      · rfl
      · simp only [memGet, if_neg (show ¬ a = b by rintro rfl; exact h1 hb)]
    · rw [if_pos (by simp; omega)]
      simp only [memGet]
      rw [ih']
      split_ifs with h1 h2 <;> first | rfl | (subst h1; exact absurd h2 hb)

/-- Two memories in canonical form that read the same are the same. -/
theorem memWfFrom_ext {lo : Nat} {m n : Memory} (hm : memWfFrom lo m = true) (hn : memWfFrom lo n = true)
    (h : ∀ a, memGet m a = memGet n a) : m = n := by
  induction m generalizing lo n with
  | nil =>
    cases n with
    | nil => rfl
    | cons c n =>
      obtain ⟨b, w⟩ := c
      rw [memWfFrom_cons] at hn
      have := h b
      simp [memGet] at this
      exact absurd this.symm hn.2.1
  | cons c m ih =>
    obtain ⟨a, v⟩ := c
    rw [memWfFrom_cons] at hm
    cases n with
    | nil =>
      have := h a
      simp [memGet] at this
      exact absurd this hm.2.1
    | cons d n =>
      obtain ⟨b, w⟩ := d
      rw [memWfFrom_cons] at hn
      have hab : a = b := by
        rcases Nat.lt_trichotomy a b with hl | he | hl
        · have := h a
          simp only [memGet, if_true, if_neg (show ¬ a = b by omega)] at this
          rw [memGet_below hn.2.2 (by omega)] at this
          exact absurd this hm.2.1
        · exact he
        · have := h b
          simp only [memGet, if_true, if_neg (show ¬ b = a by omega)] at this
          rw [memGet_below hm.2.2 (by omega)] at this
          exact absurd this.symm hn.2.1
      subst hab
      have hv : v = w := by
        have := h a
        simpa [memGet] using this
      subst hv
      congr 1
      apply ih hm.2.2 hn.2.2
      intro k
      by_cases hk : k = a
      · subst hk
        rw [memGet_below hm.2.2 (by omega), memGet_below hn.2.2 (by omega)]
      · have := h k
        simpa [memGet, hk] using this

theorem memWf_ext {m n : Memory} (hm : memWf m = true) (hn : memWf n = true) (h : ∀ a, memGet m a = memGet n a) : m = n :=
  memWfFrom_ext hm hn h

/-! Little-endian bytes. -/

theorem leBytes_length (n v : Nat) : (leBytes n v).length = n := by
  induction n generalizing v with
  | zero => rfl
  | succ n ih => simp [leBytes, ih]

theorem leNat_leBytes (n v : Nat) : leNat (leBytes n v) = v % 256 ^ n := by
  induction n generalizing v with
  | zero => simp [leBytes, leNat, Nat.mod_one]
  | succ n ih =>
    simp only [leBytes, leNat, ih, BitVec.toNat_ofNat]
    rw [show 256 ^ (n + 1) = 256 * 256 ^ n by ring, Nat.mod_mul, show 2 ^ 8 = 256 from rfl]

theorem leNat_lt (bs : List Byte) : leNat bs < 256 ^ bs.length := by
  induction bs with
  | nil => simp [leNat]
  | cons b bs ih =>
    simp only [leNat, List.length_cons, Nat.pow_succ]
    have := b.isLt
    omega

theorem bytesWord_wordBytes (w : Word) : bytesWord (wordBytes w) = w := by
  simp only [bytesWord, wordBytes, leNat_leBytes]
  apply BitVec.eq_of_toNat_eq
  have := w.isLt
  simp only [BitVec.toNat_ofNat]
  norm_num at this ⊢
  omega

theorem fitBytes_length (n : Nat) (bs : List Byte) : (fitBytes n bs).length = n := by
  induction n generalizing bs with
  | zero => rfl
  | succ n ih => cases bs <;> simp [fitBytes, ih]

theorem wordBytes_length (w : Word) : (wordBytes w).length = 8 := leBytes_length _ _

end Sys2Proof.Machine
end

