-- ==== Sys2Proof/Safety.lean ====
section
/-! DEFINITION. What claims take as a safe run: an invariant of the state, and a run that never faults or is refused. -/

namespace Sys2Proof

/-- The byte memories of the package keep their canonical form. -/
def Machine.State.memOk (s : Machine.State) : Prop :=
  Machine.memWf s.near = true ∧ Machine.memWf s.quarry = true

/-- A run of k steps that neither faults nor is refused. -/
def runsFor : Nat → Machine.State → Prop
  | 0, _ => True
  | k + 1, s => ∃ t, Machine.step s = .next t ∧ runsFor k t

end Sys2Proof
end

