-- ==== Sys2Proof/Laws/Keep.lean ====
section
/-! SUPPORT. The byte memories stay in canonical form through the shared operations: updates of State, accesses, drains, the
matrix unit, gathers, migration, taking a trap, and an instruction's issue and retirement. -/

namespace Sys2Proof.Machine

/-! Updates. -/

theorem memOk_of_eq {s t : State} (h : s.memOk) (hn : t.near = s.near) (hq : t.quarry = s.quarry) : t.memOk := by
  unfold State.memOk at *
  rw [hn, hq]; exact h

theorem memOk_mapCtx {s : State} (h : s.memOk) (f : Ctx → Ctx) : (s.mapCtx f).memOk := memOk_of_eq h rfl rfl
theorem memOk_updTile {s : State} (h : s.memOk) (t : TileId) (f : Tile → Tile) : (s.updTile t f).memOk := memOk_of_eq h rfl rfl
theorem memOk_updDev {s : State} (h : s.memOk) (n : Nat) (f : Device → Device) : (s.updDev n f).memOk := memOk_of_eq h rfl rfl
theorem memOk_setCore {s : State} (h : s.memOk) (co : Core) : (s.setCore co).memOk := memOk_of_eq h (by simp) (by simp)
theorem memOk_updCore {s : State} (h : s.memOk) (c : CoreId) (f : Core → Core) : (s.updCore c f).memOk :=
  memOk_of_eq h (by simp) (by simp)
theorem memOk_focusOn {s : State} (h : s.memOk) (c : CoreId) : (s.focusOn c).memOk := memOk_of_eq h (by simp) (by simp)
theorem memOk_near {s : State} (h : s.memOk) {m : Memory} (hm : memWf m = true) : { s with near := m }.memOk := ⟨hm, h.2⟩
theorem memOk_quarry {s : State} (h : s.memOk) {m : Memory} (hm : memWf m = true) : { s with quarry := m }.memOk := ⟨h.1, hm⟩

theorem memOk_foldl {α : Type} {f : State → α → State} (hf : ∀ s a, s.memOk → (f s a).memOk) (l : List α) {s : State}
    (h : s.memOk) : (l.foldl f s).memOk := by
  induction l generalizing s with
  | nil => exact h
  | cons a l ih => exact ih (hf s a h)

/-! Near and far bytes. -/

theorem obsReset_wf {m : Memory} (h : memWf m = true) (a : Nat) : memWf (obsReset a m) = true := by
  unfold obsReset; dsimp only; split_ifs <;> first | exact memClear_wf h _ _ | exact h

theorem nearSet_wf {m : Memory} (h : memWf m = true) (a : Nat) (b : Byte) : memWf (nearSet m a b) = true := by
  unfold nearSet
  split
  · split
    · exact h
    · exact memSet_wf (obsReset_wf h a) a _
  · exact memSet_wf h a b

theorem nearWriteCells_wf {m : Memory} (h : memWf m = true) (cs : List (Nat × Byte)) : memWf (nearWriteCells m cs) = true := by
  induction cs generalizing m with
  | nil => exact h
  | cons c cs ih => exact ih (nearSet_wf h c.1 c.2)

theorem imageWrite_wf {m : Memory} (h : memWf m = true) (base : Nat) (cs : List (Nat × Byte)) :
    memWf (imageWrite m base cs) = true := memWriteAll_wf (memClear_wf h _ _) _

theorem memOk_nearWrite {s : State} (h : s.memOk) (a : Nat) (bs : List Byte) : (s.nearWrite a bs).memOk :=
  memOk_near h (nearWriteCells_wf h.1 _)
theorem memOk_obsAdd {s : State} (h : s.memOk) (t : TileId) (o n : Nat) : (s.obsAdd t o n).memOk := by
  refine memOk_near h ?_
  split
  · exact h.1
  · exact memWrite_wf h.1 _ _

theorem memOk_traceAt {s : State} (h : s.memOk) (c : CoreId) (e : Nat) (m d : Word) : (s.traceAt c e m d).memOk := by
  unfold State.traceAt
  dsimp only
  split_ifs
  · exact memOk_updCore h _ _
  · exact memOk_obsAdd h _ _ _
  · exact h
theorem memOk_trace {s : State} (h : s.memOk) (e : Nat) (d : Word) : (s.trace e d).memOk := memOk_traceAt h _ _ _ _

theorem memOk_sealOne {s : State} (h : s.memOk) (k g : Nat) : (sealOne k s g).memOk := by
  unfold sealOne; split
  · exact h
  · exact memOk_of_eq h rfl rfl
theorem memOk_farWrite {s : State} (h : s.memOk) (t : TileId) (k : Nat) (cs : List (Nat × Byte)) : (farWrite s t k cs).memOk := by
  unfold farWrite
  extract_lets bad q p s1 s2
  have h1 : s1.memOk := memOk_foldl (fun _ g hs => memOk_sealOne hs k g) _ (memOk_quarry h (memWriteAll_wf h.2 _))
  have h2 : s2.memOk := by
    simp only [s2]; split
    · exact h1
    · exact memOk_updTile h1 _ _
  split
  · exact h2
  · exact memOk_of_eq h2 rfl rfl
theorem memOk_taskFarWrite {s : State} (h : s.memOk) (va : Nat) (cs : List (Nat × Byte)) (u : BitVec 3) :
    (taskFarWrite s va cs u).memOk := by
  unfold taskFarWrite
  extract_lets s1
  have h1 : s1.memOk := memOk_farWrite h _ _ _
  split
  · exact h1
  · exact memOk_mapCtx h1 _

theorem memOk_farRead {s : State} (h : s.memOk) (ps : List Nat) (c : Bool) : (farRead s ps c).2.memOk := by
  unfold farRead
  dsimp only
  split_ifs <;> exact h

theorem memOk_translate {s t : State} {va pa : Nat} {need : Need} {w : Bool} (h : s.memOk)
    (he : translate va need w s = .ok (pa, t)) : t.memOk := by
  have fill : ∀ (u : State) (x : TileId) (f : Tile → Tile) (c : CoreId) (g : Core → Core), u.memOk →
      ((u.updTile x f).updCore c g).memOk := fun u x f c g hu => memOk_updCore (memOk_updTile hu x f) c g
  unfold translate at he
  dsimp only at he
  repeat' first
    | (split at he)
    | (cases he)
  all_goals first
    | exact h
    | exact fill _ _ _ _ _ h
    | skip
  all_goals
    rename_i hu
    split at hu <;> (try split at hu) <;> cases hu
    exact fill _ _ _ _ _ (memOk_quarry h (memWriteAll_wf h.2 _))

/-! Meanings: what they answer has canonical memories. -/

/-- Every state that an answer carries has canonical memories. -/
def answerOk {α : Type} : Except Stop (α × State) → Prop
  | .ok (_, t) => t.memOk
  | .error (.trapIn _ t) => t.memOk
  | .error (.stallIn _ t) => t.memOk
  | .error (.stallDo _ f) => ∀ u : State, u.memOk → (f u).memOk
  | .error (.trap _) => True
  | .error (.stall _) => True

/-- A meaning that keeps the memories canonical. -/
def Keeps {α : Type} (m : M α) : Prop := ∀ s : State, s.memOk → answerOk (m s)

theorem keeps_pure {α : Type} (a : α) : Keeps (pure a : M α) := fun _ h => h
theorem keeps_bind {α β : Type} {m : M α} {f : α → M β} (hm : Keeps m) (hf : ∀ a, Keeps (f a)) : Keeps (m >>= f) := by
  intro s h
  have h1 := hm s h
  show answerOk ((m s).bind fun p => f p.1 p.2)
  cases hr : m s with
  | error e => rw [hr] at h1; cases e <;> exact h1
  | ok p => rw [hr] at h1; exact hf p.1 p.2 h1
theorem keeps_stopTrap {α : Type} (t : Trap) : Keeps (stopTrap t : M α) := fun _ _ => trivial
theorem keeps_stopStall {α : Type} (r : Stall) : Keeps (stopStall r : M α) := fun _ _ => trivial
theorem keeps_stopStallIn {α : Type} (r : Stall) : Keeps (stopStallIn r : M α) := fun _ h => h
theorem keeps_stopStallDo {α : Type} (r : Stall) {f : State → State} (hf : ∀ s : State, s.memOk → (f s).memOk) :
    Keeps (stopStallDo r f : M α) := fun _ _ => hf
theorem keeps_stopTrapHere {α : Type} (t : Trap) : Keeps (stopTrapHere t : M α) := fun _ h => h
theorem keeps_getC : Keeps getC := fun _ h => h
theorem keeps_modS {f : State → State} (hf : ∀ s, s.memOk → (f s).memOk) : Keeps (modS f) := fun s h => hf s h
theorem keeps_modC (f : Ctx → Ctx) : Keeps (modC f) := fun _ h => memOk_mapCtx h f
theorem keeps_whenM {c : Bool} {m : M Unit} (hm : Keeps m) : Keeps (whenM c m) := by
  unfold whenM; split
  · exact hm
  · exact keeps_modS fun _ h => h
theorem keeps_warn (c : Bool) (w : Warn) : Keeps (warn c w) := keeps_modC _
theorem keeps_raiseFp (f : Flags) : Keeps (raiseFp f) := keeps_modC _
theorem keeps_eachM {α : Type} {f : α → M Unit} (hf : ∀ a, Keeps (f a)) (l : List α) : Keeps (eachM f l) := by
  induction l with
  | nil => exact keeps_modS fun _ h => h
  | cons a l ih => exact keeps_bind (hf a) fun _ => ih
theorem keeps_mapM' {α β : Type} {f : α → M β} (hf : ∀ a, Keeps (f a)) (l : List α) : Keeps (mapM' f l) := by
  induction l with
  | nil => exact keeps_pure _
  | cons a l ih => exact keeps_bind (hf a) fun _ => keeps_bind ih fun _ => keeps_pure _
/-- A meaning that reads the state first: its rest may use that the state is canonical. -/
theorem keeps_getS {α : Type} {f : State → M α} (hf : ∀ s : State, s.memOk → answerOk (f s s)) : Keeps (getS >>= f) :=
  fun s h => hf s h

theorem keeps_farPlace (va n : Nat) (need : Need) (w : Bool) (u : BitVec 3) (k : Nat) :
    Keeps (farPlace va n need w u k) := by
  induction k generalizing va n with
  | zero => exact keeps_pure _
  | succ k ih =>
    unfold farPlace
    split_ifs
    · exact keeps_pure _
    · exact keeps_stopTrap _
    · apply keeps_getS
      intro s h
      cases ht : translate va need w s with
      | error c => trivial
      | ok p =>
        obtain ⟨pa, t⟩ := p
        have h1 : t.memOk := memOk_translate h ht
        dsimp only
        generalize (!match s.dev with | some d => peerSpanOk d pa (min n (4096 - va % 4096)) | none => true) = b
        cases b
        · exact (keeps_bind (ih (va + min n (4096 - va % 4096)) (n - min n (4096 - va % 4096))) fun _ => keeps_pure _) t h1
        · trivial

theorem keeps_place (ea : Word) (n : Nat) (need : Need) (w : Bool) (u : BitVec 3) : Keeps (place ea n need w u) := by
  unfold place
  dsimp only
  split_ifs
  · exact keeps_stopTrap _
  · exact keeps_stopTrap _
  · apply keeps_getS
    intro s h
    split_ifs
    · exact h
    · trivial
  · exact keeps_bind (keeps_farPlace _ _ _ _ _ _) fun _ => keeps_pure _

theorem keeps_aligned (ea : Word) (k : Nat) (w : Bool) (u : BitVec 3) : Keeps (aligned ea k w u) := by
  unfold aligned; split
  · exact keeps_modS fun _ h => h
  · exact keeps_stopTrap _

theorem keeps_holdCheck (a : Nat) (w : Bool) (u : BitVec 3) : Keeps (holdCheck a w u) := keeps_modC _
theorem keeps_ifClean {c : Ctx} {m : M Unit} (hm : Keeps m) : Keeps (ifClean c m) :=
  keeps_bind keeps_getC fun _ => keeps_whenM hm
/-- What `judged` answers: the state keeps its memories canonical. -/
theorem judged_ok {α : Type} {m : M α} (hm : Keeps m) {s t : State} {a : α} {ts : List Trap} (h : s.memOk)
    (he : judged m s = .ok (a, ts, t)) : t.memOk := by
  have h1 := hm _ (memOk_mapCtx h fun c => { c with asyncs := [] })
  unfold judged at he
  split at he
  · rename_i hr
    rw [hr] at h1
    cases he
    exact memOk_mapCtx h1 _
  · cases he
theorem judged_error {α β : Type} {m : M α} (hm : Keeps m) {s : State} {e : Stop} (h : s.memOk) (he : judged m s = .error e) :
    answerOk (.error e : Except Stop (β × State)) := by
  have h1 := hm _ (memOk_mapCtx h fun c => { c with asyncs := [] })
  unfold judged at he
  split at he
  · cases he
  · rename_i hr
    rw [hr] at h1
    cases he
    cases e <;> exact h1

theorem keeps_checked {α : Type} {m : M α} (hm : Keeps m) : Keeps (checked m) := by
  intro s h
  unfold checked
  split
  · rename_i he; exact judged_ok hm h he
  · exact fun u hu => memOk_mapCtx hu _
  · rename_i he; exact judged_error hm h he
theorem keeps_precise {α : Type} {m : M α} (u : BitVec 3) (hm : Keeps m) : Keeps (precise u m) := by
  intro s h
  unfold precise
  split
  · rename_i he
    split
    · trivial
    · exact memOk_mapCtx (judged_ok hm h he) _
  · rename_i he; exact judged_error hm h he

theorem memOk_windowsOut {s : State} (h : s.memOk) (t : TileId) : (windowsOut t s).memOk := by
  unfold windowsOut
  exact memOk_foldl (fun s p hs => memOk_near hs (imageWrite_wf hs.1 _ _)) _ h
theorem memOk_windowsIn {s : State} (h : s.memOk) (t : TileId) : (windowsIn t s).memOk := by
  unfold windowsIn
  exact memOk_foldl (fun s p hs => memOk_updCore hs _ _) _ h
theorem memOk_putNear {s : State} (h : s.memOk) (a : Nat) (bs : List Byte) : (s.putNear a bs).memOk := by
  unfold State.putNear
  dsimp only
  split_ifs
  · refine memOk_windowsIn ?_ _
    exact memOk_of_eq (memOk_nearWrite (memOk_windowsOut h (nearTile a)) a bs) rfl rfl
  · exact memOk_of_eq (memOk_nearWrite h a bs) rfl rfl
theorem memOk_hwWrite {s : State} (h : s.memOk) (a : Nat) (bs : List Byte) : (s.hwWrite a bs).memOk := ⟨nearWriteCells_wf h.1 _, h.2⟩

theorem keeps_readPlace (pl : Place) (c : Bool) (u : BitVec 3) : Keeps (readPlace pl c u) := by
  apply keeps_getS
  intro s h
  cases pl with
  | near a n =>
    dsimp only
    split_ifs
    · have hk : Keeps (do
          holdCheck a false u
          modS fun s => { s with fresh := s.fresh + 1 }
          return nearBytes s a n) :=
        keeps_bind (keeps_holdCheck _ _ _) fun _ => keeps_bind (keeps_modS fun _ h => memOk_of_eq h rfl rfl) fun _ => keeps_pure _
      exact hk s h
    all_goals exact h
  | far va pas =>
    dsimp only
    split_ifs
    · trivial
    · have hk : Keeps (do
          whenM ((granulesOf pas).any (sealFails s s.key)) (holdCheck va false u)
          return (farRead s pas c).1) := keeps_bind (keeps_whenM (keeps_holdCheck _ _ _)) fun _ => keeps_pure _
      exact hk _ (memOk_farRead h pas c)

theorem keeps_writeNear (a : Nat) (bs : List Byte) (u : BitVec 3) : Keeps (writeNear a bs u) := by
  apply keeps_getS
  intro s h
  exact keeps_bind (keeps_whenM (keeps_holdCheck _ _ _)) (fun _ => keeps_modS fun _ hu => memOk_putNear hu _ _) s h

theorem keeps_countable (v : BitVec 6) : Keeps (countable v) := by
  unfold countable; split
  · exact keeps_stopStall _
  · exact keeps_modS fun _ h => h

theorem keeps_writePlace (pl : Place) (bs : List Byte) : Keeps (writePlace pl bs) := by
  cases pl with
  | near a n => exact keeps_writeNear a bs _
  | far va pas => exact keeps_bind keeps_getC fun c => keeps_bind (keeps_countable _) fun _ => keeps_modC _

theorem keeps_loadBytes (ea : Word) (n : Nat) (u : BitVec 3) : Keeps (loadBytes ea n u) :=
  keeps_bind (keeps_place _ _ _ _ _) fun _ => keeps_readPlace _ _ _

/-! Outstanding work. -/

theorem memOk_drainOne {s : State} (h : s.memOk) : (drainOne s).memOk := by
  unfold drainOne
  split
  · exact h
  · exact memOk_mapCtx (memOk_taskFarWrite h _ _ _) _
theorem memOk_drainStores (n : Nat) {s : State} (h : s.memOk) : (drainStores n s).memOk := by
  induction n generalizing s with
  | zero => exact h
  | succ n ih =>
    unfold drainStores
    split
    · exact h
    · exact ih (memOk_drainOne h)
theorem memOk_drainAll {s : State} (h : s.memOk) : (drainAll s).memOk := memOk_drainStores _ h

theorem keeps_writeNow (pl : Place) (bs : List Byte) (u : BitVec 3) : Keeps (writeNow pl bs u) := by
  cases pl with
  | near a n => exact keeps_writeNear a bs _
  | far va pas => exact keeps_modS fun s h => memOk_taskFarWrite (memOk_drainAll h) _ _ _

theorem keeps_mmaOperands (ta tb : ElemTy) (bw : Nat) (a b sa sb : Word) (vs : List Nat) (kb : Nat) :
    Keeps (mmaOperands ta tb bw a b sa sb vs kb) := by
  unfold mmaOperands
  refine keeps_bind (keeps_mapM' (fun q => keeps_bind ?_ fun _ => keeps_readPlace _ _ _) _)
    fun rows => keeps_bind keeps_getC fun _ => keeps_pure _
  exact keeps_bind (keeps_whenM (keeps_aligned _ _ _ _)) fun _ => keeps_place _ _ _ _ _
theorem memOk_lose {s : State} (h : s.memOk) (n : Nat) : (s.lose n).memOk := by
  unfold State.lose; split
  · exact memOk_of_eq h rfl rfl
  · exact h

theorem memOk_mxStep {s : State} (h : s.memOk) : (mxStep s).memOk := by
  unfold mxStep
  split
  · split
    · exact memOk_mapCtx h _
    · exact h
    · exact memOk_mapCtx h _
    · rename_i he
      exact memOk_mapCtx (memOk_lose (judged_ok (keeps_mmaOperands _ _ _ _ _ _ _ _ _) h he) _) _
  · exact memOk_mapCtx h _
  · exact h
theorem memOk_mxFinish (n : Nat) {s : State} (h : s.memOk) : (mxFinish n s).memOk := by
  induction n generalizing s with
  | zero => exact h
  | succ n ih =>
    unfold mxFinish
    split
    · exact h
    · exact ih (memOk_mxStep h)

theorem memOk_gatherPut {s : State} (h : s.memOk) (g : Gather) (bs : List Byte) : (gatherPut s g bs).memOk := by
  unfold gatherPut
  split
  · exact memOk_mapCtx h _
  · refine memOk_putNear ?_ _ _
    split
    · exact memOk_mapCtx h _
    · exact h
theorem memOk_gatherEnd {s : State} (h : s.memOk) (i : Nat) (g : Gather) : (gatherEnd s i g).memOk := memOk_mapCtx h _
theorem memOk_gatherMove {s : State} (i : Nat) (h : s.memOk) : (gatherMove i s).memOk := by
  unfold gatherMove
  split
  · exact h
  · split_ifs
    · exact memOk_gatherEnd h _ _
    · split
      · exact memOk_mapCtx (memOk_gatherEnd h _ _) _
      · dsimp only
        split_ifs
        · exact memOk_gatherEnd (memOk_mapCtx (memOk_gatherPut h _ _) _) _ _
        · exact memOk_mapCtx (memOk_gatherPut h _ _) _
theorem memOk_gatherStep {s : State} (h : s.memOk) : (gatherStep s).memOk := by
  unfold gatherStep
  split
  · exact memOk_gatherMove _ h
  · exact h
theorem memOk_gatherFinish (n : Nat) {s : State} (h : s.memOk) : (gatherFinish n s).memOk := by
  induction n generalizing s with
  | zero => exact h
  | succ n ih =>
    unfold gatherFinish
    split
    · exact h
    · exact ih (memOk_gatherMove _ h)
theorem memOk_gatherAll {s : State} (h : s.memOk) : (gatherAll s).memOk := memOk_gatherFinish _ h
theorem memOk_mxAll {s : State} (h : s.memOk) : (mxAll s).memOk := by
  unfold mxAll; dsimp only; split
  · exact h
  · exact memOk_mxFinish _ (memOk_drainAll h)

theorem memOk_settle {s : State} (h : s.memOk) : (settle s).memOk :=
  memOk_gatherAll (memOk_mxAll (memOk_drainAll (memOk_mapCtx h _)))

/-! Traps. -/

theorem memOk_dropLocks {s : State} (h : s.memOk) (c : CoreId) (m : Word) : (dropLocks s c m).memOk := memOk_of_eq h rfl rfl
theorem memOk_faultDevice {s : State} (h : s.memOk) (c : BitVec 8) : (faultDevice s c).memOk := by
  unfold faultDevice; split
  · exact h
  · exact memOk_updDev h _ _
theorem memOk_endTile {s : State} (h : s.memOk) (n : Nat) (m : Word) : (s.endTile n m).memOk := memOk_updDev h _ _

theorem memOk_destroyImage {s : State} (h : s.memOk) (t : TileId) (k : Fin 64) : (destroyImage s t k).memOk := by
  unfold destroyImage
  extract_lets home mark s1 s2 s3 s4
  have h1 : s1.memOk := memOk_updTile (memOk_dropLocks h _ _) _ _
  have h2 : s2.memOk := by
    simp only [s2]
    split
    · split
      · exact memOk_endTile h1 _ _
      · exact h1
    · exact h1
  have h3 : s3.memOk := by
    simp only [s3]
    split
    · exact memOk_updCore h2 _ _
    · exact h2
  exact h3

theorem memOk_devTouch {s : State} (h : s.memOk) (d : Device) (w : Bool) (a : Nat) : (devTouch d w s a).memOk := by
  unfold devTouch
  split
  · exact h
  · split
    · exact memOk_quarry h (memWriteAll_wf h.2 _)
    · exact h
theorem memOk_serviceRead {s : State} (h : s.memOk) (d : Device) (c : Nat) : (serviceRead s d c).memOk := by
  unfold serviceRead
  split
  · exact h
  · apply memOk_devTouch
    split
    · exact memOk_of_eq h rfl rfl
    · exact h

theorem memOk_serviceTask {s : State} (h : s.memOk) (t : TileId) (k : Fin 64) : (serviceTask s t k).memOk := by
  unfold serviceTask
  split
  · exact h
  · rename_i d _
    have h1 := memOk_serviceRead h d ((BitVec.ofNat 64 (nearRd s (slotAddr t k) 0x8070 8)).toNat % 64)
    dsimp only
    generalize serviceRead _ _ _ = u at h1 ⊢
    split_ifs
    · exact memOk_destroyImage h1 _ _
    · exact memOk_setCore h1 _

theorem memOk_spillOver {s : State} (h : s.memOk) : (spillOver s).memOk := by
  have hs : ((List.finRange 8).foldl spillStream s).memOk := by
    refine memOk_foldl (fun s n hs => ?_) _ h
    unfold spillStream; dsimp only; split
    · exact hs
    · exact memOk_of_eq hs rfl rfl
  have hp : ∀ u : State, u.memOk → (spillPart u).memOk := fun u hu => by
    unfold spillPart; dsimp only; split
    · exact hu
    · exact memOk_of_eq hu rfl rfl
  have ht : ∀ u : State, u.memOk → (spillTraps u).memOk := fun u hu => by
    unfold spillTraps; dsimp only; split
    · exact hu
    · exact memOk_of_eq hu rfl rfl
  exact ht _ (hp _ hs)
theorem memOk_putSlot {s : State} (h : s.memOk) (t : TileId) (k : Nat) (cs : List (Nat × Byte)) : (s.putSlot t k cs).memOk :=
  ⟨imageWrite_wf h.1 _ cs, h.2⟩

theorem memOk_migrate {s : State} (h : s.memOk) : (migrate s).memOk := by
  have h1 := memOk_spillOver h
  unfold migrate
  dsimp only
  generalize spillOver s = u at h1 ⊢
  split
  · apply memOk_serviceTask
    generalize imageCells _ _ _ _ _ _ = cs
    exact ⟨imageWrite_wf h1.1 _ cs, h1.2⟩
  · exact memOk_of_eq h rfl rfl

theorem memOk_debugHold {s : State} (h : s.memOk) : (debugHold s).memOk := by
  unfold debugHold
  dsimp only
  have h1 := memOk_drainAll h
  split
  · exact memOk_of_eq h1 rfl rfl
  · apply memOk_serviceTask
    exact memOk_putSlot (memOk_of_eq h1 rfl rfl) _ _ _

theorem memOk_settleTrap {s : State} (h : s.memOk) (t : Trap) : (settleTrap t s).memOk := by
  unfold settleTrap
  have h1 := memOk_settle h
  generalize settle s = u at h1 ⊢
  dsimp only
  split
  · exact memOk_mapCtx h1 _
  · exact h1
theorem memOk_takeTrap {s : State} (h : s.memOk) (t : Trap) : (takeTrap t s).memOk := by
  unfold takeTrap
  extract_lets s1 s2
  have h2 : s2.memOk := memOk_trace (memOk_mapCtx h _) _ _
  split_ifs
  · exact memOk_faultDevice h2 _
  · exact memOk_debugHold h2
  · exact memOk_migrate (memOk_settleTrap h2 t)

/-! Issue and retirement. -/

theorem memOk_stepTrap {s : State} (h : s.memOk) : (stepTrap s).memOk := by
  unfold stepTrap; split
  · exact memOk_takeTrap h _
  · exact h

theorem keeps_retire (n : Nat) : Keeps (retire n) := keeps_modS fun _ h =>
  memOk_stepTrap (memOk_of_eq h rfl rfl)

/-- What an outcome answers has canonical memories. -/
theorem outcome_memOk {s0 : State} {r : Except Stop (Unit × State)} {t : State} (h0 : s0.memOk) (hr : answerOk r)
    (he : outcome s0 r = .next t) : t.memOk := by
  unfold outcome at he
  split at he <;> cases he
  · exact hr
  · exact memOk_takeTrap h0 _
  · exact memOk_takeTrap hr _
  · exact memOk_of_eq h0 rfl rfl
  · exact memOk_of_eq hr rfl rfl
  · exact memOk_of_eq (hr _ h0) rfl rfl

theorem issue_memOk {s t : State} {n : Nat} {body : M Unit} (h : s.memOk) (hb : Keeps body)
    (he : issue s n body = .next t) : t.memOk :=
  outcome_memOk h ((keeps_bind (keeps_modC _) fun _ => keeps_bind hb fun _ => keeps_retire n) s h) he

theorem issueTarget_memOk {s t : State} {n : Nat} {body : M Unit} (h : s.memOk) (hb : Keeps body)
    (he : issueTarget s n body = .next t) : t.memOk :=
  outcome_memOk h ((keeps_bind hb fun _ => keeps_bind (keeps_modC _) fun _ => keeps_retire n) s h) he

/-! Register operands. -/

theorem keeps_readX (n : Fin 32) : Keeps (readX n) := by
  refine keeps_bind keeps_getC fun c => ?_
  split
  · exact keeps_stopStall _
  · exact keeps_pure _
theorem keeps_writeX (n : Fin 32) (v : Word) : Keeps (writeX n v) := by
  refine keeps_bind keeps_getC fun c => ?_
  split
  · exact keeps_stopStall _
  · exact keeps_modC _
theorem keeps_readUrs (o n : Nat) : Keeps (readUrs o n) := by
  refine keeps_bind keeps_getC fun c => ?_
  split
  · exact keeps_stopStall _
  · exact keeps_pure _
theorem keeps_writeUrs (o : Nat) (bs : List Byte) : Keeps (writeUrs o bs) := by
  refine keeps_bind keeps_getC fun c => ?_
  split
  · exact keeps_stopStall _
  · exact keeps_modC _
theorem keeps_readP (n : Fin 8) : Keeps (readP n) := by
  refine keeps_bind keeps_getC fun c => ?_
  split
  · exact keeps_stopStall _
  · exact keeps_pure _

/-- The memories of the reset state are canonical. -/
theorem reset_near_wf : memWf State.reset.near = true := rfl

end Sys2Proof.Machine
end

