-- ==== Sys2Proof/Laws/PerInstr.lean ====
section
/-! SUPPORT. One lemma per instruction about its encoding: the LEN bits of the word give its length (R246), and the word
fits in that many bytes. Rows of the table that are no instruction have no encoding. -/

namespace Sys2Proof.Laws.EncodeLength

open Machine

/-- The LEN bits of an instruction's word give its length, and the word has no bit beyond it. -/
def Statement (i : Instr) : Prop := ∀ w len, encode i = some (w, len) → lenOf w = len ∧ w < 2 ^ (8 * len)

theorem Opd.code_lt (o : Opd) : o.code < 40 := by
  cases o with
  | reg n => have := n.isLt; simp only [Opd.code]; omega
  | str n => have := n.isLt; simp only [Opd.code]; omega
theorem elemCode_lt (t : ElemTy) : elemCode t < 16 := by cases t <;> decide
theorem b2n_lt (b : Bool) : b2n b < 2 := by cases b <;> decide
theorem IMod.code_lt (m : IMod) : m.code < 8 := by
  have h := m.w.isLt
  have := b2n_lt m.n
  simp only [IMod.code]; omega
theorem Scope.code_lt (s : Scope) : s.code < 8 := by cases s <;> decide
theorem AccOrd.code_lt (s : AccOrd) : s.code < 8 := by cases s <;> decide
theorem Cond.code_lt (s : Cond) : s.code < 16 := by cases s <;> decide
theorem AtomOp.code_lt (s : AtomOp) : s.code < 16 := by cases s <;> decide
theorem AtomOrd.code_lt (s : AtomOrd) : s.code < 4 := by cases s <;> decide
theorem VCond.code_lt (s : VCond) : s.code < 8 := by cases s <;> decide
theorem RedOp.code_lt (s : RedOp) : s.code < 8 := by cases s <;> decide
theorem BindKind.code_lt (s : BindKind) : s.code < 4 := by cases s <;> decide
theorem TagAct.code_lt (s : TagAct) : s.code < 8 := by cases s <;> decide
theorem GMapOp.code_lt (s : GMapOp) : s.code < 8 := by cases s <;> decide
theorem GQuery.code_lt (s : GQuery) : s.code < 4 := by cases s <;> decide
theorem FenceKind.code_lt (s : FenceKind) : s.code < 4 := by cases s <;> decide
theorem TlbiKind.code_lt (s : TlbiKind) : s.code < 4 := by cases s <;> decide

theorem lenOf_0 {w : Nat} (h : w % 4 = 0) : lenOf w = 8 := by simp [lenOf, h]
theorem lenOf_1 {w : Nat} (h : w % 4 = 1) : lenOf w = 12 := by simp [lenOf, h]
theorem lenOf_2 {w : Nat} (h : w % 4 = 2) : lenOf w = 16 := by simp [lenOf, h]

theorem encR_len {maj d a b c fn mod pg w len : Nat} (h : encR maj d a b c fn mod pg = some (w, len)) (hm : maj < 256)
    (h1 : d < 64) (h2 : a < 64) (h3 : b < 64) (h4 : c < 64) (h5 : fn < 256) (h6 : mod < 256) (h7 : pg < 8) :
    lenOf w = len ∧ w < 2 ^ (8 * len) := by
  cases h
  simp only [RF.enc, rfOf]
  constructor
  · exact lenOf_0 (by omega)
  · omega
theorem encX_len {maj d a b c mod pg imm w len : Nat} (h : encX maj d a b c mod pg imm = some (w, len)) (hm : maj < 256)
    (h1 : d < 64) (h2 : a < 64) (h3 : b < 64) (h4 : c < 64) (h6 : mod < 256) (h7 : pg < 8) (h8 : imm < 2 ^ 32) :
    lenOf w = len ∧ w < 2 ^ (8 * len) := by
  cases h
  simp only [RF.enc, rfOf]
  constructor
  · exact lenOf_1 (by omega)
  · omega
theorem encL_len {maj d a b c mod pg imm w len : Nat} (h : encL maj d a b c mod pg imm = some (w, len)) (hm : maj < 256)
    (h1 : d < 64) (h2 : a < 64) (h3 : b < 64) (h4 : c < 64) (h6 : mod < 256) (h7 : pg < 8) (h8 : imm < 2 ^ 64) :
    lenOf w = len ∧ w < 2 ^ (8 * len) := by
  cases h
  simp only [RF.enc, rfOf]
  constructor
  · exact lenOf_2 (by omega)
  · omega
theorem encI_len {maj d a fn mod imm w len : Nat} (h : encI maj d a fn mod imm = some (w, len)) (hm : maj < 256)
    (h1 : d < 64) (h2 : a < 64) (h3 : fn < 16) (h4 : mod < 16) (h5 : imm < 2 ^ 34) : lenOf w = len ∧ w < 2 ^ (8 * len) := by
  cases h
  simp only [IF.enc]
  constructor
  · exact lenOf_0 (by omega)
  · omega
theorem encM_len {maj d : Nat} {m : MArgs} {w len : Nat} (h : encM maj d m = some (w, len)) (hm : maj < 256)
    (h1 : d < 64) : lenOf w = len ∧ w < 2 ^ (8 * len) := by
  cases h
  have a1 := Opd.code_lt m.base
  have a2 := Opd.code_lt m.idx
  have a3 := m.sz.isLt
  have a4 := AccOrd.code_lt m.ord
  have a5 := Scope.code_lt m.scope
  have a6 := m.xs.isLt
  have a7 := m.off.isLt
  simp only [MF.enc]
  constructor
  · exact lenOf_0 (by omega)
  · omega
theorem encB_len {maj : Nat} {c : Cond} {hi : Fin 3} {bt : Fin 4} {a b : Opd} {off w len : Nat}
    (h : encB maj c hi bt a b off = some (w, len)) (hm : maj < 256) (ho : off < 2 ^ 34) :
    lenOf w = len ∧ w < 2 ^ (8 * len) := by
  cases h
  have a1 := Opd.code_lt a
  have a2 := Opd.code_lt b
  have a3 := Cond.code_lt c
  have a4 := hi.isLt
  have a5 := bt.isLt
  simp only [BF.enc]
  constructor
  · exact lenOf_0 (by omega)
  · omega

theorem skipWord : Statement (.skipWord) := by intro w len h; cases h; decide
theorem nop (x0 : Fin 8) : Statement (.nop x0) := by
  intro w len h; have h0 := x0.isLt;
  exact encR_len h (by decide) (by omega) (by omega) (by omega) (by omega) (by omega) (by omega) (by omega)
theorem pbr (x0 : Fin 8) (x1 : Fin 4) (x2 : Bool) (x3 : Opd) (x4 : BitVec 32) : Statement (.pbr x0 x1 x2 x3 x4) := by
  intro w len h; have h0 := x0.isLt; have h1 := x1.isLt; have h2 := b2n_lt x2; have h3 := Opd.code_lt x3; have h4 := x4.isLt;
  exact encX_len h (by decide) (by omega) (by omega) (by omega) (by omega) (by omega) (by omega) (by omega)
theorem br (x0 : Cond) (x1 : Fin 3) (x2 : Fin 4) (x3 : Opd) (x4 : Opd) : Statement (.br x0 x1 x2 x3 x4) := by
  intro w len h; have h1 := x1.isLt; have h2 := x2.isLt; have h3 := Opd.code_lt x3; have h4 := Opd.code_lt x4;
  exact encB_len h (by decide) (by omega)
theorem bri (x0 : Cond) (x1 : Fin 3) (x2 : Fin 4) (x3 : Opd) (x4 : Opd) (x5 : BitVec 34) : Statement (.bri x0 x1 x2 x3 x4 x5) := by
  intro w len h; have h1 := x1.isLt; have h2 := x2.isLt; have h3 := Opd.code_lt x3; have h4 := Opd.code_lt x4; have h5 := x5.isLt;
  exact encB_len h (by decide) (by omega)
theorem jmpr (x0 : Fin 8) (x1 : Opd) : Statement (.jmpr x0 x1) := by
  intro w len h; have h0 := x0.isLt; have h1 := Opd.code_lt x1;
  exact encR_len h (by decide) (by omega) (by omega) (by omega) (by omega) (by omega) (by omega) (by omega)
theorem call (x0 : Bool) (x1 : Opd) (x2 : Opd) (x3 : BitVec 34) : Statement (.call x0 x1 x2 x3) := by
  intro w len h; have h0 := b2n_lt x0; have h1 := Opd.code_lt x1; have h2 := Opd.code_lt x2; have h3 := x3.isLt;
  exact encI_len h (by decide) (by omega) (by omega) (by omega) (by omega) (by omega)
theorem ret (x0 : Fin 8) (x1 : Opd) : Statement (.ret x0 x1) := by
  intro w len h; have h0 := x0.isLt; have h1 := Opd.code_lt x1;
  exact encR_len h (by decide) (by omega) (by omega) (by omega) (by omega) (by omega) (by omega) (by omega)
theorem rep (x0 : BitVec 4) (x1 : BitVec 4) (x2 : BitVec 12) (x3 : BitVec 4) : Statement (.rep x0 x1 x2 x3) := by
  intro w len h; have h0 := x0.isLt; have h1 := x1.isLt; have h2 := x2.isLt; have h3 := x3.isLt;
  exact encI_len h (by decide) (by omega) (by omega) (by omega) (by omega) (by omega)
theorem endTask (x0 : Fin 8) : Statement (.endTask x0) := by
  intro w len h; have h0 := x0.isLt;
  exact encR_len h (by decide) (by omega) (by omega) (by omega) (by omega) (by omega) (by omega) (by omega)
theorem brk (x0 : BitVec 34) : Statement (.brk x0) := by
  intro w len h; have h0 := x0.isLt;
  exact encI_len h (by decide) (by omega) (by omega) (by omega) (by omega) (by omega)
theorem trap (x0 : BitVec 34) : Statement (.trap x0) := by
  intro w len h; have h0 := x0.isLt;
  exact encI_len h (by decide) (by omega) (by omega) (by omega) (by omega) (by omega)
theorem eret (x0 : Fin 8) : Statement (.eret x0) := by
  intro w len h; have h0 := x0.isLt;
  exact encR_len h (by decide) (by omega) (by omega) (by omega) (by omega) (by omega) (by omega) (by omega)
theorem fmt (x0 : BitVec 19) : Statement (.fmt x0) := by
  intro w len h; have h0 := x0.isLt;
  exact encI_len h (by decide) (by omega) (by omega) (by omega) (by omega) (by omega)
theorem phase (x0 : BitVec 6) : Statement (.phase x0) := by
  intro w len h; have h0 := x0.isLt;
  exact encI_len h (by decide) (by omega) (by omega) (by omega) (by omega) (by omega)
theorem wait (x0 : BitVec 6) (x1 : BitVec 6) (x2 : BitVec 6) (x3 : BitVec 6) (x4 : BitVec 6) : Statement (.wait x0 x1 x2 x3 x4) := by
  intro w len h; have h0 := x0.isLt; have h1 := x1.isLt; have h2 := x2.isLt; have h3 := x3.isLt; have h4 := x4.isLt;
  exact encI_len h (by decide) (by omega) (by omega) (by omega) (by omega) (by omega)
theorem add (x0 : IMod) (x1 : Fin 8) (x2 : Opd) (x3 : Opd) (x4 : Opd) : Statement (.add x0 x1 x2 x3 x4) := by
  intro w len h; have h0 := IMod.code_lt x0; have h1 := x1.isLt; have h2 := Opd.code_lt x2; have h3 := Opd.code_lt x3; have h4 := Opd.code_lt x4;
  exact encR_len h (by decide) (by omega) (by omega) (by omega) (by omega) (by omega) (by omega) (by omega)
theorem addImm (x0 : IMod) (x1 : Opd) (x2 : Opd) (x3 : BitVec 34) : Statement (.addImm x0 x1 x2 x3) := by
  intro w len h; have h0 := IMod.code_lt x0; have h1 := Opd.code_lt x1; have h2 := Opd.code_lt x2; have h3 := x3.isLt;
  exact encI_len h (by decide) (by omega) (by omega) (by omega) (by omega) (by omega)
theorem sub (x0 : IMod) (x1 : Fin 8) (x2 : Opd) (x3 : Opd) (x4 : Opd) : Statement (.sub x0 x1 x2 x3 x4) := by
  intro w len h; have h0 := IMod.code_lt x0; have h1 := x1.isLt; have h2 := Opd.code_lt x2; have h3 := Opd.code_lt x3; have h4 := Opd.code_lt x4;
  exact encR_len h (by decide) (by omega) (by omega) (by omega) (by omega) (by omega) (by omega) (by omega)
theorem mul (x0 : IMod) (x1 : Fin 8) (x2 : Opd) (x3 : Opd) (x4 : Opd) : Statement (.mul x0 x1 x2 x3 x4) := by
  intro w len h; have h0 := IMod.code_lt x0; have h1 := x1.isLt; have h2 := Opd.code_lt x2; have h3 := Opd.code_lt x3; have h4 := Opd.code_lt x4;
  exact encR_len h (by decide) (by omega) (by omega) (by omega) (by omega) (by omega) (by omega) (by omega)
theorem mulh (x0 : IMod) (x1 : Fin 8) (x2 : Opd) (x3 : Opd) (x4 : Opd) : Statement (.mulh x0 x1 x2 x3 x4) := by
  intro w len h; have h0 := IMod.code_lt x0; have h1 := x1.isLt; have h2 := Opd.code_lt x2; have h3 := Opd.code_lt x3; have h4 := Opd.code_lt x4;
  exact encR_len h (by decide) (by omega) (by omega) (by omega) (by omega) (by omega) (by omega) (by omega)
theorem div (x0 : IMod) (x1 : Fin 8) (x2 : Opd) (x3 : Opd) (x4 : Opd) : Statement (.div x0 x1 x2 x3 x4) := by
  intro w len h; have h0 := IMod.code_lt x0; have h1 := x1.isLt; have h2 := Opd.code_lt x2; have h3 := Opd.code_lt x3; have h4 := Opd.code_lt x4;
  exact encR_len h (by decide) (by omega) (by omega) (by omega) (by omega) (by omega) (by omega) (by omega)
theorem rem (x0 : IMod) (x1 : Fin 8) (x2 : Opd) (x3 : Opd) (x4 : Opd) : Statement (.rem x0 x1 x2 x3 x4) := by
  intro w len h; have h0 := IMod.code_lt x0; have h1 := x1.isLt; have h2 := Opd.code_lt x2; have h3 := Opd.code_lt x3; have h4 := Opd.code_lt x4;
  exact encR_len h (by decide) (by omega) (by omega) (by omega) (by omega) (by omega) (by omega) (by omega)
theorem and (x0 : IMod) (x1 : Fin 8) (x2 : Opd) (x3 : Opd) (x4 : Opd) : Statement (.and x0 x1 x2 x3 x4) := by
  intro w len h; have h0 := IMod.code_lt x0; have h1 := x1.isLt; have h2 := Opd.code_lt x2; have h3 := Opd.code_lt x3; have h4 := Opd.code_lt x4;
  exact encR_len h (by decide) (by omega) (by omega) (by omega) (by omega) (by omega) (by omega) (by omega)
theorem andImm (x0 : IMod) (x1 : Opd) (x2 : Opd) (x3 : BitVec 34) : Statement (.andImm x0 x1 x2 x3) := by
  intro w len h; have h0 := IMod.code_lt x0; have h1 := Opd.code_lt x1; have h2 := Opd.code_lt x2; have h3 := x3.isLt;
  exact encI_len h (by decide) (by omega) (by omega) (by omega) (by omega) (by omega)
theorem or (x0 : IMod) (x1 : Fin 8) (x2 : Opd) (x3 : Opd) (x4 : Opd) : Statement (.or x0 x1 x2 x3 x4) := by
  intro w len h; have h0 := IMod.code_lt x0; have h1 := x1.isLt; have h2 := Opd.code_lt x2; have h3 := Opd.code_lt x3; have h4 := Opd.code_lt x4;
  exact encR_len h (by decide) (by omega) (by omega) (by omega) (by omega) (by omega) (by omega) (by omega)
theorem orImm (x0 : IMod) (x1 : Opd) (x2 : Opd) (x3 : BitVec 34) : Statement (.orImm x0 x1 x2 x3) := by
  intro w len h; have h0 := IMod.code_lt x0; have h1 := Opd.code_lt x1; have h2 := Opd.code_lt x2; have h3 := x3.isLt;
  exact encI_len h (by decide) (by omega) (by omega) (by omega) (by omega) (by omega)
theorem xor (x0 : IMod) (x1 : Fin 8) (x2 : Opd) (x3 : Opd) (x4 : Opd) : Statement (.xor x0 x1 x2 x3 x4) := by
  intro w len h; have h0 := IMod.code_lt x0; have h1 := x1.isLt; have h2 := Opd.code_lt x2; have h3 := Opd.code_lt x3; have h4 := Opd.code_lt x4;
  exact encR_len h (by decide) (by omega) (by omega) (by omega) (by omega) (by omega) (by omega) (by omega)
theorem xorImm (x0 : IMod) (x1 : Opd) (x2 : Opd) (x3 : BitVec 34) : Statement (.xorImm x0 x1 x2 x3) := by
  intro w len h; have h0 := IMod.code_lt x0; have h1 := Opd.code_lt x1; have h2 := Opd.code_lt x2; have h3 := x3.isLt;
  exact encI_len h (by decide) (by omega) (by omega) (by omega) (by omega) (by omega)
theorem andn (x0 : IMod) (x1 : Fin 8) (x2 : Opd) (x3 : Opd) (x4 : Opd) : Statement (.andn x0 x1 x2 x3 x4) := by
  intro w len h; have h0 := IMod.code_lt x0; have h1 := x1.isLt; have h2 := Opd.code_lt x2; have h3 := Opd.code_lt x3; have h4 := Opd.code_lt x4;
  exact encR_len h (by decide) (by omega) (by omega) (by omega) (by omega) (by omega) (by omega) (by omega)
theorem shl (x0 : IMod) (x1 : Fin 8) (x2 : Opd) (x3 : Opd) (x4 : Opd) : Statement (.shl x0 x1 x2 x3 x4) := by
  intro w len h; have h0 := IMod.code_lt x0; have h1 := x1.isLt; have h2 := Opd.code_lt x2; have h3 := Opd.code_lt x3; have h4 := Opd.code_lt x4;
  exact encR_len h (by decide) (by omega) (by omega) (by omega) (by omega) (by omega) (by omega) (by omega)
theorem shlImm (x0 : IMod) (x1 : Opd) (x2 : Opd) (x3 : BitVec 34) : Statement (.shlImm x0 x1 x2 x3) := by
  intro w len h; have h0 := IMod.code_lt x0; have h1 := Opd.code_lt x1; have h2 := Opd.code_lt x2; have h3 := x3.isLt;
  exact encI_len h (by decide) (by omega) (by omega) (by omega) (by omega) (by omega)
theorem shr (x0 : IMod) (x1 : Fin 8) (x2 : Opd) (x3 : Opd) (x4 : Opd) : Statement (.shr x0 x1 x2 x3 x4) := by
  intro w len h; have h0 := IMod.code_lt x0; have h1 := x1.isLt; have h2 := Opd.code_lt x2; have h3 := Opd.code_lt x3; have h4 := Opd.code_lt x4;
  exact encR_len h (by decide) (by omega) (by omega) (by omega) (by omega) (by omega) (by omega) (by omega)
theorem shrImm (x0 : IMod) (x1 : Opd) (x2 : Opd) (x3 : BitVec 34) : Statement (.shrImm x0 x1 x2 x3) := by
  intro w len h; have h0 := IMod.code_lt x0; have h1 := Opd.code_lt x1; have h2 := Opd.code_lt x2; have h3 := x3.isLt;
  exact encI_len h (by decide) (by omega) (by omega) (by omega) (by omega) (by omega)
theorem rot (x0 : IMod) (x1 : Fin 8) (x2 : Opd) (x3 : Opd) (x4 : Opd) : Statement (.rot x0 x1 x2 x3 x4) := by
  intro w len h; have h0 := IMod.code_lt x0; have h1 := x1.isLt; have h2 := Opd.code_lt x2; have h3 := Opd.code_lt x3; have h4 := Opd.code_lt x4;
  exact encR_len h (by decide) (by omega) (by omega) (by omega) (by omega) (by omega) (by omega) (by omega)
theorem rotImm (x0 : IMod) (x1 : Opd) (x2 : Opd) (x3 : BitVec 34) : Statement (.rotImm x0 x1 x2 x3) := by
  intro w len h; have h0 := IMod.code_lt x0; have h1 := Opd.code_lt x1; have h2 := Opd.code_lt x2; have h3 := x3.isLt;
  exact encI_len h (by decide) (by omega) (by omega) (by omega) (by omega) (by omega)
theorem min (x0 : IMod) (x1 : Fin 8) (x2 : Opd) (x3 : Opd) (x4 : Opd) : Statement (.min x0 x1 x2 x3 x4) := by
  intro w len h; have h0 := IMod.code_lt x0; have h1 := x1.isLt; have h2 := Opd.code_lt x2; have h3 := Opd.code_lt x3; have h4 := Opd.code_lt x4;
  exact encR_len h (by decide) (by omega) (by omega) (by omega) (by omega) (by omega) (by omega) (by omega)
theorem minImm (x0 : IMod) (x1 : Opd) (x2 : Opd) (x3 : BitVec 34) : Statement (.minImm x0 x1 x2 x3) := by
  intro w len h; have h0 := IMod.code_lt x0; have h1 := Opd.code_lt x1; have h2 := Opd.code_lt x2; have h3 := x3.isLt;
  exact encI_len h (by decide) (by omega) (by omega) (by omega) (by omega) (by omega)
theorem max (x0 : IMod) (x1 : Fin 8) (x2 : Opd) (x3 : Opd) (x4 : Opd) : Statement (.max x0 x1 x2 x3 x4) := by
  intro w len h; have h0 := IMod.code_lt x0; have h1 := x1.isLt; have h2 := Opd.code_lt x2; have h3 := Opd.code_lt x3; have h4 := Opd.code_lt x4;
  exact encR_len h (by decide) (by omega) (by omega) (by omega) (by omega) (by omega) (by omega) (by omega)
theorem maxImm (x0 : IMod) (x1 : Opd) (x2 : Opd) (x3 : BitVec 34) : Statement (.maxImm x0 x1 x2 x3) := by
  intro w len h; have h0 := IMod.code_lt x0; have h1 := Opd.code_lt x1; have h2 := Opd.code_lt x2; have h3 := x3.isLt;
  exact encI_len h (by decide) (by omega) (by omega) (by omega) (by omega) (by omega)
theorem cmp (x0 : IMod) (x1 : Fin 8) (x2 : Opd) (x3 : Opd) (x4 : Opd) : Statement (.cmp x0 x1 x2 x3 x4) := by
  intro w len h; have h0 := IMod.code_lt x0; have h1 := x1.isLt; have h2 := Opd.code_lt x2; have h3 := Opd.code_lt x3; have h4 := Opd.code_lt x4;
  exact encR_len h (by decide) (by omega) (by omega) (by omega) (by omega) (by omega) (by omega) (by omega)
theorem cmpImm (x0 : IMod) (x1 : Opd) (x2 : Opd) (x3 : BitVec 34) : Statement (.cmpImm x0 x1 x2 x3) := by
  intro w len h; have h0 := IMod.code_lt x0; have h1 := Opd.code_lt x1; have h2 := Opd.code_lt x2; have h3 := x3.isLt;
  exact encI_len h (by decide) (by omega) (by omega) (by omega) (by omega) (by omega)
theorem sel (x0 : IMod) (x1 : Fin 8) (x2 : Opd) (x3 : Opd) (x4 : Opd) (x5 : Opd) : Statement (.sel x0 x1 x2 x3 x4 x5) := by
  intro w len h; have h0 := IMod.code_lt x0; have h1 := x1.isLt; have h2 := Opd.code_lt x2; have h3 := Opd.code_lt x3; have h4 := Opd.code_lt x4; have h5 := Opd.code_lt x5;
  exact encR_len h (by decide) (by omega) (by omega) (by omega) (by omega) (by omega) (by omega) (by omega)
theorem clz (x0 : IMod) (x1 : Fin 8) (x2 : Opd) (x3 : Opd) : Statement (.clz x0 x1 x2 x3) := by
  intro w len h; have h0 := IMod.code_lt x0; have h1 := x1.isLt; have h2 := Opd.code_lt x2; have h3 := Opd.code_lt x3;
  exact encR_len h (by decide) (by omega) (by omega) (by omega) (by omega) (by omega) (by omega) (by omega)
theorem popc (x0 : IMod) (x1 : Fin 8) (x2 : Opd) (x3 : Opd) : Statement (.popc x0 x1 x2 x3) := by
  intro w len h; have h0 := IMod.code_lt x0; have h1 := x1.isLt; have h2 := Opd.code_lt x2; have h3 := Opd.code_lt x3;
  exact encR_len h (by decide) (by omega) (by omega) (by omega) (by omega) (by omega) (by omega) (by omega)
theorem bfx (x0 : IMod) (x1 : Fin 8) (x2 : Opd) (x3 : Opd) (x4 : Opd) (x5 : Opd) : Statement (.bfx x0 x1 x2 x3 x4 x5) := by
  intro w len h; have h0 := IMod.code_lt x0; have h1 := x1.isLt; have h2 := Opd.code_lt x2; have h3 := Opd.code_lt x3; have h4 := Opd.code_lt x4; have h5 := Opd.code_lt x5;
  exact encR_len h (by decide) (by omega) (by omega) (by omega) (by omega) (by omega) (by omega) (by omega)
theorem bfi (x0 : IMod) (x1 : Fin 8) (x2 : Opd) (x3 : Opd) (x4 : Opd) (x5 : Opd) : Statement (.bfi x0 x1 x2 x3 x4 x5) := by
  intro w len h; have h0 := IMod.code_lt x0; have h1 := x1.isLt; have h2 := Opd.code_lt x2; have h3 := Opd.code_lt x3; have h4 := Opd.code_lt x4; have h5 := Opd.code_lt x5;
  exact encR_len h (by decide) (by omega) (by omega) (by omega) (by omega) (by omega) (by omega) (by omega)
theorem madd (x0 : IMod) (x1 : Fin 8) (x2 : Opd) (x3 : Opd) (x4 : Opd) (x5 : Opd) : Statement (.madd x0 x1 x2 x3 x4 x5) := by
  intro w len h; have h0 := IMod.code_lt x0; have h1 := x1.isLt; have h2 := Opd.code_lt x2; have h3 := Opd.code_lt x3; have h4 := Opd.code_lt x4; have h5 := Opd.code_lt x5;
  exact encR_len h (by decide) (by omega) (by omega) (by omega) (by omega) (by omega) (by omega) (by omega)
theorem lea (x0 : IMod) (x1 : Fin 8) (x2 : Opd) (x3 : Opd) (x4 : Opd) (x5 : Opd) : Statement (.lea x0 x1 x2 x3 x4 x5) := by
  intro w len h; have h0 := IMod.code_lt x0; have h1 := x1.isLt; have h2 := Opd.code_lt x2; have h3 := Opd.code_lt x3; have h4 := Opd.code_lt x4; have h5 := Opd.code_lt x5;
  exact encR_len h (by decide) (by omega) (by omega) (by omega) (by omega) (by omega) (by omega) (by omega)
theorem leaImm (x0 : IMod) (x1 : Opd) (x2 : BitVec 34) : Statement (.leaImm x0 x1 x2) := by
  intro w len h; have h0 := IMod.code_lt x0; have h1 := Opd.code_lt x1; have h2 := x2.isLt;
  exact encI_len h (by decide) (by omega) (by omega) (by omega) (by omega) (by omega)
theorem li (x0 : Fin 8) (x1 : Opd) (x2 : BitVec 32) : Statement (.li x0 x1 x2) := by
  intro w len h; have h0 := x0.isLt; have h1 := Opd.code_lt x1; have h2 := x2.isLt;
  exact encX_len h (by decide) (by omega) (by omega) (by omega) (by omega) (by omega) (by omega) (by omega)
theorem liLong (x0 : Fin 8) (x1 : Opd) (x2 : BitVec 64) : Statement (.liLong x0 x1 x2) := by
  intro w len h; have h0 := x0.isLt; have h1 := Opd.code_lt x1; have h2 := x2.isLt;
  exact encL_len h (by decide) (by omega) (by omega) (by omega) (by omega) (by omega) (by omega) (by omega)
theorem fadd (x0 : ElemTy) (x1 : Fin 8) (x2 : Opd) (x3 : Opd) (x4 : Opd) : Statement (.fadd x0 x1 x2 x3 x4) := by
  intro w len h; have h0 := elemCode_lt x0; have h1 := x1.isLt; have h2 := Opd.code_lt x2; have h3 := Opd.code_lt x3; have h4 := Opd.code_lt x4;
  exact encR_len h (by decide) (by omega) (by omega) (by omega) (by omega) (by omega) (by omega) (by omega)
theorem fsub (x0 : ElemTy) (x1 : Fin 8) (x2 : Opd) (x3 : Opd) (x4 : Opd) : Statement (.fsub x0 x1 x2 x3 x4) := by
  intro w len h; have h0 := elemCode_lt x0; have h1 := x1.isLt; have h2 := Opd.code_lt x2; have h3 := Opd.code_lt x3; have h4 := Opd.code_lt x4;
  exact encR_len h (by decide) (by omega) (by omega) (by omega) (by omega) (by omega) (by omega) (by omega)
theorem fmul (x0 : ElemTy) (x1 : Fin 8) (x2 : Opd) (x3 : Opd) (x4 : Opd) : Statement (.fmul x0 x1 x2 x3 x4) := by
  intro w len h; have h0 := elemCode_lt x0; have h1 := x1.isLt; have h2 := Opd.code_lt x2; have h3 := Opd.code_lt x3; have h4 := Opd.code_lt x4;
  exact encR_len h (by decide) (by omega) (by omega) (by omega) (by omega) (by omega) (by omega) (by omega)
theorem ffma (x0 : ElemTy) (x1 : Fin 8) (x2 : Opd) (x3 : Opd) (x4 : Opd) (x5 : Opd) : Statement (.ffma x0 x1 x2 x3 x4 x5) := by
  intro w len h; have h0 := elemCode_lt x0; have h1 := x1.isLt; have h2 := Opd.code_lt x2; have h3 := Opd.code_lt x3; have h4 := Opd.code_lt x4; have h5 := Opd.code_lt x5;
  exact encR_len h (by decide) (by omega) (by omega) (by omega) (by omega) (by omega) (by omega) (by omega)
theorem fdiv (x0 : ElemTy) (x1 : Fin 8) (x2 : Opd) (x3 : Opd) (x4 : Opd) : Statement (.fdiv x0 x1 x2 x3 x4) := by
  intro w len h; have h0 := elemCode_lt x0; have h1 := x1.isLt; have h2 := Opd.code_lt x2; have h3 := Opd.code_lt x3; have h4 := Opd.code_lt x4;
  exact encR_len h (by decide) (by omega) (by omega) (by omega) (by omega) (by omega) (by omega) (by omega)
theorem fsqrt (x0 : ElemTy) (x1 : Fin 8) (x2 : Opd) (x3 : Opd) : Statement (.fsqrt x0 x1 x2 x3) := by
  intro w len h; have h0 := elemCode_lt x0; have h1 := x1.isLt; have h2 := Opd.code_lt x2; have h3 := Opd.code_lt x3;
  exact encR_len h (by decide) (by omega) (by omega) (by omega) (by omega) (by omega) (by omega) (by omega)
theorem fmin (x0 : ElemTy) (x1 : Fin 8) (x2 : Opd) (x3 : Opd) (x4 : Opd) : Statement (.fmin x0 x1 x2 x3 x4) := by
  intro w len h; have h0 := elemCode_lt x0; have h1 := x1.isLt; have h2 := Opd.code_lt x2; have h3 := Opd.code_lt x3; have h4 := Opd.code_lt x4;
  exact encR_len h (by decide) (by omega) (by omega) (by omega) (by omega) (by omega) (by omega) (by omega)
theorem fmax (x0 : ElemTy) (x1 : Fin 8) (x2 : Opd) (x3 : Opd) (x4 : Opd) : Statement (.fmax x0 x1 x2 x3 x4) := by
  intro w len h; have h0 := elemCode_lt x0; have h1 := x1.isLt; have h2 := Opd.code_lt x2; have h3 := Opd.code_lt x3; have h4 := Opd.code_lt x4;
  exact encR_len h (by decide) (by omega) (by omega) (by omega) (by omega) (by omega) (by omega) (by omega)
theorem fcmp (x0 : ElemTy) (x1 : Fin 8) (x2 : Opd) (x3 : Opd) (x4 : Opd) : Statement (.fcmp x0 x1 x2 x3 x4) := by
  intro w len h; have h0 := elemCode_lt x0; have h1 := x1.isLt; have h2 := Opd.code_lt x2; have h3 := Opd.code_lt x3; have h4 := Opd.code_lt x4;
  exact encR_len h (by decide) (by omega) (by omega) (by omega) (by omega) (by omega) (by omega) (by omega)
theorem fcvt (x0 : ElemTy) (x1 : ElemTy) (x2 : Fin 8) (x3 : Opd) (x4 : Opd) : Statement (.fcvt x0 x1 x2 x3 x4) := by
  intro w len h; have h0 := elemCode_lt x0; have h1 := elemCode_lt x1; have h2 := x2.isLt; have h3 := Opd.code_lt x3; have h4 := Opd.code_lt x4;
  exact encR_len h (by decide) (by omega) (by omega) (by omega) (by omega) (by omega) (by omega) (by omega)
theorem ld (x0 : Opd) (x1 : MArgs) : Statement (.ld x0 x1) := by
  intro w len h; have h0 := Opd.code_lt x0;
  exact encM_len h (by decide) (by omega)
theorem st (x0 : Opd) (x1 : MArgs) : Statement (.st x0 x1) := by
  intro w len h; have h0 := Opd.code_lt x0;
  exact encM_len h (by decide) (by omega)
theorem ldv (x0 : Opd) (x1 : MArgs) : Statement (.ldv x0 x1) := by
  intro w len h; have h0 := Opd.code_lt x0;
  exact encM_len h (by decide) (by omega)
theorem stv (x0 : Opd) (x1 : MArgs) : Statement (.stv x0 x1) := by
  intro w len h; have h0 := Opd.code_lt x0;
  exact encM_len h (by decide) (by omega)
theorem ldg (x0 : ElemTy) (x1 : Bool) (x2 : Fin 8) (x3 : Opd) (x4 : Opd) (x5 : Opd) : Statement (.ldg x0 x1 x2 x3 x4 x5) := by
  intro w len h; have h0 := elemCode_lt x0; have h1 := b2n_lt x1; have h2 := x2.isLt; have h3 := Opd.code_lt x3; have h4 := Opd.code_lt x4; have h5 := Opd.code_lt x5;
  exact encR_len h (by decide) (by omega) (by omega) (by omega) (by omega) (by omega) (by omega) (by omega)
theorem sts (x0 : ElemTy) (x1 : Bool) (x2 : Fin 8) (x3 : Opd) (x4 : Opd) (x5 : Opd) : Statement (.sts x0 x1 x2 x3 x4 x5) := by
  intro w len h; have h0 := elemCode_lt x0; have h1 := b2n_lt x1; have h2 := x2.isLt; have h3 := Opd.code_lt x3; have h4 := Opd.code_lt x4; have h5 := Opd.code_lt x5;
  exact encR_len h (by decide) (by omega) (by omega) (by omega) (by omega) (by omega) (by omega) (by omega)
theorem pref (x0 : MArgs) : Statement (.pref x0) := by
  intro w len h; 
  exact encM_len h (by decide) (by omega)
theorem atom (x0 : AtomOp) (x1 : Bool) (x2 : AtomOrd) (x3 : Scope) (x4 : Fin 8) (x5 : Opd) (x6 : Opd) (x7 : Opd) (x8 : Opd) : Statement (.atom x0 x1 x2 x3 x4 x5 x6 x7 x8) := by
  intro w len h; have h0 := AtomOp.code_lt x0; have h1 := b2n_lt x1; have h2 := AtomOrd.code_lt x2; have h3 := Scope.code_lt x3; have h4 := x4.isLt; have h5 := Opd.code_lt x5; have h6 := Opd.code_lt x6; have h7 := Opd.code_lt x7; have h8 := Opd.code_lt x8;
  exact encR_len h (by decide) (by omega) (by omega) (by omega) (by omega) (by omega) (by omega) (by omega)
theorem acq (x0 : Opd) (x1 : MArgs) : Statement (.acq x0 x1) := by
  intro w len h; have h0 := Opd.code_lt x0;
  exact encM_len h (by decide) (by omega)
theorem rel (x0 : Opd) (x1 : MArgs) : Statement (.rel x0 x1) := by
  intro w len h; have h0 := Opd.code_lt x0;
  exact encM_len h (by decide) (by omega)
theorem bind (x0 : BitVec 8) (x1 : Fin 8) (x2 : Opd) (x3 : Opd) (x4 : Opd) (x5 : Opd) : Statement (.bind x0 x1 x2 x3 x4 x5) := by
  intro w len h; have h0 := x0.isLt; have h1 := x1.isLt; have h2 := Opd.code_lt x2; have h3 := Opd.code_lt x3; have h4 := Opd.code_lt x4; have h5 := Opd.code_lt x5;
  exact encR_len h (by decide) (by omega) (by omega) (by omega) (by omega) (by omega) (by omega) (by omega)
theorem fence (x0 : FenceKind) (x1 : Scope) : Statement (.fence x0 x1) := by
  intro w len h; have h0 := FenceKind.code_lt x0; have h1 := Scope.code_lt x1;
  exact encI_len h (by decide) (by omega) (by omega) (by omega) (by omega) (by omega)
theorem bar (x0 : Scope) (x1 : Fin 4) : Statement (.bar x0 x1) := by
  intro w len h; have h0 := Scope.code_lt x0; have h1 := x1.isLt;
  exact encI_len h (by decide) (by omega) (by omega) (by omega) (by omega) (by omega)
theorem fork (x0 : Bool) (x1 : Scope) (x2 : Fin 8) (x3 : Opd) (x4 : Opd) (x5 : Opd) (x6 : Opd) (x7 : BitVec 32) : Statement (.fork x0 x1 x2 x3 x4 x5 x6 x7) := by
  intro w len h; have h0 := b2n_lt x0; have h1 := Scope.code_lt x1; have h2 := x2.isLt; have h3 := Opd.code_lt x3; have h4 := Opd.code_lt x4; have h5 := Opd.code_lt x5; have h6 := Opd.code_lt x6; have h7 := x7.isLt;
  exact encX_len h (by decide) (by omega) (by omega) (by omega) (by omega) (by omega) (by omega) (by omega)
theorem join (x0 : Opd) (x1 : MArgs) : Statement (.join x0 x1) := by
  intro w len h; have h0 := Opd.code_lt x0;
  exact encM_len h (by decide) (by omega)
theorem send (x0 : Bool) (x1 : Bool) (x2 : Scope) (x3 : Fin 64) (x4 : Fin 8) (x5 : Opd) (x6 : Opd) : Statement (.send x0 x1 x2 x3 x4 x5 x6) := by
  intro w len h; have h0 := b2n_lt x0; have h1 := b2n_lt x1; have h2 := Scope.code_lt x2; have h3 := x3.isLt; have h4 := x4.isLt; have h5 := Opd.code_lt x5; have h6 := Opd.code_lt x6;
  exact encR_len h (by decide) (by omega) (by omega) (by omega) (by omega) (by omega) (by omega) (by omega)
theorem sendImm (x0 : Bool) (x1 : Bool) (x2 : Scope) (x3 : Fin 64) (x4 : Fin 8) (x5 : Opd) (x6 : BitVec 32) : Statement (.sendImm x0 x1 x2 x3 x4 x5 x6) := by
  intro w len h; have h0 := b2n_lt x0; have h1 := b2n_lt x1; have h2 := Scope.code_lt x2; have h3 := x3.isLt; have h4 := x4.isLt; have h5 := Opd.code_lt x5; have h6 := x6.isLt;
  exact encX_len h (by decide) (by omega) (by omega) (by omega) (by omega) (by omega) (by omega) (by omega)
theorem tagctl (x0 : TagAct) (x1 : Opd) (x2 : Opd) (x3 : Fin 64) (x4 : BitVec 7) : Statement (.tagctl x0 x1 x2 x3 x4) := by
  intro w len h; have h0 := TagAct.code_lt x0; have h1 := Opd.code_lt x1; have h2 := Opd.code_lt x2; have h3 := x3.isLt; have h4 := x4.isLt;
  exact encI_len h (by decide) (by omega) (by omega) (by omega) (by omega) (by omega)
theorem cont (x0 : Fin 8) (x1 : Opd) (x2 : Opd) (x3 : Opd) (x4 : Opd) (x5 : BitVec 32) : Statement (.cont x0 x1 x2 x3 x4 x5) := by
  intro w len h; have h0 := x0.isLt; have h1 := Opd.code_lt x1; have h2 := Opd.code_lt x2; have h3 := Opd.code_lt x3; have h4 := Opd.code_lt x4; have h5 := x5.isLt;
  exact encX_len h (by decide) (by omega) (by omega) (by omega) (by omega) (by omega) (by omega) (by omega)
theorem sbind (x0 : BindKind) (x1 : Bool) (x2 : Fin 4) (x3 : Fin 8) (x4 : Fin 8) (x5 : Opd) (x6 : Opd) : Statement (.sbind x0 x1 x2 x3 x4 x5 x6) := by
  intro w len h; have h0 := BindKind.code_lt x0; have h1 := b2n_lt x1; have h2 := x2.isLt; have h3 := x3.isLt; have h4 := x4.isLt; have h5 := Opd.code_lt x5; have h6 := Opd.code_lt x6;
  exact encR_len h (by decide) (by omega) (by omega) (by omega) (by omega) (by omega) (by omega) (by omega)
theorem sunb (x0 : Fin 8) (x1 : Fin 8) : Statement (.sunb x0 x1) := by
  intro w len h; have h0 := x0.isLt; have h1 := x1.isLt;
  exact encR_len h (by decide) (by omega) (by omega) (by omega) (by omega) (by omega) (by omega) (by omega)
theorem sstat (x0 : Fin 8) (x1 : Opd) (x2 : Fin 8) : Statement (.sstat x0 x1 x2) := by
  intro w len h; have h0 := x0.isLt; have h1 := Opd.code_lt x1; have h2 := x2.isLt;
  exact encR_len h (by decide) (by omega) (by omega) (by omega) (by omega) (by omega) (by omega) (by omega)
theorem crr (x0 : Opd) (x1 : Fin 26) : Statement (.crr x0 x1) := by
  intro w len h; have h0 := Opd.code_lt x0; have h1 := x1.isLt;
  exact encI_len h (by decide) (by omega) (by omega) (by omega) (by omega) (by omega)
theorem crw (x0 : Fin 26) (x1 : Opd) : Statement (.crw x0 x1) := by
  intro w len h; have h0 := x0.isLt; have h1 := Opd.code_lt x1;
  exact encI_len h (by decide) (by omega) (by omega) (by omega) (by omega) (by omega)
theorem vadd (x0 : ElemTy) (x1 : Fin 8) (x2 : Opd) (x3 : Opd) (x4 : Opd) : Statement (.vadd x0 x1 x2 x3 x4) := by
  intro w len h; have h0 := elemCode_lt x0; have h1 := x1.isLt; have h2 := Opd.code_lt x2; have h3 := Opd.code_lt x3; have h4 := Opd.code_lt x4;
  exact encR_len h (by decide) (by omega) (by omega) (by omega) (by omega) (by omega) (by omega) (by omega)
theorem vsub (x0 : ElemTy) (x1 : Fin 8) (x2 : Opd) (x3 : Opd) (x4 : Opd) : Statement (.vsub x0 x1 x2 x3 x4) := by
  intro w len h; have h0 := elemCode_lt x0; have h1 := x1.isLt; have h2 := Opd.code_lt x2; have h3 := Opd.code_lt x3; have h4 := Opd.code_lt x4;
  exact encR_len h (by decide) (by omega) (by omega) (by omega) (by omega) (by omega) (by omega) (by omega)
theorem vmul (x0 : ElemTy) (x1 : Fin 8) (x2 : Opd) (x3 : Opd) (x4 : Opd) : Statement (.vmul x0 x1 x2 x3 x4) := by
  intro w len h; have h0 := elemCode_lt x0; have h1 := x1.isLt; have h2 := Opd.code_lt x2; have h3 := Opd.code_lt x3; have h4 := Opd.code_lt x4;
  exact encR_len h (by decide) (by omega) (by omega) (by omega) (by omega) (by omega) (by omega) (by omega)
theorem vfma (x0 : ElemTy) (x1 : Fin 8) (x2 : Opd) (x3 : Opd) (x4 : Opd) (x5 : Opd) : Statement (.vfma x0 x1 x2 x3 x4 x5) := by
  intro w len h; have h0 := elemCode_lt x0; have h1 := x1.isLt; have h2 := Opd.code_lt x2; have h3 := Opd.code_lt x3; have h4 := Opd.code_lt x4; have h5 := Opd.code_lt x5;
  exact encR_len h (by decide) (by omega) (by omega) (by omega) (by omega) (by omega) (by omega) (by omega)
theorem vmin (x0 : ElemTy) (x1 : Fin 8) (x2 : Opd) (x3 : Opd) (x4 : Opd) : Statement (.vmin x0 x1 x2 x3 x4) := by
  intro w len h; have h0 := elemCode_lt x0; have h1 := x1.isLt; have h2 := Opd.code_lt x2; have h3 := Opd.code_lt x3; have h4 := Opd.code_lt x4;
  exact encR_len h (by decide) (by omega) (by omega) (by omega) (by omega) (by omega) (by omega) (by omega)
theorem vmax (x0 : ElemTy) (x1 : Fin 8) (x2 : Opd) (x3 : Opd) (x4 : Opd) : Statement (.vmax x0 x1 x2 x3 x4) := by
  intro w len h; have h0 := elemCode_lt x0; have h1 := x1.isLt; have h2 := Opd.code_lt x2; have h3 := Opd.code_lt x3; have h4 := Opd.code_lt x4;
  exact encR_len h (by decide) (by omega) (by omega) (by omega) (by omega) (by omega) (by omega) (by omega)
theorem vand (x0 : ElemTy) (x1 : Fin 8) (x2 : Opd) (x3 : Opd) (x4 : Opd) : Statement (.vand x0 x1 x2 x3 x4) := by
  intro w len h; have h0 := elemCode_lt x0; have h1 := x1.isLt; have h2 := Opd.code_lt x2; have h3 := Opd.code_lt x3; have h4 := Opd.code_lt x4;
  exact encR_len h (by decide) (by omega) (by omega) (by omega) (by omega) (by omega) (by omega) (by omega)
theorem vor (x0 : ElemTy) (x1 : Fin 8) (x2 : Opd) (x3 : Opd) (x4 : Opd) : Statement (.vor x0 x1 x2 x3 x4) := by
  intro w len h; have h0 := elemCode_lt x0; have h1 := x1.isLt; have h2 := Opd.code_lt x2; have h3 := Opd.code_lt x3; have h4 := Opd.code_lt x4;
  exact encR_len h (by decide) (by omega) (by omega) (by omega) (by omega) (by omega) (by omega) (by omega)
theorem vxor (x0 : ElemTy) (x1 : Fin 8) (x2 : Opd) (x3 : Opd) (x4 : Opd) : Statement (.vxor x0 x1 x2 x3 x4) := by
  intro w len h; have h0 := elemCode_lt x0; have h1 := x1.isLt; have h2 := Opd.code_lt x2; have h3 := Opd.code_lt x3; have h4 := Opd.code_lt x4;
  exact encR_len h (by decide) (by omega) (by omega) (by omega) (by omega) (by omega) (by omega) (by omega)
theorem vshl (x0 : ElemTy) (x1 : Fin 8) (x2 : Opd) (x3 : Opd) (x4 : Opd) : Statement (.vshl x0 x1 x2 x3 x4) := by
  intro w len h; have h0 := elemCode_lt x0; have h1 := x1.isLt; have h2 := Opd.code_lt x2; have h3 := Opd.code_lt x3; have h4 := Opd.code_lt x4;
  exact encR_len h (by decide) (by omega) (by omega) (by omega) (by omega) (by omega) (by omega) (by omega)
theorem vshr (x0 : ElemTy) (x1 : Fin 8) (x2 : Opd) (x3 : Opd) (x4 : Opd) : Statement (.vshr x0 x1 x2 x3 x4) := by
  intro w len h; have h0 := elemCode_lt x0; have h1 := x1.isLt; have h2 := Opd.code_lt x2; have h3 := Opd.code_lt x3; have h4 := Opd.code_lt x4;
  exact encR_len h (by decide) (by omega) (by omega) (by omega) (by omega) (by omega) (by omega) (by omega)
theorem vcmp (x0 : VCond) (x1 : ElemTy) (x2 : Fin 8) (x3 : VCmpDst) (x4 : Opd) (x5 : Opd) : Statement (.vcmp x0 x1 x2 x3 x4 x5) := by
  intro w len h; have h0 := VCond.code_lt x0; have h1 := elemCode_lt x1; have h2 := x2.isLt; have h4 := Opd.code_lt x4; have h5 := Opd.code_lt x5;
  cases x3 with
  | pred p => have := p.isLt; exact encR_len h (by decide) (by omega) (by omega) (by omega) (by omega) (by omega) (by omega) (by omega)
  | vec v => have := Opd.code_lt v; exact encR_len h (by decide) (by omega) (by omega) (by omega) (by omega) (by omega) (by omega) (by omega)
theorem vsel (x0 : ElemTy) (x1 : Fin 8) (x2 : Opd) (x3 : Opd) (x4 : Opd) (x5 : Opd) : Statement (.vsel x0 x1 x2 x3 x4 x5) := by
  intro w len h; have h0 := elemCode_lt x0; have h1 := x1.isLt; have h2 := Opd.code_lt x2; have h3 := Opd.code_lt x3; have h4 := Opd.code_lt x4; have h5 := Opd.code_lt x5;
  exact encR_len h (by decide) (by omega) (by omega) (by omega) (by omega) (by omega) (by omega) (by omega)
theorem vabs (x0 : ElemTy) (x1 : Fin 8) (x2 : Opd) (x3 : Opd) : Statement (.vabs x0 x1 x2 x3) := by
  intro w len h; have h0 := elemCode_lt x0; have h1 := x1.isLt; have h2 := Opd.code_lt x2; have h3 := Opd.code_lt x3;
  exact encR_len h (by decide) (by omega) (by omega) (by omega) (by omega) (by omega) (by omega) (by omega)
theorem vneg (x0 : ElemTy) (x1 : Fin 8) (x2 : Opd) (x3 : Opd) : Statement (.vneg x0 x1 x2 x3) := by
  intro w len h; have h0 := elemCode_lt x0; have h1 := x1.isLt; have h2 := Opd.code_lt x2; have h3 := Opd.code_lt x3;
  exact encR_len h (by decide) (by omega) (by omega) (by omega) (by omega) (by omega) (by omega) (by omega)
theorem vsadd (x0 : ElemTy) (x1 : Fin 8) (x2 : Opd) (x3 : Opd) (x4 : Opd) : Statement (.vsadd x0 x1 x2 x3 x4) := by
  intro w len h; have h0 := elemCode_lt x0; have h1 := x1.isLt; have h2 := Opd.code_lt x2; have h3 := Opd.code_lt x3; have h4 := Opd.code_lt x4;
  exact encR_len h (by decide) (by omega) (by omega) (by omega) (by omega) (by omega) (by omega) (by omega)
theorem vrcp (x0 : ElemTy) (x1 : Fin 8) (x2 : Opd) (x3 : Opd) : Statement (.vrcp x0 x1 x2 x3) := by
  intro w len h; have h0 := elemCode_lt x0; have h1 := x1.isLt; have h2 := Opd.code_lt x2; have h3 := Opd.code_lt x3;
  exact encR_len h (by decide) (by omega) (by omega) (by omega) (by omega) (by omega) (by omega) (by omega)
theorem vexp2 (x0 : ElemTy) (x1 : Fin 8) (x2 : Opd) (x3 : Opd) : Statement (.vexp2 x0 x1 x2 x3) := by
  intro w len h; have h0 := elemCode_lt x0; have h1 := x1.isLt; have h2 := Opd.code_lt x2; have h3 := Opd.code_lt x3;
  exact encR_len h (by decide) (by omega) (by omega) (by omega) (by omega) (by omega) (by omega) (by omega)
theorem vmov (x0 : ElemTy) (x1 : Fin 8) (x2 : Opd) (x3 : Opd) : Statement (.vmov x0 x1 x2 x3) := by
  intro w len h; have h0 := elemCode_lt x0; have h1 := x1.isLt; have h2 := Opd.code_lt x2; have h3 := Opd.code_lt x3;
  exact encR_len h (by decide) (by omega) (by omega) (by omega) (by omega) (by omega) (by omega) (by omega)
theorem vbcast (x0 : ElemTy) (x1 : Fin 8) (x2 : Opd) (x3 : Opd) : Statement (.vbcast x0 x1 x2 x3) := by
  intro w len h; have h0 := elemCode_lt x0; have h1 := x1.isLt; have h2 := Opd.code_lt x2; have h3 := Opd.code_lt x3;
  exact encR_len h (by decide) (by omega) (by omega) (by omega) (by omega) (by omega) (by omega) (by omega)
theorem vred (x0 : RedOp) (x1 : ElemTy) (x2 : Fin 8) (x3 : Opd) (x4 : Opd) : Statement (.vred x0 x1 x2 x3 x4) := by
  intro w len h; have h0 := RedOp.code_lt x0; have h1 := elemCode_lt x1; have h2 := x2.isLt; have h3 := Opd.code_lt x3; have h4 := Opd.code_lt x4;
  exact encR_len h (by decide) (by omega) (by omega) (by omega) (by omega) (by omega) (by omega) (by omega)
theorem vscan (x0 : RedOp) (x1 : ElemTy) (x2 : Fin 8) (x3 : Opd) (x4 : Opd) : Statement (.vscan x0 x1 x2 x3 x4) := by
  intro w len h; have h0 := RedOp.code_lt x0; have h1 := elemCode_lt x1; have h2 := x2.isLt; have h3 := Opd.code_lt x3; have h4 := Opd.code_lt x4;
  exact encR_len h (by decide) (by omega) (by omega) (by omega) (by omega) (by omega) (by omega) (by omega)
theorem vperm (x0 : ElemTy) (x1 : Fin 8) (x2 : Opd) (x3 : Opd) (x4 : Opd) (x5 : Opd) : Statement (.vperm x0 x1 x2 x3 x4 x5) := by
  intro w len h; have h0 := elemCode_lt x0; have h1 := x1.isLt; have h2 := Opd.code_lt x2; have h3 := Opd.code_lt x3; have h4 := Opd.code_lt x4; have h5 := Opd.code_lt x5;
  exact encR_len h (by decide) (by omega) (by omega) (by omega) (by omega) (by omega) (by omega) (by omega)
theorem vcvt (x0 : ElemTy) (x1 : ElemTy) (x2 : Fin 8) (x3 : Opd) (x4 : Opd) : Statement (.vcvt x0 x1 x2 x3 x4) := by
  intro w len h; have h0 := elemCode_lt x0; have h1 := elemCode_lt x1; have h2 := x2.isLt; have h3 := Opd.code_lt x3; have h4 := Opd.code_lt x4;
  exact encR_len h (by decide) (by omega) (by omega) (by omega) (by omega) (by omega) (by omega) (by omega)
theorem vlut (x0 : ElemTy) (x1 : Fin 4) (x2 : Fin 8) (x3 : Opd) (x4 : Opd) : Statement (.vlut x0 x1 x2 x3 x4) := by
  intro w len h; have h0 := elemCode_lt x0; have h1 := x1.isLt; have h2 := x2.isLt; have h3 := Opd.code_lt x3; have h4 := Opd.code_lt x4;
  exact encR_len h (by decide) (by omega) (by omega) (by omega) (by omega) (by omega) (by omega) (by omega)
theorem vsrp (x0 : SrpOp) (x1 : ElemTy) (x2 : Fin 8) (x3 : Opd) (x4 : Opd) : Statement (.vsrp x0 x1 x2 x3 x4) := by
  intro w len h; have h1 := elemCode_lt x1; have h2 := x2.isLt; have h3 := Opd.code_lt x3; have h4 := Opd.code_lt x4;
  cases x0 with
  | proj b c => have := Opd.code_lt b; have := Opd.code_lt c; exact encR_len h (by decide) (by omega) (by omega) (by omega) (by omega) (by omega) (by omega) (by omega)
  | bucket => exact encR_len h (by decide) (by omega) (by omega) (by omega) (by omega) (by omega) (by omega) (by omega)
theorem mma (x0 : ElemTy) (x1 : ElemTy) (x2 : Fin 8) (x3 : Fin 4) (x4 : Opd) (x5 : Opd) (x6 : Opd) (x7 : BitVec 32) (x8 : BitVec 32) : Statement (.mma x0 x1 x2 x3 x4 x5 x6 x7 x8) := by
  intro w len h; have h0 := elemCode_lt x0; have h1 := elemCode_lt x1; have h2 := x2.isLt; have h3 := x3.isLt; have h4 := Opd.code_lt x4; have h5 := Opd.code_lt x5; have h6 := Opd.code_lt x6; have h7 := x7.isLt; have h8 := x8.isLt;
  exact encL_len h (by decide) (by omega) (by omega) (by omega) (by omega) (by omega) (by omega) (by omega)
theorem mxst (x0 : Fin 4) (x1 : MArgs) : Statement (.mxst x0 x1) := by
  intro w len h; have h0 := x0.isLt;
  exact encM_len h (by decide) (by omega)
theorem mxld (x0 : Fin 8) (x1 : MArgs) : Statement (.mxld x0 x1) := by
  intro w len h; have h0 := x0.isLt;
  exact encM_len h (by decide) (by omega)
theorem mxz (x0 : Fin 8) (x1 : Fin 4) : Statement (.mxz x0 x1) := by
  intro w len h; have h0 := x0.isLt; have h1 := x1.isLt;
  exact encR_len h (by decide) (by omega) (by omega) (by omega) (by omega) (by omega) (by omega) (by omega)
theorem gred (x0 : Fin 15) (x1 : Fin 16) (x2 : Fin 8) (x3 : Opd) (x4 : Opd) (x5 : Opd) (x6 : Opd) : Statement (.gred x0 x1 x2 x3 x4 x5 x6) := by
  intro w len h; have h0 := x0.isLt; have h1 := x1.isLt; have h2 := x2.isLt; have h3 := Opd.code_lt x3; have h4 := Opd.code_lt x4; have h5 := Opd.code_lt x5; have h6 := Opd.code_lt x6;
  exact encR_len h (by decide) (by omega) (by omega) (by omega) (by omega) (by omega) (by omega) (by omega)
theorem gmap (x0 : GMapOp) (x1 : Fin 16) (x2 : Fin 8) (x3 : Opd) (x4 : Opd) (x5 : Opd) (x6 : Opd) : Statement (.gmap x0 x1 x2 x3 x4 x5 x6) := by
  intro w len h; have h0 := GMapOp.code_lt x0; have h1 := x1.isLt; have h2 := x2.isLt; have h3 := Opd.code_lt x3; have h4 := Opd.code_lt x4; have h5 := Opd.code_lt x5; have h6 := Opd.code_lt x6;
  exact encR_len h (by decide) (by omega) (by omega) (by omega) (by omega) (by omega) (by omega) (by omega)
theorem gpos (x0 : GQuery) (x1 : Fin 16) (x2 : Fin 8) (x3 : Opd) (x4 : Opd) (x5 : Opd) (x6 : Opd) : Statement (.gpos x0 x1 x2 x3 x4 x5 x6) := by
  intro w len h; have h0 := GQuery.code_lt x0; have h1 := x1.isLt; have h2 := x2.isLt; have h3 := Opd.code_lt x3; have h4 := Opd.code_lt x4; have h5 := Opd.code_lt x5; have h6 := Opd.code_lt x6;
  exact encR_len h (by decide) (by omega) (by omega) (by omega) (by omega) (by omega) (by omega) (by omega)
theorem gexp (x0 : Bool) (x1 : Fin 16) (x2 : Fin 8) (x3 : Opd) (x4 : Opd) (x5 : Opd) (x6 : Opd) : Statement (.gexp x0 x1 x2 x3 x4 x5 x6) := by
  intro w len h; have h0 := b2n_lt x0; have h1 := x1.isLt; have h2 := x2.isLt; have h3 := Opd.code_lt x3; have h4 := Opd.code_lt x4; have h5 := Opd.code_lt x5; have h6 := Opd.code_lt x6;
  exact encR_len h (by decide) (by omega) (by omega) (by omega) (by omega) (by omega) (by omega) (by omega)
theorem post (x0 : Opd) (x1 : MArgs) : Statement (.post x0 x1) := by
  intro w len h; have h0 := Opd.code_lt x0;
  exact encM_len h (by decide) (by omega)
theorem rgath (x0 : Fin 8) (x1 : Opd) (x2 : Opd) (x3 : Opd) (x4 : Opd) : Statement (.rgath x0 x1 x2 x3 x4) := by
  intro w len h; have h0 := x0.isLt; have h1 := Opd.code_lt x1; have h2 := Opd.code_lt x2; have h3 := Opd.code_lt x3; have h4 := Opd.code_lt x4;
  exact encR_len h (by decide) (by omega) (by omega) (by omega) (by omega) (by omega) (by omega) (by omega)
theorem jstat (x0 : Opd) (x1 : MArgs) : Statement (.jstat x0 x1) := by
  intro w len h; have h0 := Opd.code_lt x0;
  exact encM_len h (by decide) (by omega)
theorem wdenter (x0 : Fin 4) (x1 : Fin 4) (x2 : Fin 8) (x3 : Opd) (x4 : Opd) (x5 : Opd) (x6 : Opd) (x7 : BitVec 48) (x8 : BitVec 4) (x9 : BitVec 3) : Statement (.wdenter x0 x1 x2 x3 x4 x5 x6 x7 x8 x9) := by
  intro w len h; have h0 := x0.isLt; have h1 := x1.isLt; have h2 := x2.isLt; have h3 := Opd.code_lt x3; have h4 := Opd.code_lt x4; have h5 := Opd.code_lt x5; have h6 := Opd.code_lt x6; have h7 := x7.isLt; have h8 := x8.isLt; have h9 := x9.isLt;
  exact encL_len h (by decide) (by omega) (by omega) (by omega) (by omega) (by omega) (by omega) (by omega)
theorem wdexit (x0 : Fin 8) (x1 : Opd) : Statement (.wdexit x0 x1) := by
  intro w len h; have h0 := x0.isLt; have h1 := Opd.code_lt x1;
  exact encR_len h (by decide) (by omega) (by omega) (by omega) (by omega) (by omega) (by omega) (by omega)
theorem tlbi (x0 : TlbiKind) (x1 : Bool) (x2 : Fin 8) (x3 : Opd) : Statement (.tlbi x0 x1 x2 x3) := by
  intro w len h; have h0 := TlbiKind.code_lt x0; have h1 := b2n_lt x1; have h2 := x2.isLt; have h3 := Opd.code_lt x3;
  exact encR_len h (by decide) (by omega) (by omega) (by omega) (by omega) (by omega) (by omega) (by omega)
theorem ctxsv (x0 : Opd) (x1 : MArgs) : Statement (.ctxsv x0 x1) := by
  intro w len h; have h0 := Opd.code_lt x0;
  exact encM_len h (by decide) (by omega)
theorem ctxld (x0 : Opd) (x1 : MArgs) : Statement (.ctxld x0 x1) := by
  intro w len h; have h0 := Opd.code_lt x0;
  exact encM_len h (by decide) (by omega)
theorem taskSelect (x0 : CoreId) : Statement (.taskSelect x0) := by intro w len h; cases h
theorem stealRequest (x0 : CoreId) (x1 : CoreId) : Statement (.stealRequest x0 x1) := by intro w len h; cases h
theorem tileTaskRecordArrive (x0 : Nat) : Statement (.tileTaskRecordArrive x0) := by intro w len h; cases h
theorem messageArrival (x0 : Nat) : Statement (.messageArrival x0) := by intro w len h; cases h
theorem pendingSignalRecord (x0 : CoreId) (x1 : Fin 64) : Statement (.pendingSignalRecord x0 x1) := by intro w len h; cases h
theorem barrierComplete (x0 : Nat) : Statement (.barrierComplete x0) := by intro w len h; cases h
theorem courseEnd (x0 : Nat) : Statement (.courseEnd x0) := by intro w len h; cases h
theorem fetchDeliver (x0 : CoreId) : Statement (.fetchDeliver x0) := by intro w len h; cases h
theorem farLoadReturn (x0 : CoreId) : Statement (.farLoadReturn x0) := by intro w len h; cases h
theorem farStoreDrain (x0 : CoreId) : Statement (.farStoreDrain x0) := by intro w len h; cases h
theorem remoteNearAccess (x0 : Bool) (x1 : Nat) (x2 : List Byte) : Statement (.remoteNearAccess x0 x1 x2) := by intro w len h; cases h
theorem mmaKblockComplete (x0 : CoreId) : Statement (.mmaKblockComplete x0) := by intro w len h; cases h
theorem mxOpComplete (x0 : CoreId) : Statement (.mxOpComplete x0) := by intro w len h; cases h
theorem ruleEvaluate (x0 : CoreId) : Statement (.ruleEvaluate x0) := by intro w len h; cases h
theorem grammarOpComplete (x0 : CoreId) : Statement (.grammarOpComplete x0) := by intro w len h; cases h
theorem streamTransfer (x0 : CoreId) (x1 : Fin 8) : Statement (.streamTransfer x0 x1) := by intro w len h; cases h
theorem gatherElementReply (x0 : CoreId) : Statement (.gatherElementReply x0) := by intro w len h; cases h
theorem pageWalkComplete (x0 : CoreId) (x1 : Nat) (x2 : Bool) : Statement (.pageWalkComplete x0 x1 x2) := by intro w len h; cases h
theorem asyncFaultTake (x0 : CoreId) : Statement (.asyncFaultTake x0) := by intro w len h; cases h
theorem trapMigrate (x0 : CoreId) : Statement (.trapMigrate x0) := by intro w len h; cases h
theorem serviceTaskCreate (x0 : TileId) (x1 : Fin 64) : Statement (.serviceTaskCreate x0 x1) := by intro w len h; cases h
theorem contextReturn (x0 : Nat) : Statement (.contextReturn x0) := by intro w len h; cases h
theorem settleRequest (x0 : CoreId) : Statement (.settleRequest x0) := by intro w len h; cases h
theorem timeSliceSwitch (x0 : Fin 4) : Statement (.timeSliceSwitch x0) := by intro w len h; cases h
theorem jobCopy (x0 : TileId) (x1 : Nat) : Statement (.jobCopy x0 x1) := by intro w len h; cases h
theorem jobGather (x0 : TileId) (x1 : Nat) : Statement (.jobGather x0 x1) := by intro w len h; cases h
theorem jobColl (x0 : TileId) (x1 : Nat) : Statement (.jobColl x0 x1) := by intro w len h; cases h
theorem jobConvert (x0 : TileId) (x1 : Nat) : Statement (.jobConvert x0 x1) := by intro w len h; cases h
theorem jobTload (x0 : TileId) (x1 : Nat) : Statement (.jobTload x0 x1) := by intro w len h; cases h
theorem jobGbuild (x0 : TileId) (x1 : Nat) : Statement (.jobGbuild x0 x1) := by intro w len h; cases h
theorem jobExpand (x0 : TileId) (x1 : Nat) : Statement (.jobExpand x0 x1) := by intro w len h; cases h
theorem jobComplete (x0 : TileId) (x1 : Nat) : Statement (.jobComplete x0 x1) := by intro w len h; cases h
theorem collPacket (x0 : BitVec 32) (x1 : Nat) : Statement (.collPacket x0 x1) := by intro w len h; cases h
theorem blockMac (x0 : BlockHdr) : Statement (.blockMac x0) := by intro w len h; cases h
theorem blockMacz (x0 : BlockHdr) : Statement (.blockMacz x0) := by intro w len h; cases h
theorem wdKblock (x0 : BlockHdr) : Statement (.wdKblock x0) := by intro w len h; cases h
theorem blockEmit (x0 : BlockHdr) : Statement (.blockEmit x0) := by intro w len h; cases h
theorem blockLink (x0 : BlockHdr) : Statement (.blockLink x0) := by intro w len h; cases h
theorem blockCallb (x0 : BlockHdr) : Statement (.blockCallb x0) := by intro w len h; cases h
theorem blockRetb (x0 : BlockHdr) : Statement (.blockRetb x0) := by intro w len h; cases h
theorem blockHint (x0 : BlockHdr) : Statement (.blockHint x0) := by intro w len h; cases h
theorem blockSync (x0 : BlockHdr) : Statement (.blockSync x0) := by intro w len h; cases h
theorem blockExit (x0 : BlockHdr) : Statement (.blockExit x0) := by intro w len h; cases h
theorem blockTrapb (x0 : BlockHdr) : Statement (.blockTrapb x0) := by intro w len h; cases h
theorem loadpipePrefetch (x0 : CoreId) : Statement (.loadpipePrefetch x0) := by intro w len h; cases h
theorem stagingEntryExpire (x0 : TileId) (x1 : Nat) : Statement (.stagingEntryExpire x0 x1) := by intro w len h; cases h
theorem plumbPulse (x0 : TileId) : Statement (.plumbPulse x0) := by intro w len h; cases h
theorem traceRecordWrite (x0 : CoreId) : Statement (.traceRecordWrite x0) := by intro w len h; cases h
theorem powerWindow (x0 : Fin 8) (x1 : Bool) : Statement (.powerWindow x0 x1) := by intro w len h; cases h
theorem scrubStep (x0 : Nat) (x1 : ScrubFind) : Statement (.scrubStep x0 x1) := by intro w len h; cases h
theorem thermalFault (x0 : Fin 8) : Statement (.thermalFault x0) := by intro w len h; cases h
theorem ioDieOverheat (x0 : Fin 2) : Statement (.ioDieOverheat x0) := by intro w len h; cases h
theorem packageReset (x0 : Bool) : Statement (.packageReset x0) := by intro w len h; cases h
theorem hleaseWrite (x0 : Fin 2) (x1 : Word) : Statement (.hleaseWrite x0 x1) := by intro w len h; cases h
theorem lperiodWrite (x0 : Fin 2) (x1 : Word) : Statement (.lperiodWrite x0 x1) := by intro w len h; cases h
theorem leaseExpire : Statement (.leaseExpire) := by intro w len h; cases h
theorem notifyWrite (x0 : Fin 2) (x1 : Nat) : Statement (.notifyWrite x0 x1) := by intro w len h; cases h
theorem registerWrite (x0 : Fin 2) (x1 : Nat) (x2 : List Byte) : Statement (.registerWrite x0 x1 x2) := by intro w len h; cases h
theorem createVd (x0 : Fin 2) : Statement (.createVd x0) := by intro w len h; cases h
theorem destroyVd (x0 : Fin 2) : Statement (.destroyVd x0) := by intro w len h; cases h
theorem mapHandle (x0 : Fin 2) : Statement (.mapHandle x0) := by intro w len h; cases h
theorem schedule (x0 : Fin 2) : Statement (.schedule x0) := by intro w len h; cases h
theorem pause (x0 : Fin 2) : Statement (.pause x0) := by intro w len h; cases h
theorem resume (x0 : Fin 2) : Statement (.resume x0) := by intro w len h; cases h
theorem evict (x0 : Fin 2) : Statement (.evict x0) := by intro w len h; cases h
theorem restore (x0 : Fin 2) : Statement (.restore x0) := by intro w len h; cases h
theorem leaseRenew (x0 : Fin 2) : Statement (.leaseRenew x0) := by intro w len h; cases h
theorem claim (x0 : Fin 2) : Statement (.claim x0) := by intro w len h; cases h
theorem resync (x0 : Fin 2) : Statement (.resync x0) := by intro w len h; cases h
theorem attest (x0 : Fin 2) : Statement (.attest x0) := by intro w len h; cases h
theorem setPolicy (x0 : Fin 2) : Statement (.setPolicy x0) := by intro w len h; cases h
theorem health (x0 : Fin 2) : Statement (.health x0) := by intro w len h; cases h
theorem mailboxBadOpcode (x0 : Fin 2) : Statement (.mailboxBadOpcode x0) := by intro w len h; cases h
theorem launchPacket (x0 : Nat) : Statement (.launchPacket x0) := by intro w len h; cases h
theorem copyPacket (x0 : Nat) : Statement (.copyPacket x0) := by intro w len h; cases h
theorem barrierPacket (x0 : Nat) : Statement (.barrierPacket x0) := by intro w len h; cases h
theorem barrierPacketComplete (x0 : Nat) : Statement (.barrierPacketComplete x0) := by intro w len h; cases h
theorem signalPacket (x0 : Nat) : Statement (.signalPacket x0) := by intro w len h; cases h
theorem nvmeWindowAccess (x0 : Fin 2) (x1 : Bool) (x2 : Nat) (x3 : List Byte) : Statement (.nvmeWindowAccess x0 x1 x2 x3) := by intro w len h; cases h
theorem nvmeInterruptWrite (x0 : Fin 2) (x1 : Nat) (x2 : BitVec 32) : Statement (.nvmeInterruptWrite x0 x1 x2) := by intro w len h; cases h
theorem illegalOpc (x0 : IllegalKind) : Statement (.illegalOpc x0) := by intro w len h; cases h
theorem reservedTypePacket (x0 : Nat) : Statement (.reservedTypePacket x0) := by intro w len h; cases h
theorem blockIllegal (x0 : BlockHdr) : Statement (.blockIllegal x0) := by intro w len h; cases h

end Sys2Proof.Laws.EncodeLength
end

