-- ==== Sys2Proof/Certificates/Slice0/Obligations.lean ====
section
/-! DEFINITION. The statements for the provers, with the words they are written in (namespace Say). Each docstring names the
rules it formalises; a clause that rests on a choice of the model names its log entry. -/

namespace Sys2Proof.Say

open Machine

/-! How an instruction starts and how it retires. -/

/-- A pending prefix discarded, as an instruction that is no prefix target finds it (R74, R302). -/
def begun (s : State) : State := s.mapCtx Ctx.dropPrefix
/-- A prefix target has consumed the pending prefix (R74, R75). -/
def consumed (b : State) : State := b.mapCtx Ctx.usePrefix
/-- The instruction of `len` bytes that leaves `b` retires: its cycle is counted, the PC or the repetition moves on (R70), and
a single-stepped task takes STEP after it (R213). -/
def retired (len : Nat) (b : State) : State := stepTrap ((retireCore b).mapCtx fun c => c.advance len)
/-- The same for a transfer of control, which ends a repetition (R70). -/
def jumped (pc : Word) (b : State) : State := stepTrap ((retireCore b).mapCtx fun c => { c.endRep with pc := pc })
/-- WARN bits set when a condition holds (R78). -/
def warned (c : Bool) (w : Warn) (s : State) : State := if c then s.mapCtx (·.warnOr w) else s
/-- FPF flags set (R79). -/
def flagged (f : Flags) (s : State) : State := s.mapCtx (·.fpfOr f)

/-! Operands that can be taken now: directions are right (R66), the predicate and every source can be read without waiting
(R63), a source stream has the element, and an output pattern has not ended (R66, R203). -/

/-- The sources of an instruction read in order from `s`, `on` being bit 0 of the predicate (R257). -/
structure Reads (srcs dsts : List Opd) (pg : Fin 8) (s : State) (on : Bool) (vals : List Word) (s1 : State) : Prop where
  dirs : checkDirs srcs dsts [] s = .ok ((), s)
  pred : predBit pg s = .ok (on, s)
  room : on = true → ∀ d ∈ dsts, dstEnd false d s = .ok ((), s)
  vals : readOpds srcs s = .ok (vals, s1)
/-- The sources of an instruction without a predicate. -/
structure Takes (srcs dsts : List Opd) (s : State) (vals : List Word) (s1 : State) : Prop where
  dirs : checkDirs srcs dsts [] s = .ok ((), s)
  room : ∀ d ∈ dsts, dstEnd false d s = .ok ((), s)
  vals : readOpds srcs s = .ok (vals, s1)
/-- The destination takes a value when the predicate bit is 1; else nothing is written (R257). -/
def Puts (on : Bool) (d : Opd) (v : Word) (s1 s2 : State) : Prop :=
  if on then writeOpd d v s1 = .ok ((), s2) else s2 = s1

/-- What an answer that is no completion is: a trap taken from `s`, or a stall of the core in `s`. -/
def Stopped (s t : State) : Prop :=
  (∃ tr, t = takeTrap tr s) ∨ ∃ r, t = { s with core := s.core.stalled.mapCtx fun c => { c with stall := some r } }

/-! The integer mould in bit vectors of the operation width (R281, R283). -/

/-- The width w. -/
abbrev wd (m : IMod) : Nat := 64 / 2 ^ m.w.val
/-- An operand cut to the width. -/
def cut (m : IMod) (v : Word) : BitVec (wd m) := v.setWidth (wd m)
/-- A result of the width extended to 64 bits: zero-extended for N = 1, else sign-extended. -/
def ext (m : IMod) (r : BitVec (wd m)) : Word := if m.n then r.setWidth 64 else r.signExtend 64
/-- The exact product's upper half. -/
def mulHigh (m : IMod) (x y : BitVec (wd m)) : BitVec (wd m) :=
  if m.n then BitVec.ofNat _ (x.toNat * y.toNat / 2 ^ wd m) else BitVec.ofInt _ (x.toInt * y.toInt / 2 ^ wd m)
def less (m : IMod) (x y : BitVec (wd m)) : Bool := if m.n then x.ult y else x.slt y
/-- The six low bits of a count. -/
def count {w : Nat} (y : BitVec w) : Nat := y.toNat % 64

/-- Two-source functions with what they put into D (R285, R353, R329, R306, R330, R286, R376, R298). -/
def intTwo : List ((IMod → Fin 8 → Opd → Opd → Opd → Instr) × ((m : IMod) → BitVec (wd m) → BitVec (wd m) → Word)) :=
  [(.add, fun m x y => ext m (x + y)),
   (.sub, fun m x y => ext m (x - y)),
   (.mul, fun m x y => ext m (x * y)),
   (.mulh, fun m x y => ext m (mulHigh m x y)),
   (.div, fun m x y => ext m (if y = 0 then BitVec.allOnes _ else if m.n then x / y else x.sdiv y)),
   (.rem, fun m x y => ext m (if y = 0 then x else if m.n then x % y else x.srem y)),
   (.and, fun m x y => ext m (x &&& y)),
   (.or, fun m x y => ext m (x ||| y)),
   (.xor, fun m x y => ext m (x ^^^ y)),
   (.andn, fun m x y => ext m (x &&& ~~~y)),
   (.shl, fun m x y => ext m (x <<< count y)),
   (.shr, fun m x y => ext m (if m.n then x >>> count y else x.sshiftRight (count y))),
   (.rot, fun m x y => ext m (x.rotateLeft (count y))),
   (.min, fun m x y => ext m (if less m y x then y else x)),
   (.max, fun m x y => ext m (if less m x y then y else x)),
   (.cmp, fun m x y => if less m x y then BitVec.allOnes 64 else if x = y then 0 else 1)]

/-- Functions of the immediate form (R282): the same ones. -/
def intImm : List ((IMod → Opd → Opd → BitVec 34 → Instr) × ((m : IMod) → BitVec (wd m) → BitVec (wd m) → Word)) :=
  [(.addImm, fun m x y => ext m (x + y)),
   (.andImm, fun m x y => ext m (x &&& y)),
   (.orImm, fun m x y => ext m (x ||| y)),
   (.xorImm, fun m x y => ext m (x ^^^ y)),
   (.shlImm, fun m x y => ext m (x <<< count y)),
   (.shrImm, fun m x y => ext m (if m.n then x >>> count y else x.sshiftRight (count y))),
   (.rotImm, fun m x y => ext m (x.rotateLeft (count y))),
   (.minImm, fun m x y => ext m (if less m y x then y else x)),
   (.maxImm, fun m x y => ext m (if less m x y then y else x)),
   (.cmpImm, fun m x y => if less m x y then BitVec.allOnes 64 else if x = y then 0 else 1)]

/-- Three-source functions (R353, R329, R327, R291). -/
def intThree : List ((IMod → Fin 8 → Opd → Opd → Opd → Opd → Instr)
    × ((m : IMod) → BitVec (wd m) → BitVec (wd m) → BitVec (wd m) → Word)) :=
  [(.sel, fun m x y z => ext m (if z = 0 then y else x)),
   (.madd, fun m x y z => ext m (x * y + z)),
   (.lea, fun m x y z => ext m (x + y <<< count z)),
   (.bfx, fun m x y z =>
     let n := fieldLen (wd m) (count y) (z.toNat % 128)
     let f := (x >>> count y) <<< (wd m - n)
     ext m (if m.n then f >>> (wd m - n) else f.sshiftRight (wd m - n)))]

/-- The field that BFI replaces (R291). -/
def fieldMask (w pos n : Nat) : BitVec w := ((1 <<< n) - 1) <<< pos

/-! Floating point (R310-R313). -/

def fpTwo : List ((ElemTy → Fin 8 → Opd → Opd → Opd → Instr) × (Fmt → FV → FV → Nat × Flags)) :=
  [(.fadd, addFV), (.fsub, subFV), (.fmul, mulFV), (.fdiv, divFV), (.fmin, fun f x y => minmaxFV f false x y),
   (.fmax, fun f x y => minmaxFV f true x y),
   (.fcmp, fun _ x y => if fvIsNan x || fvIsNan y then (2, snanFlag [x, y])
     else (if cmpFV x y = -1 then 2 ^ 64 - 1 else if cmpFV x y = 0 then 0 else 1, 0))]

end Sys2Proof.Say

open Sys2Proof Sys2Proof.Machine Sys2Proof.Say

/-! The integer mould. -/

/-- Two-source integer instructions complete whenever their operands can be taken, with the result of their entry at the
width of the modifier (R281, R283, R285, R286, R298, R306, R329, R330, R353, R376). -/
def Obligations.IntegerTwoSource : Prop :=
  ∀ p ∈ intTwo, ∀ m pg d a b on x y, ∀ s s1 s2 : State,
    Reads [a, b] [d] pg (begun s) on [x, y] s1 → Puts on d (p.2 m (cut m x) (cut m y)) s1 s2 →
      exec (p.1 m pg d a b) s = .next (retired 8 s2)

/-- The immediate form: the immediate is sign-extended to 64 bits and then cut to the width (R282, R254). -/
def Sys2Proof.Part.IntegerImmediate : Prop :=
  ∀ p ∈ intImm, ∀ m d a imm x, ∀ s s1 s2 : State,
    Takes [a] [d] (begun s) [x] s1 → writeOpd d (p.2 m (cut m x) (cut m (imm.signExtend 64))) s1 = .ok ((), s2) →
      exec (p.1 m d a imm) s = .next (retired 8 s2)

/-- Three-source integer instructions, BFI over the old value of D (nothing for a stream in D), and the counts CLZ and POPC
(R291, R297, R327, R329, R353). -/
def Obligations.IntegerFieldsAndCounts : Prop :=
  (∀ p ∈ intThree, ∀ m pg d a b c on x y z, ∀ s s1 s2 : State,
    Reads [a, b, c] [d] pg (begun s) on [x, y, z] s1 → Puts on d (p.2 m (cut m x) (cut m y) (cut m z)) s1 s2 →
      exec (p.1 m pg d a b c) s = .next (retired 8 s2))
  ∧ (∀ m pg d a b c on x y z old, ∀ s s1 s2 : State,
    Reads [a, b, c] [d] pg (begun s) on [x, y, z] s1 →
    (match d with | .reg n => readX n s1 = .ok (old, s1) | .str _ => old = 0) →
    (let pos := count (cut m y)
     let mask := fieldMask (wd m) pos (fieldLen (wd m) pos ((cut m z).toNat % 128))
     Puts on d (ext m ((cut m old &&& ~~~mask) ||| (cut m x <<< pos &&& mask))) s1 s2) →
      exec (.bfi m pg d a b c) s = .next (retired 8 s2))
  ∧ (∀ m pg d a on x, ∀ s s1 s2 : State, Reads [a] [d] pg (begun s) on [x] s1 →
    (Puts on d (ext m (cut m x).clz) s1 s2 → exec (.clz m pg d a) s = .next (retired 8 s2))
    ∧ (Puts on d (ext m (BitVec.ofNat _ ((List.range (wd m)).countP fun i => (cut m x).getLsbD i))) s1 s2 →
        exec (.popc m pg d a) s = .next (retired 8 s2)))

/-- LI in both forms and the PC-relative LEA (R327, R328). -/
def Sys2Proof.Part.LoadImmediate : Prop :=
  (∀ pg d imm on, ∀ s s2 : State, Reads [] [d] pg (begun s) on [] (begun s) →
    Puts on d (imm.signExtend 64) (begun s) s2 → exec (.li pg d imm) s = .next (retired 12 s2))
  ∧ (∀ pg d imm on, ∀ s s2 : State, Reads [] [d] pg (begun s) on [] (begun s) →
    Puts on d imm (begun s) s2 → exec (.liLong pg d imm) s = .next (retired 16 s2))
  ∧ (∀ m d imm, ∀ s s2 : State, Takes [] [d] (begun s) [] (begun s) →
    writeOpd d (ext m (cut m (s.core.ctx.pc + imm.signExtend 64 * 4))) (begun s) = .ok ((), s2) →
      exec (.leaImm m d imm) s = .next (retired 8 s2))

/-! Floating point. -/

/-- Scalar floating-point instructions: the operands are the low bits of the registers, the result is written and its flags
set when bit 0 of the predicate is 1 (R79, R257, R310, R311, R313, R314). -/
def Obligations.ScalarFloatingPoint : Prop :=
  (∀ p ∈ fpTwo, ∀ t pg d a b on x y, ∀ s s1 s2 : State, Reads [a, b] [d] pg (begun s) on [x, y] s1 →
    (let r := p.2 (elemFmt t) (fpOf t x) (fpOf t y)
     Puts on d (BitVec.ofNat 64 r.1) s1 s2 →
      exec (p.1 t pg d a b) s = .next (retired 8 (flagged (if on then r.2 else 0) s2))))
  ∧ (∀ t pg d a b c on x y z, ∀ s s1 s2 : State, Reads [a, b, c] [d] pg (begun s) on [x, y, z] s1 →
    (let r := fmaFV (elemFmt t) (fpOf t x) (fpOf t y) (fpOf t z)
     Puts on d (BitVec.ofNat 64 r.1) s1 s2 →
      exec (.ffma t pg d a b c) s = .next (retired 8 (flagged (if on then r.2 else 0) s2))))
  ∧ (∀ t pg d a on x, ∀ s s1 s2 : State, Reads [a] [d] pg (begun s) on [x] s1 →
    (let r := sqrtFV (elemFmt t) (fpOf t x)
     Puts on d (BitVec.ofNat 64 r.1) s1 s2 →
      exec (.fsqrt t pg d a) s = .next (retired 8 (flagged (if on then r.2 else 0) s2))))
  ∧ (∀ td ts pg d a on x, ∀ s s1 s2 : State, Reads [a] [d] pg (begun s) on [x] s1 →
    (let q := cvtScal td ts (x.toNat % 2 ^ (8 * elemSize ts))
     let r : Word := if elemSigned td then BitVec.ofInt 64 (signedOf (8 * elemSize td) q.1) else BitVec.ofNat 64 q.1
     Puts on d r s1 s2 → exec (.fcvt td ts pg d a) s = .next (retired 8 (flagged (if on then q.2 else 0) s2))))

/-! Registers, predicates and streams as operands. -/

/-- R59: x0 and p0. A write to p0 leaves every byte of the register space alone, and the bytes at p0's placement stay reachable
through any other view. -/
def Obligations.ZeroRegisters : Prop :=
  (∀ s : State, readX 0 s = .ok (0, s))
  ∧ (∀ (s t : State) v, writeX 0 v s = .ok ((), t) → t = s)
  ∧ (∀ s : State, readP 0 s = .ok (BitVec.allOnes 64, s))
  ∧ (∀ (s : State) v, writeP 0 v s = .ok ((), s))
  ∧ (∀ (s : State) off bs, memWf s.core.ctx.urs = true → s.core.ctx.pendingWrite off bs.length = false →
      ∃ t, writeUrs off bs s = .ok ((), t) ∧ t.core.ctx.ursRead off bs.length = bs)

/-- A register operand: it reads the register and writes it, and nothing else, unless outstanding work has still to write it
(R59, R63); the predicate bit of p0 is 1 (R257). -/
def Sys2Proof.Part.RegisterOperands : Prop :=
  ∀ (s : State) (n : Fin 32) (v : Word),
    (s.core.ctx.pendingX n = false →
      readOpd (.reg n) s = .ok (s.core.ctx.getX n, s) ∧ writeOpd (.reg n) v s = .ok ((), s.mapCtx (·.setX n v)))
    ∧ (s.core.ctx.pendingX n = true →
      readOpd (.reg n) s = .error (.stall .interlock) ∧ writeOpd (.reg n) v s = .error (.stall .interlock))
    ∧ (∀ k, (s.core.ctx.setX n v).getX k = if k = n ∧ n ≠ 0 then v else s.core.ctx.getX k)
    ∧ checkDirs [.reg n] [.reg n] [] s = .ok ((), s)
    ∧ predBit 0 s = .ok (true, s)

/-- A stream as a scalar operand (R65, R66, R162): a pop takes the oldest element, zero-extended; past the end of a pattern or a gather, and
when the job of an expander has ended and its buffer is empty, it is STREAM_EXH, and with nothing buffered it waits. An arrival queue has
no end: a pop takes the low bytes of its oldest entry and, being an acquire, drops the device's staged blocks. A push appends the low
element-size bytes; past the end it is STREAM_EXH and a full 256-byte buffer waits (R67). -/
def Sys2Proof.Part.StreamOperands : Prop :=
  (∀ (s : State) (n : Fin 8) (v : Word), (s.core.ctx.streams[n]).kind = .pattern →
    (let t := s.core.ctx.streams[n]
     (t.total < t.done + 1 → readOpd (.str n) s = .error (.trap (exhTrap n)) ∧ writeOpd (.str n) v s = .error (.trap (exhTrap n)))
     ∧ (t.done + 1 ≤ t.total →
        (∀ e rest, t.buf = e :: rest →
          ∃ s1, readOpd (.str n) s = .ok (bytesWord e, s1) ∧ s1.core.ctx.streams[n] = { t with buf := rest, done := t.done + 1 }
            ∧ s1.core.ctx.x = s.core.ctx.x ∧ s1.near = s.near ∧ s1.quarry = s.quarry)
        ∧ (t.buf = [] → t.held = none → readOpd (.str n) s = .error (.stall .stream))
        ∧ (256 < (t.buf.length + 1) * t.esz → writeOpd (.str n) v s = .error (.stall .stream))
        ∧ ((t.buf.length + 1) * t.esz ≤ 256 →
          ∃ s1, writeOpd (.str n) v s = .ok ((), s1)
            ∧ s1.core.ctx.streams[n] = { t with buf := t.buf ++ [(wordBytes v).take t.esz], done := t.done + 1 }
            ∧ s1.core.ctx.x = s.core.ctx.x ∧ s1.near = s.near ∧ s1.quarry = s.quarry))))
  ∧ (∀ (s : State) (n : Fin 8), (let t := s.core.ctx.streams[n]
     (t.kind = .expander ∨ t.kind = .gather →
       (t.buf = [] → t.closed = true → readOpd (.str n) s = .error (.trap (exhTrap n)))
       ∧ (t.kind = .gather → t.total < t.done + 1 → readOpd (.str n) s = .error (.trap (exhTrap n)))
       ∧ (t.kind = .expander ∨ t.done + 1 ≤ t.total →
         (t.buf = [] → t.closed = false → t.held = none → readOpd (.str n) s = .error (.stall .stream))
         ∧ (∀ e rest, t.buf = e :: rest → readOpd (.str n) s = .ok (bytesWord e, s.mapCtx fun c =>
             { c with streams := c.streams.set n.val { t with buf := rest, done := t.done + 1 } }))))
     ∧ (∀ q : Fin 8, t.kind = .queue → t.arg = q.val → t.buf = [] →
       (s.core.arrq[q] = [] → t.held = none → readOpd (.str n) s = .error (.stall .stream))
       ∧ (∀ w rest, s.core.arrq[q] = w :: rest → readOpd (.str n) s = .ok (bytesWord ((wordBytes w).take t.esz),
           dropStaged { s with core := { s.core with arrq := s.core.arrq.set q.val rest, ctx := { s.core.ctx with
             streams := s.core.ctx.streams.set n.val { t with done := t.done + 1 } } } })))))

/-! Control. -/

namespace Sys2Proof.Say

/-- Conditions of two operands (R256). -/
def condTwo : List (Cond × (Word → Word → Bool)) :=
  [(.eq, fun x y => x == y), (.ne, fun x y => x != y), (.lt, fun x y => decide (x.toInt < y.toInt)),
   (.ge, fun x y => decide (y.toInt ≤ x.toInt)), (.ltn, fun x y => decide (x.toNat < y.toNat)),
   (.gen, fun x y => decide (y.toNat ≤ x.toNat))]
/-- Conditions of one operand; B is not read. -/
def condOne : List (Cond × (Word → Bool)) :=
  [(.zero, fun x => x == 0), (.nz, fun x => x != 0), (.neg, fun x => decide (x.toInt < 0)), (.nneg, fun x => decide (0 ≤ x.toInt))]
/-- Where BR and BRI go. -/
def brTo (taken : Bool) (bt : Fin 4) (s : State) : Word :=
  if taken then s.core.ctx.b[bt] &&& ~~~(3 : Word) else s.core.ctx.pc + 8
def briTo (taken : Bool) (off : BitVec 34) (s : State) : Word :=
  if taken then s.core.ctx.pc + off.signExtend 64 * 4 else s.core.ctx.pc + 8
/-- Whether the input stream of SNE holds an element (R69). -/
def streamHas (o : Opd) (s : State) : Bool :=
  match o with
  | .reg _ => false
  | .str n => (s.core.ctx.streams[n]).bound && !(s.core.ctx.streams[n]).out && decide (0 < s.core.available s.core.ctx.streams[n])
/-- SNE on a register, an output or an unbound stream sets WARN.COMBO (R66, R256). -/
def sneOdd (o : Opd) (s : State) : Bool :=
  match o with
  | .reg _ => true
  | .str n => !((s.core.ctx.streams[n]).bound && !(s.core.ctx.streams[n]).out)

end Sys2Proof.Say

/-- BR and BRI under every condition (R256, R293): the operands the condition reads are taken, the others are not, and the
PC is the target or the next instruction. An unread operand that is not x0, and a nonzero BT of BRI, set WARN.COMBO. -/
def Sys2Proof.Part.Branches : Prop :=
  (∀ c ∈ condTwo, ∀ hint bt a b off x y, ∀ s s1 : State,
    (Takes [a, b] [] (begun s) [x, y] s1 → exec (.br c.1 hint bt a b) s = .next (jumped (brTo (c.2 x y) bt s1) s1))
    ∧ (Takes [a, b] [] (warned (bt != 0) wCombo (begun s)) [x, y] s1 →
        exec (.bri c.1 hint bt a b off) s = .next (jumped (briTo (c.2 x y) off s1) s1)))
  ∧ (∀ c ∈ condOne, ∀ hint bt a b off x, ∀ s s1 : State,
    (Takes [a] [] (begun s) [x] s1 →
      exec (.br c.1 hint bt a b) s = .next (jumped (brTo (c.2 x) bt s1) (warned (b != .reg 0) wCombo s1)))
    ∧ (Takes [a] [] (warned (bt != 0) wCombo (begun s)) [x] s1 →
        exec (.bri c.1 hint bt a b off) s = .next (jumped (briTo (c.2 x) off s1) (warned (b != .reg 0) wCombo s1))))
  ∧ (∀ hint bt a b off, ∀ s : State,
    exec (.br .alw hint bt a b) s = .next (jumped (brTo true bt s) (warned (a != .reg 0 || b != .reg 0) wCombo (begun s)))
    ∧ exec (.bri .alw hint bt a b off) s
      = .next (jumped (briTo true off s) (warned (a != .reg 0 || b != .reg 0) wCombo (warned (bt != 0) wCombo (begun s)))))
  ∧ (∀ hint bt a b off, ∀ s : State,
    exec (.br .sne hint bt a b) s
      = .next (jumped (brTo (streamHas a s) bt s) (warned (sneOdd a s) wCombo (warned (b != .reg 0) wCombo (begun s))))
    ∧ exec (.bri .sne hint bt a b off) s
      = .next (jumped (briTo (streamHas a s) off s)
          (warned (sneOdd a s) wCombo (warned (b != .reg 0) wCombo (warned (bt != 0) wCombo (begun s))))))

/-- JMPR, RET and CALL (R296, R319, R347) and PBR (R341): the target has bits 1:0 clear where it comes from a register, and
CALL leaves the address after itself in D. -/
def Sys2Proof.Part.Jumps : Prop :=
  (∀ pg a x, ∀ s s1 : State, Takes [a] [] (warned (pg != 0) wCombo (begun s)) [x] s1 →
    exec (.jmpr pg a) s = .next (jumped (x &&& ~~~3) s1) ∧ exec (.ret pg a) s = .next (jumped (x &&& ~~~3) s1))
  ∧ (∀ d a imm, ∀ s s2 : State, Takes [] [d] (begun s) [] (begun s) →
    writeOpd d (s.core.ctx.pc + 8) (begun s) = .ok ((), s2) →
      exec (.call false d a imm) s = .next (jumped (s.core.ctx.pc + imm.signExtend 64 * 4) s2))
  ∧ (∀ d a imm x, ∀ s s1 s2 : State, Takes [a] [d] (begun s) [x] s1 → writeOpd d (s.core.ctx.pc + 8) s1 = .ok ((), s2) →
      exec (.call true d a imm) s = .next (jumped ((x + imm.signExtend 64 * 4) &&& ~~~3) s2))
  ∧ (∀ pg d a imm, ∀ s : State, exec (.pbr pg d false a imm) s
      = .next (retired 12 ((warned (pg != 0) wCombo (begun s)).mapCtx fun c => { c with b := c.b.set d.val (c.pc + imm.signExtend 64) })))
  ∧ (∀ pg d a imm x, ∀ s s1 : State, Takes [a] [] (warned (pg != 0) wCombo (begun s)) [x] s1 →
      exec (.pbr pg d true a imm) s
        = .next (retired 12 (s1.mapCtx fun c => { c with b := c.b.set d.val ((x + imm.signExtend 64) &&& ~~~3) })))

/-- The skip word moves the PC by 4 and nothing else (R248). NOP discards a prefix and moves the PC by 8 (R340). FMT sets the
prefix, and a second one sets WARN.PFX (R74, R315). PHASE sets PHASEID, which the course's later tasks on the core inherit
(R342). WAIT completes once every counter is at or below its limit and stalls before that (R72, R374). -/
def Obligations.PlainControl : Prop :=
  (∀ s : State, exec .skipWord s = .next (s.mapCtx fun c => { c with pc := c.pc + 4 }))
  ∧ (∀ pg, ∀ s : State, exec (.nop pg) s = .next (retired 8 (warned (pg != 0) wCombo (begun s))))
  ∧ (∀ v, ∀ s : State, exec (.fmt v) s
      = .next (retired 8 ((warned s.core.ctx.pfx wPfx s).mapCtx fun c => { c with pfx := true, pfxv := v.setWidth 32 })))
  ∧ (∀ n, ∀ s : State, stepping (begun s) = false → ∃ t, exec (.phase n) s = .next t ∧ t.core.ctx.phaseid = n
      ∧ t.core.phaseOf (markCourse s.core.ctx.mark) = n ∧ t.core.ctx.x = s.core.ctx.x ∧ t.near = (s.trace 4 (n.setWidth 64)).near)
  ∧ (∀ ld st job mx gr, ∀ s : State,
      exec (.wait ld st job mx gr) s =
        if s.core.ctx.ld ≤ ld ∧ s.core.ctx.st ≤ st ∧ s.core.ctx.job ≤ job ∧ s.core.ctx.mx ≤ mx ∧ s.core.ctx.gr ≤ gr
        then .next (retired 8 (begun s))
        else .next { s with core := s.core.stalled.mapCtx fun c => { c with stall := some .counter } })

/-- REP starts a repetition of its next N instructions (R70, R346): the fields are kept, and the PC moves on. A repetition met
on the way ends with WARN.COMBO. -/
def Sys2Proof.Part.RepStarts : Prop :=
  ∀ step fmask km1 nm1, ∀ s : State, stepping (begun s) = false → ∃ t r, exec (.rep step fmask km1 nm1) s = .next t
    ∧ t.core.ctx.rep = some r ∧ r.pass = 0 ∧ r.idx = 0 ∧ t.core.ctx.pc = s.core.ctx.pc + 8
    ∧ r.imm.toNat % 16 = nm1.toNat ∧ r.imm.toNat / 2 ^ 4 % 2 ^ 12 = km1.toNat ∧ r.imm.toNat / 2 ^ 16 % 16 = fmask.toNat
    ∧ r.imm.toNat / 2 ^ 20 % 16 = step.toNat ∧ t.core.ctx.x = s.core.ctx.x
    ∧ t.core.ctx.warn = (begun s).core.ctx.warn ||| (if s.core.ctx.rep.isSome then wCombo else 0)

/-- How a repetition moves on (R70): within a pass to the next instruction, after a pass to the first one again, and after
pass K - 1 past the body. That the PC of a later pass is the address its instruction was read from, the body's first one here, is log
entry 17. -/
def Sys2Proof.Part.RepPasses : Prop :=
  ∀ (c : Ctx) (r : Rep) (len : Nat), c.rep = some r → r.idx ≤ r.imm.toNat % 16 → r.pass ≤ r.imm.toNat / 16 % 4096 →
    let d := c.advance len
    (r.idx < r.imm.toNat % 16 → d.rep = some { r with idx := r.idx + 1 })
    ∧ (r.idx = r.imm.toNat % 16 → r.pass < r.imm.toNat / 16 % 4096 →
        d.rep = some { r with idx := 0, pass := r.pass + 1 } ∧ ∀ p rest, r.pcs = p :: rest → d.pc = p)
    ∧ (r.idx = r.imm.toNat % 16 → r.pass = r.imm.toNat / 16 % 4096 → d.rep = none ∧ d.pc = c.pc + BitVec.ofNat 64 len)
    ∧ d.x = c.x ∧ d.warn = c.warn

/-- END of a task whose counters LD, ST, MX and GR are zero and whose output streams are drained (R30, R307): the core is free,
the task's lock bits are released, the streams are unbound and the binding table is gone; before that it waits. -/
def Sys2Proof.Part.EndTask : Prop :=
  ∀ pg, ∀ s : State,
    (endReady s.core.ctx = true → ∃ t, exec (.endTask pg) s = .next t ∧ t.core.mode = .idle ∧ t.core.id = s.core.id
      ∧ (∀ n : Fin 8, (t.core.ctx.streams[n]).bound = false) ∧ t.core.ctx.binds = [] ∧ t.core.ctx.rep = none
      ∧ (∀ l ∈ t.locks, ¬ (l.holder = s.core.id ∧ l.mark = s.core.ctx.mark)))
    ∧ (endReady s.core.ctx = false →
      exec (.endTask pg) s = .next { s with core := s.core.stalled.mapCtx fun c => { c with stall := some .counter } })

/-- A tile task's END sets its bit of the completion bitmap and leaves the word's other bits (R30, R35), in whichever tile the bitmap
lies. The word lies outside the observation blocks, where no bitmap may lie (R32). -/
def Sys2Proof.Part.EndSetsBitmap : Prop :=
  ∀ pg, ∀ (s : State) n c, endReady s.core.ctx = true → s.vd = some n → s.courseOf n (markCourse s.core.ctx.mark) = some c →
    markIsTile s.core.ctx.mark = true → s.core.ctx.svc = false → memWf s.near = true →
    let i := s.core.ctx.mark.toNat % 2 ^ 33
    let a := c.bitmap + 8 * (i / 64)
    (∀ k < 8, isObs (a + k) = false) →
    ∃ t, exec (.endTask pg) s = .next t
      ∧ memWord t.near a = memWord s.near a ||| BitVec.ofNat 64 (2 ^ (i % 64))

/-- BRK takes BREAK at its own PC, but not in a context that resumes there (R209, R295). TRAP takes TRAPI with its code and
the PC of the next instruction saved (R202, R364). A word that encodes no instruction takes its trap (R260). -/
def Sys2Proof.Part.TrapInstructions : Prop :=
  (∀ code, ∀ s : State, s.core.ctx.resumed = false →
    exec (.brk code) s = .next (takeTrap { cause := .brk, faddr := s.core.ctx.pc } s))
  ∧ (∀ code, ∀ s : State, s.core.ctx.resumed = true → exec (.brk code) s = .next (retired 8 (begun s)))
  ∧ (∀ code, ∀ s : State, ∃ u, exec (.trap code) s = .next (takeTrap { cause := .trapi, faddr := code.signExtend 64 } u)
      ∧ u.core.ctx.pc = s.core.ctx.pc + 8 ∧ u.core.ctx.x = s.core.ctx.x ∧ u.core.ctx.rep = none ∧ u.near = s.near)
  ∧ (∀ s : State, exec (.illegalOpc .opc) s = .next (takeTrap { cause := .illegalOpc, faddr := s.core.ctx.pc } s))
  ∧ (∀ s : State, exec (.illegalOpc .len) s = .next (takeTrap { cause := .illegalLen, faddr := s.core.ctx.pc } s))

/-- Privileged instructions outside service mode take PRIV with the instruction's own PC, and change nothing else (R203, R208). -/
def Sys2Proof.Part.Privilege : Prop :=
  ∀ s : State, s.core.ctx.svc = false →
    let trapped : Res := .next (takeTrap { cause := .priv, faddr := s.core.ctx.pc } s)
    (∀ pg, exec (.eret pg) s = trapped) ∧ (∀ k part pg a, exec (.tlbi k part pg a) s = trapped)
    ∧ (∀ d m, exec (.ctxsv d m) s = trapped) ∧ (∀ d m, exec (.ctxld d m) s = trapped)

/-- Taking a trap outside service mode and outside a debug stop, with no work outstanding and a free migration slot (R201, R202,
R207, R210): FAULT, FADDR and the PC stand in the slot's image, and the core is free. That the lowest free slot is taken is
log entry 20. -/
def Sys2Proof.Part.TrapEntry : Prop :=
  ∀ (s : State) (tr : Trap) n k, s.core.ctx.svc = false → isDebugStop s tr.cause = false → s.vd = some n →
    freeSlot (s.tileOf (coreTile s.core.id)) = some k → memWf s.near = true → (∀ c ∈ s.core.ctx.urs, c.1 < 0x8000) →
    s.core.ctx.loads = [] → s.core.ctx.stores = [] → s.core.ctx.mxops = [] → s.core.ctx.gathers = [] →
    let t := takeTrap tr s
    let a := slotAddr (coreTile s.core.id) k.val
    memWord t.near (a + 0x8070) = tr.word ∧ memWord t.near (a + 0x8078) = tr.faddr
      ∧ memWord t.near (a + 0x80D0) = s.core.ctx.pc ∧ t.core.id = s.core.id ∧ t.core.mode = .idle

/-- A trap inside a service task faults its device with the cause, and nothing is saved (R208). -/
def Sys2Proof.Part.ServiceTrap : Prop :=
  ∀ (s : State) (tr : Trap) n d, s.core.ctx.svc = true → s.vd = some n → s.devOf n = some d →
    ∃ e, (takeTrap tr s).devOf n = some e ∧ e.state = .faulted ∧ e.why.toNat = causeCode tr.cause
      ∧ (takeTrap tr s).core.mode = s.core.mode ∧ (takeTrap tr s).tiles = s.tiles

/-- ERET in service mode, once its counters are zero and its stores are drained (R209, R309): the context under service leaves
its migration slot with the registers the image holds, on its way to its home core; and the service task ends.
(The step of the way home is log entry 20, the image's word for a BREAK taken at the context's own PC or block log entry 8.) -/
def Sys2Proof.Part.EretReturns : Prop :=
  ∀ pg, ∀ (s s1 : State) k n, s.core.ctx.svc = true → endReady s.core.ctx = true →
    releaseDrain .pkg (warned (pg != 0) wCombo (begun s)) = .ok ((), s1) → s1.core.ctx.under = some k →
    (s1.tileOf (coreTile s1.core.id)).slots[k] = .image n → slotPoison s1 (coreTile s1.core.id) k.val = [] →
    let a := slotAddr (coreTile s1.core.id) k.val
    ∃ t x, exec (.eret pg) s = .next t ∧ t.core.mode = .idle ∧ (t.tileOf (coreTile s1.core.id)).slots[k] = .free
      ∧ t.returning = s1.returning ++ [(BitVec.ofNat 15 (nearRd s1 a 0x8030 8), x)]
      ∧ x.pc.toNat = (memWord s1.near (a + 0x80D0)).toNat / 4 * 4 ∧ x.mark = memWord s1.near (a + 0x8020)
      ∧ (x.resumed = true ↔ nearRd s1 a 0x8260 8
          = (if x.wd then (memWord s1.near (a + 0x8068)).toNat else (memWord s1.near (a + 0x80D0)).toNat / 4 * 4) + 1)
      ∧ ∀ i : Fin 32, i ≠ 0 → x.getX i = memWord s1.near (a + 8 * i.val)

/-! Memory. -/

namespace Sys2Proof.Say

/-- The effective address of format M (R255): base, scaled index and sign-extended offset. -/
def effective (m : MArgs) (size : Nat) (base idx : Word) : Word :=
  base + idx * BitVec.ofNat 64 (if m.xs = 0 then 1 else if m.xs = 1 then size else 64) + m.off.signExtend 64
/-- The bytes of SZ; LD, ST, ACQ and REL access at most 8 (R262). -/
def sized (m : MArgs) : Nat := 2 ^ m.sz.val
def narrow (m : MArgs) : Nat := min (sized m) 8
def wide (m : MArgs) : Bool := decide (3 < m.sz.val)
/-- WARN bits set. -/
def noted (w : Warn) (s : State) : State := s.mapCtx (·.warnOr w)
/-- The WARN bits of a load's or store's SZ and ORD (R152, R255, R262). -/
def loadNotes (scalar far : Bool) (m : MArgs) : Warn := (if scalar && wide m then wCombo else 0) ||| ordWarn true scalar (wide m) far m
def storeNotes (scalar far : Bool) (m : MArgs) : Warn := (if scalar && wide m then wCombo else 0) ||| ordWarn false scalar (wide m) far m
/-- An access of n bytes at ea that a near slice takes: the address is in the window, TILE and SLOT exist in the partition,
the areas closed to the task are not touched (R118, R119), no byte is poisoned (R244), no debug window shows there, and no earlier
write of the task's own is still to reach it (R149). -/
structure NearOpen (s : State) (ea : Word) (n : Nat) : Prop where
  near : isNear ea.toNat = true
  ok : nearSpanOk s ea.toNat n = true
  clean : poisoned s ea.toNat n = false
  noWindow : touchesWindow s ea.toNat = true → windowSlots (s.tileOf (nearTile ea.toNat)) = []
  own : ownPending s ea.toNat n = false
/-- The same for a load, which finds the memory of `u`: the task's earlier reads of the same words, those of an outstanding MMA or
gather, are made first (R148). -/
structure NearRead (s : State) (ea : Word) (n : Nat) (u : State) : Prop where
  near : isNear ea.toNat = true
  ok : nearSpanOk s ea.toNat n = true
  own : ownPending s ea.toNat n = false
  done : u = readsDone s ea.toNat n
  clean : poisoned u ea.toNat n = false
  noWindow : touchesWindow u ea.toNat = true → windowSlots (u.tileOf (nearTile ea.toNat)) = []
/-- A near store at once: the bytes, and the poison of fully covered words (R244). -/
def stored (ea : Word) (bs : List Byte) (s : State) : State :=
  { s.nearWrite ea.toNat bs with poison := clearPoison ea.toNat bs.length s.poison }
/-- A read of far bytes in which the MAC of a granule fails leaves a machine check for the task's next instruction boundary (R128,
R202). -/
def sealChecked (s : State) (ea : Word) (pas : List Nat) (t : State) : State :=
  if (granulesOf pas).any (sealFails s s.key) then t.mapCtx fun c => c.hold { cause := .mcheck, faddr := ea } else t
/-- The base and index taken from `s`, the directions of all fields being right, no source stream at its end, and an output pattern in
D not at its end; `vec` tells whether the data operand is a vector (R65, R66, R203). -/
structure Addressed (m : MArgs) (srcs dsts : List Opd) (vec : Bool) (s : State) (base idx : Word) (s1 : State) : Prop where
  dirs : checkDirs ([m.base, m.idx] ++ srcs) dsts (if vec then [false, false, true] else []) s = .ok ((), s)
  room : ∀ d ∈ dsts, dstEnd vec d s = .ok ((), s)
  vals : readOpds [m.base, m.idx] s = .ok ([base, idx], s1)
/-- WARN.FMTTGT of a vector load or store: any override but an accepted pair for A and D (R326, R359). -/
def vecNotes (p : Option (ElemTy × ElemTy)) (c : Ctx) : Warn :=
  if (c.pfxB.isSome || c.pfxC.isSome) || (p.isNone && (c.pfxA.isSome || c.pfxD.isSome)) then wFmttgt else 0
/-- Loaded bytes as the register receives them, and the bytes a store takes from a register, with their flags. -/
def vecLoad (p : Option (ElemTy × ElemTy)) (bs : List Byte) : List Byte × Flags :=
  match p with
  | none => (fitBytes 64 bs, 0)
  | some (a, t) => (fitBytes 64 (convPacked t a bs).1, (convPacked t a bs).2)
def vecStore (p : Option (ElemTy × ElemTy)) (size : Nat) (v : List Byte) : List Byte × Flags :=
  match p with
  | none => (v.take size, 0)
  | some (a, t) => convPacked t a (v.take (size / elemSize t * elemSize a))

end Sys2Proof.Say

/-- LD and LDV of near bytes with no ordering (R152, R255, R262, R323, R326): the value is the bytes at the address, and nothing
but D, WARN, the prefix and the PC changes. Fallbacks set their WARN bits. -/
def Sys2Proof.Part.NearLoads : Prop :=
  (∀ d m base idx, ∀ s s1 u s2 : State, Addressed m [] [d] false (begun s) base idx s1 →
    ordIs15 (ordAfter true true (wide m) false m.ord) = false →
    (let ea := effective m (narrow m) base idx
     NearRead (noted (loadNotes true false m) s1) ea (narrow m) u →
     writeOpd d (bytesWord (u.nearRead ea.toNat (narrow m))) u = .ok ((), s2) →
      exec (.ld d m) s = .next (retired 8 s2)))
  ∧ (∀ d m base idx, ∀ s s1 u s2 : State, Addressed m [] [d] true s base idx s1 →
    ordIs15 (ordAfter true false (wide m) false m.ord) = false →
    (let ea := effective m (sized m) base idx
     let p := vecPrefix s1.core.ctx (sized m) true
     let r := vecLoad p (u.nearRead ea.toNat (sized m))
     NearRead (noted (loadNotes false false m) (noted (vecNotes p s1.core.ctx) s1)) ea (sized m) u →
     writeVec d r.1 (flagged r.2 u) = .ok ((), s2) →
      exec (.ldv d m) s = .next (retired 8 (consumed s2))))

/-- ST and STV of near bytes with no ordering (R152, R255, R262, R357, R359): the low bytes of D are stored at the address,
and nothing but memory, WARN, the prefix and the PC changes. -/
def Sys2Proof.Part.NearStores : Prop :=
  (∀ d m base idx v, ∀ s s1 s2 : State, Addressed m [d] [] false (begun s) base idx s1 → readOpd d s1 = .ok (v, s2) →
    ordIs15 (ordAfter false true (wide m) false m.ord) = false →
    (let ea := effective m (narrow m) base idx
     NearOpen s2 ea (narrow m) → partPoison s2 ea.toNat (narrow m) = false →
      exec (.st d m) s = .next (retired 8 (stored ea ((wordBytes v).take (narrow m)) (noted (storeNotes true false m) s2)))))
  ∧ (∀ d m base idx v, ∀ s s1 s2 : State, Addressed m [d] [] true s base idx s1 → readVec d s1 = .ok (v, s2) →
    ordIs15 (ordAfter false false (wide m) false m.ord) = false →
    (let ea := effective m (sized m) base idx
     let p := vecPrefix s2.core.ctx (sized m) false
     let r := vecStore p (sized m) v
     NearOpen s2 ea r.1.length → partPoison s2 ea.toNat r.1.length = false →
      exec (.stv d m) s = .next (retired 8 (consumed (stored ea r.1
        (noted (storeNotes false false m) (flagged r.2 (noted (vecNotes p s2.core.ctx) s2))))))))

/-- The frame of a near store (R119): the bytes lie at the address upwards, wrapping within its 1 MiB slot, and every other byte
of near memory reads as before. Outside the observation block. -/
def Sys2Proof.Part.StoredBytes : Prop :=
  ∀ (s : State) (ea : Word) (bs : List Byte), memWf s.near = true → bs.length ≤ 2 ^ 20 →
    (∀ i < bs.length, isObs (nearWrap ea.toNat i) = false) →
    let t := stored ea bs s
    (∀ i (h : i < bs.length), memGet t.near (nearWrap ea.toNat i) = bs[i])
    ∧ (∀ a, (∀ i < bs.length, a ≠ nearWrap ea.toNat i) → memGet t.near a = memGet s.near a)
    ∧ (∀ i < bs.length, nearWrap ea.toNat i / 2 ^ 20 = ea.toNat / 2 ^ 20)
    ∧ t.quarry = s.quarry ∧ t.core = s.core ∧ t.others = s.others ∧ t.tiles = s.tiles ∧ t.devs = s.devs

/-- The observation block (R239): a store to a field that hardware owns is discarded, PRBASE and TRBASE restart their heads, and no
other byte changes. -/
def Sys2Proof.Part.ObservationStores : Prop :=
  ∀ (m : Memory) (a : Nat) (b : Byte), memWf m = true → isObs a = true →
    let off := keyByte a - 0x3FF000
    (off ≠ 0 ∧ off ≠ 0x20 ∧ ¬ (0x08 ≤ off ∧ off < 0x18) ∧ ¬ (0x28 ≤ off ∧ off < 0x38) → nearSet m a b = m)
    ∧ (0x08 ≤ off ∧ off < 0x10 → ∀ k, memGet (nearSet m a b) k
        = if k = a then b else if a - off + 0x18 ≤ k ∧ k < a - off + 0x20 then 0 else memGet m k)
    ∧ (0x28 ≤ off ∧ off < 0x30 → ∀ k, memGet (nearSet m a b) k
        = if k = a then b else if a - off + 0x38 ≤ k ∧ k < a - off + 0x40 then 0 else memGet m k)
    ∧ ((0x10 ≤ off ∧ off < 0x18) ∨ (0x30 ≤ off ∧ off < 0x38) ∨ off = 0x20 → ∀ k,
        memGet (nearSet m a b) k = if k = a then b else memGet m k)
    ∧ (off = 0 → ∀ k, k ≠ a → memGet (nearSet m a b) k = memGet m k)

/-- Far accesses without an ordering (R71, R323, R326, R357, R359): a load into a register is outstanding, counted in LD, until its
data arrives; a store is counted in ST until it drains; the register and the memory are unchanged meanwhile. That a load's data is
read when it issues is log entry 7, that a load into a stream puts its element there at issue log entry 7 too. Earlier reads of the
same words that an MMA or a gather has still to make come first (R148). -/
def Sys2Proof.Part.FarAccesses : Prop :=
  (∀ n m base idx pas, ∀ s s1 s2 : State, Addressed m [] [.reg n] false (begun s) base idx s1 →
    wide m = true ∨ (m.ord ≠ .acq ∧ m.ord ≠ .acqrel) →
    (let ea := effective m (narrow m) base idx
     place ea (narrow m) needR false 0 (noted (loadNotes true true m) s1) = .ok (.far ea.toNat pas, s2) →
     s2.core.ctx.ld ≠ 63 → ownPending s2 ea.toNat (narrow m) = false →
     (let u := readsDone s2 ea.toNat (narrow m)
      let r := farRead u pas (m.ord != .nt)
      u.core.ctx.ld ≠ 63 → u.core.ctx.pendingX n = false → (∀ st ∈ u.core.ctx.stores, ∀ c ∈ st.cells, c.1 ∉ pas) →
      exec (.ld (.reg n) m) s = .next (retired 8 ((sealChecked u ea pas r.2).mapCtx fun c =>
        { c with ld := c.ld + 1, loads := c.loads ++ [{ dst := if n = 0 then .none else .x n, data := r.1 }] })))))
  ∧ (∀ n m base idx pas, ∀ s s1 s2 s3 : State, Addressed m [] [.str n] false (begun s) base idx s1 →
    wide m = true ∨ (m.ord ≠ .acq ∧ m.ord ≠ .acqrel) →
    (let ea := effective m (narrow m) base idx
     place ea (narrow m) needR false 0 (noted (loadNotes true true m) s1) = .ok (.far ea.toNat pas, s2) →
     s2.core.ctx.ld ≠ 63 → ownPending s2 ea.toNat (narrow m) = false →
     (let u := readsDone s2 ea.toNat (narrow m)
      let r := farRead u pas (m.ord != .nt)
      u.core.ctx.ld ≠ 63 → (∀ st ∈ u.core.ctx.stores, ∀ c ∈ st.cells, c.1 ∉ pas) →
      writeOpd (.str n) (bytesWord r.1) (sealChecked u ea pas r.2) = .ok ((), s3) →
      exec (.ld (.str n) m) s = .next (retired 8 (s3.mapCtx fun c =>
        { c with ld := c.ld + 1, loads := c.loads ++ [{ dst := .none, data := [] }] })))))
  ∧ (∀ d m base idx v pas, ∀ s s1 s2 s3 : State, Addressed m [d] [] false (begun s) base idx s1 → readOpd d s1 = .ok (v, s2) →
    wide m = true ∨ (m.ord ≠ .rel ∧ m.ord ≠ .acqrel) →
    (let ea := effective m (narrow m) base idx
     place ea (narrow m) needW true 0 (noted (storeNotes true true m) s2) = .ok (.far ea.toNat pas, s3) → s3.core.ctx.st ≠ 63 →
     ownPending s3 ea.toNat (narrow m) = false →
      exec (.st d m) s = .next (retired 8 (s3.mapCtx fun c =>
        { c with st := c.st + 1, stores := c.stores ++ [{ va := ea.toNat, cells := pas.zip ((wordBytes v).take (narrow m)) }] }))))
  ∧ (∀ n m base idx pas, ∀ s s1 s2 : State, Addressed m [] [.reg n] true s base idx s1 →
    wide m = true ∨ (m.ord ≠ .acq ∧ m.ord ≠ .acqrel) →
    (let ea := effective m (sized m) base idx
     let p := vecPrefix s1.core.ctx (sized m) true
     place ea (sized m) needR false 0 (noted (loadNotes false true m) (noted (vecNotes p s1.core.ctx) s1)) = .ok (.far ea.toNat pas, s2) →
     s2.core.ctx.ld ≠ 63 → ownPending s2 ea.toNat (sized m) = false →
     (let u := readsDone s2 ea.toNat (sized m)
      let q := farRead u pas (m.ord != .nt)
      let r := vecLoad p q.1
      u.core.ctx.ld ≠ 63 → u.core.ctx.pendingWrite (u.core.ctx.vOff n.val) 64 = false →
      (∀ st ∈ u.core.ctx.stores, ∀ c ∈ st.cells, c.1 ∉ pas) →
      exec (.ldv (.reg n) m) s = .next (retired 8 (consumed ((sealChecked u ea pas q.2).mapCtx fun c =>
        { c with ld := c.ld + 1, loads := c.loads ++ [{ dst := .urs (c.vOff n.val), data := r.1, fl := r.2 }] }))))))
  ∧ (∀ d m base idx v pas, ∀ s s1 s2 s3 : State, Addressed m [d] [] true s base idx s1 → readVec d s1 = .ok (v, s2) →
    wide m = true ∨ (m.ord ≠ .rel ∧ m.ord ≠ .acqrel) →
    (let ea := effective m (sized m) base idx
     let p := vecPrefix s2.core.ctx (sized m) false
     let r := vecStore p (sized m) v
     place ea r.1.length needW true 0 (noted (storeNotes false true m) (flagged r.2 (noted (vecNotes p s2.core.ctx) s2)))
       = .ok (.far ea.toNat pas, s3) → s3.core.ctx.st ≠ 63 → ownPending s3 ea.toNat r.1.length = false →
      exec (.stv d m) s = .next (retired 8 (consumed (s3.mapCtx fun c =>
        { c with st := c.st + 1, stores := c.stores ++ [{ va := ea.toNat, cells := pas.zip r.1 }] })))))

/-- Outstanding far work arrives in order (R71): the oldest load's bytes reach their destination, its flags enter FPF and LD falls;
the oldest store's bytes reach the quarry and ST falls, but a granule that fails its check takes none and the task gets a machine
check (R128). -/
def Sys2Proof.Part.FarWorkArrives : Prop :=
  (∀ (s : State) c l rest, (s.coreOf c).ctx.loads = l :: rest → ∃ t, exec (.farLoadReturn c) s = .next t
    ∧ t.coreOf c = (s.coreOf c).mapCtx (fun x => { ((x.deliver l).fpfOr l.fl) with loads := rest, ld := x.ld - 1 })
    ∧ t.core.id = s.core.id ∧ t.near = s.near ∧ t.quarry = s.quarry)
  ∧ (∀ (x : Ctx) bs, (∀ n, n ≠ 0 → x.deliver { dst := .x n, data := bs } = x.setX n (bytesWord bs))
    ∧ (∀ off, memWf x.urs = true → (x.deliver { dst := .urs off, data := bs }).ursRead off bs.length = bs)
    ∧ x.deliver { dst := .none, data := bs } = x)
  ∧ (∀ (s : State) c st rest, (s.coreOf c).ctx.stores = st :: rest → memWf s.quarry = true → (st.cells.map (·.1)).Nodup →
    ∃ t, exec (.farStoreDrain c) s = .next t ∧ (t.coreOf c).ctx.stores = rest ∧ (t.coreOf c).ctx.st = (s.coreOf c).ctx.st - 1
      ∧ (t.coreOf c).ctx.x = (s.coreOf c).ctx.x
      ∧ (let bad := partFails (s.focusOn c) (s.focusOn c).key (st.cells.map (·.1))
         (∀ k ∈ st.cells, k.1 < 2 ^ 51 → memGet t.quarry k.1 = if k.1 / 256 ∈ bad then memGet s.quarry k.1 else k.2)
         ∧ (bad ≠ [] → ({ cause := .mcheck, faddr := BitVec.ofNat 64 st.va, w := true, async := true } : Trap) ∈ (t.coreOf c).ctx.asyncs))
      ∧ (∀ a, a ∉ st.cells.map (·.1) → memGet t.quarry a = memGet s.quarry a) ∧ t.near = s.near)

namespace Sys2Proof.Say

/-- What a load or store completes before it acts: the release of REL and ACQREL (R156), the lock bit of LOCK (R145). -/
def Before (o : AccOrd) (sc : Scope) (ea : Word) (s s1 : State) : Prop :=
  match o with
  | .acqrel | .rel => releaseAt sc s = .ok ((), s1)
  | .lock => lockTake ea.toNat s = .ok ((), s1)
  | .plain | .nt | .acq | .unlock => s1 = s
/-- The acquire of a near sync word: at DIE or wider its bound lines and the device's staged blocks leave the tile (R157, R193). -/
def acquired (sc : Scope) (ea : Word) (s : State) : State :=
  if atDie sc then dropStaged (invalidateBound s (ea.toNat / 8 * 8)) else s
/-- After the access. -/
def After (o : AccOrd) (sc : Scope) (ea : Word) (s s1 : State) : Prop :=
  match o with
  | .acq | .acqrel => s1 = acquired sc ea s
  | .unlock => lockDrop ea.toNat s = .ok ((), s1)
  | .plain | .nt | .rel | .lock => s1 = s

end Sys2Proof.Say

/-- Ordered accesses of near words (R145, R152, R156, R157, R284, R345): the address is a multiple of the size; a release waits
for its drain, an acquire ends with the invalidation of its bindings, a lock bit is taken before the read and given back after the
write. LD and ST carry their orderings when the size is at most 8. Reads of the same words that an MMA or a gather of the task has still
to make come before a load (R148). -/
def Sys2Proof.Part.OrderedAccesses : Prop :=
  (∀ d m base idx, ∀ s s1 s2 u s3 s4 : State, Addressed m [] [d] false (begun s) base idx s1 →
    (let ea := effective m (narrow m) base idx
     let o := ordAfter true true (wide m) false m.ord
     ordIs15 o = true → ea.toNat % narrow m = 0 → nearSpanOk s1 ea.toNat (narrow m) = true →
     Before o m.scope ea (noted (loadNotes true false m) s1) s2 → NearRead s2 ea (narrow m) u → After o m.scope ea u s3 →
     writeOpd d (bytesWord (u.nearRead ea.toNat (narrow m))) s3 = .ok ((), s4) →
      exec (.ld d m) s = .next (retired 8 s4)))
  ∧ (∀ d m base idx v, ∀ s s1 s2 s3 s4 : State, Addressed m [d] [] false (begun s) base idx s1 → readOpd d s1 = .ok (v, s2) →
    (let ea := effective m (narrow m) base idx
     let o := ordAfter false true (wide m) false m.ord
     ordIs15 o = true → ea.toNat % narrow m = 0 → nearSpanOk s2 ea.toNat (narrow m) = true →
     Before o m.scope ea (noted (storeNotes true false m) s2) s3 → NearOpen s3 ea (narrow m) → partPoison s3 ea.toNat (narrow m) = false →
     After o m.scope ea (stored ea ((wordBytes v).take (narrow m)) s3) s4 →
      exec (.st d m) s = .next (retired 8 s4)))
  ∧ (∀ d m base idx, ∀ s s1 u s2 : State, Addressed m [] [d] false (begun s) base idx s1 →
    (let ea := effective m (narrow m) base idx
     ea.toNat % narrow m = 0 → NearRead (warned (wide m || m.ord != .plain) wCombo s1) ea (narrow m) u →
     writeOpd d (bytesWord (u.nearRead ea.toNat (narrow m))) (acquired m.scope ea u) = .ok ((), s2) →
      exec (.acq d m) s = .next (retired 8 s2)))
  ∧ (∀ d m base idx v, ∀ s s1 s2 s3 : State, Addressed m [d] [] false (begun s) base idx s1 → readOpd d s1 = .ok (v, s2) →
    (let ea := effective m (narrow m) base idx
     ea.toNat % narrow m = 0 → nearSpanOk s2 ea.toNat (narrow m) = true → releaseAt m.scope (warned (wide m || m.ord != .plain) wCombo s2) = .ok ((), s3) →
     NearOpen s3 ea (narrow m) → partPoison s3 ea.toNat (narrow m) = false →
      exec (.rel d m) s = .next (retired 8 (stored ea ((wordBytes v).take (narrow m)) s3))))

/-- A release (R156): it waits while a queued grammar operation has still to write, and when it completes no far store, no pushed
element of an output stream, no load, no matrix operation and no gather of the task is outstanding (R336, R349). That the drain is
one step is log entry 9. -/
def Sys2Proof.Part.Releases : Prop :=
  (∀ sc (s : State), (∃ g ∈ s.core.ctx.gops, g.major = 1 ∨ g.major = 3) → releaseAt sc s = .error (.stall .acquire))
  ∧ (∀ sc (s t : State), releaseAt sc s = .ok ((), t) →
    t.core.ctx.stores = [] ∧ t.core.ctx.loads = [] ∧ t.core.ctx.gathers = []
      ∧ ((∀ o ∈ s.core.ctx.mxops, match o with | .mma _ kb kc .. => kb < kc | .done _ => True) → t.core.ctx.mxops = [])
      ∧ ∀ n : Fin 8, (t.core.ctx.streams[n]).out = true → (∀ g ∈ s.core.ctx.gathers, g.dst ≠ some n) → (t.core.ctx.streams[n]).buf = [])
  ∧ (∀ sc (s : State), (∀ g ∈ s.core.ctx.gops, g.major ≠ 1 ∧ g.major ≠ 3) →
    (∀ n : Fin 8, (s.core.ctx.streams[n]).out = true → (s.core.ctx.streams[n]).buf = []) →
    releaseAt sc s
      = .ok ((), gatherAll (mxAll ((drainStores s.core.ctx.stores.length s).mapCtx fun c => returnLoads c.loads.length c))))

/-- Lock bits (R145): a held bit makes LD.LOCK wait, a free one is taken for the core and mark; UNLOCK by the holder clears it, by
anyone else it sets WARN.COMBO and clears nothing. That the holder's own LOCK waits too is log entry 14. -/
def Sys2Proof.Part.LockBits : Prop :=
  ∀ (s : State) (a : Nat),
    let mine : Lock := { slice := lockSlice a, bank := lockBank a, bit := lockBit a, holder := s.core.id, mark := s.core.ctx.mark }
    (lockHeld s a = none → lockTake a s = .ok ((), { s with locks := s.locks ++ [mine] }))
    ∧ (∀ l, lockHeld s a = some l → lockTake a s = .error (.stall .lock))
    ∧ (∀ l, lockHeld s a = some l → l.holder = s.core.id → l.mark = s.core.ctx.mark →
        ∃ t, lockDrop a s = .ok ((), t) ∧ lockHeld t a = none ∧ t.core = s.core ∧ t.near = s.near
          ∧ ∀ b, (lockSlice b, lockBank b, lockBit b) ≠ (lockSlice a, lockBank a, lockBit a) → lockHeld t b = lockHeld s b)
    ∧ (lockHeld s a = none → lockDrop a s = .ok ((), noted wCombo s))
    ∧ (∀ l, lockHeld s a = some l → l.holder ≠ s.core.id ∨ l.mark ≠ s.core.ctx.mark → lockDrop a s = .ok ((), noted wCombo s))
    ∧ lockBank a = a / 8 % 8

/-- The address classes of R118 and the alignment of R152, as they trap LD, ST, ACQ and ATOM before anything is read or written:
non-canonical, null, closed or absent near addresses, of which an access that does not run past the end of its slot touches none
with its first or its last byte (R37, R119); FADDR is the address, of NEAR_BOUNDS the lowest byte out of bounds (R324), and W tells a
store. An output stream in D that is at its end comes first (R203). -/
def Sys2Proof.Part.AddressTraps : Prop :=
  (∀ d m base idx, ∀ s s1 : State, Addressed m [] [d] false (begun s) base idx s1 →
    ordIs15 (ordAfter true true (wide m) false m.ord) = false → ordIs15 (ordAfter true true (wide m) true m.ord) = false →
    (let ea := effective m (narrow m) base idx
     let trapped (c : Cause) (fa : Word) : Res := .next (takeTrap { cause := c, faddr := fa } s)
     (2 ^ 48 ≤ ea.toNat → exec (.ld d m) s = trapped .pageProt ea) ∧ (ea.toNat < 2 ^ 35 → exec (.ld d m) s = trapped .pageNp ea)
     ∧ (isNear ea.toNat = true → nearSpanOk s1 ea.toNat (narrow m) = false →
        exec (.ld d m) s = trapped .nearBounds (BitVec.ofNat 64 (nearFault s1 ea.toNat (narrow m))))))
  ∧ (∀ d m base idx v, ∀ s s1 s2 : State, Addressed m [d] [] false (begun s) base idx s1 → readOpd d s1 = .ok (v, s2) →
    ordIs15 (ordAfter false true (wide m) false m.ord) = false → ordIs15 (ordAfter false true (wide m) true m.ord) = false →
    (let ea := effective m (narrow m) base idx
     let trapped (c : Cause) (fa : Word) : Res := .next (takeTrap { cause := c, faddr := fa, w := true } s)
     (2 ^ 48 ≤ ea.toNat → exec (.st d m) s = trapped .pageProt ea) ∧ (ea.toNat < 2 ^ 35 → exec (.st d m) s = trapped .pageNp ea)
     ∧ (isNear ea.toNat = true → nearSpanOk s2 ea.toNat (narrow m) = false →
        exec (.st d m) s = trapped .nearBounds (BitVec.ofNat 64 (nearFault s2 ea.toNat (narrow m))))))
  ∧ (∀ d m base idx, ∀ s s1 : State, Addressed m [] [d] false (begun s) base idx s1 →
    (let ea := effective m (narrow m) base idx
     isNear ea.toNat = true → ea.toNat % narrow m ≠ 0 →
      (ordIs15 (ordAfter true true (wide m) false m.ord) = true → exec (.ld d m) s = .next (takeTrap { cause := .align, faddr := ea } s))
      ∧ exec (.acq d m) s = .next (takeTrap { cause := .align, faddr := ea } s)))
  ∧ (∀ op s4 ord sc pg d a b c x ea, op ≠ .cas → ∀ s s1 : State, Takes [a, b] [d] (warned (pg != 0) wCombo (begun s)) [ea, x] s1 →
    ea.toNat % (if s4 || op == .fadd then 4 else 8) ≠ 0 →
      exec (.atom op s4 ord sc pg d a b c) s = .next (takeTrap { cause := .align, faddr := ea, w := true } s))
  ∧ (∀ n m, ∀ s : State, checkDirs [m.base, m.idx] [.str n] [] (begun s) = .ok ((), begun s) →
    (s.core.ctx.streams[n]).total < (s.core.ctx.streams[n]).done + 1 →
    (let trapped : Res := .next (takeTrap { cause := .streamExh, faddr := BitVec.ofNat 64 n.val } s)
     exec (.ld (.str n) m) s = trapped ∧ exec (.acq (.str n) m) s = trapped))
  ∧ (∀ (s : State) (a n : Nat), nearSpanOk s a n = true ↔
      nearOk s a = true ∧ (n ≤ 1 ∨ 2 ^ 20 < a % 2 ^ 20 + n ∨ nearOk s (a + n - 1) = true))
  ∧ (∀ (s : State) (a n : Nat), 0 < n → nearSpanOk s a n = false →
      ∃ i < n, nearFault s a n = a + i ∧ nearOk s (a + i) = false ∧ ∀ j < i, nearOk s (a + j) = true)
  ∧ (∀ (s : State) (a : Nat), nearOk s a = true ↔
      (nearTile a).toNat % 64 < 48 ∧ nearSlot a < 36 ∧ s.inPartition (nearTile a) = true ∧ ¬ (nearSlot a < 32 ∧ 0xE0000 ≤ a % 2 ^ 20)
        ∧ (s.core.ctx.svc = true ∨ ¬ (32 ≤ nearSlot a ∧ (keyByte a < 64 * 0xB000 ∨ 0x3FF000 ≤ keyByte a))))

/-- The page-table walk (R121, R122, R123, R378): four levels of 512 entries; an entry without V is PAGE_NP; one with a reserved bit, a
leaf at level 1, a leaf whose frame is not aligned to its page, or a level-4 leaf bit outside the group entry is PAGE_PROT; a leaf at
level 2 or 3 maps 1 GiB or 2 MiB, a group entry at level 4 maps 64 KiB, else 4 KiB. No table lies in a peer window (R127). -/
def Sys2Proof.Part.PageWalk : Prop :=
  ∀ (q : Memory) (root va : Nat),
    let at1 := root + 8 * (va / 2 ^ 39 % 512)
    let e1 := pteAt q at1
    let at2 := e1 / 2 ^ 12 % 2 ^ 40 * 4096 + 8 * (va / 2 ^ 30 % 512)
    let e2 := pteAt q at2
    let at3 := e2 / 2 ^ 12 % 2 ^ 40 * 4096 + 8 * (va / 2 ^ 21 % 512)
    let e3 := pteAt q at3
    let tbl := e3 / 2 ^ 12 % 2 ^ 40 * 4096
    let at4 := tbl + 8 * (va / 2 ^ 12 % 512)
    let e4 := pteAt q at4
    let g := pteAt q (tbl + 8 * (va / 2 ^ 12 % 512 / 16 * 16))
    let isTable (e : Nat) : Prop := e % 2 = 1 ∧ e / 2 ^ 52 = 0 ∧ e / 2 ^ 10 % 4 = 0 ∧ e / 2 ^ 9 % 2 = 0
    let isLeaf (e sz : Nat) : Prop := e % 2 = 1 ∧ e / 2 ^ 52 = 0 ∧ e / 2 ^ 10 % 4 = 0 ∧ e / 2 ^ 12 % 2 ^ 40 * 4096 % sz = 0
    let isBad (e : Nat) : Prop := e % 2 = 1 ∧ (e / 2 ^ 52 ≠ 0 ∨ e / 2 ^ 10 % 4 ≠ 0)
    let misplaced (e sz : Nat) : Prop := e % 2 = 1 ∧ e / 2 ^ 9 % 2 = 1 ∧ e / 2 ^ 12 % 2 ^ 40 * 4096 % sz ≠ 0
    let leaf (e a sz : Nat) : Except Cause Leaf := .ok { vpage := va / sz * sz, size := sz, pte := BitVec.ofNat 64 e, at_ := a }
    let prot : Prop := walk q root va = .error .pageProt
    let isGroup : Prop := g % 2 = 1 ∧ g / 2 ^ 9 % 2 = 1
    at1 < 2 ^ 51 → (e1 % 2 = 0 → walk q root va = .error .pageNp)
      ∧ (isBad e1 ∨ (e1 % 2 = 1 ∧ e1 / 2 ^ 9 % 2 = 1) → prot)
      ∧ (isTable e1 → 2 ^ 51 ≤ at2 → prot)
      ∧ (isTable e1 → at2 < 2 ^ 51 → (e2 % 2 = 0 → walk q root va = .error .pageNp)
        ∧ (isBad e2 ∨ misplaced e2 (2 ^ 30) → prot)
        ∧ (isLeaf e2 (2 ^ 30) → e2 / 2 ^ 9 % 2 = 1 → walk q root va = leaf e2 at2 (2 ^ 30))
        ∧ (isTable e2 → 2 ^ 51 ≤ at3 → prot)
        ∧ (isTable e2 → at3 < 2 ^ 51 → (e3 % 2 = 0 → walk q root va = .error .pageNp)
          ∧ (isBad e3 ∨ misplaced e3 (2 ^ 21) → prot)
          ∧ (isLeaf e3 (2 ^ 21) → e3 / 2 ^ 9 % 2 = 1 → walk q root va = leaf e3 at3 (2 ^ 21))
          ∧ (isTable e3 → 2 ^ 51 ≤ tbl → prot)
          ∧ (isTable e3 → tbl < 2 ^ 51 → isGroup → (isBad g ∨ misplaced g 65536 → prot)
            ∧ (isLeaf g 65536 → walk q root va = leaf g (tbl + 8 * (va / 2 ^ 12 % 512 / 16 * 16)) 65536))
          ∧ (isTable e3 → tbl < 2 ^ 51 → ¬ isGroup →
            (e4 % 2 = 0 → walk q root va = .error .pageNp)
            ∧ (isBad e4 ∨ (e4 % 2 = 1 ∧ e4 / 2 ^ 9 % 2 = 1) → prot)
            ∧ (isLeaf e4 4096 → e4 / 2 ^ 9 % 2 = 0 → walk q root va = leaf e4 at4 4096))))

/-- A translation (R122, R124, R126): without a TLB entry the walk's leaf is used; its rights must allow the access (outside service
mode U too), A is set, and D with it for a write. A table on the way whose MAC does not match is a machine check (R128). (That the walk
happens in the step of the access is log entry 12.) -/
def Sys2Proof.Part.Translation : Prop :=
  ∀ (s : State) (d : Device) (va : Nat) (need : Need) (write : Bool) (l : Leaf), s.dev = some d →
    tlbHit s.core.mtlb d.num d.root va = none → tlbHit (s.tileOf (coreTile s.core.id)).tlb d.num d.root va = none →
    (walkSealed s d va = true → translate va need write s = .error .mcheck)
    ∧ (walkSealed s d va = false → walk s.quarry d.root va = .ok l →
    let e := l.pte ||| 0x80 ||| (if write then 0x100 else 0)
    let pa := e.toNat / 2 ^ 12 % 2 ^ 40 * 4096 + (va - l.vpage)
    let allowed : Prop := (s.core.ctx.svc = true ∨ l.pte.getLsbD 5 = true) ∧ (need.r = true → l.pte.getLsbD 1 = true)
      ∧ (need.w = true → l.pte.getLsbD 2 = true) ∧ (need.x = true → l.pte.getLsbD 3 = true) ∧ (need.bx = true → l.pte.getLsbD 4 = true)
    (¬ allowed → translate va need write s = .error .pageProt)
    ∧ (allowed → pa < 2 ^ 51 → memWf s.quarry = true →
      ∃ t, translate va need write s = .ok (pa, t) ∧ memWord t.quarry l.at_ = e ∧ t.near = s.near ∧ t.core.ctx = s.core.ctx
        ∧ (∀ a, a < l.at_ ∨ l.at_ + 8 ≤ a → memGet t.quarry a = memGet s.quarry a)
        ∧ tlbHit t.core.mtlb d.num d.root va = some { vpage := l.vpage, size := l.size, pte := e, dev := d.num, root := d.root }))

namespace Sys2Proof.Say

/-- What an atomic writes over the old word, nothing for a CAS without a match, and its flags (R287). -/
def atomWrites (op : AtomOp) (n : Nat) (old : Nat) (x y : Word) : Option (BitVec (8 * n)) × Flags :=
  let o := BitVec.ofNat (8 * n) old
  let b : BitVec (8 * n) := x.setWidth _
  let sum := addFV fp32 (unpack fp32 old) (unpack fp32 b.toNat)
  (match op with
    | .add => some (o + b) | .and => some (o &&& b) | .or => some (o ||| b) | .xor => some (o ^^^ b)
    | .smin => some (if b.slt o then b else o) | .smax => some (if o.slt b then b else o)
    | .nmin => some (if b.ult o then b else o) | .nmax => some (if o.ult b then b else o)
    | .xchg => some b | .cas => if o = y.setWidth _ then some b else none
    | .fadd => some (BitVec.ofNat _ sum.1), if op = .fadd then sum.2 else 0)
/-- The sources of an atomic with their values. -/
def atomSrcs (op : AtomOp) (a b c : Opd) : List Opd := if op = .cas then [a, b, c] else [a, b]
def atomVals (op : AtomOp) (ea x y : Word) : List Word := if op = .cas then [ea, x, y] else [ea, x]
/-- A value that a load outside the task's own slices leaves for D: outstanding until it arrives, counted in LD (R71, R302). -/
def Outstanding (d : Opd) (bs : List Byte) (fl : Flags) (s t : State) : Prop :=
  let out (dst : LoadDst) (data : List Byte) (u : State) : State := u.mapCtx fun c =>
    { c with ld := c.ld + 1, loads := c.loads ++ [{ dst := dst, data := data, fl := fl }] }
  match d with
  | .reg n => s.core.ctx.pendingX n = false ∧ s.core.ctx.ld ≠ 63 ∧ t = out (if n = 0 then .none else .x n) bs s
  | .str _ => ∃ u, writeOpd d (bytesWord bs) s = .ok ((), u) ∧ u.core.ctx.ld ≠ 63 ∧ t = out .none [] u

end Sys2Proof.Say

/-- Atomics on near words (R287-R289): the old value goes to D, the new one to memory in one step; CAS stores only on a match, and
FADD sets its flags. An ACQ or ACQREL function ends with the acquire, a REL or ACQREL one starts with the release. -/
def Obligations.NearAtomics : Prop :=
  ∀ op s4 ord sc pg d a b c ea x y, ∀ s s1 s2 u s3 : State,
    let n := if s4 || op == .fadd then 4 else 8
    Takes (atomSrcs op a b c) [d] (warned (pg != 0) wCombo (begun s)) (atomVals op ea x y) s1 →
    ea.toNat % n = 0 → nearSpanOk s1 ea.toNat n = true → (if ord = .rel ∨ ord = .acqrel then releaseAt sc s1 = .ok ((), s2) else s2 = s1) →
    NearRead s2 ea n u → (∀ l, lockHeld u ea.toNat = some l → lockMine u l = true) →
    let old := leNat (u.nearRead ea.toNat n)
    let r := atomWrites op n old x y
    let t := match r.1 with
      | some v => stored ea (leBytes n v.toNat) u
      | none => u
    let t := flagged r.2 t
    writeOpd d (BitVec.ofNat 64 old) (if ord = .acq ∨ ord = .acqrel then acquired sc ea t else t) = .ok ((), s3) →
      exec (.atom op s4 ord sc pg d a b c) s = .next (retired 8 s3)

/-- Atomics on far words (R146, R287, R302): they run at the quarry port past the far cache and drop the tile's line; the old value is
outstanding, counted in LD, unless the function acquires; an ordering sets WARN.ORDER and is performed as a plain one (R152). No
granule of the word fails its check. That the memory is read and written when the ATOM issues is log entry 7. -/
def Sys2Proof.Part.FarAtomics : Prop :=
  ∀ op s4 ord sc pg d a b c ea x y pas, ∀ s s1 s2 s3 s4' : State,
    let n := if s4 || op == .fadd then 4 else 8
    Takes (atomSrcs op a b c) [d] (warned (pg != 0) wCombo (begun s)) (atomVals op ea x y) s1 →
    ea.toNat % n = 0 → place ea n needRW true 0 s1 = .ok (.far ea.toNat pas, s2) → isNear ea.toNat = false →
    (let w := warned (ord != .none) wOrder s2
     if ord = .rel ∨ ord = .acqrel then releaseAt sc w = .ok ((), s3) else s3 = w) →
    s3.core.ctx.ld ≠ 63 → ownPending s3 ea.toNat n = false →
    let u := readsDone s3 ea.toNat n
    (∀ st ∈ u.core.ctx.stores, ∀ k ∈ st.cells, k.1 ∉ pas) → (granulesOf pas).any (sealFails u u.key) = false →
    let q := farRead u pas false
    let r := atomWrites op n (leNat q.1) x y
    let t := match r.1 with
      | some v => taskFarWrite q.2 ea.toNat (pas.zip (leBytes pas.length v.toNat))
      | none => q.2
    let t := t.updTile (coreTile s.core.id) fun tl => { tl with fcache := cacheDrop (linesOf pas) tl.fcache }
    (if ord = .acq ∨ ord = .acqrel then writeOpd d (bytesWord q.1) (flagged r.2 t) = .ok ((), s4') else Outstanding d q.1 r.2 t s4') →
      exec (.atom op s4 ord sc pg d a b c) s = .next (retired 8 s4')

namespace Sys2Proof.Say

/-- Lanes, lane addresses and index values of a gather or scatter (R325, R358). -/
def lanes (et : ElemTy) : Nat := if et = .i64 then 8 else 16
def laneAddr (et : ElemTy) (bytes : Bool) (base : Word) (idx : List Byte) (i : Nat) : Word :=
  base + BitVec.ofNat 64 (leNat ((idx.drop (4 * i)).take 4) * (if bytes then 1 else elemSize et))
/-- The active lanes of a gather wait for the task's own writes to them (R149), and its earlier reads of their words are made first
(R148). -/
def LanesReady (et : ElemTy) (bytes : Bool) (p base : Word) (idx : List Byte) (s u : State) : Prop :=
  eachM (fun l => whenM l.1 (awaitLoad (gsAddr et bytes base l.2) (elemSize et))) ((activeLanes p (lanes et)).zip (lanesOf 4 idx)) s
    = .ok ((), u)
/-- Bindings left by a length of 0. -/
def unbound (sync : Word) (bs : List Binding) : List Binding := bs.filter fun b => b.sync != sync

end Sys2Proof.Say

/-- LDG and STS of near lanes (R257, R325, R358): each active lane takes or gives the element at its own address, stores in lane
order; inactive lanes of a register keep their bytes and inactive lanes store nothing. Another element type does nothing but
WARN.COMBO. -/
def Sys2Proof.Part.NearGatherScatter : Prop :=
  (∀ et bytes pg n a b p idx base, ∀ s s1 s2 u : State, elemIsScal et = true →
    (let s0 := noted (if s.core.ctx.pfx then wFmttgt else 0) s
     let size := elemSize et
     checkDirs [a, b] [.reg n] [true] s0 = .ok ((), s0) → readP pg s0 = .ok (p, s0) → readVec a s0 = .ok (idx, s1) →
     readOpd b s1 = .ok (base, s2) → idx.length = 64 →
     (∀ i < lanes et, p.getLsbD i = true → isNear (laneAddr et bytes base idx i).toNat = true
       ∧ nearSpanOk s2 (laneAddr et bytes base idx i).toNat size = true) →
     LanesReady et bytes p base idx s2 u →
     (∀ i < lanes et, p.getLsbD i = true → poisoned u (laneAddr et bytes base idx i).toNat size = false
       ∧ (touchesWindow u (laneAddr et bytes base idx i).toNat = true →
          windowSlots (u.tileOf (nearTile (laneAddr et bytes base idx i).toNat)) = [])) →
     u.core.ctx.pendingWrite (u.core.ctx.vOff n.val) 64 = false →
     (let data := ((List.range (lanes et)).map fun i => if p.getLsbD i then u.nearRead (laneAddr et bytes base idx i).toNat size
        else u.core.ctx.ursRead (u.core.ctx.vOff n.val + size * i) size).flatten
      exec (.ldg et bytes pg (.reg n) a b) s
        = .next (retired 8 (consumed (u.mapCtx fun c => c.ursWrite (c.vOff n.val) (fitBytes 64 data)))))))
  ∧ (∀ et bytes pg d a b p idx base v, ∀ s s1 s2 s3 : State, elemIsScal et = true →
    (let s0 := noted (if s.core.ctx.pfx then wFmttgt else 0) s
     let size := elemSize et
     checkDirs [a, b, d] [] [true, false, true] s0 = .ok ((), s0) → readP pg s0 = .ok (p, s0) → readVec a s0 = .ok (idx, s1) →
     readOpd b s1 = .ok (base, s2) → readVec d s2 = .ok (v, s3) → idx.length = 64 → v.length = 64 →
     (∀ i < lanes et, p.getLsbD i = true → NearOpen s3 (laneAddr et bytes base idx i) size
       ∧ partPoison s3 (laneAddr et bytes base idx i).toNat size = false) →
      exec (.sts et bytes pg d a b) s = .next (retired 8 (consumed (((List.range (lanes et)).filter p.getLsbD).foldl
        (fun t i => stored (laneAddr et bytes base idx i) ((v.drop (size * i)).take size) t) s3)))))
  ∧ (∀ et bytes pg d a b, ∀ s : State, elemIsScal et = false →
    exec (.ldg et bytes pg d a b) s = .next (retired 8 (consumed (noted wCombo (noted (if s.core.ctx.pfx then wFmttgt else 0) s))))
    ∧ exec (.sts et bytes pg d a b) s = .next (retired 8 (consumed (noted wCombo (noted (if s.core.ctx.pfx then wFmttgt else 0) s)))))

/-- A gather or scatter with far lanes (R71, R325, R358) is outstanding as one load or one store of the task.
(That its bytes are read when it issues is log entry 7.) -/
def Sys2Proof.Part.FarGatherScatter : Prop :=
  (∀ et bytes pg n a b p idx base pls vs, ∀ s s1 s2 s3 u s4 : State, elemIsScal et = true →
    (let s0 := noted (if s.core.ctx.pfx then wFmttgt else 0) s
     let act := activeLanes p (lanes et)
     checkDirs [a, b] [.reg n] [true] s0 = .ok ((), s0) → readP pg s0 = .ok (p, s0) → readVec a s0 = .ok (idx, s1) →
     readOpd b s1 = .ok (base, s2) → lanePlaces et bytes base needR false (act.zip (lanesOf 4 idx)) s2 = .ok (pls, s3) →
     (∃ va pas, some (Place.far va pas) ∈ pls) → act.all id = true →
     LanesReady et bytes p base idx s3 u →
     mapM' (fun q => match q with | some pl => (do let bs ← readPlace pl; pure (leNat bs)) | none => pure 0) pls u = .ok (vs, s4) →
     s4.core.ctx.ld ≠ 63 → s4.core.ctx.pendingWrite (s4.core.ctx.vOff n.val) 64 = false →
     ∃ data, exec (.ldg et bytes pg (.reg n) a b) s = .next (retired 8 (consumed (s4.mapCtx fun c =>
        { c with ld := c.ld + 1, loads := c.loads ++ [{ dst := .urs (c.vOff n.val), data := data }] })))
       ∧ data.length = 64 ∧ (vs.length = lanes et → lanesOf (elemSize et) (data.take (lanes et * elemSize et))
           = vs.map (· % 2 ^ (8 * elemSize et)))))
  ∧ (∀ et bytes pg d a b p idx base v pls, ∀ s s1 s2 s3 s4 : State, elemIsScal et = true →
    (let s0 := noted (if s.core.ctx.pfx then wFmttgt else 0) s
     checkDirs [a, b, d] [] [true, false, true] s0 = .ok ((), s0) → readP pg s0 = .ok (p, s0) → readVec a s0 = .ok (idx, s1) →
     readOpd b s1 = .ok (base, s2) → readVec d s2 = .ok (v, s3) →
     lanePlaces et bytes base needW true ((activeLanes p (lanes et)).zip (lanesOf 4 idx)) s3 = .ok (pls, s4) →
     (∀ a n, some (Place.near a n) ∉ pls) →
     (∀ l ∈ (activeLanes p (lanes et)).zip (lanesOf 4 idx), l.1 = true →
        ownPending s4 (gsAddr et bytes base l.2).toNat (elemSize et) = false) →
     (let cells := ((pls.zip (chunksOf (elemSize et) (lanes et) v)).map fun q => match q.1 with
        | some (.far _ pas) => pas.zip q.2
        | _ => []).flatten
      cells ≠ [] → s4.core.ctx.st ≠ 63 →
      ∃ va, (∃ pas, some (Place.far va pas) ∈ pls) ∧ exec (.sts et bytes pg d a b) s = .next (retired 8 (consumed (s4.mapCtx fun c =>
        { c with st := c.st + 1, stores := c.stores ++ [{ va := va, cells := cells }] }))))))

/-- PREF (R344): outside far memory it does nothing; in far memory it is counted in LD while its lines are fetched; one that fails
is dropped without a trap. -/
def Sys2Proof.Part.Prefetch : Prop :=
  ∀ m base idx, ∀ s s1 : State, Addressed m [] [] false (begun s) base idx s1 →
    let ea := (effective m (sized m) base idx).toNat
    let s1' := noted (if m.ord != .plain && m.ord != .nt || m.scope != .core then wCombo else 0) s1
    (isFar ea = false → exec (.pref m) s = .next (retired 8 s1'))
    ∧ (isFar ea = true → s1.core.ctx.ld ≠ 63 →
      (∀ t, prefetchWork ea (sized m) (m.ord == .nt) s1' = .ok ((), t) →
        exec (.pref m) s = .next (retired 8 (t.mapCtx fun c =>
          { c with ld := c.ld + 1, loads := c.loads ++ [{ dst := .none, data := [] }] })))
      ∧ (∀ e, prefetchWork ea (sized m) (m.ord == .nt) s1' = .error e → exec (.pref m) s = .next (retired 8 s1')))
    ∧ (isFar ea = true → s1.core.ctx.ld = 63 →
        exec (.pref m) s = .next { s with core := s.core.stalled.mapCtx fun c => { c with stall := some .full63 } })

/-- BIND (R158, R292): a new entry rounded out to whole lines, with its number in D; a length of 0 removes the word's entries and
counts them; the refused forms return their code. That the sync word must be 8-byte aligned is log entry 29, and that the index given is
the number of live entries log entry 76. -/
def Sys2Proof.Part.Bindings : Prop :=
  ∀ mod pg d a b c sync base len, ∀ s s1 s2 : State,
    (let s0 := noted (if mod != 0 then wCombo else 0) (noted (if pg != 0 then wCombo else 0) (begun s))
     Takes [a, b, c] [d] s0 [sync, base, len] s1 →
     (let bs := s1.core.ctx.binds
      let done (r : Word) (w : Warn) (bs' : List Binding) : Prop :=
        writeOpd d r ((noted w s1).mapCtx fun x => { x with binds := bs' }) = .ok ((), s2) →
          exec (.bind mod pg d a b c) s = .next (retired 8 s2)
      (isNear sync.toNat = false ∨ sync.toNat % 8 ≠ 0 → done 0x8000000000000002 wOrder bs)
      ∧ (isNear sync.toNat = true → sync.toNat % 8 = 0 →
        (2 ^ 36 < len.toNat → done 0x8000000000000003 wCombo bs)
        ∧ (len = 0 → done (BitVec.ofNat 64 (bs.length - (unbound sync bs).length)) 0 (unbound sync bs))
        ∧ (len ≠ 0 → len.toNat ≤ 2 ^ 36 → 16 ≤ bs.length → done 0x8000000000000001 wCombo bs)
        ∧ (len ≠ 0 → len.toNat ≤ 2 ^ 36 → bs.length < 16 →
            ∃ lo hi : Nat, lo % 64 = 0 ∧ hi % 64 = 0 ∧ lo ≤ base.toNat ∧ base.toNat < lo + 64 ∧ base.toNat + len.toNat ≤ hi
              ∧ hi < base.toNat + len.toNat + 64
              ∧ done (BitVec.ofNat 64 bs.length) 0 (bs ++ [{ sync := sync, base := BitVec.ofNat 64 lo, len := BitVec.ofNat 64 (hi - lo) }])))))

/-- FENCE (R160): NONE does nothing but WARN.COMBO; REL waits for the drain; ACQ has earlier loads returned, those of matrix operations
and gathers among them (R336, R349), and, at DIE or wider, empties the tile's far cache and drops the device's staged blocks (R193); AR
does both. That the drain is one step is log entry 9. -/
def Sys2Proof.Part.Fences : Prop :=
  ∀ sc, ∀ s : State,
    let fenced (t : State) : State :=
      let u := gatherAll (mxAll (t.mapCtx fun c => returnLoads c.loads.length c))
      if atDie sc then dropStaged (u.updTile (coreTile u.core.id) fun tl => { tl with fcache := [] }) else u
    exec (.fence .none sc) s = .next (retired 8 (noted wCombo (begun s)))
    ∧ exec (.fence .acq sc) s = .next (retired 8 (fenced (begun s)))
    ∧ (∀ t, releaseDrain sc (begun s) = .ok ((), t) →
        exec (.fence .rel sc) s = .next (retired 8 t) ∧ exec (.fence .ar sc) s = .next (retired 8 (fenced t)))
    ∧ (atDie sc = true ↔ sc = .die ∨ sc = .pkg ∨ sc = .pod ∨ sc = .host)

/-- BAR (R52, R290): a task of another kind only gets WARN.COMBO, beside the WARN.SCOPE that every code wider than its course's span gets (R262),
and CORE completes at once; else the first issue is a release that
counts one arrival and waits, BAR itself not having issued (R66), and the wait ends when the generation has flipped. -/
def Obligations.Barriers : Prop :=
  ∀ (scope : Scope) (idx : Fin 4) (s : State),
    (markIsTile s.core.ctx.mark = false ∨ s.core.ctx.svc = true → 
      exec (.bar scope idx) s = .next (retired 8 (noted wCombo (noted (if scopeNum s.spanOfTask < scopeNum scope then wScope else 0) (begun s)))))
    ∧ (∀ d co, markIsTile s.core.ctx.mark = true → s.core.ctx.svc = false → s.dev = some d →
        s.courseOf d.num (markCourse s.core.ctx.mark) = some co →
        let sc := if scopeNum co.span < scopeNum scope then co.span else scope
        let s0 := noted (if scopeNum co.span < scopeNum scope then wScope else 0) (begun s)
        let waits (t : State) : State := { t with core := t.core.stalled.mapCtx fun c => { c with stall := some .barrier } }
        (sc = .core → exec (.bar scope idx) s = .next (retired 8 s0))
        ∧ (sc ≠ .core →
          ((∀ g, (sc, idx, g) ∉ s.core.ctx.arrived) → ∀ s0' s1, releaseAt sc s0 = .ok ((), s0') → releaseAt sc s = .ok ((), s1) →
            let b := d.barrierAt co sc s.core.id idx
            exec (.bar scope idx) s = .next (waits ((s1.updDev d.num fun d => { d with barriers := putBarrier { b with count := b.count + 1 } d.barriers }).mapCtx
              fun c => { c with arrived := c.arrived ++ [(sc, idx, b.gen)] })))
          ∧ (∀ g, (s.core.ctx.arrived.find? fun a => a.1 == sc && a.2.1 == idx) = some (sc, idx, g) →
            ((d.barrierAt co sc s.core.id idx).gen = g → exec (.bar scope idx) s = .next (waits s))
            ∧ ((d.barrierAt co sc s.core.id idx).gen ≠ g →
              exec (.bar scope idx) s = .next (retired 8
                (let t := s0.mapCtx fun c => { c with arrived := c.arrived.filter fun k => !(k.1 == sc && k.2.1 == idx) }
                 if atDie sc then dropStaged t else t))))))

/-! Tasks and messages. -/

namespace Sys2Proof.Say

/-- The fork record that FORK builds from its operands, but for the steal scope and the time (R41, R317). -/
def forked (inh : Bool) (x y p : Word) (imm : BitVec 32) (c : Ctx) (mark : Word) : TaskRec :=
  { kind := .fork, prio := if inh then c.prio else BitVec.ofNat 7 (min p.toNat 119)
    entry := entryOf (c.pc + imm.signExtend 64).toNat, mark := mark, arg0 := x, arg1 := y }
/-- The low 48 bits of a value with bits 1:0 zero, as an entry (R25). -/
def isEntry (e : BitVec 48) (v : Word) : Prop := e.toNat = v.toNat % 2 ^ 48 / 4 * 4
/-- A serial that no tile task has: bit 33 set, the core's number and its count of creations (R26). -/
def forkSerial (c : CoreId) (n : BitVec 18) : Nat := 2 ^ 33 + c.toNat * 2 ^ 18 + n.toNat

end Sys2Proof.Say

/-- R41, with R26, R42 and R317: the record FORK builds, after the release at the course's span, and where it goes: the deque; else the
run queue, where a pending signal of an enabled tag has its place first (R49); else nowhere, and D says so. That the record keeps the time
of its making is log entry 68. -/
def Obligations.ForkPlaces : Prop :=
  ∀ inh ss pg d a b c imm x y p, ∀ s s1 s2 s4 : State,
    let s0 := noted (if pg != 0 then wCombo else 0) (begun s)
    Takes (if inh then [a, b] else [a, b, c]) [d] s0 (if inh then [x, y] else [x, y, p]) s1 →
    releaseAt s1.spanOfTask (noted (if !inh && 119 < p.toNat then wCombo else 0) s1) = .ok ((), s2) →
    let span := s1.spanOfTask
    let code : Scope := if scopeNum ss < 3 then ss else .die
    let sc := if scopeNum span < scopeNum code then span else code
    let s3 := noted (if scopeNum sc < scopeNum ss then wScope else 0) s2
    let mark := mkMark (asidOf s3.vdNum) (markCourse s1.core.ctx.mark) (forkSerial s3.core.id s3.core.creations)
    let r : TaskRec := { forked inh x y p imm s1.core.ctx mark with sscope := BitVec.ofNat 3 (scopeNum sc), born := s3.time }
    let made (co : Core) : State := { s3 with core := { co with creations := co.creations + 1 } }
    (s3.core.deque.length < 64 → writeOpd d 0 (made { s3.core with deque := r :: s3.core.deque }) = .ok ((), s4) →
      exec (.fork inh ss pg d a b c imm) s = .next (retired 12 s4))
    ∧ (64 ≤ s3.core.deque.length → s3.core.runq.length + s3.core.signalsDue < 64 + 4096 →
      writeOpd d 1 (made { s3.core with runq := s3.core.runq ++ [{ r with sscope := 0 }], resting := false }) = .ok ((), s4) →
      exec (.fork inh ss pg d a b c imm) s = .next (retired 12 s4))
    ∧ (64 ≤ s3.core.deque.length → 64 + 4096 ≤ s3.core.runq.length + s3.core.signalsDue → writeOpd d 2 s3 = .ok ((), s4) →
      exec (.fork inh ss pg d a b c imm) s = .next (retired 12 s4))

/-- JOIN (R46, R320): the counter at a near address falls by one after the release, D receives its old value, and the arrival that
finds 1 queues the block's continuation on the block's core, behind the places of its pending signals (R49). A counter of 0 stays, with
WARN.COMBO. -/
def Sys2Proof.Part.JoinCounts : Prop :=
  (∀ d m base idx, ∀ s s1 s2 s5 : State, Addressed m [] [d] false (begun s) base idx s1 →
    (let ea := effective m 8 base idx
     ea.toNat % 8 = 0 → nearPlain s1 ea.toNat = true →
     releaseAt m.scope (noted (if sized m != 8 || m.ord != .plain then wCombo else 0) s1) = .ok ((), s2) →
     NearOpen s2 ea 8 → partPoison s2 ea.toNat 8 = false →
     (let old := bytesWord (s2.nearRead ea.toNat 8)
      let s3 := if old = 0 then noted wCombo s2 else stored ea (wordBytes (old - 1)) s2
      let s4 := if old = 1 then continuation s3 s3.vdNum (markCourse s3.core.ctx.mark) ea.toNat else s3
      writeOpd d old s4 = .ok ((), s5) → exec (.join d m) s = .next (retired 8 s5))))
  ∧ (∀ (s : State) vd course blk, (s.coreOf (ownerCore blk)).runq.length + (s.coreOf (ownerCore blk)).signalsDue < 64 + 4096 →
    heldRec s (ownerCore blk) = false → recordPoison s blk = [] →
    ∃ r, ((continuation s vd course blk).coreOf (ownerCore blk)).runq = (s.coreOf (ownerCore blk)).runq ++ [r]
      ∧ r.kind = .continuation ∧ isEntry r.entry (s.nearWord (nearWrap blk 8))
      ∧ r.prio.toNat = min ((s.nearWord (nearWrap blk 8)).toNat / 2 ^ 51 % 2 ^ 7) 119
      ∧ r.arg0 = s.nearWord (nearWrap blk 24) ∧ r.arg1 = s.nearWord (nearWrap blk 32) ∧ markCourse r.mark = course
      ∧ markIsTile r.mark = false ∧ (continuation s vd course blk).near = s.near)

/-- CONT (R299, R300): the block's words for the continuation, the count or, for a count of 0, the continuation at once. -/
def Sys2Proof.Part.ContinuationBlock : Prop :=
  ∀ pg n a b c imm ea cnt x y, ∀ s s1 s2 : State,
    let s0 := noted (if pg != 0 then wCombo else 0) (begun s)
    checkDirs [a, b, c] [] [] s0 = .ok ((), s0) → readOpds [a, b, c, .reg n] s0 = .ok ([ea, cnt, x, y], s1) → ea.toNat % 8 = 0 →
    let blk := ea.toNat
    let at_ (i : Nat) : Word := BitVec.ofNat 64 (nearWrap blk i)
    nearPlain s1 blk = true → nearPlain s1 (nearWrap blk 39) = true → ownPending s1 blk 40 = false → s1.poison = [] →
    let entry := (s.core.ctx.pc + imm.signExtend 64).toNat % 2 ^ 48
    let w0 : Word := BitVec.ofNat 64 (s1.core.ctx.prio.toNat * 2 ^ 51 + 4 * 2 ^ 48 + entry)
    let s3 := stored (at_ 32) (wordBytes y) (stored (at_ 24) (wordBytes x) (stored (at_ 16) (zeroBytes 8) (stored (at_ 8) (wordBytes w0) s1)))
    releaseAt (narrowest s.core.id (ownerCore blk)) s3 = .ok ((), s2) → s2.poison = [] →
    (cnt = 0 → exec (.cont pg (.reg n) a b c imm) s
        = .next (retired 12 (continuation s2 s2.vdNum (markCourse s2.core.ctx.mark) blk)))
    ∧ (cnt ≠ 0 → exec (.cont pg (.reg n) a b c imm) s = .next (retired 12 (stored ea (wordBytes cnt) s2)))

/-- SEND in both forms (R162, R354, R355): a message to a tag or an arrival queue of a small core of the partition enters the mortar,
after the release when one is asked for; another core is NEAR_BOUNDS; where the log of a paused device's core is full, SEND waits (R166).
That the mortar itself takes any number of messages is log entry 30. -/
def Obligations.SendsMessages : Prop :=
  ∀ queue rel sc (target : Fin 64) pg x v, ∀ s s1 s2 : State,
    let s0 := noted (if pg != 0 then wCombo else 0) (begun s)
    let dst : CoreId := BitVec.ofNat 15 x.toNat
    let inside (t : State) : Prop := t.inPartition (coreTile dst) = true ∧ dst.toNat / 64 % 64 < 48 ∧ dst.toNat % 64 < 32
    let s1' := noted (if 2 ^ 15 ≤ x.toNat then wCombo else 0) (noted (if !rel && sc != .core then wCombo else 0) s1)
    let body : MsgBody := if queue then .queue (Fin.ofNat 8 target.val) v else .tag target v
    let sent : State := { s2 with mortar := s2.mortar ++ [{ src := s2.core.id, dst := dst, vd := s2.vdNum, body := body
                                                            course := markCourse s2.core.ctx.mark }] }
    let released : Prop := if rel then releaseAt sc s1' = .ok ((), s2) else s2 = s1'
    (∀ a b, Takes [a, b] [] s0 [x, v] s1 →
      (inside s1 → released → logFull s2 s2.vdNum dst = false → exec (.send queue rel sc target pg a b) s = .next (retired 8 sent))
      ∧ (inside s1 → released → logFull s2 s2.vdNum dst = true → exec (.send queue rel sc target pg a b) s = .next (s.stalled .backpressure))
      ∧ (¬ inside s1 → exec (.send queue rel sc target pg a b) s = .next (takeTrap { cause := .nearBounds, faddr := x } s)))
    ∧ (∀ a imm, Takes [a] [] s0 [x] s1 → v = BitVec.setWidth 64 (imm : BitVec 32) →
      (inside s1 → released → logFull s2 s2.vdNum dst = false → exec (.sendImm queue rel sc target pg a imm) s = .next (retired 12 sent))
      ∧ (inside s1 → released → logFull s2 s2.vdNum dst = true →
        exec (.sendImm queue rel sc target pg a imm) s = .next (s.stalled .backpressure))
      ∧ (¬ inside s1 → exec (.sendImm queue rel sc target pg a imm) s = .next (takeTrap { cause := .nearBounds, faddr := x } s)))

/-- TAGCTL (R49, R361, R362): D receives EN and PEND as they were, and the tag of the core changes as the action says. -/
def Sys2Proof.Part.TagControl : Prop :=
  ∀ (d : Opd) (a : Opd) (t : Fin 64) (prio : BitVec 7), ∀ s s2 : State,
    let s0 := begun s
    let g := s.core.tags[t]
    let before : Word := BitVec.ofNat 64 (b2n g.en + 2 * b2n (g.signal || s.core.waits t.val))
    let tagged (u : State) (g' : Tag) : State := { u with core := { u.core with tags := u.core.tags.set t.val g' } }
    let does (act : TagAct) (u : State) : Prop :=
      writeOpd d before u = .ok ((), s2) → exec (.tagctl act d a t prio) s = .next (retired 8 s2)
    (∀ x s1, Takes [a] [d] s0 [x] s1 →
      does .config (tagged (noted (if 2 ^ 48 ≤ x.toNat || 119 < prio.toNat then wCombo else 0) s1)
        { g with handler := entryOf x.toNat, prio := BitVec.ofNat 7 (min prio.toNat 119), course := markCourse s1.core.ctx.mark
                 en := if x.toNat % 2 ^ 48 = 0 then false else g.en }))
    ∧ (checkDirs [] [d] [] s0 = .ok ((), s0) → dstEnd false d s0 = .ok ((), s0) →
      does .clrEn (tagged s0 { g with en := false }) ∧ does .clrPend (tagged s0 { g with signal := false })
      ∧ (g.handler = 0 → does .setEn (noted wCombo s0)) ∧ (g.handler ≠ 0 → does .setEn (enableTag s0 s.core.id s.vdNum t))
      ∧ (g.en = false → does .setPend (tagged s0 { g with signal := true }))
      ∧ (g.en = true → does .setPend (signalRec (tagged s0 { g with signal := true }) s.core.id s.vdNum t)))

/-- Enabling a tag (R48, R49): its waiting records become ready in arrival order with the tag's entry, priority and course, the other
records keep their places, and a pending signal becomes one handler record after them when the run queue has room. (That the record names
the core itself as the sender is log entry 92.) -/
def Sys2Proof.Part.EnablingTags : Prop :=
  ∀ (s : State) (t : Fin 64) (vd : Nat),
    let co := s.core
    let g := co.tags[t]
    let mine (r : TaskRec) : Bool := r.wait && r.tag.toNat == t.val
    let u := enableTag s co.id vd t
    let ready := (co.runq.filter mine).map fun r => { r with
      wait := false, entry := g.handler, prio := g.prio, mark := mkMark (BitVec.ofNat 14 (r.mark.toNat / 2 ^ 50)) g.course (r.mark.toNat % 2 ^ 34) }
    u.core.tags[t].en = true ∧ u.core.tags[t].handler = g.handler
      ∧ (g.signal = false → u.core.runq = co.runq.filter (fun r => !mine r) ++ ready ∧ u.core.tags[t].signal = false)
      ∧ (g.signal = true → co.runq.length < 64 + 4096 →
        ∃ r, u.core.runq = co.runq.filter (fun r => !mine r) ++ ready ++ [r] ∧ u.core.tags[t].signal = false ∧ r.kind = .handler
          ∧ r.wait = false ∧ r.arg0 = 0 ∧ r.arg1.toNat = co.id.toNat + t.val * 2 ^ 16 + 2 ^ 24 ∧ r.entry = g.handler ∧ r.prio = g.prio
          ∧ markCourse r.mark = g.course)
      ∧ (g.signal = true → 64 + 4096 ≤ co.runq.length → u.core.tags[t].signal = true)

/-! Streams and control registers. -/

namespace Sys2Proof.Say

/-- A stream register given a new binding. -/
def rebound (n : Fin 8) (t : Stream) (s : State) : State := s.mapCtx fun c => { c with streams := c.streams.set n.val t }
/-- The prefix gone and an ignored PG noted (R257). -/
def ignoring (pg : Fin 8) (s : State) : State := noted (if pg != 0 then wCombo else 0) (begun s)
/-- The descriptor of a pattern at a near address (R134): dimensions, element size, counts and strides. -/
def descDims (s : State) (desc : Word) : Nat := leNat (s.nearRead desc.toNat 8) % 16
def descSize (s : State) (desc : Word) : Nat := 2 ^ (leNat (s.nearRead desc.toNat 8) / 16 % 4)
def descDim (s : State) (desc : Word) (d : Nat) : List Byte := s.nearRead (desc + BitVec.ofNat 64 (8 + 16 * d)).toNat 16
def descCounts (s : State) (desc : Word) (nd : Nat) : List Nat := (List.range nd).map fun d => leNat ((descDim s desc d).take 4)
def descStrides (s : State) (desc : Word) (nd : Nat) : List Int :=
  (List.range nd).map fun d => (bytesWord ((descDim s desc d).drop 8)).toInt
/-- The element reads of a gather come after what the task still has to write to those elements and to read from them (R148, R149,
R349): the state in which they are reached. -/
def elementsReady (base : Word) (size : Nat) : List Nat → State → State → Prop
  | [], s, t => t = s
  | i :: is, s, t =>
    let a := (base + BitVec.ofNat 64 (i * size)).toNat
    ownPending s a size = false ∧ elementsReady base size is (readsDone s a size) t
/-- The job a KIND 2 binding names (R352). -/
def feeds (s : State) (xid : Nat) (j : Job) : Bool :=
  (leNat (j.card.take 2) == 7 || leNat (j.card.take 2) == 4) && leNat ((j.card.drop 4).take 4) == xid && some j.vd == s.vd
    && j.state != .ended && j.count == 0 && j.stream.isNone

end Sys2Proof.Say

/-- SUNB and the unbinding every SBIND begins with (R64, R360): an output stream with pushes to write waits, any other stream is
unbound, and nothing else of the task changes but the count of a gather that fed it. (That the wait shows reason "stream" is log entry
101; that a queued GEXP with values for the stream does not hold it up, log entry 44.) -/
def Sys2Proof.Part.StreamUnbinding : Prop :=
  (∀ pg n, ∀ s : State,
    let t := s.core.ctx.streams[n]
    (t.bound = true → t.out = true → t.buf ≠ [] →
      exec (.sunb pg n) s = .next { s with core := s.core.stalled.mapCtx fun c => { c with stall := some .stream } })
    ∧ (∀ u, unbind n (ignoring pg s) = .ok ((), u) → exec (.sunb pg n) s = .next (retired 8 u)))
  ∧ (∀ (n : Fin 8) (s : State),
    let t := s.core.ctx.streams[n]
    ¬ (t.bound = true ∧ t.out = true ∧ t.buf ≠ []) →
    ∃ u, unbind n s = .ok ((), u) ∧ u.core.ctx.streams = s.core.ctx.streams.set n.val {} ∧ u.near = s.near ∧ u.quarry = s.quarry
      ∧ u.core.ctx.x = s.core.ctx.x ∧ u.core.ctx.urs = s.core.ctx.urs ∧ u.core.ctx.warn = s.core.ctx.warn
      ∧ u.core.ctx.gathers = s.core.ctx.gathers.filter (fun g => g.dst != some n)
      ∧ u.core.ctx.ld = (if ∃ g ∈ s.core.ctx.gathers, g.dst = some n then s.core.ctx.ld - 1 else s.core.ctx.ld)
      ∧ (∀ j ∈ (u.tileOf (coreTile s.core.id)).jobs, ¬ (j.stream = some (s.core.id, n) ∧ j.smark = s.core.ctx.mark)))

/-- SBIND of the three kinds (R64, R134, R350, R351, R352): the stream is unbound, the descriptor is read and the stream bound anew, and element
i of a pattern lies where its counts and strides put it. A degenerate descriptor binds a stream that is at its end, with
WARN.PATTERN; an XID with no job binds an ended stream with WARN.COMBO. The descriptor is read as by loads, after the task's own writes
and earlier reads of its bytes (R148, R149). (That must-be-zero bits of a descriptor are not looked at is log entry 77.) -/
def Sys2Proof.Part.StreamBinding : Prop :=
  (∀ out esz pg d a b desc base, ∀ s s1 s2 : State, Takes [a, b] [] (ignoring pg s) [desc, base] s1 →
    unbind d (noted (if esz != 0 then wCombo else 0) s1) = .ok ((), s2) → desc.toNat % 8 = 0 → ownPending s2 desc.toNat 8 = false →
    (let u := readsDone s2 desc.toNat 8
     let nd := if descDims u desc ≤ 10 then descDims u desc else 0
     let v := readsDone u desc.toNat (8 + 16 * nd)
     let bound (w : Warn) (t : Stream) : Prop :=
       exec (.sbind .pattern out esz pg d a b) s = .next (retired 8 (rebound d t (noted w v)))
     NearOpen u desc 8 → ownPending u desc.toNat (8 + 16 * nd) = false →
     (∀ k < nd, NearOpen v (desc + BitVec.ofNat 64 (8 + 16 * k)) 16) →
     (nd ≠ 0 → 0 ∉ descCounts v desc nd →
       bound 0 { bound := true, out := out, kind := .pattern, esz := descSize u desc, base := base, counts := descCounts v desc nd
                 strides := descStrides v desc nd, total := (descCounts v desc nd).foldl (· * ·) 1 })
     ∧ (nd = 0 ∨ 0 ∈ descCounts v desc nd →
       bound wPattern { bound := true, out := out, kind := .pattern, esz := descSize u desc, base := base })))
  ∧ (∀ out esz pg d a b x, ∀ s s1 s2 : State, Takes [a] [] (ignoring pg s) [x] s1 →
    (unbind d (noted (if out || decide (8 ≤ x.toNat) then wCombo else 0) s1) = .ok ((), s2) →
      exec (.sbind .queue out esz pg d a b) s
        = .next (retired 8 (rebound d { bound := true, kind := .queue, esz := 2 ^ esz.val, arg := x.toNat % 8 } s2)))
    ∧ (unbind d (noted (if out then wCombo else 0) s1) = .ok ((), s2) →
      (let tl := s2.tileOf (coreTile s2.core.id)
       let xid := x.toNat % 2 ^ 32
       let ex : Stream := { bound := true, kind := .expander, esz := 2 ^ esz.val, arg := xid }
       (tl.jobs.find? (feeds s2 xid) = none → exec (.sbind .expander out esz pg d a b) s
         = .next (retired 8 (rebound d { ex with closed := true } (noted wCombo s2))))
       ∧ (∀ j, tl.jobs.find? (feeds s2 xid) = some j → exec (.sbind .expander out esz pg d a b) s
         = .next (retired 8 (rebound d ex (s2.updTile tl.id fun tl =>
             { tl with jobs := tl.jobs.map fun k => if k.seq = j.seq then { k with stream := some (s2.core.id, d), smark := s2.core.ctx.mark } else k })))))))
  ∧ (∀ (t : Stream) (i : Nat), t.counts.length = t.strides.length → 0 ∉ t.counts →
    t.addrOf i = t.base + BitVec.ofInt 64 ((List.range t.counts.length).map fun j =>
      ((i / (t.counts.take j).foldl (· * ·) 1 % nth t.counts j 1 : Nat) : Int) * nth t.strides j 0).sum)

/-- SSTAT (R356): an unbound stream reads 0, a bound one its direction, kind, element size, end, count and what can be taken or
pushed now. (KIND of a stream of RGATH is log entry 42.) -/
def Sys2Proof.Part.StreamStatus : Prop :=
  ∀ pg d n, ∀ s : State, checkDirs [] [d] [] (ignoring pg s) = .ok ((), ignoring pg s) →
    dstEnd false d (ignoring pg s) = .ok ((), ignoring pg s) →
    let t := s.core.ctx.streams[n]
    let done (w : Word) : Prop := ∀ s2, writeOpd d w (ignoring pg s) = .ok ((), s2) → exec (.sstat pg d n) s = .next (retired 8 s2)
    let kind : BitVec 2 := match t.kind with | .pattern => 0 | .queue => 1 | .expander => 2 | .gather => 3
    let ended : Bool := if t.out then decide (t.total ≤ t.done) else match t.kind with
      | .pattern => decide (t.total ≤ t.moved) | .gather => t.closed || decide (t.total ≤ t.moved)
      | .expander => t.closed | .queue => false
    (t.bound = false → done 0)
    ∧ (t.bound = true → ∀ k < 4, 2 ^ k ≤ t.esz → t.esz < 2 ^ (k + 1) → t.buf.length ≤ 256 → (∀ q : Fin 8, (s.core.arrq[q]).length ≤ 64) →
      ∃ w : Word, done w ∧ w.getLsbD 63 = true ∧ w.getLsbD 62 = t.out ∧ w.extractLsb' 60 2 = kind
        ∧ w.extractLsb' 58 2 = BitVec.ofNat 2 k ∧ w.getLsbD 57 = ended ∧ w.extractLsb' 48 9 = 0
        ∧ w.extractLsb' 16 32 = BitVec.ofNat 32 t.done
        ∧ (w.extractLsb' 0 16).toNat = if t.out then min ((256 - t.buf.length * t.esz) / t.esz) (t.total - t.done)
            else t.buf.length + (if t.kind = .queue then (s.core.arrq[Fin.ofNat 8 t.arg]).length else 0))

/-- RGATH (R348, R349): an accepted gather is counted in LD and goes on behind issue, from the index list read now; a count of 0
ends it at once; a size the entry does not allow does nothing but WARN.COMBO. The list comes before the buffer (R203). List and elements
are plain loads: the task's own earlier writes and reads of their bytes come first (R148, R149). -/
def Obligations.IndexedGathers : Prop :=
  ∀ pg d a b c list base x, ∀ s s1 w s2 : State, Takes [a, b, c] [] (ignoring pg s) [list, base, x] s1 →
    let count := x.toNat % 2 ^ 32
    let size := x.toNat / 2 ^ 32 % 2 ^ 13
    let bad (most : Nat) : Prop := size = 0 ∨ most < size ∨ 2 ^ 45 ≤ x.toNat
    let u := readsDone s1 list.toNat (4 * count)
    let idx := (List.range count).map fun i => leNat (((u.nearRead list.toNat (4 * count)).drop (4 * i)).take 4)
    let going (dst : Option (Fin 8)) (buf : Word) (t : State) : State := t.mapCtx fun k => { k with
      ld := k.ld + 1
      gathers := k.gathers ++ [{ idx := idx, base := base, size := size, count := count, dst := dst, buf := buf }] }
    (∀ n : Fin 8, d = .str n → bad 8 → exec (.rgath pg d a b c) s = .next (retired 8 (noted wCombo s1)))
    ∧ (∀ n : Fin 32, d = .reg n → bad 4096 → exec (.rgath pg d a b c) s = .next (retired 8 (noted wCombo s1)))
    ∧ (list.toNat % 4 = 0 → ownPending s1 list.toNat (4 * count) = false → (count ≠ 0 → NearOpen u list (4 * count)) →
      elementsReady base size idx u w →
      (∀ n : Fin 8, d = .str n → ¬ bad 8 → unbind n w = .ok ((), s2) → s2.core.ctx.ld ≠ 63 →
        (let t : Stream := { bound := true, kind := .gather, esz := size, base := base, total := count, arg := list.toNat }
         (count = 0 → exec (.rgath pg d a b c) s = .next (retired 8 (rebound n { t with closed := true } s2)))
         ∧ (count ≠ 0 → exec (.rgath pg d a b c) s = .next (retired 8 (going (some n) 0 (rebound n t s2))))))
      ∧ (∀ n : Fin 32, d = .reg n → ¬ bad 4096 → w.core.ctx.ld ≠ 63 → ∀ buf, readX n s1 = .ok (buf, s1) → buf.toNat % min size 8 = 0 →
        (count = 0 → exec (.rgath pg d a b c) s = .next (retired 8 w))
        ∧ (count ≠ 0 → isNear buf.toNat = true → nearOk u buf.toNat = true →
          (let last := (buf + BitVec.ofNat 64 (size * count - 1)).toNat
           isNear last = true → nearOk u last = true →
            exec (.rgath pg d a b c) s = .next (retired 8 (going none buf w))))))

/-! Control registers (R76-R79, R301, R302). -/

namespace Sys2Proof.Say

/-- The SR word of a context (R77). -/
structure StatusWord (c : Ctx) (v : Word) : Prop where
  asid : v.extractLsb' 50 14 = c.mark.extractLsb' 50 14
  prio : v.extractLsb' 43 7 = c.prio
  zero : v.extractLsb' 35 8 = 0
  svc  : v.getLsbD 34 = c.svc
  wd   : v.getLsbD 33 = c.wd
  pfx  : v.getLsbD 32 = c.pfx
  pfxv : v.setWidth 32 = c.pfxv
/-- What control register n of the core in focus reads (R76). -/
def control (s : State) (n : Fin 26) (v : Word) : Prop :=
  let c := s.core.ctx
  match n.val with
  | 0 => StatusWord c v
  | 1 => v = c.warn.setWidth 64
  | 2 => v = c.fpf.setWidth 64
  | 3 => v = c.xid.setWidth 64
  | 4 => v = c.mark
  | 5 => v = c.coord
  | 6 => v = s.core.id.setWidth 64
  | 7 => v = c.vwV
  | 8 => v = c.vwM
  | 9 => v = c.vwA
  | 10 => v = c.vwP
  | 11 => v = c.mxprog ||| (if c.wd then 0x10000 else 0)
  | 12 => v = c.mxfaddr
  | 13 => v = c.wdblk
  | 14 => v = c.fault
  | 15 => v = c.faddr
  | 16 => ∀ t : Fin 64, v.getLsbD t.val = s.core.tags[t].en
  | 17 => ∀ t : Fin 64, v.getLsbD t.val = (s.core.tags[t].signal || s.core.waits t.val)
  | 18 => v = c.prio.setWidth 64
  | 19 => v = c.phaseid.setWidth 64
  | 20 => v = s.time
  | 21 => v = s.core.bkpt[0]
  | 22 => v = s.core.bkpt[1]
  | 23 => v = s.core.bkpt[2]
  | 24 => v = s.core.bkpt[3]
  | _ => v = c.lutsel.setWidth 64
/-- Slots, size and alignment of a view (R60). -/
def viewShape (n : Nat) : Nat × Nat × Nat :=
  if n = 7 then (32, 64, 64) else if n = 8 then (8, 1056, 32) else if n = 9 then (4, 4096, 64) else (8, 8, 8)
/-- The clamp of R61. -/
def viewed (n : Nat) (v : Word) : Word :=
  let (cnt, sz, al) := viewShape n
  let base := v.toNat % 2 ^ 15 - v.toNat % al
  let stride := max (v.toNat / 2 ^ 16 % 2 ^ 15 / al * al) sz
  let base := max base 0x100
  if base + (cnt - 1) * stride + sz ≤ 0x8000 then BitVec.ofNat 64 (stride * 2 ^ 16 + base)
  else BitVec.ofNat 64 (sz * 2 ^ 16 + min base (0x8000 - cnt * sz))
/-- The bytes a view reaches. -/
def viewBytesOf (n : Nat) (w : Word) : Nat × Nat :=
  (w.toNat % 2 ^ 15, ((viewShape n).1 - 1) * (w.toNat / 2 ^ 16 % 2 ^ 15) + (viewShape n).2.1)
/-- A CRW outside service mode: what it stores, the WARN bit it sets; none where the write is ignored (R76). -/
def crwStores (debug : Bool) (n : Nat) (v : Word) : Option Word × Warn :=
  if n = 1 then (some (v &&& 0xFF), 0) else if n = 2 then (some (v &&& 0x1F), 0) else if n = 3 then (some (v &&& 0xFFFFFFFF), 0)
  else if 7 ≤ n ∧ n ≤ 10 then (some (viewed n v), if viewed n v = v then 0 else wView)
  else if n = 18 then (some (if 119 < v.toNat then 119 else v), if 119 < v.toNat then wCombo else 0)
  else if 21 ≤ n ∧ n ≤ 24 then (if debug then (some v, 0) else (none, wCombo))
  else if n = 25 then (some v, 0)
  else (none, 0)
/-- Must-be-zero bits of a value (R60, R89, R237, R301). -/
def crwBad (debug : Bool) (n : Nat) (v : Word) : Prop :=
  (7 ≤ n ∧ n ≤ 10 ∧ (2 ^ 31 ≤ v.toNat ∨ v.getLsbD 15 = true)) ∨ (n = 25 ∧ 2 ≤ v.toNat)
    ∨ (debug = true ∧ n = 21 ∧ 2 ^ 49 ≤ v.toNat) ∨ (debug = true ∧ n = 23 ∧ 2 ^ 48 ≤ v.toNat)
def debugOf (s : State) : Bool := match s.dev with | some d => d.policy.debug | none => false
/-- The word of control register n in the image under service (R208, R210). -/
def imageReg (s : State) (k : Fin 64) (n : Nat) : Word := BitVec.ofNat 64 (slotAddr (coreTile s.core.id) k.val + 0x8000 + 8 * n)

end Sys2Proof.Say

/-- CRR outside service mode reads every register as it stands, after the pending prefix is gone (R76, R301, R302). CRW stores what the
register takes, sets its WARN bit, and changes no other register, no memory and no x register; a write that is ignored changes
nothing, and must-be-zero bits raise RESERVED_BITS. -/
def Sys2Proof.Part.ControlRegisters : Prop :=
  (∀ d n, ∀ s : State, s.core.ctx.svc = false → checkDirs [] [d] [] (begun s) = .ok ((), begun s) → dstEnd false d (begun s) = .ok ((), begun s) →
    ∃ v, control (begun s) n v ∧ ∀ s2, writeOpd d v (begun s) = .ok ((), s2) → exec (.crr d n) s = .next (retired 8 s2))
  ∧ (∀ n a v, ∀ s s1 : State, s.core.ctx.svc = false → Takes [a] [] (begun s) [v] s1 →
    (crwBad (debugOf s1) n.val v → exec (.crw n a) s = .next (takeTrap { cause := .reservedBits, faddr := s1.core.ctx.pc } s))
    ∧ (¬ crwBad (debugOf s1) n.val v →
      ((crwStores (debugOf s1) n.val v).1 = none →
        exec (.crw n a) s = .next (retired 8 (noted (crwStores (debugOf s1) n.val v).2 s1)))
      ∧ (∀ w, (crwStores (debugOf s1) n.val v).1 = some w →
        (7 ≤ n.val ∧ n.val ≤ 10 → ∀ old, control s1 n old → ∀ r ∈ [old, w],
          s1.core.ctx.pendingWrite (viewBytesOf n.val r).1 (viewBytesOf n.val r).2 = false) →
        (let s1' := noted (crwStores (debugOf s1) n.val v).2 s1
         ∃ u, exec (.crw n a) s = .next (retired 8 u) ∧ control u n w
          ∧ (∀ (k : Fin 26) r, k ≠ n → ¬ (n.val = 18 ∧ k.val = 0) → control s1' k r → control u k r)
          ∧ u.core.ctx.x = s1.core.ctx.x ∧ u.core.ctx.urs = s1.core.ctx.urs ∧ u.core.ctx.pc = s1.core.ctx.pc
          ∧ u.core.ctx.streams = s1.core.ctx.streams ∧ u.near = s1.near ∧ u.quarry = s1.quarry ∧ u.devs = s1.devs))))

/-- R77: SR reads the ASID of MARK, the PRIO register, zero bits, SVC, WD, PFX and PFXV, whatever they are; outside service mode a CRW
of it changes nothing (R76). -/
def Obligations.StatusRegister : Prop :=
  (∀ s : State, StatusWord s.core.ctx s.core.ctx.sr)
  ∧ (∀ d, ∀ s : State, s.core.ctx.svc = false → checkDirs [] [d] [] (begun s) = .ok ((), begun s) → dstEnd false d (begun s) = .ok ((), begun s) →
    ∃ v, StatusWord { s.core.ctx with pfx := false } v
      ∧ ∀ s2, writeOpd d v (begun s) = .ok ((), s2) → exec (.crr d 0) s = .next (retired 8 s2))
  ∧ (∀ a v, ∀ s s1 : State, s.core.ctx.svc = false → Takes [a] [] (begun s) [v] s1 → exec (.crw 0 a) s = .next (retired 8 s1))

/-- CRR and CRW in service mode act on the image of the context under service (R76, R208): a read gives the image's word, registers 11
to 15 are written whole, PRIO without the clamp to 119, and SR takes PRIO and PFX only. A view register of a context held under the debugger
waits while that context's work runs on its old or its new range (R63, R238). The WARN bit of a clamp is the service task's own.
(That the image's words of PRIO and SR agree is log entry 35.) -/
def Sys2Proof.Part.ServiceControlRegisters : Prop :=
  (∀ d n k, ∀ s s2 : State, s.core.ctx.svc = true → s.core.ctx.under = some k → windowSlots (s.tileOf (coreTile s.core.id)) = [] →
    s.poison = [] → checkDirs [] [d] [] (begun s) = .ok ((), begun s) → dstEnd false d (begun s) = .ok ((), begun s) →
    writeOpd d (bytesWord (s.nearRead (imageReg s k n.val).toNat 8)) (begun s) = .ok ((), s2) → exec (.crr d n) s = .next (retired 8 s2))
  ∧ (∀ a v k, ∀ s s1 : State, Takes [a] [] (begun s) [v] s1 → s1.core.ctx.svc = true → s1.core.ctx.under = some k →
    windowSlots (s1.tileOf (coreTile s1.core.id)) = [] → s1.poison = [] →
    (∀ n : Fin 26, 11 ≤ n.val → n.val ≤ 15 → exec (.crw n a) s = .next (retired 8 (stored (imageReg s1 k n.val) (wordBytes v) s1)))
    ∧ (∀ n : Fin 26, n.val ≠ 0 → n.val < 11 ∨ 15 < n.val → n.val ≠ 18 → ¬ crwBad (debugOf s1) n.val v →
      (let q := crwStores (debugOf s1) n.val v
       (q.1 = none → exec (.crw n a) s = .next (retired 8 (noted q.2 s1)))
       ∧ (∀ w, q.1 = some w → exec (.crw n a) s = .next (retired 8 (stored (imageReg s1 k n.val) (wordBytes w) (noted q.2 s1))))))
    ∧ (let old := bytesWord (s1.nearRead (imageReg s1 k 0).toNat 8)
       let p : BitVec 7 := if 127 < v.toNat then 127 else v.setWidth 7
       ∃ w : Word, w.extractLsb' 43 7 = p ∧ (∀ i < 64, i < 43 ∨ 50 ≤ i → w.getLsbD i = old.getLsbD i)
         ∧ exec (.crw 18 a) s = .next (retired 8 (stored (imageReg s1 k 0) (wordBytes w)
            (stored (imageReg s1 k 18) (wordBytes (p.setWidth 64)) (noted (if 127 < v.toNat then wCombo else 0) s1)))))
    ∧ (let old := bytesWord (s1.nearRead (imageReg s1 k 0).toNat 8)
       ∃ w : Word, w.extractLsb' 43 7 = v.extractLsb' 43 7 ∧ w.getLsbD 32 = v.getLsbD 32
         ∧ (∀ i < 64, i ≠ 32 → i < 43 ∨ 50 ≤ i → w.getLsbD i = old.getLsbD i)
         ∧ exec (.crw 0 a) s = .next (retired 8 (stored (imageReg s1 k 18) (wordBytes ((v.extractLsb' 43 7).setWidth 64))
            (stored (imageReg s1 k 0) (wordBytes w) s1)))))
  ∧ (∀ a v k c w, ∀ s s1 : State, ∀ n : Fin 26, Takes [a] [] (begun s) [v] s1 → s1.core.ctx.svc = true → s1.core.ctx.under = some k →
    (s1.tileOf (coreTile s1.core.id)).slots[k] = .window c → (s1.coreOf c).id ≠ s1.core.id → 7 ≤ n.val → n.val ≤ 10 →
    ¬ crwBad (debugOf s1) n.val v → (crwStores (debugOf s1) n.val v).1 = some w →
    (let x := (s1.coreOf c).ctx
     let old := match n.val with | 7 => x.vwV | 8 => x.vwM | 9 => x.vwA | _ => x.vwP
     (∃ r ∈ [old, w], x.pendingWrite (viewBytesOf n.val r).1 (viewBytesOf n.val r).2 = true) →
      exec (.crw n a) s = .next (s.stalled .interlock)))

/-! Vectors. -/

namespace Sys2Proof.Say

/-- Lane i of 64 bytes at the width of a type (R62). -/
def lane (t : ElemTy) (bs : List Byte) (i : Nat) : Nat := leNat ((bs.drop (elemSize t * i)).take (elemSize t))
/-- Vector sources taken whole, in order, and the predicate (R257, R366); an output pattern in D has room for the vector (R66). -/
structure VecTakes (srcs dsts : List Opd) (pg : Fin 8) (s : State) (p : Word) (vs : List (List Byte)) (s1 : State) : Prop where
  dirs : checkDirs srcs dsts (srcs.map fun _ => true) s = .ok ((), s)
  room : ∀ d ∈ dsts, dstEnd true d s = .ok ((), s)
  pred : readP pg s = .ok (p, s)
  vals : mapM' readVec srcs s = .ok (vs, s1)
/-- Whether an override is accepted, and the type the operand then has (R367). -/
def takes (et : ElemTy) (k : Nat) : Bool :=
  match elemOfCode k with
  | some t => elemIsScal t && decide (elemSize t ≤ elemSize et)
  | none => false
def usedType (et : ElemTy) (code : Option Nat) : ElemTy :=
  match code with
  | some k => if takes et k then (elemOfCode k).getD et else et
  | none => et
/-- WARN.FMTTGT: an override of an operand the function has not, or one that is not accepted. -/
def overrides (et : ElemTy) (n : Nat) (dst : Bool) (c : Ctx) : Warn :=
  let refused (has : Bool) (code : Option Nat) : Bool := match code with | some k => !has || !takes et k | none => false
  if refused true c.pfxA || refused (decide (2 ≤ n)) c.pfxB || refused (decide (3 ≤ n)) c.pfxC || refused dst c.pfxD then wFmttgt else 0
/-- Lane i of every source converted to ET under the prefix (R367), and the flags of the conversions. -/
def laneIns (et : ElemTy) (c : Ctx) (vs : List (List Byte)) (i : Nat) : List Nat × Flags :=
  let qs := (vs.zip [c.pfxA, c.pfxB, c.pfxC]).map fun p => laneCvt et (usedType et p.2) (lane (usedType et p.2) p.1 i)
  (qs.map (·.1), qs.foldl (fun f q => f ||| q.2) 0)
/-- The result of lane i, converted to the destination's type, with all its flags. -/
def laneOut (et : ElemTy) (c : Ctx) (f : List Nat → Nat × Flags) (ins : List Nat × Flags) : Nat × Flags :=
  let r := f ins.1
  let q := laneCvt (usedType et c.pfxD) et r.1
  (q.1, ins.2 ||| r.2 ||| q.2)
/-- The flags of the active lanes. -/
def flagsOf (p : Word) (l : Nat) (r : Nat → Nat × Flags) : Flags :=
  (List.range l).foldl (fun f i => if p.getLsbD i then f ||| (r i).2 else f) 0
/-- The lanes r, as the predicate selects them, put into D. -/
def PutsLanes (t : ElemTy) (d : Opd) (p : Word) (l : Nat) (r : Nat → Nat × Flags) (s s1 : State) : Prop :=
  writeLanes d (elemSize t) ((List.range l).map p.getLsbD) ((List.range l).map fun i => (r i).1) (flagged (flagsOf p l r) s) = .ok ((), s1)
/-- An elementwise instruction's end: lanes of `f` put into D under the prefix. -/
def Mould (et : ElemTy) (d : Opd) (n : Nat) (p : Word) (vs : List (List Byte)) (f : List Nat → Nat × Flags) (s1 s2 : State) : Prop :=
  let c := s1.core.ctx
  PutsLanes (usedType et c.pfxD) d p (64 / elemSize et) (fun i => laneOut et c f (laneIns et c vs i)) (noted (overrides et n true c) s1) s2

/-! The lane functions of R366 in bit vectors of the lane's width. -/

abbrev lw (et : ElemTy) : Nat := 8 * elemSize et
abbrev lv (et : ElemTy) (a : Nat) : BitVec (lw et) := BitVec.ofNat (lw et) a
def fv (et : ElemTy) (a : Nat) : FV := unpack (elemFmt et) a
/-- An integer operation modulo 2^w, or a floating-point one. -/
def eitherOf (et : ElemTy) (i : BitVec (lw et)) (fp : Nat × Flags) : Nat × Flags := if elemIsInt et then (i.toNat, 0) else fp
def laneLess (et : ElemTy) (a b : Nat) : Bool := if elemSigned et then (lv et a).slt (lv et b) else (lv et a).ult (lv et b)
/-- The sign bit of a floating-point lane set to `neg`; a NaN is canonical. -/
def signed (et : ElemTy) (neg : Bool) (a : Nat) : Nat × Flags :=
  if fvIsNan (fv et a) then (fmtNan (elemFmt et), snanFlag [fv et a])
  else (((lv et a &&& ~~~((1 : BitVec (lw et)) <<< (lw et - 1))) ||| (if neg then (1 : BitVec (lw et)) <<< (lw et - 1) else 0)).toNat, 0)

/-- Two-source functions, with the types they take and their lane result. -/
def vecTwo : List ((ElemTy → Fin 8 → Opd → Opd → Opd → Instr) × (ElemTy → Bool) × (ElemTy → Nat → Nat → Nat × Flags)) :=
  [(.vadd, elemIsScal, fun et a b => eitherOf et (lv et a + lv et b) (addFV (elemFmt et) (fv et a) (fv et b))),
   (.vsub, elemIsScal, fun et a b => eitherOf et (lv et a - lv et b) (subFV (elemFmt et) (fv et a) (fv et b))),
   (.vmul, elemIsScal, fun et a b => eitherOf et (lv et a * lv et b) (mulFV (elemFmt et) (fv et a) (fv et b))),
   (.vmin, elemIsScal, fun et a b => if elemIsInt et then (if laneLess et b a then b else a, 0) else minmaxFV (elemFmt et) false (fv et a) (fv et b)),
   (.vmax, elemIsScal, fun et a b => if elemIsInt et then (if laneLess et b a then a else b, 0) else minmaxFV (elemFmt et) true (fv et a) (fv et b)),
   (.vand, elemIsScal, fun _ a b => ((BitVec.ofNat 64 a &&& BitVec.ofNat 64 b).toNat, 0)),
   (.vor, elemIsScal, fun _ a b => ((BitVec.ofNat 64 a ||| BitVec.ofNat 64 b).toNat, 0)),
   (.vxor, elemIsScal, fun _ a b => ((BitVec.ofNat 64 a ^^^ BitVec.ofNat 64 b).toNat, 0)),
   (.vshl, elemIsInt, fun et a b => ((lv et a <<< (b % 64)).toNat, 0)),
   (.vshr, elemIsInt, fun et a b => ((if elemSigned et then (lv et a).sshiftRight (b % 64) else lv et a >>> (b % 64)).toNat, 0)),
   (.vsadd, elemIsInt, fun et a b => (wrapTo (lw et) (max (intMin et) (min (intMax et) (intOf et a + intOf et b))), 0))]
def vecOne : List ((ElemTy → Fin 8 → Opd → Opd → Instr) × (ElemTy → Bool) × (ElemTy → Nat → Nat × Flags)) :=
  [(.vabs, elemIsScal, fun et a => if elemIsInt et then ((if elemSigned et && (lv et a).msb then -lv et a else lv et a).toNat, 0)
      else signed et false a),
   (.vneg, elemIsScal, fun et a => if elemIsInt et then ((-lv et a).toNat, 0) else signed et (!(lv et a).msb) a),
   (.vmov, elemIsScal, fun _ a => (a, 0)),
   (.vrcp, fun et => et == .fp32, fun _ a => vrcpLane a),
   (.vexp2, fun et => et == .fp32, fun _ a => vexp2Lane a)]
def vecThree : List ((ElemTy → Fin 8 → Opd → Opd → Opd → Opd → Instr) × (ElemTy → Nat → Nat → Nat → Nat × Flags)) :=
  [(.vfma, fun et a b c => eitherOf et (lv et a * lv et b + lv et c) (fmaFV (elemFmt et) (fv et a) (fv et b) (fv et c))),
   (.vsel, fun _ a b c => (if c ≠ 0 then a else b, 0))]

end Sys2Proof.Say

/-- The elementwise vector instructions (R257, R366, R367): each active lane of D receives the function of the same lanes of the
sources, converted as the prefix says; an element type the function does not take does nothing but WARN.COMBO, and WARN.FMTTGT for an
override that is not accepted (R74). (That an override of an operand the function does not have counts as one is log entry 24; that one
of the operand's own type leaves its bytes as they are is log entry 86.) -/
def Sys2Proof.Part.VectorLanes : Prop :=
  (∀ q ∈ vecTwo, ∀ et pg d a b p va vb, ∀ s s1 s2 : State,
    (q.2.1 et = true → VecTakes [a, b] [d] pg s p [va, vb] s1 →
      Mould et d 2 p [va, vb] (fun xs => q.2.2 et (nth xs 0 0) (nth xs 1 0)) s1 s2 → exec (q.1 et pg d a b) s = .next (retired 8 (consumed s2)))
    ∧ (q.2.1 et = false → exec (q.1 et pg d a b) s = .next (retired 8 (consumed (noted wCombo (noted (overrides et 2 true s.core.ctx) s))))))
  ∧ (∀ q ∈ vecOne, ∀ et pg d a p va, ∀ s s1 s2 : State,
    (q.2.1 et = true → VecTakes [a] [d] pg s p [va] s1 →
      Mould et d 1 p [va] (fun xs => q.2.2 et (nth xs 0 0)) s1 s2 → exec (q.1 et pg d a) s = .next (retired 8 (consumed s2)))
    ∧ (q.2.1 et = false → exec (q.1 et pg d a) s = .next (retired 8 (consumed (noted wCombo (noted (overrides et 1 true s.core.ctx) s))))))
  ∧ (∀ q ∈ vecThree, ∀ et pg d a b c p va vb vc, ∀ s s1 s2 : State,
    (elemIsScal et = true → VecTakes [a, b, c] [d] pg s p [va, vb, vc] s1 →
      Mould et d 3 p [va, vb, vc] (fun xs => q.2 et (nth xs 0 0) (nth xs 1 0) (nth xs 2 0)) s1 s2 →
        exec (q.1 et pg d a b c) s = .next (retired 8 (consumed s2)))
    ∧ (elemIsScal et = false → exec (q.1 et pg d a b c) s = .next (retired 8 (consumed (noted wCombo (noted (overrides et 3 true s.core.ctx) s))))))
  ∧ (∀ et pg d a p x, ∀ s s1 s2 : State,
    (elemIsScal et = true → checkDirs [a] [d] [] s = .ok ((), s) → dstEnd true d s = .ok ((), s) → readP pg s = .ok (p, s) → readOpd a s = .ok (x, s1) →
      (let w := elemSize (usedType et s1.core.ctx.pfxA)
       Mould et d 1 p [((List.range (64 / w)).map fun _ => leBytes w x.toNat).flatten] (fun xs => (nth xs 0 0, 0)) s1 s2 →
        exec (.vbcast et pg d a) s = .next (retired 8 (consumed s2))))
    ∧ (elemIsScal et = false → exec (.vbcast et pg d a) s = .next (retired 8 (consumed (noted wCombo (noted (overrides et 1 true s.core.ctx) s))))))

/-- How lanes reach D (R62, R65, R257, R366, R367): in a register an active lane takes its value, an inactive one keeps its bytes, and
bytes past the lanes become zero; a stream is pushed zero bytes in inactive lanes. -/
def Sys2Proof.Part.LaneDestinations : Prop :=
  ∀ (sz l : Nat) (p : Word) (r : Nat → Nat) (s : State), sz ∈ [1, 2, 4, 8] → 1 ≤ l → l * sz ≤ 64 → (∀ i < l, r i < 2 ^ (8 * sz)) →
    let act := (List.range l).map p.getLsbD
    let vs := (List.range l).map r
    let at_ (bs : List Byte) (i : Nat) : Nat := leNat ((bs.drop (sz * i)).take sz)
    (∀ n : Fin 32, s.core.ctx.pendingWrite (s.core.ctx.vOff n.val) 64 = false →
      ∃ bs, writeLanes (.reg n) sz act vs s = .ok ((), s.mapCtx fun c => c.ursWrite (c.vOff n.val) bs) ∧ bs.length = 64
        ∧ (∀ i < l, at_ bs i = if p.getLsbD i then r i else at_ (s.core.ctx.ursRead (s.core.ctx.vOff n.val) 64) i)
        ∧ (∀ k < 64, l * sz ≤ k → bs[k]? = some 0))
    ∧ (∀ n : Fin 8, ∃ bs, writeLanes (.str n) sz act vs s = writeVec (.str n) bs s ∧ bs.length = 64
        ∧ (∀ i < l, at_ bs i = if p.getLsbD i then r i else 0) ∧ (∀ k < 64, l * sz ≤ k → bs[k]? = some 0))

namespace Sys2Proof.Say

/-- The relation of VCMP on two lanes, with its flags (R368). -/
def related (c : VCond) (et : ElemTy) (a b : Nat) : Bool × Flags :=
  let ordered (o : Int) : Bool := match c with
    | .eq => decide (o = 0) | .ne => decide (o ≠ 0) | .lt => decide (o < 0) | .le => decide (o ≤ 0) | .gt => decide (0 < o)
    | .ge => decide (0 ≤ o) | .unord => false | .ord => true
  if elemIsInt et then (ordered (intOf et a - intOf et b), 0)
  else if fvIsNan (fv et a) || fvIsNan (fv et b) then
    (c == .ne || c == .unord, if c == .eq || c == .ne || c == .unord || c == .ord then snanFlag [fv et a, fv et b] else flInvalid)
  else (ordered (cmpFV (fv et a) (fv et b)), 0)
def comparable (c : VCond) (et : ElemTy) : Bool := elemIsScal et && !(elemIsInt et && (c == .unord || c == .ord))
/-- The combinations of R372 and the identities of R94. -/
def combine (op : RedOp) (et : ElemTy) (a b : Nat) : Nat × Flags :=
  match op with
  | .sum => eitherOf et (lv et a + lv et b) (addFV (elemFmt et) (fv et a) (fv et b))
  | .min => if elemIsInt et then (if laneLess et b a then b else a, 0) else minmaxFV (elemFmt et) false (fv et a) (fv et b)
  | .max => if elemIsInt et then (if laneLess et b a then a else b, 0) else minmaxFV (elemFmt et) true (fv et a) (fv et b)
  | .and => ((BitVec.ofNat 64 a &&& BitVec.ofNat 64 b).toNat, 0)
  | .or => ((BitVec.ofNat 64 a ||| BitVec.ofNat 64 b).toNat, 0)
  | .xor => ((BitVec.ofNat 64 a ^^^ BitVec.ofNat 64 b).toNat, 0)
def identityOf (op : RedOp) (et : ElemTy) : Nat :=
  let least : BitVec (lw et) := if elemSigned et then 1 <<< (lw et - 1) else 0
  match op with
  | .sum => if elemIsInt et then 0 else 2 ^ (lw et - 1)
  | .min => if elemIsInt et then (~~~least).toNat else fmtNan (elemFmt et)
  | .max => if elemIsInt et then least.toNat else fmtNan (elemFmt et)
  | .and => 2 ^ lw et - 1
  | .or | .xor => 0
def combines (op : RedOp) (et : ElemTy) : Bool :=
  elemIsScal et && (elemIsInt et || op == .sum || op == .min || op == .max)
/-- The pairwise tree of R94: the value of node i at a level, and the flags below it. -/
def treeAt (f : Nat → Nat → Nat × Flags) (x : Nat → Nat) : Nat → Nat → Nat × Flags
  | 0, i => (x i, 0)
  | n + 1, i =>
    let l := treeAt f x n (2 * i)
    let r := treeAt f x n (2 * i + 1)
    let q := f l.1 r.1
    (q.1, l.2 ||| r.2 ||| q.2)
/-- The running value of R95 at element i, and the flags so far. -/
def scanAt (f : Nat → Nat → Nat × Flags) (e : Nat) (x : Nat → Nat) : Nat → Nat × Flags
  | 0 => f e (x 0)
  | i + 1 =>
    let q := scanAt f e x i
    let r := f q.1 (x (i + 1))
    (r.1, q.2 ||| r.2)
/-- A state with the overrides of a function that accepts none noted (R367). -/
def plainTarget (s : State) : State := noted (vecNotes none s.core.ctx) s

end Sys2Proof.Say

/-- VCMP (R368): into a vector, all ones where the relation holds; into a predicate, one bit a lane, inactive lanes keeping their bit
and bits past the lanes becoming zero. (That an override of C, and of D with a predicate destination, sets WARN.FMTTGT is log entry 24.) -/
def Sys2Proof.Part.VectorCompare : Prop :=
  (∀ c et pg v a b p va vb, ∀ s s1 s2 : State, comparable c et = true → VecTakes [a, b] [v] pg s p [va, vb] s1 →
    Mould et v 2 p [va, vb] (fun xs => let r := related c et (nth xs 0 0) (nth xs 1 0); (if r.1 then 2 ^ lw et - 1 else 0, r.2)) s1 s2 →
      exec (.vcmp c et pg (.vec v) a b) s = .next (retired 8 (consumed s2)))
  ∧ (∀ c et pg q a b p va vb old, ∀ s s1 : State, comparable c et = true → VecTakes [a, b] [] pg s p [va, vb] s1 →
    readP q s1 = .ok (old, s1) →
    (let k := s1.core.ctx
     let l := 64 / elemSize et
     let r (i : Nat) : Bool × Flags := let x := laneIns et k [va, vb] i; let t := related c et (nth x.1 0 0) (nth x.1 1 0); (t.1, x.2 ||| t.2)
     ∃ w : Word, (∀ i < 64, w.getLsbD i = (decide (i < l) && if p.getLsbD i then (r i).1 else old.getLsbD i))
       ∧ ∀ s2, writeP q w (flagged (flagsOf p l fun i => (0, (r i).2)) (noted (overrides et 2 false k) s1)) = .ok ((), s2) →
         exec (.vcmp c et pg (.pred q) a b) s = .next (retired 8 (consumed s2))))
  ∧ (∀ c et pg a b, ∀ s : State, comparable c et = false →
    (∀ v, exec (.vcmp c et pg (.vec v) a b) s = .next (retired 8 (consumed (noted wCombo (noted (overrides et 2 true s.core.ctx) s)))))
    ∧ ∀ q, exec (.vcmp c et pg (.pred q) a b) s = .next (retired 8 (consumed (noted wCombo (noted (overrides et 2 false s.core.ctx) s)))))

/-- VRED and VSCAN (R94, R95, R372): the pairwise tree and the running combination of the lanes, an inactive lane standing for the
operator's identity; VRED writes the whole of D. -/
def Sys2Proof.Part.VectorReductions : Prop :=
  (∀ op et pg d a p va, ∀ s s1 s2 : State, combines op et = true → VecTakes [a] [d] pg (plainTarget s) p [va] s1 →
    (let l := 64 / elemSize et
     let x (i : Nat) : Nat := if p.getLsbD i then lane et va i else identityOf op et
     let r := treeAt (combine op et) x (Nat.log2 l) 0
     (writeVec d (leBytes (elemSize et) r.1 ++ zeroBytes (64 - elemSize et)) (flagged r.2 s1) = .ok ((), s2) →
       exec (.vred op et pg d a) s = .next (retired 8 (consumed s2)))
     ∧ (writeLanes d (elemSize et) ((List.range l).map p.getLsbD) ((List.range l).map fun i => (scanAt (combine op et) (identityOf op et) x i).1)
          (flagged (scanAt (combine op et) (identityOf op et) x (l - 1)).2 s1) = .ok ((), s2) →
       exec (.vscan op et pg d a) s = .next (retired 8 (consumed s2)))))
  ∧ (∀ op et pg d a, ∀ s : State, combines op et = false →
    exec (.vred op et pg d a) s = .next (retired 8 (consumed (noted wCombo (plainTarget s))))
    ∧ exec (.vscan op et pg d a) s = .next (retired 8 (consumed (noted wCombo (plainTarget s)))))

/-- VPERM, VLUT and VSRP (R89, R370, R371, R373): lanes picked from A and C by the indices of B; table entries of the bank LUTSEL names,
converted from its kind; signed projections summed exactly and rounded once, a signalling NaN among their operands raising invalid (R83),
and their sign bits. -/
def Sys2Proof.Part.VectorSelection : Prop :=
  (∀ et pg d a b c p va vb vc, ∀ s s1 s2 : State, elemIsScal et = true → VecTakes [a, b, c] [d] pg (plainTarget s) p [va, vb, vc] s1 →
    (let l := 64 / elemSize et
     PutsLanes et d p l (fun i => let j := lane et vb i % (2 * l); (if j < l then lane et va j else lane et vc (j - l), 0)) s1 s2 →
       exec (.vperm et pg d a b c) s = .next (retired 8 (consumed s2))))
  ∧ (∀ et (part : Fin 4) pg d a p va, ∀ s s1 s2 : State, elemIsScal et = true → part.val * (64 / elemSize et) < 64 →
    VecTakes [a] [d] pg (plainTarget s) p [va] s1 →
    (let l := 64 / elemSize et
     let bank := if s1.core.ctx.lutsel = 0 then s1.core.bank0 else s1.core.bank1
     PutsLanes et d p l (fun i => laneCvt et bank.kind (leNat (memRead bank.bytes (2 * lane .n8 va (part.val * l + i)) 2))) s1 s2 →
       exec (.vlut et part pg d a) s = .next (retired 8 (consumed s2))))
  ∧ (∀ et pg d a b c p va vb vc, ∀ s s1 s2 : State, elemIsFp et = true → VecTakes [a, b, c] [d] pg (plainTarget s) p [va, vb, vc] s1 →
    (let r (h : Nat) : Nat × Flags := sumRound ((unpack fp32 (lane .n32 vc h), snanFlag [unpack fp32 (lane .n32 vc h)]) ::
       (((List.range (64 / elemSize et)).filter p.getLsbD).map fun i =>
         let v := fv et (lane et va i)
         (if (lane .n32 vb h).testBit i then negFV v else v, snanFlag [v])))
     writeVec d ((List.range 16).map fun h => leBytes 4 (r h).1).flatten (flagged ((List.range 16).foldl (fun f h => f ||| (r h).2) 0) s1) = .ok ((), s2) →
       exec (.vsrp (.proj b c) et pg d a) s = .next (retired 8 (consumed s2))))
  ∧ (∀ pg d a p va, ∀ s s1 s2 : State, VecTakes [a] [d] pg (plainTarget s) p [va] s1 →
    (let bit (h : Nat) : Bool := p.getLsbD h && !fvIsNan (unpack fp32 (lane .n32 va h)) && !(lane .n32 va h).testBit 31
     ∀ w : Word, (∀ i < 64, w.getLsbD i = (decide (i < 16) && bit i)) → writeVec d (wordBytes w ++ zeroBytes 56) s1 = .ok ((), s2) →
       exec (.vsrp .bucket .fp32 pg d a) s = .next (retired 8 (consumed s2))))
  ∧ (∀ et pg d a b c (part : Fin 4), ∀ s : State,
    let odd : Res := .next (retired 8 (consumed (noted wCombo (plainTarget s))))
    (elemIsScal et = false → exec (.vperm et pg d a b c) s = odd)
    ∧ (elemIsScal et = false ∨ 64 ≤ part.val * (64 / elemSize et) → exec (.vlut et part pg d a) s = odd)
    ∧ (elemIsFp et = false → exec (.vsrp (.proj b c) et pg d a) s = odd)
    ∧ (et ≠ .fp32 → exec (.vsrp .bucket et pg d a) s = odd))

namespace Sys2Proof.Say

/-- The two types of a VCVT under its prefix; ETD may not be LUT8 (R89, R369). -/
def cvtFrom (ts : ElemTy) (c : Ctx) : ElemTy := (c.pfxA.bind elemOfCode).getD ts
def cvtTo (td : ElemTy) (c : Ctx) : ElemTy := if c.pfxD = some 14 then td else (c.pfxD.bind elemOfCode).getD td
def cvtNotes (c : Ctx) : Warn := if c.pfxD == some 14 || c.pfxB.isSome || c.pfxC.isSome then wFmttgt else 0
/-- Scalar types of one or two bytes. -/
def small (t : ElemTy) : Bool := elemIsScal t && decide (elemSize t ≤ 2)

end Sys2Proof.Say

/-- VCVT (R369): scalar types lane by lane, a block record decoded into 32 lanes, 32 lanes quantised into a record; any other pairing
does nothing but WARN.COMBO and WARN.FMTTGT for an override that is not accepted, or of an operand VCVT does not have (log entry 24). -/
def Sys2Proof.Part.VectorConversions : Prop :=
  ∀ td0 ts0 pg d a, ∀ s : State,
    let c := s.core.ctx
    let ts := cvtFrom ts0 c
    let td := cvtTo td0 c
    let n := if td = .bfp ∨ ts = .bfp then c.pfxBw + 2 else 8
    let ends (s2 : State) : Prop := exec (.vcvt td0 ts0 pg d a) s = .next (retired 8 (consumed s2))
    (¬ (elemIsScal ts = true ∧ elemIsScal td = true) → ¬ (elemIsBlock ts = true ∧ small td = true) →
      ¬ (small ts = true ∧ elemIsBlock td = true) → ends (noted wCombo (noted (cvtNotes c) s)))
    ∧ (∀ p va s1, (let t := noted (cvtNotes c) s
        checkDirs [a] [d] [true] t = .ok ((), t) ∧ readP pg t = .ok (p, t) ∧ readVec a t = .ok (va, s1)
        ∧ (p.getLsbD 0 = true ∨ (elemIsScal ts = true ∧ elemIsScal td = true) → dstEnd true d t = .ok ((), t))) →
      (elemIsScal ts = true → elemIsScal td = true → ∀ s2,
        PutsLanes td d p (64 / max (elemSize ts) (elemSize td)) (fun i => cvtScal td ts (lane ts va i)) s1 s2 → ends s2)
      ∧ ((elemIsBlock ts = true ∧ small td = true) ∨ (small ts = true ∧ elemIsBlock td = true) → p.getLsbD 0 = false → ends s1)
      ∧ (elemIsBlock ts = true → small td = true → p.getLsbD 0 = true →
        (let code (i : Nat) : Nat := leNat (va.drop 1) / 2 ^ (n * i) % 2 ^ n
         let r (i : Nat) : Nat × Flags :=
           let v := if ts = .bfp then bfpDecode n (lane .n8 va 0) (code i) else mxDecode ts (lane .n8 va 0) (code i)
           if elemIsInt td then cvtToInt td v else packFV (elemFmt td) v
         ∀ s2, writeVec d (((List.range 32).map fun i => leBytes (elemSize td) (r i).1).flatten ++ zeroBytes (64 - 32 * elemSize td))
           (flagged ((List.range 32).foldl (fun f i => f ||| (r i).2) 0) s1) = .ok ((), s2) → ends s2))
      ∧ (small ts = true → elemIsBlock td = true → p.getLsbD 0 = true →
        (let vs := (List.range 32).map fun i => scalFV ts (lane ts va i)
         let q := if td = .bfp then bfpQuant n vs else mxQuant td vs
         let row := (List.range 32).foldl (fun k i => k + nth q.2.1 i 0 % 2 ^ n * 2 ^ (n * i)) 0
         ∀ s2, writeVec d (BitVec.ofNat 8 q.1 :: leBytes (4 * n) row ++ zeroBytes (63 - 4 * n)) (flagged q.2.2 s1) = .ok ((), s2) → ends s2)))

/-! Matrices, grammars, jobs and weight-driven mode: issue. -/

namespace Sys2Proof.Say

/-- A matrix operation whose work is done is counted until it completes, when its flags enter FPF, and MXPROG becomes 0 (R71, R205), unless a
held fault of the matrix unit has still to be taken, whose k-block it names (R335). -/
def matrixDone (fl : Flags) (s : State) : State := s.mapCtx fun c =>
  { c with mx := c.mx + 1, mxops := c.mxops ++ [.done fl], mxprog := if c.asyncs.any (·.unit == 1) then c.mxprog else 0 }
def typeA (t : ElemTy) : Bool := t == .bf16 || t == .fp16 || elemIsBlock t
def typeB (t : ElemTy) : Bool := t == .bf16 || elemIsBlock t
/-- An operand's type under the prefix, and whether an override was refused (R74, R92). -/
def pickOf (own : ElemTy) (code : Option Nat) (ok : ElemTy → Bool) : ElemTy :=
  match code.bind elemOfCode with
  | some t => if ok t then t else own
  | none => own
def pickBad (code : Option Nat) (ok : ElemTy → Bool) : Bool :=
  match code with
  | none => false
  | some k => match elemOfCode k with
    | some t => !ok t
    | none => true
/-- ORD and SCOPE of a format M instruction that gives them no meaning (R262). -/
def ordNote (nt : Bool) (m : MArgs) : Warn := if !(m.ord == .plain || (nt && m.ord == .nt)) || m.scope != .core then wCombo else 0
/-- The type of an MXLD and an MXST under the prefix (R337, R338). -/
def mxldOf (c : Ctx) : ElemTy := pickOf .bfp c.pfxA fun t => elemIsBlock t || t == .lut8
def mxstOf (c : Ctx) : ElemTy := pickOf .fp32 c.pfxD fun t => elemIsFp t || elemIsBlock t
/-- Row i of an accumulator. -/
def accRow (acc : List Byte) (i : Nat) : List FV := (List.range 32).map fun j => unpack fp32 (leNat ((acc.drop (128 * i + 4 * j)).take 4))
/-- The 32 rows converted to a type in the layout of R190, with the flags. -/
def imageOf (t : ElemTy) (bw : Nat) (acc : List Byte) : List Byte × Flags :=
  if elemIsBlock t then
    (((List.range 32).map fun i => (blockQuant t bw (accRow acc i)).2.1).flatten
      ++ (List.range 32).map (fun i => BitVec.ofNat 8 (blockQuant t bw (accRow acc i)).1),
     (List.range 32).foldl (fun f i => f ||| (blockQuant t bw (accRow acc i)).2.2) 0)
  else
    (((List.range 32).map fun i => ((accRow acc i).map fun v => leBytes (elemSize t) (packFV (elemFmt t) v).1).flatten).flatten,
     (List.range 32).foldl (fun f i => f ||| (accRow acc i).foldl (fun g v => g ||| (packFV (elemFmt t) v).2) 0) 0)
/-- The operands of k-blocks kb, … (n of them) can be reached from `s`; `t` is the state in which they are, the elements that an earlier
gather reads there having been read (R148, R336). -/
def reached (accs : Nat → List (Word × Nat × Bool)) : Nat → Nat → State → State → Prop
  | _, 0, s, t => t = s
  | kb, n + 1, s, t => ∃ u, mmaCheck (accs kb) s = .ok ((), u) ∧ reached accs (kb + 1) n u t
/-- K-blocks kb, … (n of them) applied to the accumulator at `acc` in order, no word of their operands uncorrectable (R93, R334); on a
die over its share of current each loses four cycles a bit-step (R18). -/
def applied (ops : Nat → M (List (List FV) × List (List FV))) (acc steps : Nat) : Nat → Nat → State → State → Prop
  | _, 0, s, t => t = s
  | kb, n + 1, s, t => ∃ r u, judged (ops kb) s = .ok (r, [], u) ∧
    applied ops acc steps (kb + 1) n ((u.lose (4 * steps)).mapCtx fun c =>
      let q := kblock (c.ursRead acc 4096) r.1 r.2
      (c.ursWrite acc q.1).fpfOr q.2) t

end Sys2Proof.Say

/-- The matrix instructions on a small core (R331-R339): MMA queues its k-blocks and is counted in MX, or, with no matrix operation
before it, takes the fault of the first k-block that cannot be reached, the k-blocks before it done and MXPROG at it, and nothing else of
the task changed (R205); MXLD, MXST and MXZ do their work and are counted, and the flags of MXST enter FPF when it completes (R338); an
MXLD that meets an uncorrectable word is a machine check and does nothing (R337; that the trap is precise is log entry 78). A keystone has no matrix unit (R8, R375). That MXLD, MXST and MXZ work when they issue is log entry 10. (R375 gives ILLEGAL_OPC there
to WDENTER; that the others have it too is log entry 21. That overrides of ETB, ETC and ETD on MXLD, and of ETA, ETB and ETC on MXST, set
WARN.FMTTGT is log entry 24.) -/
def Obligations.MatrixInstructions : Prop :=
  (∀ eta etb pg d a b c sa sb xa xb ctl, ∀ s s2 s3 : State, coreSlot s.core.id < 32 →
    (let cx := s.core.ctx
     let ta := pickOf eta cx.pfxA typeA
     let tb := pickOf etb cx.pfxB typeB
     let s1 := noted (if pickBad cx.pfxA typeA || pickBad cx.pfxB typeB || cx.pfxC.isSome || cx.pfxD.isSome then wFmttgt else 0)
       (noted (if pg != 0 then wCombo else 0) s)
     let kc := ctl.toNat % 2 ^ 9
     let bv := ctl.getLsbD 16
     let refused : Prop := 2 ^ 17 ≤ ctl.toNat ∨ ctl.toNat / 2 ^ 9 % 2 ^ 7 ≠ 0 ∨ kc = 0 ∨ 256 < kc
       ∨ (bv = true ∧ (tb = .bf16 ∨ 8 < kc ∨ 7 < xb.toNat))
     let acc := s2.core.ctx.aOff d.val
     let views := if bv then (List.range kc).map fun kb => s2.core.ctx.mOff ((xb.toNat + kb) % 8) else []
     let kb0 := if s2.core.ctx.mxops = [] then s2.core.ctx.mxprog.toNat % 2 ^ 9 else 0
     let accs := mmaAccesses ta tb cx.pfxBw xa xb (sa.setWidth 64) (sb.setWidth 64) views
     let ops := mmaOperands ta tb cx.pfxBw xa xb (sa.setWidth 64) (sb.setWidth 64) views
     let free : Prop := (∀ l ∈ s2.core.ctx.loads, loadHits acc 4096 l = false ∧ ∀ v ∈ views, loadHits v 1056 l = false) ∧ s2.core.ctx.mx ≠ 63
     (typeA ta = false ∨ typeB tb = false → exec (.mma eta etb pg d a b c sa sb) s = .next (retired 16 (consumed (noted wCombo s1))))
     ∧ (typeA ta = true → typeB tb = true → Takes [a, b, c] [] s1 [xa, xb, ctl] s2 →
       (refused → exec (.mma eta etb pg d a b c sa sb) s = .next (retired 16 (consumed (noted wCombo s2))))
       ∧ (¬ refused → free → reached accs kb0 (kc - kb0) s2 s3 →
         (kb0 < kc → exec (.mma eta etb pg d a b c sa sb) s = .next (retired 16 (consumed (s3.mapCtx fun k => { k with
            mx := k.mx + 1
            mxops := k.mxops ++ [.mma acc kb0 kc xa xb ta tb (BitVec.ofNat 3 cx.pfxBw) (sa.setWidth 64) (sb.setWidth 64) views] }))))
         ∧ (kc ≤ kb0 → exec (.mma eta etb pg d a b c sa sb) s = .next (retired 16 (consumed (matrixDone 0 s3)))))
       ∧ (¬ refused → free → s2.core.ctx.mxops = [] → ∀ kb t s4, kb0 ≤ kb → kb < kc → reached accs kb0 (kb - kb0) s2 s3 →
          mmaCheck (accs kb) s3 = .error (.trap t) → applied ops acc (bitSteps tb cx.pfxBw) kb0 (kb - kb0) s3 s4 →
          exec (.mma eta etb pg d a b c sa sb) s = .next (takeTrap { t with unit := 1 }
            { s4 with core := { s.core with phases := s4.core.phases, ctx := { s.core.ctx with
                urs := s4.core.ctx.urs, fpf := s4.core.ctx.fpf, mxprog := BitVec.ofNat 64 kb } } })))))
  ∧ (∀ d m base idx, ∀ s s1 u : State, coreSlot s.core.id < 32 → Addressed m [] [] false s base idx s1 →
    (let c := s1.core.ctx
     let ea := effective m (sized m) base idx
     let t := mxldOf c
     let bw := if pickBad c.pfxA (fun t => elemIsBlock t || t == .lut8) then 6 else c.pfxBw
     let rb := if t = .bfp then 4 * (bw + 2) else 32
     let n := if t = .lut8 then 1024 else 32 * rb + 32
     let notes := (if pickBad c.pfxA (fun t => elemIsBlock t || t == .lut8) || c.pfxB.isSome || c.pfxC.isSome || c.pfxD.isSome then wFmttgt else 0)
       ||| ordNote true m
     let img := u.nearRead ea.toNat n
     ea.toNat % 32 = 0 →
     (NearRead (noted notes s1) ea n u → u.core.ctx.pendingWrite (c.mOff d.val) 1056 = false → u.core.ctx.mx ≠ 63 → rb ≤ 32 →
       ∃ vb : List Byte, vb.length = 1056
         ∧ (∀ i < 32, ∀ j < 32, vb[32 * i + j]? = some (if j < rb then nth img (rb * i + j) 0 else 0))
         ∧ (∀ i < 32, vb[1024 + i]? = some (nth img (32 * rb + i) 0))
         ∧ exec (.mxld d m) s = .next (retired 8 (consumed (matrixDone 0 (u.mapCtx fun k => k.ursWrite (c.mOff d.val) vb)))))
     ∧ (isNear ea.toNat = true → nearSpanOk s1 ea.toNat n = true → ownPending s1 ea.toNat n = false →
       poisoned (readsDone (noted notes s1) ea.toNat n) ea.toNat n = true →
       exec (.mxld d m) s = .next (takeTrap { cause := .mcheck, faddr := ea, unit := 1 } s))))
  ∧ (∀ d m base idx, ∀ s s1 : State, coreSlot s.core.id < 32 → Addressed m [] [] false s base idx s1 →
    (let c := s1.core.ctx
     let ea := effective m (sized m) base idx
     let t := mxstOf c
     let bad := pickBad c.pfxD fun t => elemIsFp t || elemIsBlock t
     let r := imageOf t (if bad then 6 else c.pfxBw) (c.ursRead (c.aOff d.val) 4096)
     let notes := (if bad || c.pfxA.isSome || c.pfxB.isSome || c.pfxC.isSome then wFmttgt else 0) ||| ordNote true m
     ea.toNat % 32 = 0 → c.pendingRead (c.aOff d.val) 4096 = false → NearOpen s1 ea r.1.length → partPoison s1 ea.toNat r.1.length = false →
     c.mx ≠ 63 → exec (.mxst d m) s = .next (retired 8 (consumed (matrixDone r.2 (stored ea r.1 (noted notes s1)))))))
  ∧ (∀ pg d, ∀ s : State, coreSlot s.core.id < 32 → (let c := s.core.ctx; c.pendingWrite (c.aOff d.val) 4096 = false → c.mx ≠ 63 →
      exec (.mxz pg d) s = .next (retired 8 (matrixDone 0 ((ignoring pg s).mapCtx fun k => k.ursWrite (k.aOff d.val) (zeroBytes 4096))))))
  ∧ (∀ s : State, 32 ≤ coreSlot s.core.id →
    (let trapped : Res := .next (takeTrap { cause := .illegalOpc, faddr := s.core.ctx.pc } s)
     (∀ eta etb pg d a b c sa sb, exec (.mma eta etb pg d a b c sa sb) s = trapped) ∧ (∀ d m, exec (.mxld d m) s = trapped)
     ∧ (∀ d m, exec (.mxst d m) s = trapped) ∧ (∀ pg d, exec (.mxz pg d) s = trapped)))

namespace Sys2Proof.Say

/-- A grammar operation queued behind issue and counted in GR (R71, R116, R318). -/
def queuedOp (g : GOp) (s : State) : State := s.mapCtx fun c => { c with gr := c.gr + 1, gops := c.gops ++ [g] }
def mapFn : GMapOp → Nat
  | .cvt => 0 | .fmulc => 1 | .faddc => 2 | .iaddc => 3 | .rowdot => 4
def queryFn : GQuery → Nat
  | .prefixSum => 0 | .scan => 1 | .elem => 2
/-- PG ignored, and a MOD that means nothing noted. -/
def grammarAt (pg : Fin 8) (odd : Bool) (s : State) : State := noted (if odd then wCombo else 0) (ignoring pg s)

end Sys2Proof.Say

/-- GRED, GMAP, GPOS and GEXP (R110, R111, R318): the operands are read at issue, the image's header and the other grammar addresses
are 8-byte aligned, an RRT lies in near memory, and the operation is queued and counted once no earlier load into D is outstanding (R63).
(That GPOS.ELEM reads B as an operand, whatever it holds, is log entry 81, and that a nonzero MOD of ELEM, and of GEXP
PLAIN, sets WARN.COMBO log entry 25.) -/
def Obligations.GrammarInstructions : Prop :=
  (∀ pg n a b c xa xb xc, ∀ odd, ∀ s s1 : State, Takes [a, b, c] [] (grammarAt pg odd s) [xa, xb, xc] s1 →
    xa.toNat % 8 = 0 → s1.core.ctx.gr ≠ 63 → (n ≠ 0 → ∀ l ∈ s1.core.ctx.loads, l.dst ≠ .x n) →
    (let g : GOp := { major := 0, fn := 0, mod := 0, d := n, a := xa, b := xb, bs := none, c := xc }
     (xb.toNat % 8 = 0 → isNear xb.toNat = true → ∀ op mod, odd = (mod != 0) →
       exec (.gred op mod pg (.reg n) a b c) s = .next (retired 8 (queuedOp { g with fn := op.val } s1)))
     ∧ (xb.toNat % 8 = 0 → ∀ op mod, odd = (op != .cvt && mod != 0) →
       exec (.gmap op mod pg (.reg n) a b c) s = .next (retired 8 (queuedOp { g with major := 1, fn := mapFn op, mod := mod.val } s1)))
     ∧ (∀ q mod, odd = (q == .elem && mod != 0) → (q ≠ .elem → xb.toNat % 8 = 0 ∧ isNear xb.toNat = true) →
       exec (.gpos q mod pg (.reg n) a b c) s = .next (retired 8 (queuedOp { g with major := 2, fn := queryFn q, mod := mod.val } s1)))
     ∧ (∀ k, b = .reg k → ∀ scan mod, odd = (!scan && mod != 0) →
       exec (.gexp scan mod pg (.reg n) a b c) s
         = .next (retired 8 (queuedOp { g with major := 3, fn := if scan then 1 else 0, mod := mod.val } s1)))))
  ∧ (∀ pg n a k c xa xc scan mod, ∀ s s1 : State,
    (let s0 := grammarAt pg (!scan && mod != 0) s
     dirCheck [a, c] [.str k] s0 = .ok ((), s0) → endCheck [(a, false), (c, false)] s0 = .ok ((), s0) → readOpds [a, c] s0 = .ok ([xa, xc], s1) →
     xa.toNat % 8 = 0 → s1.core.ctx.gr ≠ 63 → (n ≠ 0 → ∀ l ∈ s1.core.ctx.loads, l.dst ≠ .x n) →
       exec (.gexp scan mod pg (.reg n) a (.str k) c) s = .next (retired 8 (queuedOp
         { major := 3, fn := if scan then 1 else 0, mod := mod.val, d := n, a := xa, b := 0, bs := some k, c := xc } s1))))

namespace Sys2Proof.Say

/-- The job a card makes on its tile (R131, R136). -/
def jobOf (s : State) (card descs : List Byte) : Job :=
  { seq := 0, vd := s.vdNum, poster := some s.core.id, mark := s.core.ctx.mark, card := card, descs := descs, reads := [], writes := [] }
/-- The release that POST and its kind begin with. -/
def maybeRelease (rel : Bool) (sc : Scope) (s s1 : State) : Prop := if rel then releaseAt sc s = .ok ((), s1) else s1 = s
def cardByte (card : List Byte) (i : Nat) : Nat := (nth card i 0).toNat
def cardField (card : List Byte) (off n : Nat) : Nat := leNat ((card.drop off).take n)
/-- A pattern descriptor's NDIM, element size and elements (R134). -/
def patDims (ds : List Byte) : Nat := leNat (ds.take 8) % 16
def patElem (ds : List Byte) : Nat := 2 ^ (leNat (ds.take 8) / 16 % 4)
def patElems (ds : List Byte) : Nat :=
  if patDims ds = 0 then 0 else ((List.range (patDims ds)).map fun i => leNat ((ds.drop (8 + 16 * i)).take 4)).foldl (· * ·) 1

end Sys2Proof.Say

/-- POST (R135, R343): after its release the card and its descriptors are read, by plain loads, and checked; an accepted card is a job of
the tile with the next sequence number, counted in JOB, and D is 0; a rejected one leaves nothing but its code. A fault on the read of the
descriptors traps precisely (that a failed check among them does so is log entry 78). -/
def Sys2Proof.Part.PostingJobs : Prop :=
  ∀ d m base idx ds, ∀ s s1 s2 u s3 s4 : State, Addressed m [] [d] false (begun s) base idx s1 →
    let ea := effective m 8 base idx
    let rel := m.ord == .rel || m.ord == .acqrel
    let odd := sized m != 8 || !(rel || m.ord == .plain) || (!rel && m.scope != .core)
    ea.toNat % 64 = 0 → nearSpanOk s1 ea.toNat 64 = true → maybeRelease rel m.scope (noted (if odd then wCombo else 0) s1) s2 →
    NearRead s2 ea 64 u →
    let card := u.nearRead ea.toNat 64
    let t := coreTile u.core.id
    let j := jobOf u card ds
    (∀ tr, precise 0 (readDescs ea (jobOf u card [])) u = .error (.trap tr) → exec (.post d m) s = .next (takeTrap tr s))
    ∧ (precise 0 (readDescs ea (jobOf u card [])) u = .ok (ds, s3) → u.core.ctx.job ≠ 63 → (s3.tileOf t).jobs.length < 64 →
      (∀ dv, cardCode s3 t j = 0 → s3.dev = some dv →
        (let u := (noted (if cardDegenerate j then wPattern else 0) s3).updTile t fun tl => { tl with
           jobs := tl.jobs ++ [{ j with reads := jobReads dv j, writes := jobWrites dv t j, seq := tl.seq }], seq := tl.seq + 1 }
         writeOpd d 0 (u.mapCtx fun c => { c with job := c.job + 1 }) = .ok ((), s4) → exec (.post d m) s = .next (retired 8 s4)))
      ∧ (cardCode s3 t j ≠ 0 → writeOpd d (0x8000000000000000 ||| BitVec.ofNat 64 (cardCode s3 t j))
          (noted (if cardCode s3 t j = 3 then wCombo else 0) s3) = .ok ((), s4) → exec (.post d m) s = .next (retired 8 s4)))

/-- The codes of R135 in their order: an unknown type, a must-be-zero bit, a combination the type does not take, an address that no
completion may use, patterns of a COPY or a CONVERT with more than 10 dimensions or with totals that differ, in bytes for COPY and in elements
for CONVERT. (Where the second descriptor stands after a first one with NDIM above 10 is log entry 94; that code 3 also meets
an NPART, INDEX, ROOT or COUNT out of range and a TLOAD whose PARAM is not 512, log entry 95.) -/
def Sys2Proof.Part.CardCodes : Prop :=
  ∀ (s : State) (t : TileId) (j : Job),
    let card := j.card
    let flag (i : Nat) : Bool := (cardField card 2 2).testBit i
    let type := cardField card 0 2
    let code := cardCode s t j
    (type = 0 ∨ 7 < type ↔ code = 1)
    ∧ (1 ≤ type → type ≤ 7 → 32 ≤ cardField card 2 2 ∨ 2 ≤ cardByte card 30 ∨ 128 ≤ cardByte card 31 → code = 2)
    ∧ (code ≠ 1 → code ≠ 2 →
      (flag 2 = true → flag 3 = true → code = 3)
      ∧ (type = 2 ∨ type = 3 → flag 4 = false → code = 3) ∧ (5 ≤ type → flag 4 = true → code = 3)
      ∧ (type = 1 ∨ type = 2 ∨ type = 7 → cardByte card 28 ≠ 0 ∨ cardByte card 29 ≠ 0 → code = 3))
    ∧ (code ≠ 1 → code ≠ 2 → code ≠ 3 →
      (flag 0 = true → cardField card 32 8 % 16 ≠ 0 ∨ isNear (cardField card 32 8) = false → code = 4)
      ∧ (flag 2 = true ∨ flag 3 = true → cardField card 48 8 % 8 ≠ 0 ∨ isNear (cardField card 48 8) = false → code = 4))
    ∧ (code ≠ 1 → code ≠ 2 → code ≠ 3 → code ≠ 4 →
      (let a := j.descs
       let b := j.descs.drop (8 + if patDims a ≤ 10 then 16 * patDims a else 0)
       let total (p : List Byte) : Nat := patElems p * if type = 1 then patElem p else 1
       ((type = 1 ∨ type = 4) → flag 4 = true →
         (10 < patDims a ∨ 10 < patDims b → code = 5)
         ∧ (patDims a ≤ 10 → patDims b ≤ 10 → code = if total a = total b then 0 else 5))
       ∧ (¬ ((type = 1 ∨ type = 4) ∧ flag 4 = true) → code = 0)))
    ∧ code ≤ 5

/-- JSTAT (R321): DONE and STATUS of the record when it is done, else the state and XID of the earliest job that names it, else 0. -/
def Sys2Proof.Part.JobStatus : Prop :=
  ∀ d m base idx, ∀ s s1 u s2 : State, Addressed m [] [d] false (begun s) base idx s1 →
    let ea := effective m 8 base idx
    let acq := m.ord == .acq
    let tl := s1.tileOf (coreTile s1.core.id)
    let w := u.nearRead ea.toNat 8
    let names (j : Job) : Bool := some j.vd == s1.vd && (cardField j.card 2 2).testBit 0 && cardField j.card 32 8 == ea.toNat
    let gives (v : Nat) : Prop := writeOpd d (BitVec.ofNat 64 v) (if acq then acquired m.scope ea u else u) = .ok ((), s2) →
      exec (.jstat d m) s = .next (retired 8 s2)
    ea.toNat % 16 = 0 → NearRead (noted (if sized m != 8 || !(acq || m.ord == .plain) then wCombo else 0) s1) ea 8 u →
    (leNat w / 2 ^ 63 = 1 → gives (2 ^ 63 + leNat w % 2 ^ 32))
    ∧ (leNat w / 2 ^ 63 = 0 →
      (tl.jobs.find? names = none → gives 0)
      ∧ (∀ j, tl.jobs.find? names = some j →
        (j.state = .running ∨ j.state = .ended → gives (3 * 2 ^ 32 + cardField j.card 4 4))
        ∧ (j.state = .waiting ∨ j.state = .ready →
          gives ((if tl.held j then 1 else 2) * 2 ^ 32 + cardField j.card 4 4))))

namespace Sys2Proof.Say

/-- The mode a WDENTER enters (R187). -/
def entered (d : Opd) (abase acntm1 : Fin 4) (src : Option (Fin 8)) (base stride first : Word) (exit : BitVec 48) (aet : BitVec 4)
    (abw : BitVec 3) (t : ElemTy) (s : State) : State :=
  (retireCore s).mapCtx fun c => { c.endRep with
    pc := exit.setWidth 64, wd := true, mxprog := 0, wdblk := first
    wdst := { exit := exit.setWidth 64, dst := d, aet := aet, abw := abw, abase := abase.val, acnt := min (acntm1.val + 1) (4 - abase.val)
              src := src, base := base
              stride := if stride = 0 then BitVec.ofNat 64 (match t with | .bf16 | .fp16 => 2048 | .bfp => 128 * (abw.toNat + 2) + 32 | _ => 1056)
                else stride } }

end Sys2Proof.Say

/-- WDENTER (R186, R187): once the core's matrix operations are done, the mode is entered with its first block, accumulators and source;
an activation type or an address it does not take gives its code in D and goes on behind it. A first block off a 64-byte boundary is
ALIGN, and a stream in A, C or D, or one in B that is no bound input, is STREAM_DIR, the fields judged in the order A, B, C, D (R66, R203). -/
def Sys2Proof.Part.EnteringMode : Prop :=
  (∀ abase acntm1 pg n a b c exit aet abw t first base stride, ∀ s : State, coreSlot s.core.id < 32 →
    stepping s = false → first.toNat % 64 = 0 → elemOfCode aet.toNat = some t → typeA t = true → ¬ (aet = 13 ∧ abw = 7) →
    readX a s = .ok (first, s) → readX c s = .ok (stride, s) → s.core.ctx.mx = 0 →
    (let s0 := ignoring pg s
     let clamped := if 4 - abase.val < acntm1.val + 1 then wCombo else 0
     (∀ k, b = .reg k → readX k s = .ok (base, s) → isNear base.toNat = true → base.toNat % 8 = 0 →
       exec (.wdenter abase acntm1 pg (.reg n) (.reg a) b (.reg c) exit aet abw) s
         = .next (entered (.reg n) abase acntm1 none base stride first exit aet abw t (noted clamped s0)))
     ∧ (∀ k : Fin 8, b = .str k → (s.core.ctx.streams[k]).bound = true → (s.core.ctx.streams[k]).out = false →
       exec (.wdenter abase acntm1 pg (.reg n) (.reg a) b (.reg c) exit aet abw) s
         = .next (entered (.reg n) abase acntm1 (some k) 0 stride first exit aet abw t
             (noted clamped (noted (if c != 0 then wCombo else 0) s0))))))
  ∧ (∀ abase acntm1 pg n a k c exit aet abw first base stride, ∀ s s2 : State, coreSlot s.core.id < 32 →
    first.toNat % 64 = 0 → readX a s = .ok (first, s) → readX k s = .ok (base, s) → readX c s = .ok (stride, s) →
    (let accepted : Prop := ∃ t, elemOfCode aet.toNat = some t ∧ typeA t = true ∧ ¬ (aet = 13 ∧ abw = 7)
     let refused (v : Word) : Prop := writeX n v (noted wCombo (ignoring pg s)) = .ok ((), s2) →
       exec (.wdenter abase acntm1 pg (.reg n) (.reg a) (.reg k) (.reg c) exit aet abw) s
         = .next (stepTrap ((retireCore s2).mapCtx fun x => { x.endRep with pc := x.pc + 16 }))
     (¬ accepted → refused 0x8000000000000002)
     ∧ (accepted → ¬ (isNear base.toNat = true ∧ base.toNat % 8 = 0) → refused 0x8000000000000003)))
  ∧ (∀ abase acntm1 pg d a b c exit aet abw, ∀ s : State, coreSlot s.core.id < 32 →
    (let isReg (o : Opd) : Prop := ∃ n, o = .reg n
     let traps (t : Trap) : Prop := exec (.wdenter abase acntm1 pg d a b c exit aet abw) s = .next (takeTrap t s)
     let wrong (n : Fin 8) : Prop := traps { cause := .streamDir, faddr := BitVec.ofNat 64 n.val }
     (∀ n, a = .str n → wrong n)
     ∧ (isReg a → ∀ n, b = .str n → ¬ ((s.core.ctx.streams[n]).bound = true ∧ (s.core.ctx.streams[n]).out = false) → wrong n)
     ∧ (isReg a → srcDir s.core.ctx b = none → ∀ n, c = .str n → wrong n)
     ∧ (isReg a → srcDir s.core.ctx b = none → isReg c → ∀ n, d = .str n → wrong n)
     ∧ (∀ k first base stride, a = .reg k → isReg c → isReg d → readX k s = .ok (first, s) →
       (match b with | .reg n => readX n s = .ok (base, s) | .str _ => srcDir s.core.ctx b = none) →
       readOpd c s = .ok (stride, s) → first.toNat % 64 ≠ 0 → traps { cause := .align, faddr := first })))

/-- WDEXIT (R197): in a service task whose image is in the mode it puts the value into the image's D and ends the mode there: SR.WD and
MXPROG clear, the PC at the exit address; anywhere else it is WARN.COMBO. (The places of the exit address and of D in the image's
weight-driven area, 0x8218 and 0x8220, are log entry 8: R210 leaves that layout open.) -/
def Sys2Proof.Part.LeavingMode : Prop :=
  (∀ pg n x, ∀ s : State, readX n (ignoring pg s) = .ok (x, ignoring pg s) → s.core.ctx.svc = false ∨ s.core.ctx.under = none →
    exec (.wdexit pg (.reg n)) s = .next (retired 8 (noted wCombo (ignoring pg s))))
  ∧ (∀ pg n x k, ∀ s : State, readX n (ignoring pg s) = .ok (x, ignoring pg s) → s.core.ctx.svc = true → s.core.ctx.under = some k →
    windowSlots (s.tileOf (coreTile s.core.id)) = [] → s.poison = [] → memWf s.near = true → stepping s = false →
    (let a := slotAddr (coreTile s.core.id) k.val
     let word (t : State) (off : Nat) : Nat := leNat (memRead t.near (a + off) 8)
     let d := word s 0x8220 % 2 ^ 8
     (word s 0x8000 / 2 ^ 33 % 2 = 0 → exec (.wdexit pg (.reg n)) s = .next (retired 8 (noted wCombo (ignoring pg s))))
     ∧ (word s 0x8000 / 2 ^ 33 % 2 = 1 → ∃ t, exec (.wdexit pg (.reg n)) s = .next t
        ∧ word t 0x8000 = word s 0x8000 - 2 ^ 33 ∧ word t 0x8058 = 0 ∧ word t 0x80D0 = word s 0x8218
        ∧ (0 < d → d < 32 → word t (8 * d) = 2 ^ 16 + x.toNat % 2 ^ 16)
        ∧ (∀ i < 32, i ≠ d → word t (8 * i) = word s (8 * i)) ∧ t.core.ctx.x = s.core.ctx.x ∧ t.quarry = s.quarry)))

namespace Sys2Proof.Say

/-- Whether a TLBI takes a translation of its device away (R363). -/
def tlbGone (k : TlbiKind) (dev va : Nat) (e : TlbEntry) : Prop :=
  e.dev = dev ∧ match k with
    | .page => e.vpage ≤ va ∧ va < e.vpage + e.size
    | .asid => e.pte.getLsbD 6 = false
    | .all => True
/-- Whether code and staged bytes at an address leave with them. -/
def codeGone (k : TlbiKind) (va a : Nat) : Prop :=
  match k with
  | .page => a / 2 ^ 30 = va / 2 ^ 30
  | .asid | .all => True
/-- The tiles a TLBI targets. -/
def tlbiTile (part : Bool) (d : Device) (s : State) (t : TileId) : Prop := if part then t ∈ d.tiles else t = coreTile s.core.id

end Sys2Proof.Say

/-- TLBI in service mode (R363): when no grammar operation has still to write and no output stream holds an element, it drains the earlier
far stores and completes; in each tile it targets, the issuing one or those of the partition, the translations it names leave the tile's TLB
and the micro-TLB of every core, and the lines of the affected pages leave the instruction caches and the staging buffer; no other
translation or line does, and nothing else changes. A staged block goes when its first or its last byte is affected. (That the lines of
the whole GiB around VA go with a page is log entry 12.) -/
def Sys2Proof.Part.TlbInvalidation : Prop :=
  ∀ k part pg a va, ∀ (s s1 : State), s.core.ctx.svc = true → Takes [a] [] (ignoring pg s) [va] s1 →
    (∀ g ∈ s1.core.ctx.gops, g.major ≠ 1 ∧ g.major ≠ 3) →
    (∀ n : Fin 8, (s1.core.ctx.streams[n]).out = true → (s1.core.ctx.streams[n]).buf = []) →
    (let s2 := drainStores s1.core.ctx.stores.length s1
     (s2.dev = none → exec (.tlbi k part pg a) s = .next (retired 8 s2))
     ∧ (∀ d, s2.dev = some d → ∃ u, exec (.tlbi k part pg a) s = .next (retired 8 u)
       ∧ (∀ t e, e ∈ (u.tileOf t).tlb ↔ e ∈ (s2.tileOf t).tlb ∧ ¬ (tlbiTile part d s2 t ∧ tlbGone k d.num va.toNat e))
       ∧ (∀ c e, e ∈ (u.coreOf c).mtlb ↔ e ∈ (s2.coreOf c).mtlb ∧ ¬ (tlbiTile part d s2 (coreTile c) ∧ tlbGone k d.num va.toNat e))
       ∧ (∀ t e, e ∈ (u.tileOf t).staging ↔
           e ∈ (s2.tileOf t).staging ∧ ¬ (tlbiTile part d s2 t ∧ e.vd = d.num ∧
             (codeGone k va.toNat e.addr ∨ codeGone k va.toNat (e.addr + e.bytes.length - 1))))
       ∧ (∀ t l, l ∈ (u.tileOf t).icache ↔
           l ∈ (s2.tileOf t).icache ∧ ¬ (tlbiTile part d s2 t ∧ l.vd = d.num ∧ codeGone k va.toNat (l.block * 32)))
       ∧ (∀ c l, (u.coreOf c).fblock = some l ↔
           (s2.coreOf c).fblock = some l ∧ ¬ (tlbiTile part d s2 (coreTile c) ∧ codeGone k va.toNat (l.1 * 32)))
       ∧ (∀ c, (u.coreOf c).ctx = (s2.coreOf c).ctx) ∧ u.near = s2.near ∧ u.quarry = s2.quarry ∧ u.devs = s2.devs))

namespace Sys2Proof.Say

/-- The bytes of an image stored at a parking place, near, or far behind the task's earlier stores. -/
def parked (pl : Place) (img : List Byte) (s : State) : State :=
  match pl with
  | .near a _ => stored (BitVec.ofNat 64 a) img s
  | .far va pas => taskFarWrite (drainAll s) va (pas.zip img)

end Sys2Proof.Say

/-- CTXSV and CTXLD (R303, R304, R305): a parking place of 0xB000 bytes is 64-byte aligned, near outside the spill areas and migration
slots, or far where the pages allow it. CTXSV needs an occupied slot of the device whose JOB count is zero, stores the image, counted in ST,
and frees the slot. CTXLD fills the lowest free slot, counted in LD, with MARK's ASID and CORE's die and tile made the issuing ones, gives
its address and takes the context under service; it is refused when no slot is free or a context is already under service. Either waits,
with reason "service" (R23), while bytes it reads or writes are still to be written by the task (R149). (That the lowest free slot is
taken is log entry 20; a place at the end of a slice is log entry 50.) -/
def Sys2Proof.Part.ParkedContexts : Prop :=
  (∀ (ea : Word) need w (s : State), ea.toNat % 64 = 0 →
    (isNear ea.toNat = true → (∀ i < 704, parkOk s (nearWrap ea.toNat (64 * i)) = true) →
      parkPlace ea need w s = .ok (.near ea.toNat 0xB000, s))
    ∧ (isNear ea.toNat = true → (∃ i < 704, parkOk s (nearWrap ea.toNat (64 * i)) = false) →
      parkPlace ea need w s = .error (.trap { cause := .nearBounds, faddr := ea, w := w }))
    ∧ (isNear ea.toNat = false → parkPlace ea need w s = place ea 0xB000 need w 0 s))
  ∧ (∀ d m base idx x pl, ∀ s s1 s2 s4 : State, s.core.ctx.svc = true →
    checkDirs [m.base, m.idx, d] [] [] (begun s) = .ok ((), begun s) → readOpds [m.base, m.idx] (begun s) = .ok ([base, idx], s1) →
    readOpd d s1 = .ok (x, s2) →
    parkPlace (effective m (sized m) base idx) needW true (noted (ordNote false m) s2) = .ok (pl, s4) →
    (let t := coreTile s4.core.id
     let va := (effective m (sized m) base idx).toNat
     (occupiedSlot s4 x.toNat = none → exec (.ctxsv d m) s = .next (takeTrap { cause := .nearBounds, faddr := x } s))
     ∧ (∀ k n, x.toNat = slotAddr t k.val → (s4.tileOf t).slots[k] = .image n → s4.vd = some n →
       (leNat (memRead s4.near (x.toNat + 0x80F8) 8) / 2 ^ 12 % 2 ^ 6 ≠ 0 → exec (.ctxsv d m) s = .next (s.stalled .service))
       ∧ (leNat (memRead s4.near (x.toNat + 0x80F8) 8) / 2 ^ 12 % 2 ^ 6 = 0 → ownPending s4 x.toNat 0xB000 = true ∨ ownPending s4 va 0xB000 = true →
         exec (.ctxsv d m) s = .next (s.stalled .service))
       ∧ (leNat (memRead s4.near (x.toNat + 0x80F8) 8) / 2 ^ 12 % 2 ^ 6 = 0 → s4.core.ctx.st ≠ 63 →
         ownPending s4 x.toNat 0xB000 = false → ownPending s4 va 0xB000 = false →
         (∀ w ∈ s4.poison, rangesMeet w 8 x.toNat 0xB000 = false) → (∀ a n, pl = .near a n → partPoison s4 a 0xB000 = false) →
         exec (.ctxsv d m) s = .next (retired 8 ((((parked pl (memRead s4.near x.toNat 0xB000) s4).mapCtx fun c =>
           { c with st := c.st + 1, stores := c.stores ++ [{ va := va, cells := [] }] }).updTile t fun tl =>
           { tl with slots := tl.slots.set k.val .free }).mapCtx fun c => if c.under = some k then { c with under := none } else c))))))
  ∧ (∀ d m base idx pl, ∀ s s1 s2 s4 : State, s.core.ctx.svc = true → Addressed m [] [d] false (begun s) base idx s1 →
    (let ea := effective m (sized m) base idx
     let s3 := noted (ordNote false m) s1
     let gives (v : Word) (u : State) : Prop := writeOpd d v u = .ok ((), s2) → exec (.ctxld d m) s = .next (retired 8 s2)
     parkPlace ea needR false s3 = .ok (pl, s4) →
     (let t := coreTile s4.core.id
      (freeSlot (s4.tileOf t) = none → gives 0x8000000000000001 s4)
      ∧ (∀ k n, freeSlot (s4.tileOf t) = some k → s4.vd = some n →
        (s4.core.ctx.under ≠ none → gives 0x8000000000000002 s4)
        ∧ (s4.core.ctx.under = none → ownPending s4 ea.toNat 0xB000 = true → exec (.ctxld d m) s = .next (s.stalled .service))
        ∧ (∀ img s5, s4.core.ctx.under = none → ownPending s4 ea.toNat 0xB000 = false →
          readPlace pl true 0 (readsDone s4 ea.toNat 0xB000) = .ok (img, s5) →
          img.length = 0xB000 → s5.core.ctx.ld ≠ 63 → windowSlots (s5.tileOf t) = [] →
          (let a := slotAddr t k.val
           let mark : Word := BitVec.ofNat 64 (leNat ((img.drop 0x8020).take 8))
           let home : Word := BitVec.ofNat 64 (leNat ((img.drop 0x8030).take 8))
           let home' : Word := BitVec.ofNat 64 (t.toNat * 64 + (if home.toNat % 64 < 32 then home.toNat % 64 else 0))
           let s6 := s5.mapCtx fun c => { c with ld := c.ld + 1, loads := c.loads ++ [{ dst := .none, data := [] }] }
           let u := stored (BitVec.ofNat 64 (a + 0x8030)) (wordBytes home')
             (stored (BitVec.ofNat 64 (a + 0x8020)) (wordBytes (mark % 2 ^ 50 + (asidOf n).setWidth 64 * 2 ^ 50))
               { s6 with near := memWrite s6.near a img, poison := clearRange a 0xB000 s6.poison })
           gives (BitVec.ofNat 64 a) ((u.updTile t fun tl => { tl with slots := tl.slots.set k.val (.image n) }).mapCtx
             fun c => { c with under := some k })))))))

/-! Steps of the task machinery. -/

namespace Sys2Proof.Say

/-- A task that starts from a record on a core that held `old` (R27, R29): only the register-space bytes stay. -/
structure Started (co : Core) (r : TaskRec) (x : Ctx) : Prop where
  pc : x.pc = r.entry.setWidth 64
  arg0 : x.getX 1 = r.arg0
  arg1 : x.getX 2 = r.arg1
  others : ∀ n : Fin 32, n ≠ 1 → n ≠ 2 → x.getX n = 0
  prio : x.prio = r.prio
  mark : x.mark = r.mark
  coord : x.coord = if r.kind = .tile then r.arg1 else BitVec.allOnes 64
  xid : x.xid = if r.kind = .completion then r.xid else 0
  warn : x.warn = if r.combo then wCombo else 0
  urs : x.urs = co.ctx.urs
  clear : x.fpf = 0 ∧ x.b = Vector.replicate 4 0 ∧ x.pfx = false ∧ x.svc = false ∧ x.wd = false ∧ x.rep = none ∧ x.binds = []
  counters : x.ld = 0 ∧ x.st = 0 ∧ x.job = 0 ∧ x.mx = 0 ∧ x.gr = 0
  streams : ∀ n : Fin 8, (x.streams[n]).bound = false
  views : x.vwV = 0x00400100 ∧ x.vwM = 0x04200900 ∧ x.vwA = 0x10003000 ∧ x.vwP = 0x00082A00
/-- A pending signal that is due: its tag is enabled (R49). -/
def DueSignal (co : Core) (g : Fin 64) : Bool := (co.tags[g]).en && (co.tags[g]).signal
/-- No core stands twice in the state. -/
def OneEach (s : State) : Prop := (s.allCores.map Core.id).Nodup
/-- A free core whose deque has one record left, which is the task it selects next (R44). -/
def TakesLast (s : State) (c : CoreId) : Prop :=
  (s.coreOf c).mode = .idle ∧ s.liveOn c = true ∧ (s.coreOf c).deque.length = 1 ∧ bestOf (candidates (s.coreOf c)) = some .deque
/-- A message appended to a record's log when it is the destination's (R166): its 16 bytes stand in the save record, behind those logged
before (R212). -/
def logged (m : Msg) (r : SaveRec) : SaveRec :=
  if r.core.id = m.dst then
    { r with log := r.log ++ [m], bytes := memWrite r.bytes (0xD000 + 16 * r.log.length) (logBytes m) }
  else r

end Sys2Proof.Say

/-- Choosing a task (R29, R39, R43): the best candidate has the highest priority and, among equals, the lowest class rank; an idle core of a
running device starts the record picked, or takes back the context picked; the place that a record leaves in a full run queue goes at once
to the due signal of the lowest tag (R49); a small core with no candidate, whose full round of steal
requests fails, rests. -/
def Sys2Proof.Part.TaskSelection : Prop :=
  (∀ cs p, bestOf cs = some p → ∃ x ∈ cs, x.2.2 = p ∧ ∀ y ∈ cs, y.1 ≤ x.1 ∧ (y.1 = x.1 → x.2.1 ≤ y.2.1))
  ∧ (∀ (co : Core) i r, co.runq[i]? = some r → r.wait = true → ∀ q ∈ candidates co, q.2.2 ≠ .run i)
  ∧ (∀ (s : State) c, (s.coreOf c).mode = .idle → s.liveOn c = true →
    (∀ i r, bestOf (candidates (s.coreOf c)) = some (.run i) → (s.coreOf c).runq[i]? = some r →
      ∃ t, exec (.taskSelect c) s = .next t ∧ (t.coreOf c).mode = .running ∧ Started (s.coreOf c) r (t.coreOf c).ctx
        ∧ (t.coreOf c).deque = (s.coreOf c).deque
        ∧ ((∀ g : Fin 64, DueSignal (s.coreOf c) g = false) → (t.coreOf c).runq = (s.coreOf c).runq.eraseIdx i)
        ∧ (∀ g : Fin 64, DueSignal (s.coreOf c) g = true → (∀ k : Fin 64, k < g → DueSignal (s.coreOf c) k = false) →
          (s.coreOf c).runq.length = 64 + 4096 →
          ∃ q, (t.coreOf c).runq = (s.coreOf c).runq.eraseIdx i ++ [q] ∧ q.kind = .handler ∧ q.tag.toNat = g.val ∧ q.arg0 = 0 ∧ q.wait = false
            ∧ q.entry = ((s.coreOf c).tags[g]).handler ∧ q.prio = ((s.coreOf c).tags[g]).prio
            ∧ ((t.coreOf c).tags[g]).signal = false ∧ ∀ k : Fin 64, k ≠ g → (t.coreOf c).tags[k] = (s.coreOf c).tags[k]))
    ∧ (∀ r rest, bestOf (candidates (s.coreOf c)) = some .deque → (s.coreOf c).deque = r :: rest →
      ∃ t, exec (.taskSelect c) s = .next t ∧ (t.coreOf c).mode = .running ∧ Started (s.coreOf c) r (t.coreOf c).ctx
        ∧ (t.coreOf c).deque = rest ∧ (t.coreOf c).runq = (s.coreOf c).runq)
    ∧ (∀ i x, bestOf (candidates (s.coreOf c)) = some (.back i) → (s.coreOf c).back[i]? = some x →
      ∃ t, exec (.taskSelect c) s = .next t ∧ (t.coreOf c).mode = .running ∧ (t.coreOf c).ctx = x
        ∧ (t.coreOf c).back = (s.coreOf c).back.eraseIdx i)
    ∧ (∀ i x, bestOf (candidates (s.coreOf c)) = some (.svc i) → (s.coreOf c).svcq[i]? = some x →
      ∃ t, exec (.taskSelect c) s = .next t ∧ (t.coreOf c).mode = .running ∧ (t.coreOf c).ctx = { x with urs := (s.coreOf c).ctx.urs }
        ∧ (t.coreOf c).svcq = (s.coreOf c).svcq.eraseIdx i)
    ∧ (OneEach s → candidates (s.coreOf c) = [] → coreSlot c < 32 → (s.coreOf c).resting = false →
      (∀ v, v ≠ c → ∀ r ∈ (s.coreOf v).deque, stealable v c r = false) →
      ∃ t, exec (.taskSelect c) s = .next t ∧ (t.coreOf c).mode = .idle ∧ (t.coreOf c).resting = true))

/-- A steal (R42, R43, R44): an idle small core with no other candidate takes the oldest record of the victim's deque whose steal scope holds
both cores, and starts it; the victim's other records stay in order, and the victim is the last one tried in its group. A core that has
another candidate, or a victim that has no such record, or that is taking its last record itself, starts nothing. -/
def Sys2Proof.Part.Steals : Prop :=
  (∀ v t r, stealable v t r = true ↔ (r.sscope = 1 ∧ sameGroup .quad v t = true) ∨ (r.sscope = 2 ∧ sameGroup .tile v t = true)
      ∨ (r.sscope = 3 ∧ sameGroup .die v t = true))
  ∧ (∀ (s : State) thief victim newer r older, OneEach s → (s.coreOf thief).mode = .idle → s.liveOn thief = true → coreSlot thief < 32 →
    candidates (s.coreOf thief) = [] → victim ≠ thief → s.vdOf victim = s.vdOf thief →
    (s.coreOf victim).deque = newer ++ r :: older → stealable victim thief r = true → (∀ q ∈ older, stealable victim thief q = false) →
    ¬ TakesLast s victim →
    ∃ t, exec (.stealRequest thief victim) s = .next t ∧ (t.coreOf thief).mode = .running ∧ Started (s.coreOf thief) r (t.coreOf thief).ctx
      ∧ (t.coreOf victim).deque = newer ++ older ∧ (t.coreOf victim).runq = (s.coreOf victim).runq
      ∧ (t.coreOf thief).victimQ = (if sameGroup .quad thief victim then victim.toNat else (s.coreOf thief).victimQ)
      ∧ (t.coreOf thief).victimT = (if !sameGroup .quad thief victim && sameGroup .tile thief victim then victim.toNat
          else (s.coreOf thief).victimT)
      ∧ (t.coreOf thief).victimD = (if sameGroup .tile thief victim then (s.coreOf thief).victimD else victim.toNat))
  ∧ (∀ (s : State) thief victim, OneEach s → candidates (s.coreOf thief) ≠ [] →
    ∃ t, exec (.stealRequest thief victim) s = .next t ∧ (t.coreOf thief) = (s.coreOf thief)
      ∧ (t.coreOf victim).deque = (s.coreOf victim).deque)
  ∧ (∀ (s : State) thief victim, OneEach s → ((∀ r ∈ (s.coreOf victim).deque, stealable victim thief r = false) ∨ TakesLast s victim) →
    ∃ t, exec (.stealRequest thief victim) s = .next t ∧ (t.coreOf thief).mode = (s.coreOf thief).mode
      ∧ (t.coreOf thief).ctx = (s.coreOf thief).ctx ∧ (t.coreOf victim).deque = (s.coreOf victim).deque)

/-- A message arrives (R34, R48, R49, R68, R164, R166, R167): at a running device it becomes a record or an arrival-queue word and leaves
the mortar, or stays there while there is no room behind the places of the pending signals that are due; a paused or evicted device logs
it; a faulted one takes nothing (R208); a device that is gone sends a bounce. (That a faulted one sends no bounce is log entry 67; the
fields of a log entry's bytes are log entry 84.) -/
def Sys2Proof.Part.MessagesArrive : Prop :=
  (∀ (s : State) i m d, s.mortar[i]? = some m → inOrder s.mortar i m = true → s.devOf m.vd = some d → d.state = .running →
    (let co := s.coreOf m.dst
     let left := s.mortar.eraseIdx i
     let room := co.runq.length + (co.tags.toList.filter fun g => g.en && g.signal).length < 64 + 4096
     (∀ tag p, m.body = .tag tag p → room → ∃ t r, exec (.messageArrival i) s = .next t ∧ t.mortar = left
       ∧ (t.coreOf m.dst).runq = co.runq ++ [r] ∧ r.kind = .handler ∧ r.wait = !(co.tags[tag]).en ∧ r.tag.toNat = tag.val ∧ r.arg0 = p
       ∧ r.arg1.toNat = m.src.toNat + tag.val * 2 ^ 16 ∧ r.entry = (co.tags[tag]).handler ∧ r.prio = (co.tags[tag]).prio)
     ∧ (∀ w, m.body = .bounce w → room → ∃ t r, exec (.messageArrival i) s = .next t ∧ t.mortar = left
       ∧ (t.coreOf m.dst).runq = co.runq ++ [r] ∧ r.kind = .handler ∧ r.tag.toNat = 63 ∧ r.arg0 = w)
     ∧ (∀ q p, m.body = .queue q p → (co.arrq[q]).length < 16 → ∃ t, exec (.messageArrival i) s = .next t ∧ t.mortar = left
       ∧ (t.coreOf m.dst).arrq[q] = co.arrq[q] ++ [p] ∧ (t.coreOf m.dst).runq = co.runq)
     ∧ (∀ q p, m.body = .queue q p → 16 ≤ (co.arrq[q]).length → exec (.messageArrival i) s = .next s)
     ∧ (∀ r, m.body = .tileTask r → room → ∃ t, exec (.tileTaskRecordArrive i) s = .next t ∧ t.mortar = left
       ∧ (t.coreOf m.dst).runq = co.runq ++ [r])
     ∧ (∀ r, m.body = .tileTask r → ¬ room → exec (.tileTaskRecordArrive i) s = .next s)
     ∧ (∀ r, m.body = .record r → room → ∃ t, exec (.messageArrival i) s = .next t ∧ t.mortar = left
       ∧ (t.coreOf m.dst).runq = co.runq ++ [r])
     ∧ (m.body.isTask = false → (∀ q p, m.body ≠ .queue q p) → ¬ room → exec (.messageArrival i) s = .next s)))
  ∧ (∀ (s : State) i m d r, s.mortar[i]? = some m → inOrder s.mortar i m = true → s.devOf m.vd = some d →
    d.state = .paused ∨ d.state = .evicted → (d.saves.find? fun k => k.core.id == m.dst) = some r → r.log.length < 1024 →
    m.body.isTask = false → m.body.isRecord = false →
    ∃ t, exec (.messageArrival i) s = .next t ∧ t.mortar = s.mortar.eraseIdx i
      ∧ t.devs = s.devs.map fun k => if k.num = d.num then { k with saves := k.saves.map (logged m) } else k)
  ∧ (∀ (s : State) i m d, s.mortar[i]? = some m → inOrder s.mortar i m = true → s.devOf m.vd = some d → d.state = .faulted →
    m.body.isTask = false → exec (.messageArrival i) s = .next { s with mortar := s.mortar.eraseIdx i })
  ∧ (∀ (s : State) i m tag p, s.mortar[i]? = some m → inOrder s.mortar i m = true → s.devOf m.vd = none → m.body = .tag tag p →
    ∃ t w, exec (.messageArrival i) s = .next t
      ∧ t.mortar = s.mortar.eraseIdx i ++ [{ src := m.dst, dst := m.src, vd := m.vd, body := .bounce w, course := m.course }]
      ∧ w.toNat = p.toNat % 2 ^ 32 * 2 ^ 32 + tag.val * 2 ^ 10 + 1)

/-- Signals, barriers and courses (R36, R49, R52): a pending signal of an enabled tag becomes one handler record; a barrier whose count is
reached flips its generation and counts anew; a course with no task left completes its packet and leaves the device with its barriers.
(That the record names the core itself as the sender is log entry 92; that a context parked in memory keeps no course is log entry 85.) -/
def Sys2Proof.Part.SignalsBarriersCourses : Prop :=
  (∀ (s : State) c tag n, s.vdOf c = some n → s.liveOn c = true → (s.coreOf c).tags[tag].en = true → (s.coreOf c).tags[tag].signal = true →
    (s.coreOf c).runq.length < 64 + 4096 →
    ∃ t r, exec (.pendingSignalRecord c tag) s = .next t ∧ (t.coreOf c).tags[tag].signal = false ∧ (t.coreOf c).tags[tag].en = true
      ∧ (t.coreOf c).runq = (s.coreOf c).runq ++ [r] ∧ r.kind = .handler ∧ r.wait = false ∧ r.arg0 = 0
      ∧ r.arg1.toNat = c.toNat + tag.val * 2 ^ 16 + 2 ^ 24 ∧ r.entry = (s.coreOf c).tags[tag].handler)
  ∧ (∀ (s : State) i b, s.barriers[i]? = some b → 0 < b.expect → b.expect ≤ b.count →
    ∃ t, exec (.barrierComplete i) s = .next t
      ∧ t.devs = (s.devs.map fun d => if d.num = b.vd then
          { d with barriers := putBarrier { b with gen := !b.gen, count := 0 } d.barriers } else d) ∧ t.core = s.core ∧ t.near = s.near)
  ∧ (∀ (s : State) i b, s.barriers[i]? = some b → b.count < b.expect → exec (.barrierComplete i) s = .next s)
  ∧ (∀ (s : State) i c d, s.courses[i]? = some c → s.devOf c.vd = some d → d.state = .running →
    (courseBusy s d c = false → ∃ t, exec (.courseEnd i) s = .next t ∧ ∀ e, t.devOf c.vd = some e →
      (∀ k ∈ e.courses, k.num ≠ c.num) ∧ (∀ b ∈ e.barriers, b.course ≠ c.num)
      ∧ (∀ p, c.packet = some p → ∀ q ∈ e.queues, q.num = p.queue → p.num ∉ q.pending))
    ∧ (courseBusy s d c = true → exec (.courseEnd i) s = .next s))

/-! Steps of a core's units. -/

namespace Sys2Proof.Say

/-- One element of accumulator row i after a k-block (R93): the products' exact sum rounded once, then added. -/
def kstep (acc : List Byte) (as bs : List (List FV)) (i j : Nat) : Nat × Flags :=
  let p := sumRound (List.zipWith mulExact (nth as i []) (nth bs j []))
  let r := addFV fp32 (unpack fp32 (leNat ((acc.drop (128 * i + 4 * j)).take 4))) (unpack fp32 p.1)
  (r.1, p.2 ||| r.2)

end Sys2Proof.Say

/-- The matrix unit (R71, R93, R302, R334, R335): the next k-block of the oldest MMA adds its 1,024 rounded dot products to the accumulator,
the last one ends the operation; a fault or an uncorrectable word found in a k-block ends the operation asynchronously at that k-block, none
of which is applied; finished work gives its flags and leaves the MX count. MXPROG keeps the k-block of a fault of the matrix unit that is
held already. (That a step is one k-block is log entry 10.) -/
def Sys2Proof.Part.MatrixUnit : Prop :=
  (∀ (s : State) c acc kb kc a b ta tb bw sa sb vs rest, (s.coreOf c).ctx.mxops = .mma acc kb kc a b ta tb bw sa sb vs :: rest →
    (let found := judged (mmaOperands ta tb bw.toNat a b sa sb vs kb) (s.focusOn c)
     let c0 := (s.coreOf c).ctx
     let ended (n : Nat) : Word := if ∃ u ∈ c0.asyncs, u.unit = 1 then c0.mxprog else BitVec.ofNat 64 n
     (∀ rows cols s1, found = .ok ((rows, cols), [], s1) →
       s1.core.id = c → s1.core.ctx = c0 → s1.others = (s.focusOn c).others → memWf c0.urs = true →
       ∃ t, exec (.mmaKblockComplete c) s = .next t
         ∧ (let old := c0.ursRead acc 4096
            let x := (t.coreOf c).ctx
            (∀ i < 32, ∀ j < 32, leNat ((((x.ursRead acc 4096).drop (128 * i + 4 * j))).take 4) = (kstep old rows cols i j).1 % 2 ^ 32)
            ∧ (∀ off, off < acc ∨ acc + 4096 ≤ off → memGet x.urs off = memGet c0.urs off)
            ∧ x.fpf = c0.fpf ||| ((List.range 32).foldl (fun f i => (List.range 32).foldl (fun f j => f ||| (kstep old rows cols i j).2) f) 0)
            ∧ (kb + 1 < kc → x.mxops = .mma acc (kb + 1) kc a b ta tb bw sa sb vs :: rest ∧ x.mxprog = c0.mxprog ∧ x.mx = c0.mx)
            ∧ (kc ≤ kb + 1 → x.mxops = rest ∧ x.mxprog = ended 0 ∧ x.mx = c0.mx - 1)))
     ∧ (∀ tr, (found = .error (.trap tr) ∨ ∃ q ts s1, found = .ok (q, tr :: ts, s1)) →
       (let held : Trap := { tr with async := true, unit := 1 }
        ∃ t, exec (.mmaKblockComplete c) s = .next t ∧ t.near = s.near ∧ t.quarry = s.quarry
          ∧ (t.coreOf c).ctx = { c0 with mxops := rest, mx := c0.mx - 1, mxprog := ended kb
                                         asyncs := if held ∈ c0.asyncs then c0.asyncs else c0.asyncs ++ [held] }))))
  ∧ (∀ (s : State) c fl rest, (s.coreOf c).ctx.mxops = .done fl :: rest → ∃ t, exec (.mxOpComplete c) s = .next t
    ∧ (t.coreOf c).ctx = { (s.coreOf c).ctx with mxops := rest, mx := (s.coreOf c).ctx.mx - 1, fpf := (s.coreOf c).ctx.fpf ||| fl }
    ∧ t.near = s.near ∧ t.quarry = s.quarry)

namespace Sys2Proof.Say

/-- The state in which the rule unit of core c has changed its head operation and written nothing. -/
def UnitAt (c : CoreId) (g : GOp) (rest : List GOp) (s t : State) : Prop :=
  (t.coreOf c).ctx = { (s.coreOf c).ctx with gops := g :: rest } ∧ t.near = s.near ∧ t.quarry = s.quarry
/-- What an acquire of a sync word at the span of the task's course leaves behind (R157, R193). -/
def refreshed (s : State) (ea : Word) : State :=
  if atDie s.spanOfTask then dropStaged (invalidateBound s (ea.toNat / 8 * 8)) else s
/-- n bytes that the rule unit reads, none of them pushed by the task to an output stream and still to be written there (R149). -/
def UnitReads (s : State) (ea : Word) (n : Nat) (bs : List Byte) : Prop :=
  pushPending s ea.toNat n = false ∧ loadBytes ea n 2 s = .ok (bs, s)
/-- An image whose header the unit reads, and it passes. -/
structure GrammarAt (s : State) (g : GOp) (h : GHdr) : Prop where
  header : ∃ bs, UnitReads s g.a 64 bs ∧ hdrOf g.a bs = some h
/-- The rejection that R111 gives an operation other than GRED whose header is good, by the first that applies: the value D receives and
its WARN bit; a position out of range, which is decided by the LEN word of START, apart. -/
def Rejection (h : GHdr) (g : GOp) (v : Word) (w : Warn) : Prop :=
  let type := v = 0x8000000000000002 ∧ w = wCombo
  let range := v = 0x8000000000000003 ∧ w = wCombo
  let matrixFits : Bool := if g.major = 1 then h.matrix == (g.fn == 4) else if g.major = 2 then !h.matrix else !h.matrix || g.fn != 1
  let fits : Bool := match g.major with
    | 1 => if g.fn = 0 then decide (g.mod < 11 ∧ g.mod ≠ 7) else if g.fn = 1 ∨ g.fn = 2 ∨ g.fn = 4 then elemIsFp h.et else elemIsInt h.et
    | 2 => g.fn == 2 || opTakes g.mod h.et
    | _ => g.fn != 1 || opTakes g.mod h.et
  if matrixFits = false then type
  else if g.major = 2 ∧ g.fn ≠ 2 ∧ 12 ≤ g.mod then v = 0x8000000000000001 ∧ w = wLift
  else if fits = false then type
  else g.major = 3 ∧ (g.c.toNat / 2 ^ 32 < g.c.toNat % 2 ^ 32 ∨ h.nrules ≤ g.c.toNat / 2 ^ 32) ∧ range

end Sys2Proof.Say

/-- The rule unit (R103, R106, R109, R111-R113, R116, R157): the first step of each of the four operations checks the header once no
pushed element of the task is still to be written there, a bad one is an asynchronous GRAMMAR_BAD, and the first rejection that applies
decides D and its WARN bit at once; a rule whose result is ready is passed over, one that is evaluated has its payload and then its header stored, the last
one gives D the number evaluated; a result that a rule needs and that is not ready makes the unit wait; a GPOS descent goes left or right
by the length of the left child; a finished operation gives D, its WARN bit and its flags, and leaves the GR count.
(That a step is one rule is log entry 38; that the unit's own reads wait for the task's pushes, log entry 89.) -/
def Sys2Proof.Part.RuleUnit : Prop :=
  (∀ (s : State) c g rest r, (s.coreOf c).ctx.gops = g :: rest → g.result = some r → ∃ t, exec (.grammarOpComplete c) s = .next t
    ∧ (t.coreOf c).ctx.gops = rest ∧ (t.coreOf c).ctx.gr = (s.coreOf c).ctx.gr - 1 ∧ (t.coreOf c).ctx.getX g.d = (if g.d = 0 then 0 else r.1)
    ∧ (∀ n, n ≠ g.d → (t.coreOf c).ctx.getX n = (s.coreOf c).ctx.getX n) ∧ (t.coreOf c).ctx.warn = (s.coreOf c).ctx.warn ||| r.2
    ∧ (t.coreOf c).ctx.fpf = (s.coreOf c).ctx.fpf ||| g.fl ∧ t.near = s.near ∧ t.quarry = s.quarry)
  ∧ (∀ (s : State) c g rest, (s.coreOf c).ctx.gops = g :: rest → g.result = none → (s.coreOf c).ctx.asyncs = [] →
    (let f := s.focusOn c
     (∀ bs, g.started = false → UnitReads f g.a 64 bs → hdrOf g.a bs = none → ∃ t, exec (.ruleEvaluate c) s = .next t
       ∧ (t.coreOf c).ctx = { (s.coreOf c).ctx with asyncs := [{ cause := .grammarBad, faddr := g.a, unit := 2, async := true }] })
     ∧ (g.started = false → pushPending f g.a.toNat 64 = true → ∃ t, exec (.ruleEvaluate c) s = .next t ∧ UnitAt c g rest s t)
     ∧ (∀ h, GrammarAt f g h →
       (g.started = false → 1 ≤ g.major → g.major ≤ 3 →
         (let begins (g' : GOp) : Prop := ∃ t, exec (.ruleEvaluate c) s = .next t ∧ UnitAt c { g' with started := true } rest s t
          let p := g.c.toNat % 2 ^ 32
          (∀ v w, Rejection h g v w → begins { g with result := some (v, w) })
          ∧ ((∀ v w, ¬ Rejection h g v w) →
            (g.major = 1 → begins g)
            ∧ (g.major = 2 → ∀ lb, UnitReads f (h.rules + BitVec.ofNat 64 (16 * h.start + 12)) 4 lb →
              (leNat lb < p ∨ (leNat lb = p ∧ g.fn ≠ 0) → begins { g with result := some (0x8000000000000003, wCombo) })
              ∧ (p < leNat lb ∨ (leNat lb = p ∧ g.fn = 0) → begins { g with cur := h.start, pos := p, acc := (opIdentity g.mod).v }))
            ∧ (g.major = 3 → begins { g with cur := p, acc := (opIdentity g.mod).v }))))
       ∧ (g.started = false → g.major = 0 →
         (let first := g.c.toNat % 2 ^ 32
          let last := g.c.toNat / 2 ^ 32
          let rejected (v : Word) (w : Warn) : Prop := ∃ t, exec (.ruleEvaluate c) s = .next t
            ∧ UnitAt c { g with started := true, result := some (v, w) } rest s t
          (h.matrix = true → rejected 0x8000000000000002 wCombo)
          ∧ (h.matrix = false → 12 ≤ g.fn → rejected 0x8000000000000001 wLift)
          ∧ (h.matrix = false → g.fn < 12 → opTakes g.fn h.et = false → rejected 0x8000000000000002 wCombo)
          ∧ (h.matrix = false → g.fn < 12 → opTakes g.fn h.et = true → last < first ∨ h.nrules ≤ last → rejected 0x8000000000000003 wCombo)
          ∧ (h.matrix = false → g.fn < 12 → opTakes g.fn h.et = true → first ≤ last → last < h.nrules →
              ∃ t g', exec (.ruleEvaluate c) s = .next t ∧ UnitAt c g' rest s t ∧ g'.started = true ∧ g'.cur = first ∧ g'.result = none)))
       ∧ (g.started = true → g.major = 0 → ∀ hb, UnitReads f (entryAddr g.b g.fn g.cur) 8 hb → (leNat hb).testBit 63 = true →
         ∃ t g', exec (.ruleEvaluate c) s = .next t ∧ UnitAt c g' rest s t ∧ g'.cur = g.cur + 1 ∧ g'.count = g.count
           ∧ g'.result = (if g.cur + 1 ≤ g.c.toNat / 2 ^ 32 then none else some (BitVec.ofNat 64 (g.count % 2 ^ 32), 0)))
       ∧ (g.started = true → g.major = 0 → ∀ hb r f2, (let ea := entryAddr g.b g.fn g.cur
         let pay := entryBytes g.fn r.1
         UnitReads f ea 8 hb → (leNat hb).testBit 63 = false →
         evalRule g.fn h g.b g.cur (refreshed f ea) = .ok (r, f2) → f2.core.ctx = f.core.ctx → f2.core.id = c → f2.near = f.near →
         f.core.ctx.stores = [] → f.core.ctx.loads = [] → f.core.ctx.mxops = [] → f.core.ctx.gathers = [] → (∀ n : Fin 8, (f.core.ctx.streams[n]).out = true → (f.core.ctx.streams[n]).buf = []) → f2.poison = [] →
         isNear ea.toNat = true → isNear (ea + 8).toNat = true → nearSpanOk f2 ea.toNat 8 = true → nearSpanOk f2 (ea + 8).toNat pay.length = true →
         windowSlots (f2.tileOf (nearTile ea.toNat)) = [] → windowSlots (f2.tileOf (nearTile (ea + 8).toNat)) = [] →
         ∃ t, exec (.ruleEvaluate c) s = .next t
           ∧ t.near = ((s.nearWrite (ea + 8).toNat pay).nearWrite ea.toNat (wordBytes (entryHead g.fn r.1))).near
           ∧ (t.coreOf c).ctx = { (s.coreOf c).ctx with gops := { g with
               cur := g.cur + 1, count := g.count + 1, fl := g.fl ||| r.2
               result := if g.cur + 1 ≤ g.c.toNat / 2 ^ 32 then none else some (BitVec.ofNat 64 ((g.count + 1) % 2 ^ 32), 0) } :: rest }))
       ∧ (g.started = true → g.major = 0 → ∀ hb, UnitReads f (entryAddr g.b g.fn g.cur) 8 hb → (leNat hb).testBit 63 = false →
         evalRule g.fn h g.b g.cur (refreshed f (entryAddr g.b g.fn g.cur)) = .error (.stall .acquire) →
         ∃ t, exec (.ruleEvaluate c) s = .next t ∧ UnitAt c g rest s t)
       ∧ (g.started = true → g.major = 2 → g.fn = 2 → ∀ q, readRule h g.cur f = .ok (q, f) → q.kind = 1 →
         ∃ t, exec (.ruleEvaluate c) s = .next t
           ∧ UnitAt c (if g.pos < q.lenA then { g with cur := q.a } else { g with cur := q.b, pos := g.pos - q.lenA }) rest s t))))

namespace Sys2Proof.Say

/-- One output element of a map of elements, and its type (R114). -/
def mapOutType (h : GHdr) (g : GOp) : ElemTy :=
  match g.fn with
  | 0 => (elemOfCode g.mod).getD h.et
  | 3 => h.et
  | _ => .fp32
def mapped (h : GHdr) (g : GOp) (x : Nat) : Nat × Flags :=
  let c := unpack fp32 (g.c.toNat % 2 ^ 32)
  let wide := widenFp h.et x
  match g.fn with
  | 0 => cvtScal (mapOutType h g) h.et x
  | 1 => let r := mulFV fp32 (unpack fp32 wide.1) c; (r.1, wide.2 ||| r.2)
  | 2 => let r := addFV fp32 (unpack fp32 wide.1) c; (r.1, wide.2 ||| r.2)
  | _ => ((BitVec.ofNat (8 * elemSize h.et) x + g.c.setWidth _).toNat, 0)
/-- The value of a GPOS reduction (R113). -/
def readOut (op : Nat) (a : GVal) : Word × Flags :=
  if op = 10 then (BitVec.ofNat 64 (fsumRead a).1, (fsumRead a).2) else (BitVec.ofNat 64 a.v.toNat, 0)
/-- What GEXP emits for an element: the element, or the running value of the operator in its type (R115). -/
def emitted (h : GHdr) (g : GOp) (x : Nat) : List Byte × GVal × Flags :=
  let acc : GVal := { v := g.acc, fl := g.accFl }
  let n := elemSize h.et
  if g.fn = 0 then (leBytes n x, acc, 0)
  else
    let e := opElem g.mod h.et x
    let r := opCombine g.mod h.et acc e.1
    let size := if g.mod = 0 ∨ g.mod = 11 then 8 else if g.mod ≤ 7 ∨ g.mod = 12 then n else 4
    let v := readOut g.mod r.1
    (if g.mod = 10 then leBytes size v.1.toNat else leBytes size r.1.v.toNat, r.1, e.2 ||| r.2 ||| v.2)

end Sys2Proof.Say

/-- The pieces of GMAP, GPOS and GEXP (R113, R114, R115), each of the operation at the head of the queue, started and with a header that
passes: GMAP stores one output per stored element or row and then its header; GPOS goes down one level, with the part passed over
combined from the results table, and ends at a terminal; GEXP enters a rule, or yields one element to its buffer or its stream, and a 257th
level is GRAMMAR_BAD. (That a step is one such piece is log entry 38; that a row of ROWDOT and its vector are one access each, log entry 99;
that GPOS has no limit of levels, log entry 100.) -/
def Sys2Proof.Part.RuleSteps : Prop :=
  ∀ (s : State) c g rest h, (s.coreOf c).ctx.gops = g :: rest → g.result = none → g.started = true → (s.coreOf c).ctx.asyncs = [] →
    GrammarAt (s.focusOn c) g h →
    let f := s.focusOn c
    let x := (s.coreOf c).ctx
    let n := elemSize h.et
    let becomes (g' : GOp) : Prop := ∃ t, exec (.ruleEvaluate c) s = .next t ∧ UnitAt c g' rest s t
    let stores (ea : Word) (bs : List Byte) (g' : GOp) : Prop := isNear ea.toNat = true → nearSpanOk f ea.toNat bs.length = true → s.poison = [] →
      windowSlots (f.tileOf (nearTile ea.toNat)) = [] → ∃ t, exec (.ruleEvaluate c) s = .next t
        ∧ t.near = (s.nearWrite ea.toNat bs).near ∧ (t.coreOf c).ctx = { x with gops := g' :: rest }
    let found (i : Nat) (eb : List Byte) : Prop := UnitReads f (h.data + BitVec.ofNat 64 (i * n)) n eb
    (g.major = 1 → (let sz := elemSize (mapOutType h g)
      (g.cur < h.nterm → ∀ r : Nat × Flags,
        (if g.fn = 4 then ∃ rb vb, UnitReads f (h.data + BitVec.ofNat 64 (g.cur * h.rowlen * n)) (h.rowlen * n) rb
            ∧ UnitReads f g.c (4 * h.rowlen) vb
            ∧ r = sumRound ((List.range h.rowlen).map fun j =>
                mulExact (unpack (elemFmt h.et) (leNat ((rb.drop (n * j)).take n))) (unpack fp32 (leNat ((vb.drop (4 * j)).take 4))))
         else ∃ eb, found g.cur eb ∧ r = mapped h g (leNat eb)) →
        stores (g.b + BitVec.ofNat 64 (64 + g.cur * sz)) (leBytes sz r.1) { g with cur := g.cur + 1, fl := g.fl ||| r.2 })
      ∧ (h.nterm ≤ g.cur → stores g.b
        (leBytes 4 0x47594B56 ++ leBytes 2 1 ++ leBytes 1 (elemCode (mapOutType h g)) ++ leBytes 1 h.w ++ leBytes 4 h.nrules ++ leBytes 4 h.nterm
          ++ leBytes 4 h.start ++ leBytes 4 0 ++ wordBytes (h.rules - g.b) ++ leBytes 8 64 ++ zeroBytes 24)
        { g with result := some (BitVec.ofNat 64 (64 + h.nterm * sz), 0) })))
    ∧ (g.major = 2 → ∀ q, readRule h g.cur f = .ok (q, f) →
      (let acc : GVal := { v := g.acc, fl := g.accFl }
       let quiet (f2 : State) : Prop := f2.core.ctx = f.core.ctx ∧ f2.core.id = c ∧ f2.near = f.near ∧ f2.quarry = f.quarry
       let down (ea p : Nat) (r : GVal × Flags) : GOp := { g with cur := ea, pos := p, acc := r.1.v, accFl := r.1.fl, fl := g.fl ||| r.2 }
       (g.fn = 2 → (q.kind = 2 → becomes { g with cur := q.a, pos := g.pos - g.pos / q.lenA * q.lenA })
         ∧ (q.kind = 0 → ∀ eb, found (q.a + g.pos) eb →
             (let v : Word := if elemSigned h.et then (BitVec.ofNat (8 * n) (leNat eb)).signExtend 64 else BitVec.ofNat 64 (leNat eb)
              becomes { g with result := some (v, 0) })))
       ∧ (g.fn = 0 → g.pos = 0 → becomes { g with result := some ((readOut g.mod acc).1, 0), fl := g.fl ||| (readOut g.mod acc).2 })
       ∧ (g.fn = 1 ∨ (g.fn = 0 ∧ g.pos ≠ 0) →
         (q.kind = 1 → g.pos < q.lenA → becomes { g with cur := q.a })
         ∧ ((q.kind = 1 ∧ q.lenA ≤ g.pos) ∨ q.kind = 2 → readRes g.b g.mod q.a f = .error (.stall .acquire) → becomes g)
         ∧ (q.kind = 1 → q.lenA ≤ g.pos → ∀ v f2, readRes g.b g.mod q.a f = .ok (v, f2) → quiet f2 →
           becomes (down q.b (g.pos - q.lenA) (opCombine g.mod h.et acc v)))
         ∧ (q.kind = 2 → ∀ v f2, readRes g.b g.mod q.a f = .ok (v, f2) → quiet f2 →
           becomes (down q.a (g.pos - g.pos / q.lenA * q.lenA) (opCombine g.mod h.et acc (opPower g.mod v (g.pos / q.lenA)))))
         ∧ (q.kind = 0 → ∀ r, foldElems g.mod h acc 0 q.a (if g.fn = 1 then g.pos + 1 else g.pos) f = .ok (r, f) →
           becomes { g with result := some ((readOut g.mod r.1).1, 0), fl := g.fl ||| r.2 ||| (readOut g.mod r.1).2 }))))
    ∧ (g.major = 3 → (let cols := if h.matrix then h.rowlen else 1
      let enters (g0 : GOp) (r : Nat) (above : List (Nat × Nat)) : Prop :=
        (256 ≤ above.length → ∃ t, exec (.ruleEvaluate c) s = .next t ∧ (t.coreOf c).ctx =
          { x with asyncs := [{ cause := .grammarBad, faddr := h.rules + BitVec.ofNat 64 (16 * r), unit := 2, async := true }] })
        ∧ (above.length < 256 → ∀ q, readRule h r f = .ok (q, f) →
          (let work := if q.kind = 1 then 2 else q.b
           becomes { g0 with stack := if work = 0 then above else (r, work) :: above, pos := 0 }))
      (dropDone g.stack = [] → (g.cur ≤ g.c.toNat / 2 ^ 32 → enters { g with cur := g.cur + 1 } g.cur [])
        ∧ (g.c.toNat / 2 ^ 32 < g.cur → becomes { g with stack := [], result := some (BitVec.ofNat 64 (g.count / cols), 0) }))
      ∧ (∀ r k above q, dropDone g.stack = (r, k) :: above → readRule h r f = .ok (q, f) →
        (q.kind ≠ 0 → enters g (if q.kind = 1 ∧ k = 1 then q.b else q.a) ((r, k - 1) :: above))
        ∧ (q.kind = 0 → ∀ eb, found ((q.a + q.b - k) * cols + g.pos) eb →
          (let e := emitted h g (leNat eb)
           let past := g.pos + 1 = cols
           let g' : GOp := { g with
             stack := if ¬ past then (r, k) :: above else if k = 1 then above else (r, k - 1) :: above
             pos := if past then 0 else g.pos + 1, count := g.count + 1, acc := e.2.1.v, accFl := e.2.1.fl, fl := g.fl ||| e.2.2 }
           (g.bs = none → stores (g.b + BitVec.ofNat 64 (g.count * e.1.length)) e.1 g')
           ∧ (∀ k : Fin 8, g.bs = some k → (let d := x.streams[k]
              d.bound = true → d.out = true → d.done + 1 ≤ d.total → (d.buf.length + 1) * d.esz ≤ 256 →
              ∃ t, exec (.ruleEvaluate c) s = .next t ∧ t.near = s.near ∧ (t.coreOf c).ctx = { x with
                warn := x.warn ||| (if d.esz ≠ e.1.length then wCombo else 0)
                streams := x.streams.set k.val { d with buf := d.buf ++ [(e.1 ++ zeroBytes d.esz).take d.esz], done := d.done + 1 }
                gops := g' :: rest })))))))

/-- Streams and gathers behind issue (R67, R141, R149, R349): the transfer unit fetches the next element of an input pattern into a buffer
with room and writes the oldest pushed element of an output pattern; the oldest gather whose stream has room delivers one near element and
ends with its last, or stops at an element that is not near in the partition or whose word is uncorrectable, or at a place of its buffer
that is out of bounds. (The order of several gathers is log entry 41.) -/
def Sys2Proof.Part.StreamUnits : Prop :=
  (∀ (s : State) c n, (let x := (s.coreOf c).ctx
     let p := x.streams[n]
     let ea := p.addrOf p.moved
     p.bound = true → p.kind = .pattern → p.out = false → p.moved < p.total → (p.buf.length + 1) * p.esz ≤ 256 → p.held = none →
     NearOpen (s.focusOn c) ea p.esz → ∃ t, exec (.streamTransfer c n) s = .next t
       ∧ (t.coreOf c).ctx = { x with streams := x.streams.set n.val { p with buf := p.buf ++ [s.nearRead ea.toNat p.esz], moved := p.moved + 1 } }
       ∧ t.near = s.near))
  ∧ (∀ (s : State) c n e rest, (let x := (s.coreOf c).ctx
     let p := x.streams[n]
     let ea := p.addrOf p.moved
     p.bound = true → p.kind = .pattern → p.out = true → p.buf = e :: rest → e.length = p.esz → isNear ea.toNat = true →
     nearSpanOk (s.focusOn c) ea.toNat p.esz = true →
     (touchesWindow (s.focusOn c) ea.toNat = true → windowSlots (s.tileOf (nearTile ea.toNat)) = []) →
     partPoison s ea.toNat p.esz = false → ∃ t, exec (.streamTransfer c n) s = .next t
       ∧ (t.coreOf c).ctx = { x with streams := x.streams.set n.val { p with buf := rest, moved := p.moved + 1 } }
       ∧ t.near = (s.nearWrite ea.toNat e).near))
  ∧ (∀ (s : State) c pre g rest, (let x := (s.coreOf c).ctx
     let full (q : Gather) : Prop := ∃ n : Fin 8, q.dst = some n ∧ 256 < ((x.streams[n]).buf.length + 1) * q.size
     x.gathers = pre ++ g :: rest → (∀ q ∈ pre, q.next < q.count ∧ full q) → ¬ full g → g.next < g.count →
     (let ea := g.base + BitVec.ofNat 64 (nth g.idx g.next 0 * g.size)
      let bs := s.nearRead ea.toNat g.size
      let last := decide (g.next + 1 = g.count)
      let after := pre ++ (if last then [] else [{ g with next := g.next + 1 }]) ++ rest
      let ld := if last then x.ld - 1 else x.ld
      let inReach (a : Nat) : Prop := isNear a = true ∧ nearSpanOk (s.focusOn c) a g.size = true
      let noWindow (a : Nat) : Prop := touchesWindow (s.focusOn c) a = true → windowSlots (s.tileOf (nearTile a)) = []
      let place := g.buf.toNat + g.next * g.size
      let stops (tr : Trap) : Prop := x.asyncs.contains tr = false → ∃ t, exec (.gatherElementReply c) s = .next t ∧ t.near = s.near
        ∧ (t.coreOf c).ctx.gathers = pre ++ rest ∧ (t.coreOf c).ctx.ld = x.ld - 1 ∧ (t.coreOf c).ctx.asyncs = x.asyncs ++ [tr]
      let lowest (a : Nat) : Word := BitVec.ofNat 64 (if isNear a then nearFault (s.focusOn c) a g.size else a)
      (inReach ea.toNat → noWindow ea.toNat → poisoned s ea.toNat g.size = false →
        (g.dst = none → inReach place → partPoison s place g.size = false →
          noWindow place →
          ∃ t, exec (.gatherElementReply c) s = .next t ∧ t.near = (s.nearWrite place bs).near
          ∧ (t.coreOf c).ctx = { x with gathers := after, ld := ld })
        ∧ (g.dst = none → ¬ inReach place → stops { cause := .nearBounds, faddr := lowest place, w := true, unit := 4, async := true })
        ∧ (∀ n : Fin 8, g.dst = some n → ∃ t, exec (.gatherElementReply c) s = .next t ∧ t.near = s.near
            ∧ (t.coreOf c).ctx.gathers = after ∧ (t.coreOf c).ctx.ld = ld
            ∧ ((t.coreOf c).ctx.streams[n]).buf = (x.streams[n]).buf ++ [bs]
            ∧ ((t.coreOf c).ctx.streams[n]).closed = ((x.streams[n]).closed || last)))
      ∧ (¬ inReach ea.toNat → stops { cause := .nearBounds, faddr := lowest ea.toNat, unit := 4, async := true })
      ∧ (inReach ea.toNat → poisoned s ea.toNat g.size = true → stops { cause := .mcheck, faddr := ea, unit := 4, async := true }))))

namespace Sys2Proof.Say

/-- A core that is next at the fetch block that core c waits for, in its quad and its device (R53, R188). -/
def nextThere (s : State) (c j : CoreId) : Prop :=
  (s.coreOf j).mode = .running ∧ (s.coreOf j).ctx.wd = false ∧ sameGroup .quad j c = true ∧ s.vdOf j = s.vdOf c
    ∧ (s.coreOf j).ctx.pc.toNat / 32 = (s.coreOf c).ctx.pc.toNat / 32

end Sys2Proof.Say

/-- Fetches, walks and remote accesses (R7, R53, R120, R122, R125, R188, R378): a quad's unit serves the waiting core of the lowest block,
or the one that has waited longest once one has waited 8 cycles; a block goes to every core of the quad that is next at it, and into the
quad's cache, unless a word of it is uncorrectable or its MAC does not match (R128, R244); a page walk fills the TLBs; a remote near write
lands in the slice that owns it. (Log entries 12 and 74.) -/
def Sys2Proof.Part.MemoryUnits : Prop :=
  (∀ (s : State) c k, quadTurn s c = some k → k ∈ s.allCores ∧ k.asking = true ∧ sameGroup .quad k.id c = true
    ∧ ∀ j ∈ s.allCores, sameGroup .quad j.id c = true → j.asking = true →
      if 8 ≤ k.waited s.time ∨ 8 ≤ j.waited s.time then j.waited s.time ≤ k.waited s.time else k.ctx.pc.toNat / 32 ≤ j.ctx.pc.toNat / 32)
  ∧ (∀ (s s2 : State) c k bs, OneEach s → quadTurn s c = some k → k.id = c → blockBytes (s.focusOn c) = .ok (bs, s2) →
    ∃ t, exec (.fetchDeliver c) s = .next t ∧ (∀ j, (t.coreOf j).ctx = (s.coreOf j).ctx)
      ∧ (∀ j, nextThere s c j → (t.coreOf j).fblock = some ((s.coreOf c).ctx.pc.toNat / 32, bs) ∧ (t.coreOf j).asked = none)
      ∧ (∀ j, ¬ nextThere s c j → (t.coreOf j).fblock = (s.coreOf j).fblock ∧ (t.coreOf j).asked = (s.coreOf j).asked))
  ∧ (∀ (s : State), (let b := s.core.ctx.pc.toNat / 32
     (∀ l, codeFind s s.core.id b = some l → blockBytes s = .ok (l.bytes, s))
     ∧ (codeFind s s.core.id b = none → isNear (b * 32) = true → poisoned s (b * 32) 32 = true → blockBytes s = .error .mcheck)
     ∧ (codeFind s s.core.id b = none → isNear (b * 32) = true → poisoned s (b * 32) 32 = false → ∃ s2, blockBytes s = .ok (s.nearRead (b * 32) 32, s2) ∧ s2.near = s.near
       ∧ (s.vd ≠ none → (codeFind s2 s2.core.id b).map CodeLine.bytes = some (s.nearRead (b * 32) 32)))
     ∧ (∀ pa s1, codeFind s s.core.id b = none → isNear (b * 32) = false → translate (b * 32) { x := true } false s = .ok (pa, s1) →
       pa + 32 ≤ 2 ^ 51 → (sealFails s s.key (pa / 256) = true → blockBytes s = .error .mcheck)
         ∧ (sealFails s s.key (pa / 256) = false →
           ∃ s2, blockBytes s = .ok ((List.range' pa 32).map (memGet s.quarry), s2) ∧ s2.quarry = s1.quarry))))
  ∧ (∀ (s : State) c va write d l, isFar va = true → (s.focusOn c).dev = some d → walkSealed (s.focusOn c) d va = false → tlbHit (s.coreOf c).mtlb d.num d.root va = none →
     tlbHit (s.tileOf (coreTile c)).tlb d.num d.root va = none → walk s.quarry d.root va = .ok l →
     ((s.coreOf c).ctx.svc = true ∨ l.pte.getLsbD 5 = true) → (write = true → l.pte.getLsbD 2 = true) → leafPa l.vpage (pteTouched l.pte write) va < 2 ^ 51 → memWf s.quarry = true →
     ∃ t, exec (.pageWalkComplete c va write) s = .next t
       ∧ tlbHit (t.coreOf c).mtlb d.num d.root va
           = some { vpage := l.vpage, size := l.size, pte := pteTouched l.pte write, dev := d.num, root := d.root }
       ∧ memWord t.quarry l.at_ = pteTouched l.pte write ∧ (t.coreOf c).ctx = (s.coreOf c).ctx ∧ t.near = s.near)
  ∧ (∀ (s : State) addr data, isNear addr = true → nearExists addr = true →
     exec (.remoteNearAccess true addr data) s = .next { s.nearWrite addr data with poison := clearPoison addr data.length s.poison })
  ∧ (∀ (s : State) addr data, exec (.remoteNearAccess false addr data) s = .next s)

/-- Traps behind issue and the way home (R204, R207-R209, R238): a held fault of a running core is taken as a trap; a context that waited
for a migration slot goes to the lowest free one, or is held for the debugger, and while there is none its core stalls; an image without a
service task gets one, in service mode at priority 124 with the slot's address in x1, or is destroyed when its entry is 0; a context on its
way comes back behind those that came before; a held context whose counters are zero lets its service routine's load go on.
(That the slot is the lowest free one is log entry 20; that the mark of a service task bears the course of the context under service, log
entry 28.) -/
def Sys2Proof.Part.TrapUnits : Prop :=
  (∀ (s : State) c tr rest, (s.coreOf c).ctx.asyncs = tr :: rest → (s.coreOf c).mode = .running → s.liveOn c = true →
    exec (.asyncFaultTake c) s = .next ((takeTrap tr (s.focusOn c)).focusOn s.core.id))
  ∧ (∀ (s : State), s.core.ctx.asyncs = [] ∨ s.core.mode ≠ .running ∨ s.liveOn s.core.id = false →
    exec (.asyncFaultTake s.core.id) s = .next s)
  ∧ (∀ (s : State), s.core.mode = .trapped → s.liveOn s.core.id = true →
      (let stop := isDebugStop s (causeOf (s.core.ctx.fault.toNat % 64))
       let slot := freeSlot (s.tileOf (coreTile s.core.id))
       (slot ≠ none → exec (.trapMigrate s.core.id) s = .next (if stop then debugHold s else migrate (settle s)))
       ∧ (slot = none → ∃ t, exec (.trapMigrate s.core.id) s = .next t ∧ t.core.mode = .trapped
           ∧ t.core.ctx = (if stop then drainAll s else settle s).core.ctx)))
  ∧ (∀ (s : State), s.core.mode ≠ .trapped ∨ s.liveOn s.core.id = false → exec (.trapMigrate s.core.id) s = .next s)
  ∧ (∀ (s : State) n k, s.vd = some n → freeSlot (s.tileOf (coreTile s.core.id)) = some k → (∀ c ∈ s.core.ctx.urs, c.1 < 0x8000) →
      memWf s.near = true →
      memWord (migrate s).near (slotAddr (coreTile s.core.id) k.val + 0x80D0) = s.core.ctx.pc
        ∧ (migrate s).core.mode = .idle ∧ (migrate s).core.id = s.core.id)
  ∧ (∀ (s : State) t slot n, (s.tileOf t).slots[slot] = .image n →
      (let a := slotAddr t slot.val
       let fault := memWord s.near (a + 0x8070)
       (serviced s t slot = true → exec (.serviceTaskCreate t slot) s = .next s)
       ∧ (∀ m d, serviced s t slot = false → (s.tileOf t).vd = some m → s.devOf m = some d →
         (let entry := serviceEntry s d (fault.toNat % 64)
          (entry.toNat % 2 ^ 48 / 4 ≠ 0 → ∃ u x, exec (.serviceTaskCreate t slot) s = .next u
            ∧ (u.coreOf (keystoneOf t)).svcq = (s.coreOf (keystoneOf t)).svcq ++ [x] ∧ x.svc = true ∧ x.prio = 124 ∧ x.under = some slot
            ∧ x.pc.toNat = entry.toNat % 2 ^ 48 / 4 * 4 ∧ x.getX 1 = BitVec.ofNat 64 a ∧ x.getX 2 = fault
            ∧ markCourse x.mark = markCourse (memWord s.near (a + 0x8020)) ∧ u.near = s.near)
          ∧ (entry.toNat % 2 ^ 48 / 4 = 0 → ∃ u, exec (.serviceTaskCreate t slot) s = .next u ∧ (u.tileOf t).slots[slot] = .free
            ∧ u.host.lostService = s.host.lostService + 1 ∧ u.near = s.near ∧ u.core = s.core ∧ u.others = s.others
            ∧ ∀ l ∈ u.locks, l ∈ s.locks
                ∧ ¬ (l.holder.toNat = leNat (memRead s.near (a + 0x8030) 8) % 2 ^ 15 ∧ l.mark = memWord s.near (a + 0x8020)))))))
  ∧ (∀ (s : State) i c x, s.returning[i]? = some (c, x) → ∃ t, exec (.contextReturn i) s = .next t ∧ t.returning = s.returning.eraseIdx i
      ∧ (t.coreOf c).back = (s.coreOf c).back ++ [x] ∧ (t.coreOf c).mode = (s.coreOf c).mode ∧ (t.coreOf c).ctx = (s.coreOf c).ctx
      ∧ t.near = (s.traceAt c 3 x.mark x.pc).near ∧ t.quarry = s.quarry)
  ∧ (∀ (s : State) i, s.returning[i]? = none → exec (.contextReturn i) s = .next s)
  ∧ (∀ (s : State) c k, (s.coreOf c).mode = .held k → (let x := (s.coreOf c).ctx
      (x.ld = 0 → x.st = 0 → x.job = 0 → x.mx = 0 → x.gr = 0 → (s.coreOf (keystoneOf (coreTile c))).ctx.stall = some .acquire →
        ∃ t, exec (.settleRequest c) s = .next t ∧ (t.coreOf (keystoneOf (coreTile c))).ctx.stall = none ∧ t.near = s.near)
      ∧ (x.ld ≠ 0 ∨ x.st ≠ 0 ∨ x.job ≠ 0 ∨ x.mx ≠ 0 ∨ x.gr ≠ 0 → exec (.settleRequest c) s = .next s)))

namespace Sys2Proof.Say

/-- A core without a fault held, outstanding work or a held context: what a pre-emption finds of it is all there is. -/
structure QuietCore (co : Core) : Prop where
  mode : co.mode = .idle ∨ co.mode = .running
  none : co.ctx.asyncs = [] ∧ co.ctx.loads = [] ∧ co.ctx.stores = [] ∧ co.ctx.mxops = [] ∧ co.ctx.gathers = []

end Sys2Proof.Say

/-- The time slice (R11, R211): every running device with a tile in the lintel's quadrant, one after the other, is pre-empted and, since no
other device holds its tiles, switched in again; the other devices keep everything. A quiet core comes back as it was, its fetch block and
its stall aside. A device with a held context whose queued grammar operations still run waits for them (R238). (Log entry 57.) -/
def Sys2Proof.Part.TimeSlices : Prop :=
  (∀ (s : State) (l : Fin 4), exec (.timeSliceSwitch l) s = .next ((s.devs.filter fun d =>
    d.state == .running && d.tiles.any (fun t => t.toNat / 128 == l.val) && !heldBusy s d).foldl sliceSwitch s))
  ∧ (∀ (s : State) l, (∀ d ∈ s.devs, d.state = .running → heldBusy s d = true ∨ ∀ t ∈ d.tiles, t.toNat / 128 ≠ l.val) →
    exec (.timeSliceSwitch l) s = .next s)
  ∧ (∀ (s : State) (l : Fin 4) d, OneEach s → s.devs = [d] → d.state = .running → d.saves = [] → (∃ t ∈ d.tiles, t.toNat / 128 = l.val) → s.returning = [] →
      s.colls = [] → (∀ t ∈ d.tiles, (s.tileOf t).jobs = []) → (∀ co ∈ s.allCores, coreTile co.id ∈ d.tiles → QuietCore co) →
      ∃ t, exec (.timeSliceSwitch l) s = .next t ∧ t.devs = [{ d with saves := [], sliceAt := s.time }] ∧ t.mortar = s.mortar
        ∧ ∀ tile ∈ d.tiles, ∀ k < 33, (let co := s.coreOf (mkCore tile k)
            let u := t.coreOf (mkCore tile k)
            u.mode = co.mode ∧ u.runq = co.runq ∧ u.deque = co.deque ∧ u.tags = co.tags ∧ u.arrq = co.arrq ∧ u.svcq = co.svcq
              ∧ u.bkpt = co.bkpt ∧ u.ctx = { co.ctx with job := 0, stall := if co.mode = .idle then co.ctx.stall else none }
              ∧ u.back = co.back.map fun x => { x with job := 0 }))

/-! Jobs. -/

namespace Sys2Proof.Say

def jobSrc (j : Job) : Nat := cardField j.card 8 8
def jobDst (j : Job) : Nat := cardField j.card 16 8
def jobParam (j : Job) : Nat := cardField j.card 24 4
/-- A byte of the partition that an engine may reach through handle 0 (R119, R130; that the areas closed to tasks are closed to engines is
log entry 32). -/
def engOpen (d : Device) (a : Nat) : Bool :=
  isNear a && nearExists a && d.tiles.contains (nearTile a) && !isSpill a && !isMigSlot a && !isObs a
/-- A job may read [a, a + n): open bytes of its read footprint without an uncorrectable error. -/
structure Feeds (s : State) (d : Device) (j : Job) (a n : Nat) : Prop where
  open_ : ∀ i < n, engOpen d (a + i) = true
  foot : jobSrc j ≤ a ∧ a + n ≤ jobSrc j + cardField j.card 56 4
  clean : ∀ w ∈ s.poison, w + 8 ≤ a ∨ a + n ≤ w
/-- A job may write [a, a + n): open bytes of its write footprint, no word of them uncorrectable (R244). -/
structure Sinks (s : State) (d : Device) (j : Job) (a n : Nat) : Prop where
  open_ : ∀ i < n, engOpen d (a + i) = true
  clean : ∀ w ∈ s.poison, w + 8 ≤ a ∨ a + n ≤ w
  foot : jobDst j ≤ a ∧ a + n ≤ jobDst j + cardField j.card 60 4
/-- A job of a type that may start and feeds no stream. -/
structure Starts (s : State) (t : TileId) (seq type : Nat) (j : Job) (d : Device) : Prop where
  job : (s.tileOf t).job seq = some j
  dev : s.devOf j.vd = some d
  type : cardField j.card 0 2 = type
  may : mayStart (s.tileOf t) j = true
  plain : j.stream = none
  fresh : j.count = 0
  mem : memWf s.near = true
/-- The job has ended. -/
def EndsAs (t : TileId) (seq : Nat) (j : Job) (status : BitVec 32) (count : Word) (u : State) : Prop :=
  (u.tileOf t).job seq = some { j with state := .ended, status := status, count := count, out := [], ahead := 0 }
/-- A step that ends the job OK with bytes written from DST on, and nothing else written. -/
def Delivers (i : Instr) (t : TileId) (seq : Nat) (j : Job) (bs : List Byte) (s : State) : Prop :=
  ∃ u, exec i s = .next u ∧ EndsAs t seq j 0 (BitVec.ofNat 64 bs.length) u ∧ u.quarry = s.quarry
    ∧ (∀ k < bs.length, memGet u.near (jobDst j + k) = nth bs k 0)
    ∧ ∀ a, a < jobDst j ∨ jobDst j + bs.length ≤ a → memGet u.near a = memGet s.near a
/-- Two ranges in one space that share a byte. -/
def Overlap (a b : Range) : Prop := a.near = b.near ∧ 0 < a.len ∧ 0 < b.len ∧ a.lo < b.lo + b.len ∧ b.lo < a.lo + a.len
/-- The card's type codes and element types. -/
def cardIn (j : Job) : Option ElemTy := elemOfCode (cardByte j.card 28 % 16)
def cardOut (j : Job) : Option ElemTy := elemOfCode (cardByte j.card 29 % 16)

end Sys2Proof.Say

/-- The data jobs (R130, R133, R134, R137, R138, R180, R181) on near memory: COPY moves PARAM bytes, or the source elements in pattern order
into the destination elements; GATHER packs indexed elements; CONVERT converts from FIN to FOUT; EXPAND writes its block expanded,
and a delta block ends it with FORMAT. A job with an earlier conflicting one, or without a free engine of its type, does not start (R7). (That
a job runs whole in one step is log entry 39; that its ranges go on past the end of a slot, log entry 70; what CONVERT makes of a pair of types
that R90 has no row for, log entry 102.) -/
def Obligations.DataJobs : Prop :=
  (∀ (s : State) t seq j d, Starts s t seq 1 j d → (cardField j.card 2 2).testBit 4 = false →
    Feeds s d j (jobSrc j) (jobParam j) → Sinks s d j (jobDst j) (jobParam j) →
      Delivers (.jobCopy t seq) t seq j (memRead s.near (jobSrc j) (jobParam j)) s)
  ∧ (∀ (s : State) t seq j d, Starts s t seq 1 j d → (cardField j.card 2 2).testBit 4 = true →
    (let p := j.pats.1
     let q := j.pats.2
     let from_ (k : Nat) : Nat := nth (p.addrs (jobSrc j)) (k / p.esz) 0 + k % p.esz
     let to_ (k : Nat) : Nat := nth (q.addrs (jobDst j)) (k / q.esz) 0 + k % q.esz
     let n := p.total * p.esz
     n = q.total * q.esz → (∀ a ∈ p.addrs (jobSrc j), Feeds s d j a p.esz) → (∀ a ∈ q.addrs (jobDst j), Sinks s d j a q.esz) →
     (∀ k k', k < n → k' < n → to_ k = to_ k' → k = k') →
     ∃ u, exec (.jobCopy t seq) s = .next u ∧ EndsAs t seq j 0 (BitVec.ofNat 64 n) u
       ∧ (∀ k < n, memGet u.near (to_ k) = memGet s.near (from_ k))
       ∧ (∀ a, (∀ k < n, to_ k ≠ a) → memGet u.near a = memGet s.near a)))
  ∧ (∀ (s : State) t seq j d, Starts s t seq 2 j d →
    (let ia := leNat (j.descs.take 8)
     let n := leNat ((j.descs.drop 8).take 4)
     let sz := leNat ((j.descs.drop 12).take 4)
     let idx (i : Nat) : Nat := leNat (memRead s.near (ia + 4 * i) 4)
     j.descs.length = 16 → 0 < sz → (∀ i < 4 * n, engOpen d (ia + i) = true) → (∀ w ∈ s.poison, w + 8 ≤ ia ∨ ia + 4 * n ≤ w) →
     (∀ i < n, Feeds s d j (jobSrc j + idx i * sz) sz) → Sinks s d j (jobDst j) (n * sz) →
       Delivers (.jobGather t seq) t seq j ((List.range n).map fun i => memRead s.near (jobSrc j + idx i * sz) sz).flatten s))
  ∧ (∀ (s : State) t seq j d ti tgt, Starts s t seq 4 j d → (cardField j.card 2 2).testBit 4 = false → cardIn j = some ti → cardOut j = some tgt →
    (let bw i := cardByte j.card i / 16 % 8
     let n := if elemIsBlock ti then jobParam j / 32 * (1 + rowBytes ti (bw 28)) else jobParam j * elemSize ti
     let bank := (s.tileOf t).xbank (cardByte j.card 30 % 2 == 1)
     let old := memRead s.near (jobSrc j) n
     let new := convBytes bank ti tgt (bw 28) (bw 29) old
     Feeds s d j (jobSrc j) n → Sinks s d j (jobDst j) new.length → Delivers (.jobConvert t seq) t seq j new s
       ∧ (elemIsScal ti = true → elemIsScal tgt = true →
           new = ofLanes (elemSize tgt) ((lanesOf (elemSize ti) old).map fun v => (cvtScal tgt ti v).1))))
  ∧ (∀ (s : State) t seq j d, Starts s t seq 7 j d → jobParam j = 1 →
    (let hb := memRead s.near (jobSrc j) 64
     let h := blockHdr (jobSrc j) hb
     let pb := memRead s.near (jobSrc j + 64) h.plen.toNat
     let lut := h.opc.toNat < 2 ∧ h.fmt = 14 ∧ h.exp.toNat < 2
     (weightOk h || plainOk h) = true → Feeds s d j (jobSrc j) (64 + h.plen.toNat) →
     (h.opc.toNat < 2 → h.delta = true → ∃ u, exec (.jobExpand t seq) s = .next u ∧ EndsAs t seq j 7 0 u ∧ u.near = s.near)
     ∧ ((h.opc.toNat < 2 → h.delta = false) →
       (¬ lut → Sinks s d j (jobDst j) (64 + h.plen.toNat) → Delivers (.jobExpand t seq) t seq j (hb ++ pb) s)
       ∧ (lut →
         let new := expandedHeader hb h 6 ++ ((chunksOf 1024 (hdrK h / 32 * hdrG h) pb).map (expandLut ((s.tileOf t).xbank h.tgen))).flatten
         Sinks s d j (jobDst j) new.length → Delivers (.jobExpand t seq) t seq j new s))))
  ∧ (∀ (s : State) t seq j q a b, (s.tileOf t).job seq = some j → j.state ≠ .running → q ∈ (s.tileOf t).jobs → q.seq < j.seq → Overlap a b →
    ((a ∈ q.writes ∧ (b ∈ j.reads ∨ b ∈ j.writes)) ∨ (a ∈ q.reads ∧ b ∈ j.writes)) →
      ∀ i ∈ [Instr.jobCopy t seq, .jobGather t seq, .jobConvert t seq, .jobExpand t seq, .jobGbuild t seq, .jobTload t seq, .jobColl t seq],
        exec i s = .next s)
  ∧ (∀ (s : State) t seq j, (s.tileOf t).job seq = some j → j.state ≠ .running →
      (let copy (q : Job) : Bool := cardField q.card 0 2 ≤ 3
       (if copy j then 2 else 1) ≤ ((s.tileOf t).jobs.filter fun q => q.state == .running && copy q == copy j).length) →
      ∀ i ∈ [Instr.jobCopy t seq, .jobGather t seq, .jobConvert t seq, .jobExpand t seq, .jobGbuild t seq, .jobTload t seq, .jobColl t seq],
        exec i s = .next s)

namespace Sys2Proof.Say

/-- The image GBUILD writes for rules and stored elements: header, rule table at 64, data at D (R184). -/
def ImageAt (et : ElemTy) (a room start : Nat) (rules : List (Nat × Nat × Nat × Nat)) (data : List Byte) (m : Memory) : Prop :=
  memRead m a 64 = leBytes 4 0x47594B56 ++ leBytes 2 1 ++ [BitVec.ofNat 8 (elemCode et), 16] ++ leBytes 4 rules.length
      ++ leBytes 4 (data.length / elemSize et) ++ leBytes 4 start ++ leBytes 4 0 ++ leBytes 8 64 ++ leBytes 8 room ++ leBytes 8 0 ++ leBytes 16 0
    ∧ memRead m (a + 64) (16 * rules.length)
        = (rules.map fun r => leBytes 4 r.1 ++ leBytes 4 r.2.1 ++ leBytes 4 r.2.2.1 ++ leBytes 4 r.2.2.2).flatten
    ∧ memRead m (a + room) data.length = data
/-- A collective packet (R182): GROUP, the block, the tree node, the scale X, zero bytes and 32 MXFP8.E4M3 codes, 64 bytes in all. -/
def nodePacket (group block level i : Nat) (vs : List FV) : List Byte :=
  let q := blockQuant .e4m3 0 vs
  leBytes 4 group ++ leBytes 4 block ++ leBytes 4 (i + level * 2 ^ 24) ++ [BitVec.ofNat 8 q.1] ++ List.replicate 3 0
    ++ (q.2.1 ++ List.replicate (32 - q.2.1.length) 0).take 32 ++ List.replicate 16 0
/-- The values a packet carries. -/
def carried (p : List Byte) : List FV := rowDecode .e4m3 0 (nth p 12 0).toNat ((p.drop 16).take 32)
def packetNat (p : List Byte) (off : Nat) : Nat := leNat ((p.drop off).take 4)
/-- A node of the tree: FP32 sums or maxima of its operands, quantised again (R143). -/
def joined (isMax : Bool) (level i : Nat) (a b : List Byte) : List Byte :=
  let single (v : FV) : FV := unpack fp32 (packFV fp32 v).1
  nodePacket (packetNat a 0) (packetNat a 4) level i (List.zipWith (fun x y =>
    unpack fp32 (if isMax then minmaxFV fp32 true (single x) (single y) else addFV fp32 (single x) (single y)).1) (carried a) (carried b))
/-- A field of a collective descriptor. -/
def collField (j : Job) (off n : Nat) : Nat := leNat ((j.descs.drop off).take n)
def sameColl (j : Job) (c : Coll) : Bool := c.group == BitVec.ofNat 32 (collField j 4 4) && c.vd == j.vd
/-- OP, MODE, NPART, COUNT and ROOT. -/
def collTerms (j : Job) : List Byte := j.descs.take 2 ++ (j.descs.drop 8).take 4 ++ (j.descs.drop 16).take 8

end Sys2Proof.Say

/-- GBUILD and TLOAD (R177-R179, R183-R185): one chunk becomes one terminal, two equal chunks of 16 a pair over it; a buffer without room
for the first chunk ends OVERFLOW with nothing written, and a length that is no multiple of the element size ends FORMAT; TLOAD fills
the bank DST names with 256 entries and the KIND of FOUT, and waits while a core of a running device is inside a weight block that decodes
through that bank of its tile.
(The COUNT of a TLOAD is log entry 48; that a job runs whole in one step is log entry 39.) -/
def Sys2Proof.Part.BuildingJobs : Prop :=
  (∀ (s : State) t seq j d et, Starts s t seq 6 j d → cardIn j = some et → elemIsScal et = true →
    (let n := cardField j.card 56 4
     let z := elemSize et
     let room := (jobParam j - n) / 8 * 8
     let bs := memRead s.near (jobSrc j) n
     let count (k : Nat) : Word := BitVec.ofNat 64 k
     let done (status : BitVec 32) (k : Nat) : Prop := ∃ u, exec (.jobGbuild t seq) s = .next u ∧ EndsAs t seq j status (count k) u ∧ u.near = s.near
     let builds (rules : List (Nat × Nat × Nat × Nat)) (start : Nat) (data : List Byte) : Prop :=
       ∃ u, exec (.jobGbuild t seq) s = .next u ∧ EndsAs t seq j 0 (count rules.length) u ∧ ImageAt et (jobDst j) room start rules data u.near
         ∧ ∀ a, a < jobDst j ∨ jobDst j + room + data.length ≤ a → memGet u.near a = memGet s.near a
     (n = 0 → done 0 0)
     ∧ (n % z ≠ 0 → done 7 0)
     ∧ (0 < n → n % z = 0 → Feeds s d j (jobSrc j) n →
       (room < 96 → done 5 0)
       ∧ (n ≤ 16 * z → 96 ≤ room → Sinks s d j (jobDst j) (room + n) → builds [(0, 0, n / z, n / z)] 0 bs)
       ∧ (n = 32 * z → bs.drop (16 * z) = bs.take (16 * z) → 144 ≤ room → Sinks s d j (jobDst j) (room + 16 * z) →
           builds [(0, 0, 16, 16), (1, 0, 0, 32)] 1 (bs.take (16 * z))))))
  ∧ (∀ (s : State) t seq j d, Starts s t seq 5 j d →
    (let g := cardByte j.card 30 % 2 == 1
     let kind : ElemTy := if cardByte j.card 29 % 16 = 9 then .fp16 else if cardByte j.card 29 % 16 = 2 then .i16 else .bf16
     let busy : Prop := d.state = .running ∧ jobDst j = 0 ∧ ∃ co ∈ s.allCores, coreTile co.id = t ∧ midLut (s.focusOn co.id) g = true
     let filled (b : Bank) : Prop := b.kind = kind ∧ ∀ c < 256, b.entry c = leNat (memRead s.near (jobSrc j + 2 * c) 2)
     (busy → exec (.jobTload t seq) s = .next s)
     ∧ (¬ busy → cardField j.card 56 4 < 512 → ∃ u, exec (.jobTload t seq) s = .next u ∧ (u.tileOf t).job seq = some { j with state := .ended, status := 2 })
     ∧ (¬ busy → Feeds s d j (jobSrc j) 512 → ∃ u, exec (.jobTload t seq) s = .next u ∧ u.near = s.near
       ∧ (u.tileOf t).job seq = some { j with state := .ended, count := 512 }
       ∧ (jobDst j = 0 → filled ((u.tileOf t).xbank g) ∧ (u.tileOf t).xbank (!g) = (s.tileOf t).xbank (!g))
       ∧ (∀ k : Fin 32, jobDst j = nearAddr t k.val 0 → (let co := u.coreOf (mkCore t k.val)
           filled (if g then co.bank1 else co.bank0) ∧ (u.tileOf t).xbank0 = (s.tileOf t).xbank0 ∧ (u.tileOf t).xbank1 = (s.tileOf t).xbank1)))))

/-- Collectives (R142-R144, R182): a participant's blocks travel quantised, one packet each; terms that differ, or an INDEX that has joined,
end every participant's job with COLL_MISMATCH; a block with every contribution is combined by the fixed tree, an odd last node passing up
unchanged, and delivered, converted to FOUT, to every participant or to the root's; after the last block the jobs end. (What a participant
that appears twice does, and how many cards a collective with differing NPART waits for, is log entry 83.) -/
def Sys2Proof.Part.Collectives : Prop :=
  (∀ (s : State) t seq j d et oc, Starts s t seq 3 j d → cardIn j = some et → elemIsFp et = true → s.colls.find? (sameColl j) = oc →
    (let n := collField j 16 4
     let group := collField j 4 4
     let index := collField j 12 4
     let old := memRead s.near (jobSrc j) (n * elemSize et)
     let blocks := chunksOf 32 (n / 32) ((lanesOf (elemSize et) old).map (unpack (elemFmt et)))
     let leaves := ((List.range blocks.length).zip blocks).map fun b => nodePacket group b.1 0 index b.2
     let c := oc.getD { group := BitVec.ofNat 32 group, vd := j.vd, shape := collTerms j, parts := [] }
     let all := c.parts ++ [(index, t, seq)]
     let rest := s.colls.filter fun k => !sameColl j k
     let next : Coll := { c with parts := all, leaves := c.leaves ++ leaves, nparts := c.nparts ++ [collField j 8 4] }
     let whole := leNat ((c.shape.drop 2).take 4) ≤ all.length
     let wholeBad := next.expected ≤ all.length
     Feeds s d j (jobSrc j) (n * elemSize et) →
     (c.mismatch = false → c.shape = collTerms j → (∀ p ∈ c.parts, p.1 ≠ index) →
       (¬ whole ∨ 0 < n → ∃ u, exec (.jobColl t seq) s = .next u ∧ u.near = s.near
         ∧ (u.tileOf t).job seq = some { j with state := .running } ∧ u.colls = rest ++ [next])
       ∧ (whole → n = 0 → ∃ u, exec (.jobColl t seq) s = .next u ∧ u.near = s.near ∧ u.colls = rest
         ∧ ∀ p ∈ all, ∀ k, (s.tileOf p.2.1).job p.2.2 = some k → (u.tileOf p.2.1).job p.2.2 = some { k with state := .ended }))
     ∧ (c.mismatch = true ∨ c.shape ≠ collTerms j ∨ (∃ p ∈ c.parts, p.1 = index) → ∃ u, exec (.jobColl t seq) s = .next u ∧ u.near = s.near
       ∧ (wholeBad → u.colls = rest) ∧ (¬ wholeBad → u.colls = rest ++ [{ next with mismatch := true }])
       ∧ ∀ p ∈ all, ∀ k, (s.tileOf p.2.1).job p.2.2 = some k → k.status = 0 →
           (u.tileOf p.2.1).job p.2.2 = some { k with state := .ended, status := 6 })))
  ∧ (∀ (s : State) c group block ls (jb : Nat × TileId × Nat → Job) (dv : Nat × TileId × Nat → Device) (et : Nat × TileId × Nat → ElemTy),
    (let part (i n : Nat) : Nat := leNat ((c.shape.drop i).take n)
     let blocks := part 6 4 / 32
     let root := collTree (part 0 1 == 1) 17 1 ls
     let new p := convOut (et p) 0 (carried root)
     let to_ p := jobDst (jb p) + block * 32 * elemSize (et p)
     let recv := if part 1 1 = 1 then c.parts.filter (·.1 == part 10 4) else c.parts
     s.colls.find? (fun c => c.group == group && !c.mismatch && c.parts.length == leNat ((c.shape.drop 2).take 4)) = some c →
     ls.length = part 2 4 → ls ≠ [] →
     (∀ i < ls.length, (c.leaves.find? fun p => packetNat p 4 == block && packetNat p 8 == i) = ls[i]?) → block < blocks →
     (∀ r ∈ c.roots, packetNat r 4 ≠ block) → memWf s.near = true →
     (∀ p ∈ recv, (s.tileOf p.2.1).job p.2.2 = some (jb p) ∧ s.devOf (jb p).vd = some (dv p) ∧ cardOut (jb p) = some (et p) ∧ (jb p).status = 0
       ∧ Sinks s (dv p) (jb p) (to_ p) (new p).length) →
     (recv.map (·.2)).Nodup → (∀ p ∈ recv, ∀ q ∈ recv, p ≠ q → to_ p + (new p).length ≤ to_ q ∨ to_ q + (new q).length ≤ to_ p) →
       ∃ u, exec (.collPacket group block) s = .next u
         ∧ (∀ p ∈ recv, ∀ k < (new p).length, memGet u.near (to_ p + k) = nth (new p) k 0)
         ∧ (∀ a, (∀ p ∈ recv, a < to_ p ∨ to_ p + (new p).length ≤ a) → memGet u.near a = memGet s.near a)
         ∧ (if c.roots.length + 1 = blocks then
             (∀ k ∈ u.colls, ¬ (k.group = c.group ∧ k.vd = c.vd))
               ∧ ∀ p ∈ recv, ∃ k, (u.tileOf p.2.1).job p.2.2 = some k ∧ k.state = .ended ∧ k.status = 0
                   ∧ k.count = (jb p).count + BitVec.ofNat 64 (new p).length
           else { c with roots := c.roots ++ [root] } ∈ u.colls)))
  ∧ (∀ isMax a b c, collTree isMax 17 1 [a] = a ∧ collTree isMax 17 1 [a, b] = joined isMax 1 0 a b
      ∧ collTree isMax 17 1 [a, b, c] = joined isMax 2 0 (joined isMax 1 0 a b) c)

/-- Completion of a job (R26, R27, R51, R136, R139): the counter word grows by COUNT, or the bitmap word gets the bit of the XID; the
record gets COUNT and DONE with STATUS; the completion handler is queued at the posting core, or held for it while its run queue has no
place behind its pending signals or an older record is held; the job leaves its tile; and the JOB counter of the posting context falls, on
its core or in its migration slot. A counter or bitmap word that is uncorrectable is left as it is (log entry 97). -/
def Sys2Proof.Part.JobCompletion : Prop :=
  ∀ (s : State) t seq j d c, (s.tileOf t).job seq = some j → s.devOf j.vd = some d → j.state = .ended → j.status ≠ 4 → j.packet = none →
    j.poster = some c → memWf s.near = true → (s.coreOf c).traceBuf.length < 64 →
    (let flags := cardField j.card 2 2
     let cnt := cardField j.card 48 8
     let record := cardField j.card 32 8
     let xid := cardField j.card 4 4
     let slots := (s.tileOf t).slots.toList
     let whole (a n : Nat) : Prop := (∀ i < n, isObs (a + i) = false) ∧ poisoned s a n = false
     let room : Prop := (s.coreOf c).runq.length + (s.coreOf c).signalsDue < 64 + 4096
     let imageOf (k : Nat) : Prop := memWord s.near (slotAddr t k + 0x8020) = j.mark ∧ memWord s.near (slotAddr t k + 0x8030) = c.setWidth 64
     ((∀ v ∈ slots, ∀ n, v ≠ .image n) → ∃ u, exec (.jobComplete t seq) s = .next u ∧ (∀ q ∈ (u.tileOf t).jobs, q.seq ≠ seq) ∧ u.quarry = s.quarry
       ∧ ((s.coreOf c).mode ≠ .idle → (s.coreOf c).ctx.mark = j.mark → (u.coreOf c).ctx = { (s.coreOf c).ctx with job := (s.coreOf c).ctx.job - 1 })
       ∧ (flags % 16 = 0 → u.near = s.near)
       ∧ (flags % 16 = 4 → whole cnt 8 → memWord u.near cnt = memWord s.near cnt + j.count)
       ∧ (flags % 16 = 8 → whole cnt 8 → memWord u.near cnt = memWord s.near cnt ||| (1 <<< (xid % 64)))
       ∧ (flags % 16 = 4 ∨ flags % 16 = 8 → poisoned s cnt 8 = true → u.near = s.near)
       ∧ (flags % 16 = 1 → (∀ i < 16, isObs (record + i) = false) → memWord u.near (record + 8) = j.count ∧ memWord u.near record = BitVec.ofNat 64 (2 ^ 63 + j.status.toNat))
       ∧ (flags % 16 = 2 → room → heldRec s c = false → ∃ r : TaskRec, (u.coreOf c).runq = (s.coreOf c).runq ++ [r] ∧ u.near = s.near
           ∧ r.kind = .completion ∧ r.prio = BitVec.ofNat 7 (min (cardByte j.card 31 % 128) 119)
           ∧ r.entry.toNat = cardField j.card 40 8 % 2 ^ 48 / 4 * 4 ∧ r.arg0.toNat = record ∧ r.arg1 = j.status.setWidth 64 ∧ r.xid.toNat = xid
           ∧ (u.coreOf c).creations = (s.coreOf c).creations + 1)
       ∧ (flags % 16 = 2 → ¬ room ∨ heldRec s c = true → (u.coreOf c).runq = (s.coreOf c).runq
           ∧ ∃ m r, u.mortar = s.mortar ++ [m] ∧ m.dst = c ∧ m.body = .record r ∧ r.kind = .completion ∧ r.arg0.toNat = record)
       ∧ (flags / 2 % 2 = 0 → (u.coreOf c).runq = (s.coreOf c).runq))
     ∧ (∀ k n, flags % 16 = 0 → nth slots k .free = .image n → imageOf k → (∀ k' n', nth slots k' .free = .image n' → imageOf k' → k' = k) →
         (memWord s.near (slotAddr t k + 0x80F8)).toNat / 2 ^ 12 % 2 ^ 6 ≠ 0 → poisoned s (slotAddr t k + 0x80F8) 8 = false →
         ∃ u, exec (.jobComplete t seq) s = .next u ∧ (∀ q ∈ (u.tileOf t).jobs, q.seq ≠ seq)
           ∧ memWord u.near (slotAddr t k + 0x80F8) = memWord s.near (slotAddr t k + 0x80F8) - 0x1000))

/-! Blocks of weight-driven mode. -/

namespace Sys2Proof.Say

/-- The block h current on the core in focus, its hints prefetched (R189, R194): what a step keeps of a block whose header has passed,
whether it completes, waits or faults. -/
def blockAt (h : BlockHdr) (s : State) : State := hintPrefetch h (s.mapCtx fun c => { c with wdblk := BitVec.ofNat 64 h.addr })
/-- The core is in the mode, and no breakpoint meets a block that becomes current (R199). -/
structure Enters (h : BlockHdr) (s : State) : Prop where
  wd : s.core.ctx.wd = true
  free : s.core.ctx.mxprog.toNat % 512 ≠ 0 ∨ s.core.ctx.resumed = true ∨ bkptMatch s.core h.addr = false
/-- The staged entries of a block, and of its base block, taken (R193). -/
def unstaged (h : BlockHdr) (b : State) : State :=
  b.updTile (coreTile b.core.id) fun tl => { tl with staging := tl.staging.filter fun e =>
    !(some e.vd == b.vd && (e.addr == h.addr || (decide (h.opc.toNat < 2) && h.delta && e.addr == h.base.toNat))) }
/-- The block is complete (R189, R193, R199): its staged entry is taken, the next block is current with KB 0, and a single-stepped
task takes STEP. -/
def blockDone (h : BlockHdr) (next : Word) (b : State) : State :=
  blkStep ((retireCore (unstaged h b)).mapCtx fun c => { c with wdblk := next, mxprog := 0, wdst := { c.wdst with table := none } })
/-- A block's own trap: BLOCK_ILLEGAL, its staged entry gone (R189, R193, R198). -/
def illegalAt (h : BlockHdr) (s : State) : Res :=
  .next (takeTrap { cause := .blockIllegal, faddr := BitVec.ofNat 64 h.addr, unit := 1 } (unstaged h s))
/-- The base block of a delta block passes its check, which reads its header as it is stored (R173). -/
def BaseFits (h : BlockHdr) (b b' : State) : Prop :=
  if h.delta then ∃ hb, blkStored h.base.toNat 0 64 b = .ok (hb, b') ∧ baseOk h (blockHdr h.base.toNat hb) = true else b' = b
/-- One k-block kb of a weight block (R190, R191, R93): its tile images and its activation image are fetched; every element of the
accumulators gets its rounded dot product, and nothing else of the register space changes; then KB moves on, or SUCC is current. -/
def StepsBlock (i : Instr) (h : BlockHdr) (zero : Bool) (s b : State) : Prop :=
  let c := b.core.ctx
  let w := c.wdst
  let kb := c.mxprog.toNat % 512
  let off (nt : Nat) : Nat := c.aOff (w.abase + nt)
  let b0 := if zero then b.mapCtx fun c => { c with urs := (List.range (hdrG h)).foldl (fun m nt => memWrite m (off nt) (zeroBytes 4096)) c.urs } else b
  ∀ t imgs act b1 b2, elemOfCode w.aet.toNat = some t → kb < hdrK h / 32 → c.loads = [] → c.mxops = [] → memWf c.urs = true →
    (∀ n n', n < n' → n' < hdrG h → off n + 4096 ≤ off n' ∨ off n' + 4096 ≤ off n) →
    mapM' (weightImage h kb) (List.range (hdrG h)) b0 = .ok (imgs, b1) → actImage w t kb b1 = .ok (act, b2) → stepping b2 = false →
    b2.core.ctx.urs = b0.core.ctx.urs → b2.core.ctx.loads = [] → b2.core.ctx.mxops = [] →
    ∃ u, exec i s = .next u ∧ u.core.ctx.x = b2.core.ctx.x ∧ u.near = b2.near
      ∧ (∀ nt < hdrG h, ∀ i < 32, ∀ j < 32,
          let img := nth imgs nt (.bfp, 0, [])
          let r := kstep (b0.core.ctx.ursRead (off nt) 4096) (actRows t w.abw.toNat act) (bImageCols img.1 img.2.1 img.2.2) i j
          leNat ((((u.core.ctx.ursRead (off nt) 4096).drop (128 * i + 4 * j))).take 4) = r.1 % 2 ^ 32)
      ∧ (∀ a, (∀ nt < hdrG h, a < off nt ∨ off nt + 4096 ≤ a) → memGet u.core.ctx.urs a = memGet c.urs a)
      ∧ (kb + 1 < hdrK h / 32 → u.core.ctx.mxprog = BitVec.ofNat 64 (kb + 1) ∧ u.core.ctx.wdblk = b2.core.ctx.wdblk)
      ∧ (kb + 1 = hdrK h / 32 → u.core.ctx.mxprog = 0 ∧ u.core.ctx.wdblk = h.succ.setWidth 64 ∧ u.core.ctx.wdst.table = none)
/-- A header that the load pipe accepts for MAC or MACZ (R172, R174, R191). -/
def MacFits (h : BlockHdr) (w : WdState) : Prop :=
  weightOk h = true ∧ h.exp ≠ 3 ∧ ¬ (h.fmt = 14 ∧ h.exp = 2) ∧ hdrG h ≤ w.acnt

end Sys2Proof.Say

/-- MAC, MACZ and the k-blocks that follow (R173, R190, R191): a delta block's base block is checked before anything else; MACZ zeroes its
accumulators first, when its KB is 0, and they stay zeroed when a fetch of that k-block faults; a step that faults or waits keeps its
block current with its hints prefetched (R194). (That the header is read again for each k-block is log entry 52.) -/
def Sys2Proof.Part.WeightBlocks : Prop :=
  ∀ (h : BlockHdr) (s : State), MacFits h s.core.ctx.wdst → memWf s.core.ctx.urs = true →
    (∀ b, Enters h s → h.opc = 0 → BaseFits h (blockAt h s) b → b.core.ctx = { s.core.ctx with wdblk := BitVec.ofNat 64 h.addr } →
      StepsBlock (.blockMac h) h false s b)
    ∧ (∀ b, Enters h s → h.opc = 1 → BaseFits h (blockAt h s) b → b.core.ctx = { s.core.ctx with wdblk := BitVec.ofNat 64 h.addr } →
      StepsBlock (.blockMacz h) h (s.core.ctx.mxprog.toNat % 512 == 0) s b)
    ∧ (∀ hb b, Enters h s → h.delta = true → blkStored h.base.toNat 0 64 (blockAt h s) = .ok (hb, b) →
      baseOk h (blockHdr h.base.toNat hb) = false →
      (h.opc = 0 → exec (.blockMac h) s = illegalAt h b) ∧ (h.opc = 1 → exec (.blockMacz h) s = illegalAt h b))
    ∧ (∀ kb, kb = s.core.ctx.mxprog.toNat % 512 → kb < hdrK h / 32 → Enters h s → h.delta = false →
      (let b := blockAt h s
       let zeroed := b.mapCtx fun c => { c with urs := (List.range (hdrG h)).foldl (fun m nt =>
         memWrite m (c.aOff (c.wdst.abase + nt)) (zeroBytes 4096)) c.urs }
       let c := b.core.ctx
       c = { s.core.ctx with wdblk := BitVec.ofNat 64 h.addr } → (∃ t, elemOfCode c.wdst.aet.toNat = some t) →
       (∀ tr, h.opc = 0 → mapM' (weightImage h kb) (List.range (hdrG h)) b = .error (.trap tr) →
         exec (.blockMac h) s = .next (takeTrap tr b))
       ∧ (∀ w, h.opc = 0 → mapM' (weightImage h kb) (List.range (hdrG h)) b = .error (.stall w) →
         exec (.blockMac h) s = .next (b.stalled w))
       ∧ (∀ tr, h.opc = 1 → kb = 0 → c.loads = [] → c.mxops = [] → mapM' (weightImage h kb) (List.range (hdrG h)) zeroed = .error (.trap tr) →
         exec (.blockMacz h) s = .next (takeTrap tr zeroed))))
    ∧ (s.core.ctx.wd = true → StepsBlock (.wdKblock h) h false s (s.mapCtx fun c => { c with wdblk := BitVec.ofNat 64 h.addr }))

/-- EMIT (R192): column group KB is converted, through the table bank when MAP is set, and delivered; the last one of NOTIFY is followed by
a release and a message, and then SUCC is current. (That its stores happen at once is log entry 53.) -/
def Sys2Proof.Part.EmitBlocks : Prop :=
  ∀ (h : BlockHdr) (s b1 b2 : State), Enters h s → emitOk h s.core.ctx.wdst = true →
    let b := blockAt h s
    let c := b.core.ctx
    let kb := c.mxprog.toNat % 512
    let mode := h.route.toNat / 2 ^ 14
    let target := h.route.toNat % 64
    let bank := if h.tgen then b.core.bank1 else b.core.bank0
    let entry (k : Int) : FV := scalFV bank.kind (bank.entry (clampI 0 255 k).toNat)
    let mapped (v : FV) : FV := match v with
      | .nan _ => v
      | .inf neg => entry (if neg then 0 else 255)
      | .fin neg m e => entry ((fvToInt neg m (e + 4)).1 + 128)
    let rows := (accRows (c.ursRead (c.aOff (c.wdst.abase + kb)) 4096)).map fun r => if h.route.getLsbD 13 then r.map mapped else r
    let img := imageOut (hdrType h) h.bw.toNat rows
    let ea := BitVec.ofNat 64 (h.base.toNat + kb * img.1.length)
    let after (b : State) : State := b.mapCtx (·.fpfOr img.2)
    let next (b : State) : State := (retireCore b).mapCtx fun c => { c with mxprog := BitVec.ofNat 64 (kb + 1) }
    b.core.ctx = { s.core.ctx with wdblk := BitVec.ofNat 64 h.addr } → kb < hdrG h → c.pendingRead (c.aOff (c.wdst.abase + kb)) 4096 = false →
    (mode ≠ 1 → NearOpen b ea img.1.length → partPoison b ea.toNat img.1.length = false →
      (kb + 1 < hdrG h → exec (.blockEmit h) s = .next (next (after (stored ea img.1 b))))
      ∧ (mode = 0 → kb + 1 = hdrG h → exec (.blockEmit h) s = .next (blockDone h (h.succ.setWidth 64) (after (stored ea img.1 b))))
      ∧ (mode = 2 → kb + 1 = hdrG h → releaseAt (after (stored ea img.1 b)).spanOfTask (after (stored ea img.1 b)) = .ok ((), b1) →
          logFull b1 b1.vdNum (ownerCore h.base.toNat) = false →
          (let m : Msg := { src := b1.core.id, dst := ownerCore h.base.toNat, vd := b1.vdNum, course := markCourse b1.core.ctx.mark
                            body := .tag (Fin.ofNat 64 target) (BitVec.ofNat 64 (h.base.toNat % 2 ^ 32)) }
           exec (.blockEmit h) s = .next (blockDone h (h.succ.setWidth 64) { b1 with mortar := b1.mortar ++ [m] }))))
    ∧ (∀ n : Fin 8, mode = 1 → target = n.val → dstDir c (.str n) = none → img.1.length % (c.streams[n]).esz = 0 →
      (let k := img.1.length / (c.streams[n]).esz
       (c.streams[n]).done + k ≤ (c.streams[n]).total → pushImage n (chunksOf (c.streams[n]).esz k img.1) b = .ok ((), b2) →
         (kb + 1 < hdrG h → exec (.blockEmit h) s = .next (next (after b2)))
         ∧ (kb + 1 = hdrG h → exec (.blockEmit h) s = .next (blockDone h (h.succ.setWidth 64) (after b2)))))

/-- The other blocks (R189, R194-R196, R198): LINK sets the activation base (a nonzero BASE is illegal with a stream source, and where it is not near), CALLB and RETB work the link stack, HINT only prefetches, SYNC
stores its value or waits for it (its hints prefetched, R194), EXIT leaves the mode with ROUTE in D, TRAPB is complete when it traps, and an unknown opcode or a header
that fails its checks is BLOCK_ILLEGAL. (That CALLB's BASE is a block's, 64-byte aligned, is log entry 52, that a SYNC stores at once is log entry 53, that TRAPB has UNIT 1 is log entry 54.) -/
def Sys2Proof.Part.ControlBlocks : Prop :=
  ∀ (h : BlockHdr) (s : State), Enters h s →
    let b := blockAt h s
    let w := s.core.ctx.wdst
    let next : Word := h.succ.setWidth 64
    let s0 := s.mapCtx fun c => { c with wdblk := BitVec.ofNat 64 h.addr }
    b.core.ctx = { s.core.ctx with wdblk := BitVec.ofNat 64 h.addr } →
    (plainOk h = true →
      (h.opc = 3 → h.base = 0 ∨ (w.src = none ∧ isNear h.base.toNat = true) → exec (.blockLink h) s = .next (blockDone h next
        (if h.base = 0 then b else b.mapCtx fun c => { c with wdst := { c.wdst with base := h.base.setWidth 64 } })))
      ∧ (h.opc = 3 → h.base ≠ 0 → w.src ≠ none ∨ isNear h.base.toNat = false → exec (.blockLink h) s = illegalAt h s0)
      ∧ (h.opc = 4 → h.base.toNat % 64 = 0 → w.link.length < 4 → exec (.blockCallb h) s = .next (blockDone h (h.base.setWidth 64)
          (b.mapCtx fun c => { c with wdst := { c.wdst with link := next :: w.link } })))
      ∧ (h.opc = 4 → 4 ≤ w.link.length ∨ h.base.toNat % 64 ≠ 0 → exec (.blockCallb h) s = illegalAt h s0)
      ∧ (h.opc = 5 → w.link = [] → exec (.blockRetb h) s = illegalAt h s0)
      ∧ (∀ a rest, h.opc = 5 → w.link = a :: rest → exec (.blockRetb h) s = .next (blockDone h a
          (b.mapCtx fun c => { c with wdst := { c.wdst with link := rest } })))
      ∧ (h.opc = 6 → exec (.blockHint h) s = .next (blockDone h next b))
      ∧ (∀ sc b1 b2, h.opc = 7 → h.route.toNat / 32 = 0 → syncScope h = some sc →
          (h.route.toNat % 4 = 1 → h.base.toNat % 8 = 0 → NearRead b (h.base.setWidth 64) 8 b2 →
            (h.word4.toNat ≤ leNat (b2.nearRead h.base.toNat 8) →
              exec (.blockSync h) s = .next (blockDone h next (acquired sc (h.base.setWidth 64) b2)))
            ∧ (leNat (b2.nearRead h.base.toNat 8) < h.word4.toNat → exec (.blockSync h) s = .next (b.stalled .acquire)))
          ∧ (h.route.toNat % 4 = 0 → h.base.toNat % 8 = 0 → NearOpen b (h.base.setWidth 64) 8 → releaseAt sc b = .ok ((), b1) → NearOpen b1 (h.base.setWidth 64) 8 →
              partPoison b1 h.base.toNat 8 = false →
              exec (.blockSync h) s = .next (blockDone h next (stored (h.base.setWidth 64) (leBytes 8 h.word4.toNat) b1))))
      ∧ (∀ sc, h.opc = 7 → h.route.toNat / 32 = 0 → h.route.toNat % 4 < 2 → syncScope h = some sc → isNear h.base.toNat = true →
          h.base.toNat % 8 ≠ 0 →
          exec (.blockSync h) s = .next (takeTrap { cause := .align, faddr := h.base.setWidth 64, w := h.route.toNat % 2 == 0, unit := 1 } b))
      ∧ (∀ n b1, h.opc = 8 → w.dst = .reg n → s.core.ctx.pendingX n = false → settlePushes b = .ok ((), b1) → stepping b1 = false →
          b1.core.ctx.wdst = w →
          ∃ u, exec (.blockExit h) s = .next u ∧ u.core.ctx.wd = false ∧ u.core.ctx.pc = w.exit ∧ u.core.ctx.mxprog = 0 ∧ u.core.ctx.wdst.link = []
            ∧ u.core.ctx.getX n = (if n = 0 then 0 else h.route.setWidth 64) ∧ u.core.ctx.wdblk = b1.core.ctx.wdblk
            ∧ (∀ k, k ≠ n → u.core.ctx.getX k = b1.core.ctx.getX k) ∧ u.core.ctx.urs = b1.core.ctx.urs)
      ∧ (h.opc = 9 → exec (.blockTrapb h) s
          = .next (takeTrap { cause := .trapi, faddr := BitVec.ofNat 64 h.addr, unit := 1 }
              ((retireCore (unstaged h b)).mapCtx fun c => { c with wdblk := next, mxprog := 0 }))))
    ∧ (plainOk h = false → ∀ i ∈ [Instr.blockLink h, .blockCallb h, .blockRetb h, .blockHint h, .blockSync h, .blockExit h, .blockTrapb h],
        exec i s = illegalAt h s0)
    ∧ (10 ≤ h.opc.toNat → exec (.blockIllegal h) s = illegalAt h s0)

/-- The staging buffer (R193, R194, R278): the load pipe brings in header and payload of SUCC, of BASE for CALLB or of the top of the link
stack for RETB, nothing past EXIT and TRAPB; of a payload the pages that cannot be fetched are dropped (they are fetched again when the block runs), and a LUT8 block
marked EXP 0 reaches the load pipe expanded, through the bank as it stood at the prefetch (R174); a hinted block whose page is not present becomes advice to the keystone; a hint is advice only (R171), so what the current block and its base have staged stays as it is; an entry 65,536 cycles old
is dropped, a younger one stays. (Log entry 52.) -/
def Sys2Proof.Part.StagedBlocks : Prop :=
  (∀ (s s0 s1 s2 : State) c hb nb pb gone a v, (s.coreOf c).ctx.wd = true →
    (let f := s.focusOn c
     let x := f.core.ctx
     let cur := blockHdr x.wdblk.toNat hb
     let h := blockHdr a nb
     blkRead x.wdblk.toNat 0 64 f = .ok (hb, s0) →
     (if cur.opc = 4 then a = cur.base.toNat else if cur.opc = 5 then ∃ rest, x.wdst.link = BitVec.ofNat 64 a :: rest ∧ a < 2 ^ 64
       else cur.opc.toNat < 8 ∧ a = cur.succ.toNat) →
     let table := if weightOk h = true ∧ h.fmt = 14 ∧ h.exp = 0 then some ((s1.tileOf (coreTile c)).xbank h.tgen) else none
     isFar a = true → a % 64 = 0 → f.staged a = none → blkFetch a 64 f = .ok (nb, s1) → (weightOk h || plainOk h) = true →
     fetchPart a (h.plen.toNat / 4096 + 2) 64 h.plen.toNat s1 = (pb, gone, s2) → (nb ++ pb).length ≤ 262144 → s2.vd = some v →
     s1.core.id = c → s2.core.id = c →
     ∃ u, exec (.loadpipePrefetch c) s = .next u
       ∧ (u.tileOf (coreTile c)).staging.getLast?
           = some { vd := v, addr := a, bytes := nb ++ pb, at_ := s2.time, gone := gone, table := table }))
  ∧ (∀ (s : State) a fuel off n, 0 < n → (let k := min n (4096 - (a + off) % 4096)
     let r := fetchPart a (fuel + 1) off n s
     (∀ e, blkFetch (a + off) k s = .error e →
       (let q := fetchPart a fuel (off + k) (n - k) s
        r = (zeroBytes k ++ q.1, (off, k) :: q.2.1, q.2.2)))
     ∧ (∀ bs s1, blkFetch (a + off) k s = .ok (bs, s1) →
       (let q := fetchPart a fuel (off + k) (n - k) s1
        r = (bs ++ q.1, q.2)))))
  ∧ (∀ (s : State) (e : Staged) off n, s.staged e.addr = some e → e.table = none →
     (off + n ≤ e.bytes.length → (∀ g ∈ e.gone, g.1 + g.2 ≤ off ∨ off + n ≤ g.1) →
       blkRead e.addr off n s = .ok ((e.bytes.drop off).take n, s))
     ∧ (∀ g ∈ e.gone, 0 < n → 0 < g.2 → g.1 < off + n → off < g.1 + g.2 → blkRead e.addr off n s = blkFetch (e.addr + off) n s))
  ∧ (∀ (s : State) (e : Staged) b idx, s.staged e.addr = some e → e.table = some b → s.core.ctx.wdblk.toNat ≠ e.addr → 64 ≤ e.bytes.length →
     64 + 1024 * (idx + 1) ≤ e.bytes.length → (∀ g ∈ e.gone, 64 + 1024 * (idx + 1) ≤ g.1 ∨ g.1 + g.2 ≤ 64 + 1024 * idx ∧ 64 ≤ g.1) →
     blkRead e.addr (64 + 1056 * idx) 1056 s = .ok ((expandLut b ((e.bytes.drop (64 + 1024 * idx)).take 1024)).take 1056, s)
     ∧ blkRead e.addr 0 64 s = .ok ((expandedHeader (e.bytes.take 64) (blockHdr e.addr (e.bytes.take 64)) 6).take 64, s))
  ∧ (∀ (s : State) (h : BlockHdr) a tr, a ≠ h.addr → (h.opc.toNat < 2 → h.delta = true → a ≠ h.base.toNat) →
     isFar a = true → a % 64 = 0 → s.staged a = none → blkFetch a 64 s = .error (.trap tr) →
     (tr.cause = .pageNp → a ∈ ((hintOne h s a).tileOf (coreTile s.core.id)).advice
       ∧ ∀ b, b ≠ a → (b ∈ ((hintOne h s a).tileOf (coreTile s.core.id)).advice ↔ b ∈ (s.tileOf (coreTile s.core.id)).advice))
     ∧ (tr.cause ≠ .pageNp → hintOne h s a = s))
  ∧ (∀ (s : State) (h : BlockHdr) a, (a = h.addr ∨ (h.opc.toNat < 2 ∧ h.delta = true ∧ a = h.base.toNat)) → hintOne h s a = s)
  ∧ (∀ (s : State) (h : BlockHdr) a t e, e ∈ (s.tileOf t).staging → some e.vd = s.vd →
     (e.addr = h.addr ∨ (h.opc.toNat < 2 ∧ h.delta = true ∧ e.addr = h.base.toNat)) → e ∈ ((hintOne h s a).tileOf t).staging)
  ∧ (∀ (s s0 : State) c hb, (s.coreOf c).ctx.wd = true →
     (let f := s.focusOn c
      let opc := (blockHdr f.core.ctx.wdblk.toNat hb).opc
      blkRead f.core.ctx.wdblk.toNat 0 64 f = .ok (hb, s0) → opc = 8 ∨ opc = 9 →
      ∃ u, exec (.loadpipePrefetch c) s = .next u ∧ ∀ t, (u.tileOf t).staging = (s.tileOf t).staging))
  ∧ (∀ (s : State) t i e, (s.tileOf t).staging[i]? = some e →
    (65536 ≤ (s.time - e.at_).toNat → ∃ u, exec (.stagingEntryExpire t i) s = .next u ∧ (u.tileOf t).staging = (s.tileOf t).staging.eraseIdx i
      ∧ u.core = s.core ∧ u.near = s.near ∧ u.quarry = s.quarry)
    ∧ ((s.time - e.at_).toNat < 65536 → ∃ u, exec (.stagingEntryExpire t i) s = .next u ∧ (u.tileOf t).staging = (s.tileOf t).staging))

/-! Observation, soft errors, power and the host side. -/

namespace Sys2Proof.Say

def word (s : State) (a : Nat) : Nat := (memWord s.near a).toNat
/-- A ring of the observation block takes a record of n bytes at position p: it fits, lies in the partition and clear of every observation block. -/
structure RingTakes (s : State) (t : TileId) (base len p n : Nat) : Prop where
  fits : p + n ≤ len
  room : 0 < n
  inside : ∃ v d, (s.tileOf t).vd = some v ∧ s.devOf v = some d ∧ ∀ i < n,
    isNear (base + p + i) = true ∧ nearExists (base + p + i) = true ∧ d.tiles.contains (nearTile (base + p + i)) = true
  clear : ∀ i < n, isObs (base + p + i) = false
/-- The record is in the ring, and the head has grown by its bytes, unless its word is uncorrectable (R244). -/
def Recorded (s u : State) (t : TileId) (at_ head : Nat) (bs : List Byte) : Prop :=
  memRead u.near at_ bs.length = bs ∧ memWord u.near (nearAddr t 35 head)
        = memWord s.near (nearAddr t 35 head) + BitVec.ofNat 64 (if nearAddr t 35 head ∈ s.poison then 0 else bs.length)
    ∧ ∀ a, (a < at_ ∨ at_ + bs.length ≤ a) → (a < nearAddr t 35 head ∨ nearAddr t 35 head + 8 ≤ a) → memGet u.near a = memGet s.near a

end Sys2Proof.Say

/-- The plumb pulse and the trace (R18, R239-R242): a pulse fires when K is not 0 and the K low bits of TIME are, before anything else of that
cycle; its record goes into the ring, from the base again when it does not fit before the end; a tile whose cores are all idle gives one
entry for its eight quads; a stalled core shows its reason, or "power" while it waits for matrix work on a die over its share. The oldest
buffered trace record is 32 bytes. (Where the plumb ring goes on is hidden state: log entry 40. That only a wait at a counter, for an
earlier result or at 63 shows "power" is log entry 63. That an uncorrectable head or count stays as it is, log entry 97.) -/
def Obligations.PlumbAndTrace : Prop :=
  (∀ (s : State) t, (let k := word s (nearAddr t 35 0xFF000) % 32
     (k = 0 ∨ s.time.toNat % 2 ^ k ≠ 0) → exec (.plumbPulse t) s = .next s))
  ∧ (∀ (s : State) t, (let k := word s (nearAddr t 35 0xFF000) % 32
     let base := word s (nearAddr t 35 0xFF008)
     let len := word s (nearAddr t 35 0xFF010)
     let pos := if word s (nearAddr t 35 0xFF018) = 0 then 0 else (s.tileOf t).ppos
     let bs := plumbRecord s t
     let p := if pos + bs.length ≤ len then pos else 0
     k ≠ 0 → s.time.toNat % 2 ^ k = 0 → memWf s.near = true → RingTakes s t base len p bs.length →
       ∃ u, exec (.plumbPulse t) s = .next u ∧ Recorded s u t (base + p) 0xFF018 bs ∧ (u.tileOf t).ppos = p + bs.length
         ∧ (u.tileOf t).plast = some s.time ∧ u.core = s.core))
  ∧ (∀ (s : State) t, s.powered = true → s.pulseWaits = some t → step s = exec (.plumbPulse t) s)
  ∧ (∀ (s : State), s.pulseWaits = none ↔ ∀ tl ∈ s.tiles, (let k := word s (nearAddr tl.id 35 0xFF000) % 32
      k = 0 ∨ s.time.toNat % 2 ^ k ≠ 0 ∨ tl.plast = some s.time))
  ∧ (∀ (s : State) t, (∀ k < 32, (s.coreOf (mkCore t k)).mode = .idle ∧ migratedFrom s (mkCore t k) = false) →
      plumbRecord s t = wordBytes s.time ++ leBytes 8 (t.toNat + 0x10000) ++ leBytes 8 0x3F82000000000000 ++ leBytes 8 0)
  ∧ (∀ (s : State) c, (let x := (s.coreOf c).ctx
     (s.coreOf c).mode = .running → x.wd = false →
       (x.stall = none → plumbOf s c = { pc := x.pc.toNat % 2 ^ 48, state := 0, reason := 0, mark := x.mark })
       ∧ (∀ r, x.stall = some r → (let power := x.mxops ≠ [] ∧ (r = .counter ∨ r = .interlock ∨ r = .full63) ∧ Fin.ofNat 8 (coreDie c) ∈ s.throttle
           plumbOf s c = { pc := x.pc.toNat % 2 ^ 48, state := 1, reason := if power then 7 else r.code, mark := x.mark }))))
  ∧ (∀ (s : State) c, (let x := (s.coreOf c).ctx
     ((s.coreOf c).mode = .trapped → plumbOf s c = { pc := x.pc.toNat % 2 ^ 48, state := 1, reason := 13, mark := x.mark })
     ∧ ((s.coreOf c).mode = .running → x.wd = true →
         plumbOf s c = { pc := x.wdblk.toNat % 2 ^ 48, state := 5, reason := if x.stall = none then 0 else 11, mark := x.mark })
     ∧ (∀ k, (s.coreOf c).mode = .held k → plumbOf s c = { pc := x.pc.toNat % 2 ^ 48, state := 4, reason := 0, mark := x.mark })))
  ∧ (∀ (s : State) c r rest, (let t := coreTile c
     let base := word s (nearAddr t 35 0xFF028)
     let len := word s (nearAddr t 35 0xFF030)
     let pos := word s (nearAddr t 35 0xFF038) % len
     let bs := wordBytes r.time ++ wordBytes r.mark ++ leBytes 8 (r.event.toNat + c.toNat * 2 ^ 8) ++ wordBytes r.data
     let p := if pos + 32 ≤ len then pos else 0
     (s.coreOf c).traceBuf = r :: rest → memWf s.near = true → RingTakes s t base len p 32 →
       ∃ u, exec (.traceRecordWrite c) s = .next u ∧ Recorded s u t (base + p) 0xFF038 bs ∧ (u.coreOf c).traceBuf = rest
         ∧ (u.coreOf c).ctx = (s.coreOf c).ctx))

/-- Soft errors, power and reset (R18-R20, R202, R215, R243-R245): the scrubber counts a correction and poisons an uncorrectable word; a
read of one, a store that covers it in part and a register that fails its parity leave a machine check for the task's next instruction
boundary, FADDR 0 for the register; a hot window throttles its die and nothing else, and the cycles its matrix units lose count as
stalled; a thermal fault makes every device FAULTED with cause 0xFF and ends all work; an overheated I/O die ends everything; a package
reset leaves a vacant lease with period 1,000 and what the quarry holds.
(What a reset keeps is log entry 61, what a thermal fault stops log entry 62; that a parity error is a find of the scrub step, and leaves an
idle core as it is, log entry 49; that an uncorrectable count stays as it is, log entry 97.) -/
def Obligations.ErrorsAndPower : Prop :=
  (∀ (s : State) addr, exec (.scrubStep addr .clean) s = .next s
    ∧ (isNear (addr / 8 * 8) = true → nearExists (addr / 8 * 8) = true →
      (let t := nearTile (addr / 8 * 8)
       (∃ u, exec (.scrubStep addr .corrected) s = .next u ∧ u.poison = s.poison ∧ u.core = s.core ∧ u.quarry = s.quarry
         ∧ (memWf s.near = true → memWord u.near (nearAddr t 35 0xFF050)
            = memWord s.near (nearAddr t 35 0xFF050) + (if nearAddr t 35 0xFF050 ∈ s.poison then 0 else 1))
         ∧ (∀ die : Fin 8, die.val = tileDie t → u.eccDie[die] = s.eccDie[die] + 1))
       ∧ (∃ u, exec (.scrubStep addr .uncorrectable) s = .next u ∧ (∀ w, w ∈ u.poison ↔ w ∈ s.poison ∨ w = addr / 8 * 8)
         ∧ u.near = s.near ∧ u.core = s.core))))
  ∧ (∀ (s : State) addr c, (let tr : Trap := { cause := .mcheck, faddr := 0, async := true }
      let x := (s.coreOf c).ctx
      ((s.coreOf c).mode = .idle → ∃ u, exec (.scrubStep addr (.parity c)) s = .next u ∧ u.coreOf c = s.coreOf c ∧ u.near = s.near)
      ∧ ((s.coreOf c).mode ≠ .idle → ∃ u, exec (.scrubStep addr (.parity c)) s = .next u ∧ u.near = s.near ∧ u.quarry = s.quarry
          ∧ u.coreOf c = { s.coreOf c with ctx := { x with asyncs := if x.asyncs.contains tr then x.asyncs else x.asyncs ++ [tr] } })))
  ∧ (∀ (s : State) a n unit, (let tr : Trap := { cause := .mcheck, faddr := BitVec.ofNat 64 a, unit := unit, async := true }
      let held (c : Ctx) : Ctx := { c with asyncs := if c.asyncs.contains tr then c.asyncs else c.asyncs ++ [tr] }
      poisoned s a n = true → ∃ bs t, readPlace (.near a n) true unit s = .ok (bs, t) ∧ bs.length = n ∧ t.near = s.near ∧ t.quarry = s.quarry
        ∧ t.core.ctx = held s.core.ctx
        ∧ ∀ i < n, nearWrap a i / 8 * 8 ∉ s.poison → nth bs i 0 = memGet s.near (nearWrap a i)))
  ∧ (∀ (s : State) a bs, (let tr : Trap := { cause := .mcheck, faddr := BitVec.ofNat 64 a, w := true, async := true }
      partPoison s a bs.length = true → (touchesWindow s a = true → windowSlots (s.tileOf (nearTile a)) = []) →
      ∃ t, writeNear a bs 0 s = .ok ((), t) ∧ t.near = (s.nearWrite a bs).near ∧ t.poison = clearPoison a bs.length s.poison
        ∧ t.core.ctx = { s.core.ctx with asyncs := if s.core.ctx.asyncs.contains tr then s.core.ctx.asyncs else s.core.ctx.asyncs ++ [tr] }))
  ∧ (∀ (s : State) n, (Fin.ofNat 8 (coreDie s.core.id) ∉ s.throttle → s.lose n = s)
      ∧ (Fin.ofNat 8 (coreDie s.core.id) ∈ s.throttle →
          s.lose n = { s with core := s.core.bump fun p => { p with stall := p.stall + BitVec.ofNat 64 n } }))
  ∧ (∀ (s : State) die hot, ∃ u, exec (.powerWindow die hot) s = .next u ∧ (die ∈ u.throttle ↔ hot = true)
      ∧ (∀ o, o ≠ die → (o ∈ u.throttle ↔ o ∈ s.throttle)) ∧ { u with throttle := s.throttle } = s)
  ∧ (∀ (s : State) die, ∃ u, exec (.thermalFault die) s = .next u ∧ u.host = { s.host with thermal := true }
      ∧ u.devs = s.devs.map (fun d => { d with state := .faulted, why := 0xFF }) ∧ (∀ c, u.liveOn c = false) ∧ u.near = s.near ∧ u.quarry = s.quarry
      ∧ (∀ co ∈ u.allCores, co.mode = .idle ∧ co.runq = [] ∧ co.deque = [] ∧ co.back = []) ∧ (∀ t, (u.tileOf t).jobs = [])
      ∧ u.mortar = [] ∧ u.returning = [] ∧ u.colls = [])
  ∧ (∀ (s : State) die, exec (.ioDieOverheat die) s = .next { s with powered := false } ∧ step { s with powered := false } = .fault .unpowered)
  ∧ (∀ (s : State) ok, ∃ u, exec (.packageReset ok) s = .next u ∧ u.powered = true ∧ u.time = 0 ∧ u.quarry = s.quarry ∧ u.devs = []
      ∧ u.host.lease = .vacant ∧ u.host.lperiod = 1000 ∧ u.host.thermal = false ∧ u.host.capReady = true ∧ u.host.lintelsReady = ok)

namespace Sys2Proof.Say

/-- A lease granted or renewed by what arrived at a time, under a period in milliseconds (log entry 2 says how long a microsecond is). -/
def granted (h : HostSide) (p : Fin 2) (id : BitVec 32) (arrived period : Word) : HostSide :=
  { h with lease := .held, port := p, hostid := id, taken := arrived
           deadline := BitVec.ofNat 64 (arrived.toNat / 800 + 1000 * period.toNat) }
/-- A renewal that will be taken waits in the mailbox of the port that holds the lease: it arrived before the deadline, and after the lease was
last taken (R216). -/
abbrev RenewalWaits (h : HostSide) : Prop :=
  let k := h.ports[h.port]
  let at_ (off n : Nat) : Nat := leNat (memRead k.mailbox off n)
  at_ 2 2 = 0 ∧ at_ 12 4 = 0 ∧ at_ 20 44 = 0 ∧ at_ 8 4 ≤ 16320 ∧ at_ 16 4 ≠ 0 ∧ at_ 16 4 = h.hostid.toNat
    ∧ k.busy = true ∧ k.opcode = 9 ∧ k.holder = true ∧ k.arrived.toNat / 800 < h.deadline.toNat ∧ h.taken.toNat ≤ k.arrived.toNat
/-- Whether the deadline of a held lease has come. -/
abbrev Over (s : State) (h : HostSide) : Prop := h.lease = .held ∧ h.deadline.toNat ≤ s.time.toNat / 800
/-- The host side as it is now (R216): at its deadline a held lease is renewed by the renewal that waits, from that one's arrival on, and expires
when its deadline has come all the same. -/
def now (s : State) : HostSide :=
  let h := s.host
  let k := h.ports[h.port]
  let h1 := if Over s h ∧ RenewalWaits h then granted h h.port h.hostid k.arrived k.period else h
  if Over s h1 then { h1 with lease := .expired } else h1
def leaseNow (s : State) : LeaseState := (now s).lease

end Sys2Proof.Say

/-- The lease (R215, R216): who may write HLEASE and LPERIOD, what is counted, and the deadline. -/
def Sys2Proof.Part.Leases : Prop :=
  ∀ (s : State) (p : Fin 2) (v : Word),
    let id : BitVec 32 := BitVec.ofNat 32 (v.toNat / 2 ^ 32)
    let mine := s.host.port = p ∧ s.host.hostid = id
    let sets (h : HostSide) : Host.Outcome State Fault Refusal := .next { s with host := h }
    (id = 0 ∨ v.toNat % 2 = 1 → exec (.hleaseWrite p v) s = sets (now s))
    ∧ (id ≠ 0 → v.toNat % 2 = 0 →
      (leaseNow s = .vacant ∨ (leaseNow s = .held ∧ mine) → exec (.hleaseWrite p v) s = sets (granted (now s) p id s.time s.host.lperiod))
      ∧ (leaseNow s = .expired ∨ (leaseNow s = .held ∧ ¬ mine) →
          exec (.hleaseWrite p v) s = sets { now s with lostHlease := s.host.lostHlease + 1 }))
    ∧ (leaseNow s = .held → s.host.port = p →
        exec (.lperiodWrite p v) s = sets { now s with lperiod := BitVec.ofNat 64 (max 10 (min 10000 v.toNat)) })
    ∧ (¬ (leaseNow s = .held ∧ s.host.port = p) → exec (.lperiodWrite p v) s = sets (now s))
    ∧ exec .leaseExpire s = sets (now s)

/-- BAR0 (R214, R218, R229): a NOTIFY of the last holder's port is remembered by its queue, any other is counted; MBDOOR takes a 1 only, and the
command is judged by the moment of that write and by LPERIOD as it then stands (R216, R217); the mailbox keeps its bytes while it is not busy and ignores writes while it is; an unlisted offset is ignored. -/
def Sys2Proof.Part.HostRegisters : Prop :=
  (∀ (s : State) (p : Fin 2) q, (let lost := { s with host := { s.host with lostNotify := s.host.lostNotify + 1 } }
     (s.host.lease = .vacant ∨ s.host.port ≠ p → exec (.notifyWrite p q) s = .next lost)
     ∧ (s.host.lease ≠ .vacant → s.host.port = p → s.queueOf q = none → exec (.notifyWrite p q) s = .next lost)
     ∧ (∀ d k, s.host.lease ≠ .vacant → s.host.port = p → s.queueOf q = some (d, k) → s.devOf d.num = some d →
         ∃ u k', exec (.notifyWrite p q) s = .next u ∧ u.queueOf q = some ({ d with queues := d.queues.map fun x => if x.num = q then { x with notified := true } else x }, k')
           ∧ k' = { k with notified := true } ∧ u.host = s.host ∧ u.near = s.near)))
  ∧ (∀ (s : State) (p : Fin 2) off data, (let v := bytesWord data
     let k := s.host.ports[p]
     (off = 0x08 → data.length = 8 → exec (.registerWrite p off data) s = exec (.hleaseWrite p v) s)
     ∧ (off = 0x10 → data.length = 8 → exec (.registerWrite p off data) s = exec (.lperiodWrite p v) s)
     ∧ (∀ q < 1024, off = 0x8000 + 8 * q → exec (.registerWrite p off data) s = exec (.notifyWrite p q) s)
     ∧ (off = 0x40 → v = 1 → k.busy = false → exec (.registerWrite p off data) s = .next { s with host := { now s with
         ports := s.host.ports.set p.val { k with
           busy := true, opcode := BitVec.ofNat 16 (leNat (memRead k.mailbox 0 2)), vdid := BitVec.ofNat 32 (leNat (memRead k.mailbox 4 4))
           arrived := s.time, period := s.host.lperiod, holder := decide (leaseNow s = .held ∧ s.host.port = p) } } })
     ∧ (off = 0x40 → v ≠ 1 ∨ k.busy = true → ∃ u, exec (.registerWrite p off data) s = .next u ∧ u.host.ports[p] = k)
     ∧ (0x4000 ≤ off → off + data.length ≤ 0x8000 → 
         (k.busy = true → ∃ u, exec (.registerWrite p off data) s = .next u ∧ u.host.ports[p] = k)
         ∧ (k.busy = false → memWf k.mailbox = true → ∃ u, exec (.registerWrite p off data) s = .next u ∧ u.host.ports[p].busy = false
             ∧ memRead u.host.ports[p].mailbox (off - 0x4000) data.length = data
             ∧ ∀ a, a < off - 0x4000 ∨ off - 0x4000 + data.length ≤ a → memGet u.host.ports[p].mailbox a = memGet k.mailbox a))
     ∧ (off + data.length ≤ 0x4000 → off ≠ 0x08 → off ≠ 0x10 → off ≠ 0x40 → ∃ u, exec (.registerWrite p off data) s = .next u
         ∧ u.host.ports[p].mailbox = k.mailbox ∧ u.host.lease = s.host.lease)))

namespace Sys2Proof.Say

/-- A window byte that is ordinary near memory. -/
def openByte (d : Device) (off : Nat) : Bool :=
  let a := d.policy.nvbase + off
  off < d.policy.nvlen && isNear a && nearExists a && !isSpill a && !isMigSlot a && !isObs a
def answered (s : State) (r : Option (List Byte)) : State := { s with host := { s.host with bar2 := s.host.bar2 ++ [r] } }

end Sys2Proof.Say

/-- BAR2 (R234, R236): drive offset o is near address NVBASE + o; an access that meets a closed byte or passes NVLEN is an Unsupported Request and
changes no byte; the 64 interrupt bytes, which are no memory, read as zero; a 4-byte MSI-X write at 4 × i becomes a message to interrupt route i,
and any other write that touches them is dropped and counted; both also hold while the device is EVICTED (R166) and after a thermal fault. (The
sender 0 of its message is log entry 55; that a read of an uncorrectable word gives free bytes there and no error, log entry 97.) -/
def Sys2Proof.Part.DriveWindow : Prop :=
  ∀ (s : State) (port : Fin 2) d off data, s.windowDev = some d → 4096 ≤ d.policy.nvlen →
    let page := d.policy.nvlen - 4096
    let a := d.policy.nvbase + off
    let int (o : Nat) : Prop := page ≤ o ∧ o < page + 64
    let live : Prop := d.state ≠ .evicted ∧ s.host.thermal = false
    let bad (x : Nat) : Prop := x / 8 * 8 ∈ s.poison
    let lost := { s with host := { s.host with lostNotify := s.host.lostNotify + 1 } }
    let msg (c : CoreId) (g : Fin 64) (v : BitVec 32) : State :=
      { s with mortar := s.mortar ++ [{ src := 0, dst := c, vd := d.num, body := .tag g (v.setWidth 64) }] }
    (live → (∀ i < data.length, openByte d (off + i) = true ∧ ¬ int (off + i)) →
      exec (.nvmeWindowAccess port true off data) s = .next { s with near := memWrite s.near a data, poison := clearRange a data.length s.poison }
      ∧ ((∀ i < data.length, ¬ bad (a + i)) →
        exec (.nvmeWindowAccess port false off data) s = .next (answered s (some (memRead s.near a data.length)))))
    ∧ (live → (∀ i < data.length, openByte d (off + i) = true ∨ int (off + i)) →
        ∃ bs fresh, exec (.nvmeWindowAccess port false off data) s = .next { answered s (some bs) with fresh := fresh } ∧ bs.length = data.length
          ∧ ((∀ i < data.length, ¬ bad (a + i)) → fresh = s.fresh)
          ∧ ∀ i < data.length, (int (off + i) → nth bs i 0 = 0) ∧ (¬ int (off + i) → ¬ bad (a + i) → nth bs i 0 = memGet s.near (a + i)))
    ∧ (data ≠ [] → (∀ i < data.length, int (off + i)) →
        exec (.nvmeWindowAccess port false off data) s = .next (answered s (some (zeroBytes data.length))))
    ∧ (∀ i < data.length, openByte d (off + i) = false → ¬ int (off + i) →
        exec (.nvmeWindowAccess port false off data) s = .next (answered lost none)
        ∧ ((∀ k < data.length, ¬ int (off + k)) → exec (.nvmeWindowAccess port true off data) s = .next (answered lost none)))
    ∧ (¬ live → (∀ k < data.length, ¬ int (off + k)) → ∀ w, exec (.nvmeWindowAccess port w off data) s = .next (answered lost none))
    ∧ (¬ live → ∀ k < data.length, ¬ int (off + k) → exec (.nvmeWindowAccess port false off data) s = .next (answered lost none))
    ∧ (∀ i (b0 b1 b2 b3 : Byte), off = page + 4 * i → i < 16 → data = [b0, b1, b2, b3] →
        exec (.nvmeWindowAccess port true off data) s = exec (.nvmeInterruptWrite port (4 * i) (BitVec.ofNat 32 (leNat data))) s)
    ∧ (∀ i < data.length, int (off + i) → ¬ (data.length = 4 ∧ page ≤ off ∧ off + 4 ≤ page + 64 ∧ (off - page) % 4 = 0) →
        exec (.nvmeWindowAccess port true off data) s = .next lost)
    ∧ (∀ i v c g, d.policy.routes[i]? = some (c, g) → exec (.nvmeInterruptWrite port (4 * i) v) s = .next (msg c g v))
    ∧ (∀ i v, d.policy.routes.length ≤ i → exec (.nvmeInterruptWrite port (4 * i) v) s = .next lost)
    ∧ (∀ o v, o % 4 ≠ 0 → exec (.nvmeInterruptWrite port o v) s = .next lost)

/-! The mailbox. -/

namespace Sys2Proof.Say

/-- The state in which a command is judged: a lease at its deadline has expired (R216). -/
def asJudged (s : State) : State := { s with host := now s }
/-- The response of a command (R218): STATUS, its length, its results; the mailbox is free, and vector 1,024 is raised on the port that
holds the lease (R214). The place of the length field's count is log entry 36. -/
def replied (b : State) (p : Fin 2) (status : Nat) (res : List Byte) : State :=
  { b with host := { b.host with
      ports := b.host.ports.set p.val { mailbox := memWrite [] 0 (leBytes 4 status ++ leBytes 4 res.length ++ res), msix := b.host.ports[p].msix }
      raised := if b.host.lease = .held ∧ b.host.port = p then b.host.raised ++ [(p, 1024)] else b.host.raised } }
/-- A command waits in the mailbox of a port, and the capstone and the lintel cores have booted (R20). -/
structure Waits (s : State) (p : Fin 2) (op : Nat) : Prop where
  busy : s.host.ports[p].busy = true
  booted : s.host.capReady = true ∧ s.host.lintelsReady = true
  opcode : mbNat s p 0 2 = op
/-- The must-be-zero bytes of a header are zero, `used` bytes of ARGS being the command's, and PLEN is in range. -/
def HeaderOk (s : State) (p : Fin 2) (used : Nat) : Prop :=
  mbNat s p 2 2 = 0 ∧ mbNat s p 12 4 = 0 ∧ mbNat s p (16 + used) (48 - used) = 0 ∧ mbNat s p 8 4 ≤ 16320
/-- The port held the lease when the command arrived, which therefore runs to its end (R217). -/
def Holds (s : State) (p : Fin 2) : Prop := s.host.ports[p].holder = true
/-- The lease taken by a command, the period of its arrival counted from there (R216). -/
def takenAt (h : HostSide) (p : Fin 2) (id : BitVec 32) : HostSide := granted h p id h.ports[p].arrived h.ports[p].period
/-- The host side as judged with one refused write of HLEASE counted, unless the lease is vacant or HOSTID is 0 (R215). -/
def counted (s : State) (p : Fin 2) : State :=
  { asJudged s with host := { now s with lostHlease := if s.host.lease = .vacant ∨ mbNat s p 16 4 = 0 then s.host.lostHlease else s.host.lostHlease + 1 } }
/-- The commands on a device with the bytes of ARGS they use and the states they are valid in (R219). -/
def deviceCmds (p : Fin 2) : List (Nat × Instr × Nat × List VdState) :=
  [(2, .destroyVd p, 0, [.running, .paused, .evicted, .faulted]), (3, .mapHandle p, 24, [.running, .paused, .evicted]),
   (4, .schedule p, 24, [.running, .paused]), (5, .pause p, 0, [.running]), (6, .resume p, 0, [.paused]), (7, .evict p, 0, [.running, .paused]),
   (8, .restore p, 0, [.evicted]), (12, .attest p, 32, [.running, .paused, .evicted]), (13, .setPolicy p, 0, [.running, .paused, .evicted])]
/-- The device that VDID names. -/
def named (s : State) (p : Fin 2) : Option Device := s.devs.find? fun d => vdidOf d.num == BitVec.ofNat 32 (mbNat s p 4 4)
/-- A command on a device that passes the checks of R218 and R219. -/
structure Accepted (s : State) (p : Fin 2) (op used : Nat) (d : Device) : Prop where
  waits : Waits s p op
  header : HeaderOk s p used
  holder : op = 12 ∨ Holds s p
  device : named s p = some d
  permitted : d.policy.cmds.toNat.testBit op = true
/-- A pre-emption of the device waits for the queued grammar operations of a held context (R238). -/
def HeldUp (s : State) (p : Fin 2) : Prop := ∃ d, named s p = some d ∧ d.state = .running ∧ heldBusy s d = true
/-- A device that PAUSE finds quiet: no job, no collective, nothing outstanding, nothing on the way back, and no PREEMPT trace. -/
structure Quiet (s : State) (d : Device) : Prop where
  back : s.returning = []
  jobs : ∀ t ∈ d.tiles, (s.tileOf t).jobs = []
  colls : ∀ c ∈ s.colls, c.vd ≠ d.num
  fresh : d.saves = []
  untraced : ∀ t ∈ d.tiles, (memWord s.near (nearAddr t 35 0xFF020)).getLsbD 7 = false
  cores : ∀ co ∈ s.allCores, coreTile co.id ∈ d.tiles → co.mode = .idle ∨ (co.mode = .running ∧ co.ctx.asyncs = [] ∧ co.ctx.loads = []
    ∧ co.ctx.stores = [] ∧ co.ctx.mxops = [] ∧ co.ctx.gathers = [])
  once : OneEach s
/-- A core as PAUSE saves it. -/
def savedCore (co : Core) : Core := if co.mode = .idle then co else { co with ctx := { co.ctx with stall := none } }
/-- A saved core as it restarts: it asks for its fetch block again, and JOB counts the jobs outstanding (R210). -/
def restartedCore (s : State) (co : Core) : Core :=
  let f (x : Ctx) : Ctx :=
    { x with job := BitVec.ofNat 6 ((s.tileOf (coreTile co.id)).jobs.filter fun j => j.poster == some co.id && j.mark == x.mark).length }
  { co with ctx := f co.ctx, back := co.back.map f, fblock := none, asked := none }

end Sys2Proof.Say

/-- Commands refused (R20, R215-R220, R238): NOT_HOLDER, BAD_ARG for a must-be-zero byte, BAD_VD, BAD_STATE, DENIED, LEASE_HELD and BAD_OPCODE; what is
not OK has changed nothing but the count of refused renewals. No command is judged before capstone and lintels have booted, and a pre-emption
waits for the rule work of a held context. (The order in which these apply is log entry 36.) -/
def Sys2Proof.Part.RefusedCommands : Prop :=
  ∀ (s : State) (p : Fin 2),
    let no (i : Instr) (status : Nat) : Prop := exec i s = .next (replied (asJudged s) p status [])
    (∀ k ∈ deviceCmds p, Waits s p k.1 → (k.1 = 5 ∨ k.1 = 7 → ¬ HeldUp s p) →
      (k.1 ≠ 12 → ¬ Holds s p → no k.2.1 7)
      ∧ (k.1 = 12 ∨ Holds s p → ¬ HeaderOk s p k.2.2.1 → no k.2.1 9)
      ∧ (k.1 = 12 ∨ Holds s p → HeaderOk s p k.2.2.1 →
        (named s p = none → no k.2.1 4)
        ∧ (∀ d, named s p = some d →
          (d.state = .faulted → k.1 ≠ 2 → no k.2.1 5)
          ∧ (d.state ≠ .faulted ∨ k.1 = 2 →
            (d.policy.cmds.toNat.testBit k.1 = false → no k.2.1 2)
            ∧ (d.policy.cmds.toNat.testBit k.1 = true → d.state ∉ k.2.2.2 → no k.2.1 5)))))
    ∧ (Waits s p 1 → ¬ Holds s p → no (.createVd p) 7)
    ∧ (HeldUp s p → exec (.pause p) s = .next s ∧ exec (.evict p) s = .next s)
    ∧ (Waits s p 9 → ¬ Holds s p → exec (.leaseRenew p) s = .next (replied (counted s p) p 7 []))
    ∧ (Waits s p 9 → Holds s p → ¬ HeaderOk s p 4 → no (.leaseRenew p) 9)
    ∧ (Waits s p 9 → Holds s p → HeaderOk s p 4 → (let id := mbNat s p 16 4
        (id = 0 → no (.leaseRenew p) 9) ∧ (id ≠ 0 → id ≠ s.host.hostid.toNat → exec (.leaseRenew p) s = .next (replied (counted s p) p 7 []))))
    ∧ (Waits s p 10 → HeaderOk s p 4 → (let early := s.host.ports[p].arrived.toNat / 800 < s.host.deadline.toNat
        (leaseNow s = .held ∨ (leaseNow s = .expired ∧ early) → no (.claim p) 6)
        ∧ (leaseNow s = .vacant → no (.claim p) 5)
        ∧ (leaseNow s = .expired → ¬ early → mbNat s p 16 4 = 0 → no (.claim p) 9)))
    ∧ (¬ (s.host.capReady = true ∧ s.host.lintelsReady = true) → (∀ k ∈ deviceCmds p, exec k.2.1 s = .next s) ∧ exec (.createVd p) s = .next s
        ∧ exec (.leaseRenew p) s = .next s ∧ exec (.claim p) s = .next s ∧ exec (.resync p) s = .next s ∧ exec (.health p) s = .next s
        ∧ exec (.mailboxBadOpcode p) s = .next s)
    ∧ (∀ op, Waits s p op → op = 0 ∨ 14 < op → (Holds s p → no (.mailboxBadOpcode p) 1) ∧ (¬ Holds s p → no (.mailboxBadOpcode p) 7))

/-- Commands on a device (R11, R130, R166, R210-R212, R219): DESTROY_VD leaves nothing of it on its tiles; MAP_HANDLE adds a handle within its entry
under a value that no handle bears, neither 0 nor 0xFF_FFFF; SCHEDULE sets lintels and the slice; PAUSE saves every core as a record of
bytes with the near bytes in place; RESUME puts the cores back, JOB counting what is outstanding, with the logged messages first; EVICT
saves the slices, the spilled run-queue records within them, and clears the tiles; RESTORE writes them back. (The layout of ARGS and of
results is log entry 36; that poison marks and the plumb ring's place go with a slice log entry 58; that a record's bytes and its typed
copy say the same, the copy being read back, log entry 84; that a COLL which lacks participants waits under PAUSE log entry 98.) -/
def Obligations.DeviceCommands : Prop :=
  ∀ (s : State) (p : Fin 2) d,
    let other (a : Nat) : Prop := ¬ (isNear a = true ∧ nearTile a ∈ d.tiles)
    (Accepted s p 2 0 d → d.state ≠ .evicted → ∃ b, exec (.destroyVd p) s = .next (replied b p 0 []) ∧ b.devs = s.devs.filter (fun k => k.num != d.num)
      ∧ (∀ a, memGet b.near a = if isNear a = true ∧ nearTile a ∈ d.tiles then 0 else memGet s.near a)
      ∧ (∀ c, coreTile c ∈ d.tiles → b.coreOf c = { id := c }) ∧ b.quarry = s.quarry ∧ b.host = now s
      ∧ b.colls = s.colls.filter (fun c => c.vd != d.num))
    ∧ (∀ e, Accepted s p 3 24 d → d.state ≠ .faulted → d.policy.handles[mbNat s p 16 1]? = some e → mbNat s p 18 6 = 0 →
      BitVec.ofNat 8 (mbNat s p 17 1) &&& ~~~ e.2.2 = 0 → mbNat s p 24 8 + mbNat s p 32 8 ≤ e.2.1 → mbNat s p 32 8 ≤ 2 ^ 40 →
      ((s.devs.map fun d => d.handles.map Handle.val).flatten).length < 2 ^ 24 - 3 → ∃ v : BitVec 24, v ≠ 0 ∧ v ≠ 0xFFFFFF ∧
      (∀ k ∈ s.devs, ∀ h ∈ k.handles, h.val ≠ v) ∧
      (let h : Handle := { val := v, entry := mbNat s p 16 1, base := e.1 + mbNat s p 24 8, len := mbNat s p 32 8
                           r := (mbNat s p 17 1).testBit 0, w := (mbNat s p 17 1).testBit 1, shared := e.2.2.getLsbD 2, launch := (mbNat s p 17 1).testBit 3 }
       ∃ b, exec (.mapHandle p) s = .next (replied b p 0 (leBytes 4 h.val.toNat)) ∧ b.devOf d.num = some { d with handles := d.handles ++ [h] }
         ∧ b.handleCount = s.handleCount + 1 ∧ b.core = s.core ∧ b.near = s.near ∧ b.quarry = s.quarry))
    ∧ (Accepted s p 4 24 d → d.state = .running ∨ d.state = .paused → (∀ i < 16, mbNat s p (16 + i) 1 < 4 ∧ (d.queues.length ≤ i → mbNat s p (16 + i) 1 = 0)) →
      0 < mbNat s p 32 8 → ∃ b d', exec (.schedule p) s = .next (replied b p 0 []) ∧ b.devOf d.num = some d' ∧ d'.slice = BitVec.ofNat 64 (mbNat s p 32 8)
        ∧ (∀ i k, i < 16 → d.queues[i]? = some k → d'.queues[i]? = some { k with lintel := Fin.ofNat 4 (mbNat s p (16 + i) 1) })
        ∧ b.core = s.core ∧ b.near = s.near)
    ∧ (Accepted s p 5 0 d → d.state = .running → Quiet s d → ∃ b d', exec (.pause p) s = .next (replied b p 0 []) ∧ b.devOf d.num = some d'
      ∧ d'.state = .paused ∧ b.near = s.near ∧ b.quarry = s.quarry ∧ (∀ c, coreTile c ∈ d.tiles → (b.coreOf c).mode = .idle)
      ∧ (∀ t ∈ d.tiles, ∀ k < 33, ∃ r ∈ d'.saves, r.core = savedCore (s.coreOf (mkCore t k)) ∧ (r.locks = s.locks.filter fun l => l.slice == (mkCore t k).toNat)
          ∧ r.bytes = saveBytes s.time r.core r.locks ∧ r.log = [])
      ∧ (∀ l ∈ b.locks, BitVec.ofNat 9 (l.slice / 64) ∉ d.tiles))
    ∧ (Accepted s p 6 0 d → d.state = .paused → (d.saves.map (·.core.id)).Nodup → OneEach s → ∃ b, exec (.resume p) s = .next (replied b p 0 [])
      ∧ b.devOf d.num = some { d with saves := [], state := .running, sliceAt := s.time }
      ∧ b.mortar = ((d.saves.map SaveRec.log).flatten.map fun m => { m with logged := true }) ++ s.mortar
      ∧ (∀ r ∈ d.saves, b.coreOf r.core.id = restartedCore s r.core) ∧ b.locks = s.locks ++ (d.saves.map SaveRec.locks).flatten ∧ b.near = s.near)
    ∧ (Accepted s p 7 0 d → d.state = .paused → d.courses = [] → (∀ t ∈ d.tiles, (s.tileOf t).jobs = []) → ∃ b d', exec (.evict p) s = .next (replied b p 0 []) ∧ b.devOf d.num = some d'
      ∧ d'.state = .evicted ∧ (∀ a, memGet b.near a = if isNear a = true ∧ nearTile a ∈ d.tiles then 0 else memGet s.near a) ∧ b.quarry = s.quarry
      ∧ d'.saves = d.saves.map fun r => { r with core := { r.core with phases := [] }
                                                 slice := memWriteAll (memCells s.near (sliceOf r.core.id).1 (sliceOf r.core.id).2) (spillCells r.core)
                                                 poison := s.poison.filter fun a =>
                                                   (sliceOf r.core.id).1 ≤ a && a < (sliceOf r.core.id).1 + (sliceOf r.core.id).2
                                                 ppos := if coreSlot r.core.id = 32 then (s.tileOf (coreTile r.core.id)).ppos else 0 })
    ∧ (Accepted s p 8 0 d → d.state = .evicted → s.host.thermal = false → (d.saves.map (·.core.id)).Nodup → memWf s.near = true →
      (∀ t ∈ d.tiles, t.toNat % 64 < 48 ∧ ∀ k ∈ s.devs, t ∈ k.tiles → k.state = .evicted) →
      (∀ r ∈ d.saves, coreTile r.core.id ∈ d.tiles ∧ coreSlot r.core.id ≤ 32 ∧ memWf r.slice = true
        ∧ ∀ c ∈ r.slice, (sliceOf r.core.id).1 ≤ c.1 ∧ c.1 < (sliceOf r.core.id).1 + (sliceOf r.core.id).2) →
      ∃ b, exec (.restore p) s = .next (replied b p 0 []) ∧ b.devOf d.num = some { d with saves := [], state := .running, sliceAt := s.time }
        ∧ (∀ a, a ∈ b.poison ↔ (a ∈ s.poison ∧ other a) ∨ ∃ r ∈ d.saves, a ∈ r.poison)
        ∧ (∀ r ∈ d.saves, (coreSlot r.core.id = 32 → (b.tileOf (coreTile r.core.id)).slots = r.slots ∧ (b.tileOf (coreTile r.core.id)).ppos = r.ppos)
          ∧ b.coreOf r.core.id = { r.core with ctx := { r.core.ctx with job := 0 }, back := r.core.back.map fun x => { x with job := 0 }
                                               fblock := none, asked := none } ∧ ∀ a, (sliceOf r.core.id).1 ≤ a → a < (sliceOf r.core.id).1 + (sliceOf r.core.id).2 →
            memGet b.near a = if isSpill a then 0 else memGet r.slice a)
        ∧ (∀ a, other a → memGet b.near a = memGet s.near a) ∧ b.quarry = s.quarry)

/-- The lease commands and the reports (R215-R217, R225, R233, R245). A renewal and a claim count from their arrival under the LPERIOD of that moment, and a
renewal that a later write of HLEASE has overtaken moves no deadline; CLAIM moves port, vectors and
slots; RESYNC, ATTEST and HEALTH change nothing.
(The places of fields are log entry 36.) -/
def Sys2Proof.Part.LeaseAndReports : Prop :=
  ∀ (s : State) (p : Fin 2),
    let id : BitVec 32 := BitVec.ofNat 32 (mbNat s p 16 4)
    let h := now s
    (Waits s p 9 → HeaderOk s p 4 → Holds s p → id ≠ 0 → s.host.hostid = id →
      (h.lease = .held → h.port = p → h.taken.toNat ≤ h.ports[p].arrived.toNat →
        exec (.leaseRenew p) s = .next (replied { s with host := takenAt h p id } p 0 []))
      ∧ (h.lease ≠ .held ∨ h.port ≠ p ∨ h.ports[p].arrived.toNat < h.taken.toNat → exec (.leaseRenew p) s = .next (replied (asJudged s) p 0 [])))
    ∧ (Waits s p 10 → HeaderOk s p 4 → leaseNow s = .expired → s.host.deadline.toNat ≤ s.host.ports[p].arrived.toNat / 800 → id ≠ 0 →
        exec (.claim p) s = .next (replied { s with host := { takenAt h p id with raised := s.host.raised ++ s.host.pending.map fun v => (p, v), pending := [] } } p 0 []))
    ∧ (Waits s p 14 → HeaderOk s p 0 → ∃ life wear : List Byte, life.length = 8 ∧ wear.length = 64 ∧ exec (.health p) s = .next (replied (asJudged s) p 0
        (life ++ leBytes 8 (if s.host.thermal then 1 else 0) ++ wear ++ (s.eccDie.toList.map wordBytes).flatten)))
    ∧ (Waits s p 11 → HeaderOk s p 4 → ∃ res, exec (.resync p) s = .next (replied (asJudged s) p 0 res)
      ∧ res.take 4 = leBytes 4 (if h.lease = .held then h.hostid.toNat else 0)
      ∧ (res.drop 4).take 4 = leBytes 4 (match h.lease with | .vacant => 0 | .held => 1 | .expired => 2)
      ∧ (res.drop 32).take 32 = wordBytes h.lostHlease ++ wordBytes h.lostNotify ++ wordBytes h.lostBounce ++ wordBytes h.lostService
      ∧ (res.drop 96).take 8 = (let left := s.devs.length - mbNat s p 16 4
          leBytes 4 (min left 61) ++ leBytes 4 (if 61 < left then 1 else 0))
      ∧ res.length = 104 + 264 * min (s.devs.length - mbNat s p 16 4) 61
      ∧ (∀ d, s.devs = [d] → mbNat s p 16 4 = 0 → (res.drop 104).take 8 = leBytes 4 (vdidOf d.num).toNat
          ++ [(match d.state with | .running => 1 | .paused => 2 | .evicted => 3 | .faulted => 4), if d.state = .faulted then d.why else 0,
              BitVec.ofNat 8 d.queues.length, 0]))
    ∧ (∀ d, Accepted s p 12 32 d → d.state ≠ .faulted → ∃ res, exec (.attest p) s = .next (replied (asJudged s) p 0 res) ∧ res.length = 192 + 3392
      ∧ res.take 32 = mbBytes s p 16 32 ∧ (res.drop 160).take 8 = leBytes 8 (vdidOf d.num).toNat)

namespace Sys2Proof.Say

/-- What CREATE_VD checks in its order with the status of the first failure (R218-R220, R224): the payload's length; the policy's signatures; the
image's place, its key and GCM tag, its signatures; its ELF header (R272), then that the signature block of 3,392 bytes stands at its end behind the
section header table (R277); the policy's fields; CMDS; the tile count. -/
def createFailure (s : State) (p : Fin 2) : Option Nat :=
  let want := mbNat s p 16 2
  let pol := mbBytes s p 64 7336
  let ed := (pol.drop 8).take 32
  let ml := (pol.drop 40).take 1952
  if mbNat s p 8 4 < 7336 + 1088 + 32 then some 9
  else if !blockVerifies ed ml (pol.take 3944) (pol.drop 3944) then some 3
  else match locate s (mbBytes s p 8488 32) with
    | none => some 9
    | some loc => match Config.decryptImage (mbBytes s p 7400 1088) pol loc with
      | none => some 3
      | some exe =>
        if exe.length < 3392 || !blockVerifies ed ml (exe.take (exe.length - 3392)) (exe.drop (exe.length - 3392)) then some 3
        else if !elfOk exe then some 9
        else if !((elfSects exe).any fun x => x.typ == 0x70000003 && x.size == 3392 && x.off + x.size == exe.length)
            || exe.length - 3392 < fld exe 40 8 + fld exe 60 2 * fld exe 58 2 then some 3
        else if !policyFieldsOk pol then some 9
        else if !(leNat ((pol.drop 1992).take 8)).testBit 1 then some 2
        else if want = 0 || leNat ((pol.drop 2002).take 2) < want then some 9
        else if (freeTiles (asJudged s)).length < want || 16383 ≤ s.devs.length then some 8
        else none

/-- The payload of a CREATE_VD that makes a device (R224): nothing of `createFailure` is wrong; the policy binds to the lowest free tiles, its
extents existing, its rings inside them and its partition-form values being ordinals of the partition (R222, R227); the executable, decrypted
under the key, reads as R272 to R276 ask; queue numbers are left; and the far range fits the first LAUNCH entry (R379). -/
structure Makes (s : State) (p : Fin 2) (q : Policy) (img : Image) : Prop where
  passes : createFailure s p = none
  policy : bindPolicy (mbBytes s p 64 7336) ((freeTiles (asJudged s)).take (mbNat s p 16 2)) = some q
  image : ∃ loc exe, locate s (mbBytes s p 8488 32) = some loc ∧ Config.decryptImage (mbBytes s p 7400 1088) (mbBytes s p 64 7336) loc = some exe
    ∧ readImage ((freeTiles (asJudged s)).take (mbNat s p 16 2)) exe = some img
  queues : mbNat s p 2070 1 ≤ ((List.range 1024).filter fun n => (s.queueOf n).isNone).length
  room : (farRange img.segs).2 ≤ ((q.handles.find? fun h => h.2.2.getLsbD 3).map (·.2.1)).getD 0
/-- A device number whose ASID no device bears (R121, log entry 19). -/
def Unused (s : State) (n : Nat) : Prop := ∀ k ∈ s.devs, asidOf k.num ≠ asidOf n
/-- The bytes of the granules of an extent: those of 256 bytes whose first byte lies in it. -/
def inGranules (h : Nat × Nat × BitVec 8) (a : Nat) : Prop := h.1 ≤ a / 256 * 256 ∧ a / 256 * 256 < h.1 + h.2.1

end Sys2Proof.Say

/-- CREATE_VD and SET_POLICY (R47, R121, R128, R177, R222-R224, R237, R379): a failure is answered with its status and has changed nothing; under
the conditions of R224 the device is made: the next number whose ASID is free, RUNNING, under new keys that seal its image and its page tables, on the lowest free
tiles, which start as new, with a slice of 8,000,000 cycles and queue i at lintel i mod 4; SET_POLICY under the bound keys replaces the policy
for a greater VERSION and a quota that covers the tiles. (The choice of tiles, queue numbers and statuses is log entries 18, 34 and 36; what
a SHARED extent that held sealed bytes gives, log entry 73.) -/
def Sys2Proof.Part.PolicyCommands : Prop :=
  (∀ (s : State) (p : Fin 2) status, Waits s p 1 → HeaderOk s p 2 → Holds s p → createFailure s p = some status →
    exec (.createVd p) s = .next (replied (asJudged s) p status []))
  ∧ (∀ (s : State) (p : Fin 2) q img, Waits s p 1 → HeaderOk s p 2 → Holds s p → Makes s p q img →
    (let tiles := (freeTiles (asJudged s)).take (mbNat s p 16 2)
     let launch := ((q.handles.find? fun h => h.2.2.getLsbD 3).map (·.1)).getD 0
     ∃ b d nums num, exec (.createVd p) s = .next (replied b p 0 (leBytes 4 (vdidOf num).toNat ++ (nums.map (leBytes 2)).flatten))
      ∧ b.devs = s.devs ++ [d] ∧ Unused s num ∧ (∀ k, s.devCount ≤ k → k < num → ¬ Unused s k) ∧ s.devCount ≤ num ∧ b.devCount = num + 1 ∧ b.keyCount = s.keyCount + 1 ∧ d.key = s.keyCount + 1 ∧ b.host = now s
      ∧ d.num = num ∧ d.state = .running ∧ d.tiles = tiles ∧ tiles.length = mbNat s p 16 2 ∧ d.slice = 8000000 ∧ d.policy = q
      ∧ d.policy.edKey = mbBytes s p (64 + 8) 32 ∧ d.policy.mlKey = mbBytes s p (64 + 40) 1952
      ∧ d.queues.map (·.num) = nums ∧ nums.length = mbNat s p 2070 1 ∧ nums.Nodup ∧ (∀ n ∈ nums, s.queueOf n = none ∧ n < 1024)
      ∧ (∀ i k, d.queues[i]? = some k → k.lintel.val = i % 4 ∧ k.notified = false ∧ k.head = 0)
      ∧ d.lbase = launch ∧ d.vbase = (farRange img.segs).1 ∧ d.svctab = img.svctab ∧ d.tagRecs = img.tags
      ∧ (∀ c, coreTile c ∈ tiles → b.coreOf c = { id := c }) ∧ (∀ t ∈ tiles, b.tileOf t = { id := t, vd := some d.num })
      ∧ (∀ i < d.frames, ∀ k < 16, b.sealOf ((Config.frameOf d.num i).toNat % 2 ^ 39 * 16 + k) = some d.key)
      ∧ (∀ g, launch / 256 ≤ g → g < launch / 256 + ((farRange img.segs).2 + 255) / 256 →
          (∀ h ∈ q.handles, h.2.2.getLsbD 2 = true → ¬ inGranules h (256 * g)) → b.sealOf g = some d.key)))
  ∧ (∀ (s : State) (p : Fin 2) q img, Waits s p 1 → HeaderOk s p 2 → Holds s p → createFailure s p = none →
    (let tiles := (freeTiles (asJudged s)).take (mbNat s p 16 2)
     let no (status : Nat) : Prop := exec (.createVd p) s = .next (replied (asJudged s) p status [])
     (bindPolicy (mbBytes s p 64 7336) tiles = none → no 9)
     ∧ (∀ loc exe, locate s (mbBytes s p 8488 32) = some loc → Config.decryptImage (mbBytes s p 7400 1088) (mbBytes s p 64 7336) loc = some exe →
         (readImage tiles exe = none → no 9)
         ∧ (bindPolicy (mbBytes s p 64 7336) tiles = some q → readImage tiles exe = some img →
           (((List.range 1024).filter fun n => (s.queueOf n).isNone).length < mbNat s p 2070 1 → no 8)
           ∧ (mbNat s p 2070 1 ≤ ((List.range 1024).filter fun n => (s.queueOf n).isNone).length →
               ((q.handles.find? fun h => h.2.2.getLsbD 3).map (·.2.1)).getD 0 < (farRange img.segs).2 → no 9)))))
  ∧ (∀ (s : State) (p : Fin 2) d, Accepted s p 13 0 d → d.state ≠ .faulted → ∃ u, exec (.setPolicy p) s = .next u ∧
    (let pol := mbBytes s p 64 7336
     let no (status : Nat) : Prop := u = replied (asJudged s) p status []
     if mbNat s p 8 4 < 7336 then no 9
     else if !blockVerifies d.policy.edKey d.policy.mlKey (pol.take 3944) (pol.drop 3944) then no 3
     else match bindPolicy pol d.tiles with
       | none => no 9
       | some q =>
         if q.version ≤ d.policy.version then no 9
         else if q.tileq < d.tiles.length then no 8
         else ∃ b d', u = replied b p 0 [] ∧ b.devOf d.num = some d' ∧ d'.policy = { q with edKey := d.policy.edKey, mlKey := d.policy.mlKey }
           ∧ d'.state = d.state ∧ d'.queues = d.queues ∧ d'.handles = d.handles ∧ b.core = s.core ∧ b.near = s.near
           ∧ (∀ h ∈ q.handles, h.2.2.getLsbD 2 = true → ∀ a, inGranules h a → b.sealOf (a / 256) = none)
           ∧ (memWf s.quarry = true → ∀ a, (∀ h ∈ q.handles, h.2.2.getLsbD 2 = true → ¬ inGranules h a) → memGet b.quarry a = memGet s.quarry a)))

/-! Queue packets. -/

namespace Sys2Proof.Say

/-- The slot that HEAD names, and the packet in it (R227, R228). -/
def slotOf (k : Queue) : Nat := k.ring + 64 + 64 * (k.head.toNat % 2 ^ k.log2)
def hdrField (s : State) (k : Queue) (off n : Nat) : Nat := leNat (memRead s.quarry (slotOf k + off) n)
def typeOf (s : State) (k : Queue) : Nat := hdrField s k 0 1 / 2 % 8
/-- A queue whose next packet a lintel reads: its device runs, a NOTIFY is remembered, no BARRIER holds it, the slot is VALID. -/
structure Reading (s : State) (q : Nat) (d : Device) (k : Queue) : Prop where
  queue : s.queueOf q = some (d, k)
  num : k.num = q
  dev : s.devOf d.num = some d
  running : d.state = .running
  lintel : s.host.lintelsReady = true
  notified : k.notified = true
  free : k.barrier = none
  valid : hdrField s k 0 1 % 2 = 1
  mem : memWf s.quarry = true
/-- The packet's slot and HEAD after it is consumed: HDR 0, HEAD one more, in the ring and in the lintel. -/
def Consumed (u : State) (q : Nat) (k : Queue) : Prop :=
  memGet u.quarry (slotOf k) = 0 ∧ memWord u.quarry k.ring = k.head + 1 ∧ ∃ d k', u.queueOf q = some (d, k') ∧ k'.head = k.head + 1
/-- The words of the control block and of the slot, which an action elsewhere must not meet. -/
def clearOf (k : Queue) (a n : Nat) : Prop := (a + n ≤ k.ring ∨ k.ring + 16 ≤ a) ∧ (a + n ≤ slotOf k ∨ slotOf k + 64 ≤ a)
/-- The completion of a packet with a signal word at physical address pa, or none: n is subtracted (R232). -/
def Signalled (s u : State) (csig : Option Nat) (n : Word) : Prop :=
  ∀ pa, csig = some pa → memWord u.quarry pa = memWord s.quarry pa - n
/-- The physical address of a packet's completion signal: a far word of a SHARED writable extent (R228, R232). -/
def csigAt (s : State) (d : Device) (k : Queue) : Option Nat :=
  let ea := hdrField s k 16 8
  match d.handles.find? fun h => h.val.toNat == ea / 2 ^ 40 && h.live && ea / 2 ^ 40 != 0 with
  | none => none
  | some h => some (h.base + ea % 2 ^ 40)
/-- A packet fails the check that has a REASON code of R231; R32 and R135 are judged on the descriptor, or the card, that DESC names. -/
def Fails (s : State) (d : Device) (k : Queue) : Nat → Prop
  | 1 => 4 ≤ typeOf s k
  | 2 => (typeOf s k = 0 ∧ launchOf s d (hdrField s k 8 8) = none)
    ∨ (typeOf s k = 1 ∧ ∀ j, cardOf s d (hdrField s k 8 8) = some j → cardFails s (copyTile d k) j = true)
  | 3 => hdrField s k 16 8 ≠ 0
    ∧ ¬ (hdrField s k 16 8 % 8 = 0 ∧ ∃ h, extent d (hdrField s k 16 8) 8 = some h ∧ h.shared = true ∧ h.w = true)
  | 4 => 32 ≤ hdrField s k 0 1 ∨ hdrField s k 1 1 ≠ 0 ∨ hdrField s k 4 4 ≠ 0 ∨ hdrField s k 32 32 ≠ 0
    ∨ (2 ≤ typeOf s k ∧ hdrField s k 8 8 ≠ 0) ∨ (typeOf s k ≠ 3 ∧ hdrField s k 24 8 ≠ 0)
  | 5 => (typeOf s k = 0 ∧ d.policy.cmds.toNat.testBit 32 = false) ∨ (typeOf s k = 1 ∧ d.policy.cmds.toNat.testBit 33 = false)
  | 6 => typeOf s k = 1 ∧ ∃ j, cardOf s d (hdrField s k 8 8) = some j ∧ cardField j.card 2 2 ≠ 0
  | _ => False

end Sys2Proof.Say

/-- Packets (R227-R232): SIGNAL subtracts VALUE from its signal and raises its queue's vector when IRQ is set; COPY posts its card on the
lintel's tile and is consumed, and waits while that tile's 64 entries are full; BARRIER holds the queue, and a queue that is held reads no
packet (its completion, once every earlier packet has completed, is O45); a packet that fails checks, a reserved TYPE among them, is consumed
without effect, with the lowest of their REASON codes in ERR. -/
def Sys2Proof.Part.QueuePackets : Prop :=
  (∀ (s : State) q d k, s.queueOf q = some (d, k) → k.barrier ≠ none →
    ∀ i ∈ [Instr.launchPacket q, .copyPacket q, .barrierPacket q, .signalPacket q, .reservedTypePacket q], exec i s = .next s)
  ∧ ∀ (s : State) q d k, Reading s q d k → ∀ p, p = packetOf (memRead s.quarry (slotOf k) 64) → 
    let irq := (hdrField s k 0 1).testBit 4
    let ref : PacketRef := { queue := q, num := k.head.toNat, seq := BitVec.ofNat 16 (hdrField s k 2 2), csig := hdrField s k 16 8, irq := irq }
    let sig := if hdrField s k 16 8 = 0 then none else csigAt s d k
    (∀ r, packetReason s d k p = r ↔ (r = 0 ∧ ∀ n, ¬ Fails s d k n) ∨ (Fails s d k r ∧ ∀ n < r, ¬ Fails s d k n)) ∧
    (∀ x ∈ [(0, Instr.launchPacket q), (1, .copyPacket q), (2, .barrierPacket q), (3, .signalPacket q)],
      typeOf s k = x.1 → packetReason s d k p ≠ 0 → ∃ u, exec x.2 s = .next u ∧ Consumed u q k ∧ u.near = s.near ∧ u.host = s.host
        ∧ memWord u.quarry (k.ring + 8) = BitVec.ofNat 64 (2 ^ 63 + hdrField s k 2 2 * 2 ^ 32 + packetReason s d k p)
        ∧ ∀ a, a ≠ slotOf k → (a < k.ring ∨ k.ring + 16 ≤ a) → memGet u.quarry a = memGet s.quarry a) ∧
    ((∀ pa, sig = some pa → clearOf k pa 8) →
    (typeOf s k = 3 → packetReason s d k p = 0 → ∃ u, exec (.signalPacket q) s = .next u ∧ Consumed u q k
      ∧ Signalled s u sig (BitVec.ofNat 64 (hdrField s k 24 8)) ∧ u.near = s.near
      ∧ u.host.raised = (if irq = true ∧ s.host.lease = .held then s.host.raised ++ [(s.host.port, q)] else s.host.raised)
      ∧ u.host.pending = (if irq = true ∧ s.host.lease = .expired then s.host.pending ++ [q] else s.host.pending))
    ∧ (∀ j, typeOf s k = 1 → packetReason s d k p = 0 → cardOf s d (hdrField s k 8 8) = some j → (s.tileOf (copyTile d k)).jobs.length < 64 →
      (let t := copyTile d k
       ∃ u, exec (.copyPacket q) s = .next u ∧ Consumed u q k ∧ u.near = s.near
         ∧ (u.tileOf t).jobs = (s.tileOf t).jobs ++ [{ j with writes := jobWrites d t j, packet := some ref, seq := (s.tileOf t).seq }]))
    ∧ (∀ j, typeOf s k = 1 → packetReason s d k p = 0 → cardOf s d (hdrField s k 8 8) = some j → 64 ≤ (s.tileOf (copyTile d k)).jobs.length →
      exec (.copyPacket q) s = .next s)
    ∧ (typeOf s k = 2 → packetReason s d k p = 0 → ∃ u k', exec (.barrierPacket q) s = .next u ∧ u.quarry = s.quarry ∧ u.near = s.near
      ∧ (∃ d', u.queueOf q = some (d', k')) ∧ k' = { k with barrier := some ref })
    ∧ (4 ≤ typeOf s k → ∃ u, exec (.reservedTypePacket q) s = .next u ∧ Consumed u q k ∧ u.near = s.near ∧ u.host = s.host
      ∧ memWord u.quarry (k.ring + 8) = BitVec.ofNat 64 (2 ^ 63 + hdrField s k 2 2 * 2 ^ 32 + 1)))

/-- A BARRIER completes when nothing earlier is outstanding (R230, R232): its signal falls by 1, it is consumed, and the queue goes on. A COPY
packet completes with its job: its signal falls by 1, and a status other than OK goes into ERR with REASON 7; no signal of a FAULTED device
falls (R208). -/
def Sys2Proof.Part.PacketCompletion : Prop :=
  (∀ (s : State) q d k p, s.queueOf q = some (d, k) → k.num = q → s.devOf d.num = some d → k.barrier = some p → p.queue = q → d.state = .running →
    memWf s.quarry = true →
    (k.pending ≠ [] → exec (.barrierPacketComplete q) s = .next s)
    ∧ (k.pending = [] → ∀ h, p.csig ≠ 0 → extent d p.csig 8 = some h → clearOf k (h.base + p.csig % 2 ^ 40) 8 →
      ∃ u, exec (.barrierPacketComplete q) s = .next u ∧ Consumed u q k ∧ Signalled s u (some (h.base + p.csig % 2 ^ 40)) 1
        ∧ ∃ d' k', u.queueOf q = some (d', k') ∧ k'.barrier = none))
  ∧ (∀ (s : State) t seq j d k p h, (s.tileOf t).job seq = some j → s.devOf j.vd = some d → j.state = .ended → j.poster = none → j.packet = some p →
    cardField j.card 2 2 = 0 → (d.queues.find? fun x => x.num == p.queue) = some k → p.csig ≠ 0 → extent d p.csig 8 = some h →
    (h.base + p.csig % 2 ^ 40 + 8 ≤ k.ring ∨ k.ring + 16 ≤ h.base + p.csig % 2 ^ 40) → memWf s.quarry = true →
    ∃ u, exec (.jobComplete t seq) s = .next u ∧ (∀ x ∈ (u.tileOf t).jobs, x.seq ≠ seq) ∧ u.near = s.near
      ∧ (d.state = .faulted → u.quarry = s.quarry ∧ u.host = s.host)
      ∧ (d.state ≠ .faulted → Signalled s u (some (h.base + p.csig % 2 ^ 40)) 1)
      ∧ (j.status = 0 → memWord u.quarry (k.ring + 8) = memWord s.quarry (k.ring + 8))
      ∧ (d.state ≠ .faulted → j.status ≠ 0 → memWord u.quarry (k.ring + 8) = BitVec.ofNat 64 (2 ^ 63 + p.seq.toNat * 2 ^ 32 + j.status.toNat % 256 * 2 ^ 8 + 7)))

/-- LAUNCH (R25, R26, R31-R34, R38, R48, R228, R230, R271): a course with the descriptor's extents gets a number that no course of the device bears;
its completion bitmap is cleared; the image's tag records for the descriptor, which lies in the extent that mirrors the image (R379), stand in
their cores' tables, priorities clamped, and an enabled one leaves no record waiting; one tile-task record for each index leaves for the CORE the placement map names, in linear order,
with the descriptor's entry and argument, the coordinate, and the priority cut to the policy's and to 119; the quads of the placed cores
hold no line of the device (R249). A descriptor whose bitmap reaches a run-queue spill area in any of its pages is none. (Which number is
log entry 34.) -/
def Sys2Proof.Part.LaunchPackets : Prop :=
  ∀ (s : State) q d k l h, Reading s q d k → typeOf s k = 0 → packetReason s d k (packetOf (memRead s.quarry (slotOf k) 64)) = 0 →
    launchOf s d (hdrField s k 8 8) = some l → extent d (hdrField s k 8 8) 64 = some h → d.courses.length < 65536 →
    let desc (off n : Nat) : Nat := leNat (memRead s.quarry (h.base + hdrField s k 8 8 % 2 ^ 40 + off) n)
    let n := (desc 16 2 + 1) * (desc 18 2 + 1) * (desc 20 2 + 1)
    let at_ := h.base + hdrField s k 8 8 % 2 ^ 40
    let mirrored := ((d.policy.handles.find? fun e => e.2.2.getLsbD 3 && e.1 == d.lbase).map (·.2.1)).getD 0
    (∀ a, desc 40 8 ≤ a → a < desc 40 8 + 8 * ((n + 63) / 64) → isSpill a = false) ∧
    ∃ u d' c, exec (.launchPacket q) s = .next u ∧ Consumed u q k ∧ u.devOf d.num = some d' ∧ d'.courses = d.courses ++ [c]
      ∧ (∀ o ∈ d.courses, o.num ≠ c.num) ∧ c.dims = (desc 16 2 + 1, desc 18 2 + 1, desc 20 2 + 1) ∧ c.undone = n ∧ c.place.length = n
      ∧ (∀ core ∈ c.place, (u.coreOf core).fblock = none
          ∧ ∀ l ∈ (u.tileOf (coreTile core)).icache, l.quad = quadOf core → l.vd ≠ d.num)
      ∧ (at_ < d.lbase ∨ d.lbase + mirrored ≤ at_ → ∀ core, (u.coreOf core).tags = (s.coreOf core).tags)
      ∧ (∀ r ∈ d.tagRecs, r.desc + d.lbase = d.vbase + at_ → d.lbase ≤ at_ → at_ < d.lbase + mirrored →
          (∀ o ∈ d.tagRecs, o.desc = r.desc → o.core = r.core → o.tag = r.tag → o = r) →
          (let g := (u.coreOf r.core).tags[r.tag]
           g.handler.toNat = r.handler.toNat % 2 ^ 48 / 4 * 4 ∧ g.prio.toNat = min r.prio.toNat 119 ∧ g.en = r.en ∧ g.course = c.num
             ∧ (r.en = true → (s.coreOf r.core).tags[r.tag].en = false →
                 ∀ w ∈ (u.coreOf r.core).runq, ¬ (w.wait = true ∧ w.tag.toNat = r.tag.val))))
      ∧ (∀ a, memGet u.near a = if desc 40 8 ≤ a ∧ a < desc 40 8 + 8 * ((n + 63) / 64) then 0 else memGet s.near a)
      ∧ (∃ ms, u.mortar = s.mortar ++ ms ∧ ms.length = n ∧ ∀ i m core, ms[i]? = some m → c.place[i]? = some core → m.dst = core
          ∧ ∃ r, m.body = .tileTask r ∧ r.kind = .tile ∧ r.entry.toNat = desc 0 8 % 2 ^ 48 / 4 * 4 ∧ r.arg0 = BitVec.ofNat 64 (desc 8 8)
            ∧ r.prio.toNat = min (desc 22 1) (min d.policy.maxprio.toNat 119) ∧ markCourse r.mark = c.num
            ∧ r.arg1 = BitVec.ofNat 64 (i % c.dims.1 + i / c.dims.1 % c.dims.2.1 * 2 ^ 16 + i / c.dims.1 / c.dims.2.1 * 2 ^ 32))

/-! Statements over the whole machine. -/

namespace Sys2Proof.Say

/-- Nothing has changed but register n, the PC with the repetition state, the resume mark of a breakpoint and the stall reason, the prefix, the
FPF flags and the core's busy and stall counts: no other register, no flag of WARN, no special register, no byte of any memory, no other core, tile or device. -/
structure OnlyReg (n : Fin 32) (s t : State) : Prop where
  x : ∀ k, k ≠ n → t.core.ctx.getX k = s.core.ctx.getX k
  ctx : (let c := s.core.ctx
    { t.core.ctx with x := c.x, pc := c.pc, rep := c.rep, resumed := c.resumed, stall := c.stall, pfx := c.pfx, pfxv := c.pfxv, fpf := c.fpf } = c)
  core : { t.core with ctx := s.core.ctx, phases := s.core.phases } = s.core
  all : { t with core := s.core } = s
/-- Registers that no outstanding work has still to write, on a core that is not single-stepped. -/
def Ready (s : State) (ns : List (Fin 32)) : Prop := (∀ n ∈ ns, s.core.ctx.pendingX n = false) ∧ stepping s = false
/-- An instruction that completes and changes register n only; an integer one leaves FPF too. -/
def Frames (integer : Bool) (n : Fin 32) (on : Bool) (i : Instr) (s : State) : Prop :=
  ∃ t, exec i s = .next t ∧ OnlyReg n s t ∧ (on = false → t.core.ctx.getX n = s.core.ctx.getX n)
    ∧ (integer = true ∨ on = false → t.core.ctx.fpf = s.core.ctx.fpf)

end Sys2Proof.Say

/-- The frame of the register instructions (R59, R78, R79, R257): with register operands an integer, immediate or floating-point instruction
completes and changes its destination and, if floating-point, FPF; nothing else but the PC, the repetition, the prefix, the resume mark of a
breakpoint, the stall reason and the core's busy and stall counts (O1 to O4 state the exact next state). -/
def Obligations.RegisterFrame : Prop :=
  ∀ (s : State) (pg : Fin 8) (on : Bool) (n a b c : Fin 32) (m : IMod) (ty ts : ElemTy), Ready s [n, a, b, c] →
    predBit pg (begun s) = .ok (on, begun s) →
    (∀ p ∈ intTwo, Frames true n on (p.1 m pg (.reg n) (.reg a) (.reg b)) s)
    ∧ (∀ p ∈ intThree, Frames true n on (p.1 m pg (.reg n) (.reg a) (.reg b) (.reg c)) s)
    ∧ Frames true n on (.bfi m pg (.reg n) (.reg a) (.reg b) (.reg c)) s
    ∧ Frames true n on (.clz m pg (.reg n) (.reg a)) s ∧ Frames true n on (.popc m pg (.reg n) (.reg a)) s
    ∧ (∀ imm, Frames true n on (.li pg (.reg n) imm) s) ∧ (∀ imm, Frames true n on (.liLong pg (.reg n) imm) s)
    ∧ (∀ p ∈ intImm, ∀ imm, Frames true n true (p.1 m (.reg n) (.reg a) imm) s) ∧ (∀ imm, Frames true n true (.leaImm m (.reg n) imm) s)
    ∧ (∀ p ∈ fpTwo, Frames false n on (p.1 ty pg (.reg n) (.reg a) (.reg b)) s)
    ∧ Frames false n on (.ffma ty pg (.reg n) (.reg a) (.reg b) (.reg c)) s
    ∧ Frames false n on (.fsqrt ty pg (.reg n) (.reg a)) s ∧ Frames false n on (.fcvt ty ts pg (.reg n) (.reg a)) s

namespace Sys2Proof.Say

/-- The first field, in the order A, B, C, D, whose stream is not bound in the field's direction (R66, R203). -/
def firstBad (c : Ctx) (srcs dsts : List Opd) : Option (Fin 8) := (srcs.filterMap (srcDir c) ++ dsts.filterMap (dstDir c)).head?

end Sys2Proof.Say

/-- STREAM_DIR and STREAM_EXH of the fields of the register, memory and vector families (R66, R203): a source that names no bound input
stream, or a destination that names no bound output stream, traps before anything else is looked at; FADDR is the stream's number, of the
first such field in the order A, B, C, D, and nothing else has happened. A source stream at its end traps next, before any pop. -/
def Sys2Proof.Part.StreamDirection : Prop :=
  (∀ (s : State) (n : Fin 8) (m : IMod) (g : MArgs) (pg : Fin 8) (ty ts : ElemTy) (d a b c : Opd),
    let x := s.core.ctx
    let traps (i : Instr) : Prop := exec i s = .next (takeTrap { cause := .streamDir, faddr := BitVec.ofNat 64 n.val } s)
    (firstBad x [] [d] = some n → (∀ imm, traps (.li pg d imm)) ∧ ∀ imm, traps (.liLong pg d imm))
    ∧ (firstBad x [a] [d] = some n → traps (.clz m pg d a) ∧ traps (.popc m pg d a) ∧ (∀ p ∈ intImm, ∀ imm, traps (p.1 m d a imm))
        ∧ traps (.fsqrt ty pg d a) ∧ traps (.fcvt ty ts pg d a) ∧ ∀ q ∈ vecOne, q.2.1 ty = true → traps (q.1 ty pg d a))
    ∧ (firstBad x [a, b] [d] = some n → (∀ p ∈ intTwo, traps (p.1 m pg d a b)) ∧ (∀ p ∈ fpTwo, traps (p.1 ty pg d a b))
        ∧ ∀ q ∈ vecTwo, q.2.1 ty = true → traps (q.1 ty pg d a b))
    ∧ (firstBad x [a, b, c] [d] = some n → (∀ p ∈ intThree, traps (p.1 m pg d a b c)) ∧ traps (.bfi m pg d a b c) ∧ traps (.ffma ty pg d a b c)
        ∧ ∀ q ∈ vecThree, elemIsScal ty = true → traps (q.1 ty pg d a b c))
    ∧ (firstBad x [g.base, g.idx] [d] = some n → traps (.ld d g) ∧ traps (.ldv d g))
    ∧ (firstBad x [g.base, g.idx, d] [] = some n → traps (.st d g) ∧ traps (.stv d g)))
  ∧ (∀ (s : State) (n : Fin 8) (m : IMod) (pg : Fin 8) (d a : Opd), (s.core.ctx.streams[n]).ends 1 = true →
    let ended (i : Instr) : Prop := exec i s = .next (takeTrap { cause := .streamExh, faddr := BitVec.ofNat 64 n.val } s)
    ∀ p ∈ intTwo, (∀ b, firstBad s.core.ctx [.str n, b] [d] = none → ended (p.1 m pg d (.str n) b))
      ∧ (firstBad s.core.ctx [a, .str n] [d] = none → (∀ k, a = .str k → (s.core.ctx.streams[k]).ends 1 = false) →
          ended (p.1 m pg d a (.str n))))
  ∧ (∀ (c : Ctx) (n : Fin 8), (srcDir c (.str n) = none ↔ (c.streams[n]).bound = true ∧ (c.streams[n]).out = false)
    ∧ (dstDir c (.str n) = none ↔ (c.streams[n]).bound = true ∧ (c.streams[n]).out = true))

/-- Words of the manual's worked examples decode to their instructions (R250-R262). -/
def Obligations.DecodeWords : Prop :=
  decodeBits 0xFFFFFFFFD1C40C44 = .ok (.cmpImm ⟨0, true⟩ (.reg 3) (.reg 4) 0x3FFFFFFFF)
  ∧ decodeBits 0x0000141001C61440 = .ok (.div ⟨1, true⟩ 0 (.reg 5) (.reg 6) (.reg 7))
  ∧ decodeBits 0x00000000DD861444 = .ok (.rotImm ⟨3, true⟩ (.reg 5) (.reg 6) 3)
  ∧ decodeBits 0x00000000014480C0 = .ok (.sbind .pattern false 0 0 0 (.reg 4) (.reg 5))
  ∧ decodeBits 0x00000002400500D4 = .ok (.crw 9 (.reg 5))
  ∧ decodeBits 0x0000000000201CC8 = .ok (.sstat 0 (.reg 7) 0)
  ∧ decodeBits 0x0001682C01440D00 = .ok (.vcmp .lt .fp32 0 (.pred 3) (.reg 4) (.reg 5))
  ∧ decodeBits 0x0002340C00020504 = .ok (.vcvt .bf16 .bfp 0 (.reg 1) (.reg 2))
  ∧ decodeBits 0x0000BFFFC0000034 = .ok (.fmt 0x2FFFF)
  ∧ decodeBits 0x0000000130084560
      = .ok (.post (.reg 17) { base := .reg 8, idx := .reg 0, sz := 3, ord := .rel, scope := .core, xs := 0, off := 0 })
  ∧ decodeBits (0x80 * 2 ^ 64 + 0x0000280001440CA1) = .ok (.fork true .tile 0 (.reg 3) (.reg 4) (.reg 5) (.reg 0) 0x80)

/-- The bytes at the PC that the core in focus has: of the block delivered to a small core, or in near memory for a keystone (R7, R53). -/
def Sys2Proof.Say.fetched (s : State) : Option (List Byte) :=
  let pc := s.core.ctx.pc.toNat
  let n := min 16 (32 - pc % 32)
  if coreSlot s.core.id < 32 then
    match s.core.fblock with
    | some (b, line) => if b = pc / 32 then some ((line.drop (pc % 32)).take n) else none
    | none => none
  else if isNear pc && nearOk s pc && !poisoned s (pc / 32 * 32) 32 then some (s.nearRead pc n)
  else none

/-- A step runs the instruction at the PC (R7, R53, R70, R203, R246-R249). With a core that can issue in focus, no pulse firing, nothing on the
agenda and its turn not over (log entry 1), the bytes of the fetch block that its quad's unit has delivered to a small core, the bytes
that a keystone core finds in memory at its PC, or the staggered body word of a repetition past its first pass, decode to i, and the step
is exec of i after one clock; in the first pass of a repetition the word goes into the buffer too. A small core without its block asks for it
and waits. -/
def Obligations.StepRunsDecoded : Prop :=
  ∀ (s : State) (i : Instr), s.powered = true → s.pulseWaits = none → s.agenda = [] → s.turn < turnLen → canIssue s.tick = true → s.core.ctx.wd = false →
    let pc := s.core.ctx.pc.toNat
    let room := 32 - pc % 32
    let now : State := { s.tick with turn := s.turn + 1, retry := false
                                     core := { s.core with ctx := { s.core.ctx with stall := none } } }
    let runs (v : Nat) : Prop := lenOf v ≤ room → decodeBits (v % 2 ^ (8 * lenOf v)) = .ok i → (v % 4 = 3 → v % 2 ^ 32 = 0x3FF) →
      (v % 4 ≠ 3 → s.core.ctx.resumed = true ∨ bkptMatch s.core pc = false) → step s = exec i now
    (s.core.ctx.rep = none →
      (∀ bs, fetched s = some bs → runs (leNat bs))
      ∧ (∀ pa t, 32 ≤ coreSlot s.core.id → isFar pc = true → translate pc { x := true } false now = .ok (pa, t) → pa + 16 ≤ quarryHi →
          sealFails now now.key (pa / 256) = false →
          (let v := leNat (memRead s.quarry pa (min 16 room))
           lenOf v ≤ room → decodeBits (v % 2 ^ (8 * lenOf v)) = .ok i → (v % 4 = 3 → v % 2 ^ 32 = 0x3FF) →
             (v % 4 ≠ 3 → s.core.ctx.resumed = true ∨ bkptMatch s.core pc = false) → step s = exec i t)))
    ∧ (∀ r w, s.core.ctx.rep = some r → r.body[r.idx]? = some w → runs (stagger r.imm.toNat r.pass w.toNat))
    ∧ (∀ r bs, s.core.ctx.rep = some r → r.body[r.idx]? = none → fetched s = some bs →
      (let v := leNat bs
       lenOf v ≤ room → decodeBits (v % 2 ^ (8 * lenOf v)) = .ok i → v % 4 ≠ 3 → s.core.ctx.resumed = true ∨ bkptMatch s.core pc = false →
         step s = exec i (now.mapCtx fun c =>
           { c with rep := some { r with body := r.body ++ [BitVec.ofNat 128 (v % 2 ^ (8 * lenOf v))], pcs := r.pcs ++ [s.core.ctx.pc] } })))
    ∧ ((s.core.ctx.rep = none ∨ ∃ r, s.core.ctx.rep = some r ∧ r.body[r.idx]? = none) → coreSlot s.core.id < 32 → isNear pc = true →
        nearOk s pc = true → poisoned s (pc / 32 * 32) 32 = false → (∀ line, s.core.fblock ≠ some (pc / 32, line)) →
        ∃ u, step s = .next u ∧ u.core.asked = some (s.core.asked.getD now.time) ∧ u.core.ctx = { s.core.ctx with stall := some .fetch }
          ∧ u.near = s.near ∧ u.quarry = s.quarry)

/-- Encoding then decoding gives the instruction back, for every well-formed instruction of the table and every operand its encoding admits
(R246-R262). -/
def Obligations.EncodeDecode : Prop :=
  ∀ i : Instr, i.wf = true → ∀ w len, encode i = some (w, len) → decodeBits w = .ok i

/-- The byte memories keep their canonical form in every step: addresses strictly rising, no listed zero (log entry 5), so that equal memories
are equal data. -/
def Obligations.MemoryForm : Prop := ∀ s t : State, s.memOk → step s = .next t → t.memOk

/-- After reset (R76, R215): power, TIME 0, a vacant lease with period 1,000, no device, nothing in memory, and its canonical form.
(That the unlisted bytes are 0 is log entry 5, that the core is idle log entry 4.) -/
def Obligations.ResetState : Prop :=
  State.reset.memOk ∧ State.reset.powered = true ∧ State.reset.time = 0 ∧ State.reset.devs = [] ∧ State.reset.host.lease = .vacant
    ∧ State.reset.host.lperiod = 1000 ∧ (∀ a, memGet State.reset.near a = 0 ∧ memGet State.reset.quarry a = 0)
    ∧ State.reset.core.mode = .idle

/-! The statements made of several parts. -/

/-- The immediate form: the immediate is sign-extended to 64 bits and then cut to the width (R282, R254). LI in both forms and the
PC-relative LEA (R327, R328). -/
def Obligations.Immediates : Prop := Sys2Proof.Part.IntegerImmediate ∧ Sys2Proof.Part.LoadImmediate

/-- A register operand: it reads the register and writes it, and nothing else, unless outstanding work has still to write it (R59, R63);
the predicate bit of p0 is 1 (R257). A stream as a scalar operand (R65, R66, R162): a pop takes the oldest element, zero-extended; past
the end of a pattern or a gather, and when the job of an expander has ended and its buffer is empty, it is STREAM_EXH, and with nothing
buffered it waits. An arrival queue has no end: a pop takes the low bytes of its oldest entry and, being an acquire, drops the device's
staged blocks. A push appends the low element-size bytes; past the end it is STREAM_EXH and a full 256-byte buffer waits (R67). STREAM_DIR
and STREAM_EXH of the fields of the register, memory and vector families (R66, R203): a source that names no bound input stream, or a
destination that names no bound output stream, traps before anything else is looked at; FADDR is the stream's number, of the first such
field in the order A, B, C, D, and nothing else has happened. A source stream at its end traps next, before any pop. -/
def Obligations.Operands : Prop := Sys2Proof.Part.RegisterOperands ∧ Sys2Proof.Part.StreamOperands ∧ Sys2Proof.Part.StreamDirection

/-- BR and BRI under every condition (R256, R293): the operands the condition reads are taken, the others are not, and the PC is the
target or the next instruction. An unread operand that is not x0, and a nonzero BT of BRI, set WARN.COMBO. JMPR, RET and CALL (R296, R319,
R347) and PBR (R341): the target has bits 1:0 clear where it comes from a register, and CALL leaves the address after itself in D. -/
def Obligations.Transfers : Prop := Sys2Proof.Part.Branches ∧ Sys2Proof.Part.Jumps

/-- REP starts a repetition of its next N instructions (R70, R346): the fields are kept, and the PC moves on. A repetition met on the way
ends with WARN.COMBO. How a repetition moves on (R70): within a pass to the next instruction, after a pass to the first one again, and
after pass K - 1 past the body. That the PC of a later pass is the address its instruction was read from, the body's first one here, is
log entry 17. -/
def Obligations.Repetition : Prop := Sys2Proof.Part.RepStarts ∧ Sys2Proof.Part.RepPasses

/-- END of a task whose counters LD, ST, MX and GR are zero and whose output streams are drained (R30, R307): the core is free, the task's
lock bits are released, the streams are unbound and the binding table is gone; before that it waits. A tile task's END sets its bit of the
completion bitmap and leaves the word's other bits (R30, R35), in whichever tile the bitmap lies. The word lies outside the observation
blocks, where no bitmap may lie (R32). -/
def Obligations.EndOfTask : Prop := Sys2Proof.Part.EndTask ∧ Sys2Proof.Part.EndSetsBitmap

/-- BRK takes BREAK at its own PC, but not in a context that resumes there (R209, R295). TRAP takes TRAPI with its code and the PC of the
next instruction saved (R202, R364). A word that encodes no instruction takes its trap (R260). Privileged instructions outside service
mode take PRIV with the instruction's own PC, and change nothing else (R203, R208). -/
def Obligations.TrapsAndPrivilege : Prop := Sys2Proof.Part.TrapInstructions ∧ Sys2Proof.Part.Privilege

/-- Taking a trap outside service mode and outside a debug stop, with no work outstanding and a free migration slot (R201, R202, R207,
R210): FAULT, FADDR and the PC stand in the slot's image, and the core is free. That the lowest free slot is taken is log entry 20. A trap
inside a service task faults its device with the cause, and nothing is saved (R208). ERET in service mode, once its counters are zero and
its stores are drained (R209, R309): the context under service leaves its migration slot with the registers the image holds, on its way to
its home core; and the service task ends. (The step of the way home is log entry 20, the image's word for a BREAK taken at the context's
own PC or block log entry 8.) -/
def Obligations.TrapEntryAndReturn : Prop := Sys2Proof.Part.TrapEntry ∧ Sys2Proof.Part.ServiceTrap ∧ Sys2Proof.Part.EretReturns

/-- LD and LDV of near bytes with no ordering (R152, R255, R262, R323, R326): the value is the bytes at the address, and nothing but D,
WARN, the prefix and the PC changes. Fallbacks set their WARN bits. ST and STV of near bytes with no ordering (R152, R255, R262, R357,
R359): the low bytes of D are stored at the address, and nothing but memory, WARN, the prefix and the PC changes. -/
def Obligations.NearAccesses : Prop := Sys2Proof.Part.NearLoads ∧ Sys2Proof.Part.NearStores

/-- The frame of a near store (R119): the bytes lie at the address upwards, wrapping within its 1 MiB slot, and every other byte of near
memory reads as before. Outside the observation block. The observation block (R239): a store to a field that hardware owns is discarded,
PRBASE and TRBASE restart their heads, and no other byte changes. -/
def Obligations.StoredBytes : Prop := Sys2Proof.Part.StoredBytes ∧ Sys2Proof.Part.ObservationStores

/-- Far accesses without an ordering (R71, R323, R326, R357, R359): a load into a register is outstanding, counted in LD, until its data
arrives; a store is counted in ST until it drains; the register and the memory are unchanged meanwhile. That a load's data is read when it
issues is log entry 7, that a load into a stream puts its element there at issue log entry 7 too. Earlier reads of the same words that an
MMA or a gather has still to make come first (R148). Outstanding far work arrives in order (R71): the oldest load's bytes reach their
destination, its flags enter FPF and LD falls; the oldest store's bytes reach the quarry and ST falls, but a granule that fails its check
takes none and the task gets a machine check (R128). Atomics on far words (R146, R287, R302): they run at the quarry port past the far
cache and drop the tile's line; the old value is outstanding, counted in LD, unless the function acquires; an ordering sets WARN.ORDER and
is performed as a plain one (R152). No granule of the word fails its check. That the memory is read and written when the ATOM issues is
log entry 7. -/
def Obligations.FarAccesses : Prop := Sys2Proof.Part.FarAccesses ∧ Sys2Proof.Part.FarWorkArrives ∧ Sys2Proof.Part.FarAtomics

/-- Ordered accesses of near words (R145, R152, R156, R157, R284, R345): the address is a multiple of the size; a release waits for its
drain, an acquire ends with the invalidation of its bindings, a lock bit is taken before the read and given back after the write. LD and
ST carry their orderings when the size is at most 8. Reads of the same words that an MMA or a gather of the task has still to make come
before a load (R148). A release (R156): it waits while a queued grammar operation has still to write, and when it completes no far store,
no pushed element of an output stream, no load, no matrix operation and no gather of the task is outstanding (R336, R349). That the drain
is one step is log entry 9. Lock bits (R145): a held bit makes LD.LOCK wait, a free one is taken for the core and mark; UNLOCK by the
holder clears it, by anyone else it sets WARN.COMBO and clears nothing. That the holder's own LOCK waits too is log entry 14. -/
def Obligations.OrderedAccesses : Prop := Sys2Proof.Part.OrderedAccesses ∧ Sys2Proof.Part.Releases ∧ Sys2Proof.Part.LockBits

/-- The address classes of R118 and the alignment of R152, as they trap LD, ST, ACQ and ATOM before anything is read or written:
non-canonical, null, closed or absent near addresses, of which an access that does not run past the end of its slot touches none with its
first or its last byte (R37, R119); FADDR is the address, of NEAR_BOUNDS the lowest byte out of bounds (R324), and W tells a store. An
output stream in D that is at its end comes first (R203). The page-table walk (R121, R122, R123, R378): four levels of 512 entries; an
entry without V is PAGE_NP; one with a reserved bit, a leaf at level 1, a leaf whose frame is not aligned to its page, or a level-4 leaf
bit outside the group entry is PAGE_PROT; a leaf at level 2 or 3 maps 1 GiB or 2 MiB, a group entry at level 4 maps 64 KiB, else 4 KiB. No
table lies in a peer window (R127). A translation (R122, R124, R126): without a TLB entry the walk's leaf is used; its rights must allow
the access (outside service mode U too), A is set, and D with it for a write. A table on the way whose MAC does not match is a machine
check (R128). (That the walk happens in the step of the access is log entry 12.) -/
def Obligations.AddressesAndPages : Prop := Sys2Proof.Part.AddressTraps ∧ Sys2Proof.Part.PageWalk ∧ Sys2Proof.Part.Translation

/-- LDG and STS of near lanes (R257, R325, R358): each active lane takes or gives the element at its own address, stores in lane order;
inactive lanes of a register keep their bytes and inactive lanes store nothing. Another element type does nothing but WARN.COMBO. A gather
or scatter with far lanes (R71, R325, R358) is outstanding as one load or one store of the task. (That its bytes are read when it issues
is log entry 7.) -/
def Obligations.GatherScatter : Prop := Sys2Proof.Part.NearGatherScatter ∧ Sys2Proof.Part.FarGatherScatter

/-- PREF (R344): outside far memory it does nothing; in far memory it is counted in LD while its lines are fetched; one that fails is
dropped without a trap. BIND (R158, R292): a new entry rounded out to whole lines, with its number in D; a length of 0 removes the word's
entries and counts them; the refused forms return their code. That the sync word must be 8-byte aligned is log entry 29, and that the
index given is the number of live entries log entry 76. FENCE (R160): NONE does nothing but WARN.COMBO; REL waits for the drain; ACQ has
earlier loads returned, those of matrix operations and gathers among them (R336, R349), and, at DIE or wider, empties the tile's far cache
and drops the device's staged blocks (R193); AR does both. That the drain is one step is log entry 9. -/
def Obligations.PrefetchBindFence : Prop := Sys2Proof.Part.Prefetch ∧ Sys2Proof.Part.Bindings ∧ Sys2Proof.Part.Fences

/-- JOIN (R46, R320): the counter at a near address falls by one after the release, D receives its old value, and the arrival that finds 1
queues the block's continuation on the block's core, behind the places of its pending signals (R49). A counter of 0 stays, with
WARN.COMBO. CONT (R299, R300): the block's words for the continuation, the count or, for a count of 0, the continuation at once. -/
def Obligations.Joins : Prop := Sys2Proof.Part.JoinCounts ∧ Sys2Proof.Part.ContinuationBlock

/-- TAGCTL (R49, R361, R362): D receives EN and PEND as they were, and the tag of the core changes as the action says. Enabling a tag
(R48, R49): its waiting records become ready in arrival order with the tag's entry, priority and course, the other records keep their
places, and a pending signal becomes one handler record after them when the run queue has room. (That the record names the core itself as
the sender is log entry 92.) -/
def Obligations.Tags : Prop := Sys2Proof.Part.TagControl ∧ Sys2Proof.Part.EnablingTags

/-- SUNB and the unbinding every SBIND begins with (R64, R360): an output stream with pushes to write waits, any other stream is unbound,
and nothing else of the task changes but the count of a gather that fed it. (That the wait shows reason "stream" is log entry 101; that a
queued GEXP with values for the stream does not hold it up, log entry 44.) SBIND of the three kinds (R64, R134, R350, R351, R352): the
stream is unbound, the descriptor is read and the stream bound anew, and element i of a pattern lies where its counts and strides put it.
A degenerate descriptor binds a stream that is at its end, with WARN.PATTERN; an XID with no job binds an ended stream with WARN.COMBO.
The descriptor is read as by loads, after the task's own writes and earlier reads of its bytes (R148, R149). (That must-be-zero bits of a
descriptor are not looked at is log entry 77.) SSTAT (R356): an unbound stream reads 0, a bound one its direction, kind, element size,
end, count and what can be taken or pushed now. (KIND of a stream of RGATH is log entry 42.) -/
def Obligations.StreamBindings : Prop := Sys2Proof.Part.StreamUnbinding ∧ Sys2Proof.Part.StreamBinding ∧ Sys2Proof.Part.StreamStatus

/-- CRR outside service mode reads every register as it stands, after the pending prefix is gone (R76, R301, R302). CRW stores what the
register takes, sets its WARN bit, and changes no other register, no memory and no x register; a write that is ignored changes nothing,
and must-be-zero bits raise RESERVED_BITS. CRR and CRW in service mode act on the image of the context under service (R76, R208): a read
gives the image's word, registers 11 to 15 are written whole, PRIO without the clamp to 119, and SR takes PRIO and PFX only. A view
register of a context held under the debugger waits while that context's work runs on its old or its new range (R63, R238). The WARN bit
of a clamp is the service task's own. (That the image's words of PRIO and SR agree is log entry 35.) -/
def Obligations.ControlRegisters : Prop := Sys2Proof.Part.ControlRegisters ∧ Sys2Proof.Part.ServiceControlRegisters

/-- The elementwise vector instructions (R257, R366, R367): each active lane of D receives the function of the same lanes of the sources,
converted as the prefix says; an element type the function does not take does nothing but WARN.COMBO, and WARN.FMTTGT for an override that
is not accepted (R74). (That an override of an operand the function does not have counts as one is log entry 24; that one of the operand's
own type leaves its bytes as they are is log entry 86.) How lanes reach D (R62, R65, R257, R366, R367): in a register an active lane takes
its value, an inactive one keeps its bytes, and bytes past the lanes become zero; a stream is pushed zero bytes in inactive lanes. -/
def Obligations.VectorLanes : Prop := Sys2Proof.Part.VectorLanes ∧ Sys2Proof.Part.LaneDestinations

/-- VCMP (R368): into a vector, all ones where the relation holds; into a predicate, one bit a lane, inactive lanes keeping their bit and
bits past the lanes becoming zero. (That an override of C, and of D with a predicate destination, sets WARN.FMTTGT is log entry 24.)
VPERM, VLUT and VSRP (R89, R370, R371, R373): lanes picked from A and C by the indices of B; table entries of the bank LUTSEL names,
converted from its kind; signed projections summed exactly and rounded once, a signalling NaN among their operands raising invalid (R83),
and their sign bits. -/
def Obligations.VectorCompareSelect : Prop := Sys2Proof.Part.VectorCompare ∧ Sys2Proof.Part.VectorSelection

/-- VRED and VSCAN (R94, R95, R372): the pairwise tree and the running combination of the lanes, an inactive lane standing for the
operator's identity; VRED writes the whole of D. VCVT (R369): scalar types lane by lane, a block record decoded into 32 lanes, 32 lanes
quantised into a record; any other pairing does nothing but WARN.COMBO and WARN.FMTTGT for an override that is not accepted, or of an
operand VCVT does not have (log entry 24). -/
def Obligations.VectorReduceConvert : Prop := Sys2Proof.Part.VectorReductions ∧ Sys2Proof.Part.VectorConversions

/-- POST (R135, R343): after its release the card and its descriptors are read, by plain loads, and checked; an accepted card is a job of
the tile with the next sequence number, counted in JOB, and D is 0; a rejected one leaves nothing but its code. A fault on the read of the
descriptors traps precisely (that a failed check among them does so is log entry 78). The codes of R135 in their order: an unknown type, a
must-be-zero bit, a combination the type does not take, an address that no completion may use, patterns of a COPY or a CONVERT with more
than 10 dimensions or with totals that differ, in bytes for COPY and in elements for CONVERT. (Where the second descriptor stands after a
first one with NDIM above 10 is log entry 94; that code 3 also meets an NPART, INDEX, ROOT or COUNT out of range and a TLOAD whose PARAM
is not 512, log entry 95.) JSTAT (R321): DONE and STATUS of the record when it is done, else the state and XID of the earliest job that
names it, else 0. -/
def Obligations.PostingJobs : Prop := Sys2Proof.Part.PostingJobs ∧ Sys2Proof.Part.CardCodes ∧ Sys2Proof.Part.JobStatus

/-- WDENTER (R186, R187): once the core's matrix operations are done, the mode is entered with its first block, accumulators and source;
an activation type or an address it does not take gives its code in D and goes on behind it. A first block off a 64-byte boundary is
ALIGN, and a stream in A, C or D, or one in B that is no bound input, is STREAM_DIR, the fields judged in the order A, B, C, D (R66,
R203). WDEXIT (R197): in a service task whose image is in the mode it puts the value into the image's D and ends the mode there: SR.WD and
MXPROG clear, the PC at the exit address; anywhere else it is WARN.COMBO. (The places of the exit address and of D in the image's
weight-driven area, 0x8218 and 0x8220, are log entry 8: R210 leaves that layout open.) -/
def Obligations.WeightDrivenMode : Prop := Sys2Proof.Part.EnteringMode ∧ Sys2Proof.Part.LeavingMode

/-- TLBI in service mode (R363): when no grammar operation has still to write and no output stream holds an element, it drains the earlier
far stores and completes; in each tile it targets, the issuing one or those of the partition, the translations it names leave the tile's
TLB and the micro-TLB of every core, and the lines of the affected pages leave the instruction caches and the staging buffer; no other
translation or line does, and nothing else changes. A staged block goes when its first or its last byte is affected. (That the lines of
the whole GiB around VA go with a page is log entry 12.) CTXSV and CTXLD (R303, R304, R305): a parking place of 0xB000 bytes is 64-byte
aligned, near outside the spill areas and migration slots, or far where the pages allow it. CTXSV needs an occupied slot of the device
whose JOB count is zero, stores the image, counted in ST, and frees the slot. CTXLD fills the lowest free slot, counted in LD, with MARK's
ASID and CORE's die and tile made the issuing ones, gives its address and takes the context under service; it is refused when no slot is
free or a context is already under service. Either waits, with reason "service" (R23), while bytes it reads or writes are still to be
written by the task (R149). (That the lowest free slot is taken is log entry 20; a place at the end of a slice is log entry 50.) -/
def Obligations.TlbAndParking : Prop := Sys2Proof.Part.TlbInvalidation ∧ Sys2Proof.Part.ParkedContexts

/-- Choosing a task (R29, R39, R43): the best candidate has the highest priority and, among equals, the lowest class rank; an idle core of
a running device starts the record picked, or takes back the context picked; the place that a record leaves in a full run queue goes at
once to the due signal of the lowest tag (R49); a small core with no candidate, whose full round of steal requests fails, rests. A steal
(R42, R43, R44): an idle small core with no other candidate takes the oldest record of the victim's deque whose steal scope holds both
cores, and starts it; the victim's other records stay in order, and the victim is the last one tried in its group. A core that has another
candidate, or a victim that has no such record, or that is taking its last record itself, starts nothing. -/
def Obligations.Scheduling : Prop := Sys2Proof.Part.TaskSelection ∧ Sys2Proof.Part.Steals

/-- A message arrives (R34, R48, R49, R68, R164, R166, R167): at a running device it becomes a record or an arrival-queue word and leaves
the mortar, or stays there while there is no room behind the places of the pending signals that are due; a paused or evicted device logs
it; a faulted one takes nothing (R208); a device that is gone sends a bounce. (That a faulted one sends no bounce is log entry 67; the
fields of a log entry's bytes are log entry 84.) Signals, barriers and courses (R36, R49, R52): a pending signal of an enabled tag becomes
one handler record; a barrier whose count is reached flips its generation and counts anew; a course with no task left completes its packet
and leaves the device with its barriers. (That the record names the core itself as the sender is log entry 92; that a context parked in
memory keeps no course is log entry 85.) -/
def Obligations.Arrivals : Prop := Sys2Proof.Part.MessagesArrive ∧ Sys2Proof.Part.SignalsBarriersCourses

/-- The matrix unit (R71, R93, R302, R334, R335): the next k-block of the oldest MMA adds its 1,024 rounded dot products to the
accumulator, the last one ends the operation; a fault or an uncorrectable word found in a k-block ends the operation asynchronously at
that k-block, none of which is applied; finished work gives its flags and leaves the MX count. MXPROG keeps the k-block of a fault of the
matrix unit that is held already. (That a step is one k-block is log entry 10.) The rule unit (R103, R106, R109, R111-R113, R116, R157):
the first step of each of the four operations checks the header once no pushed element of the task is still to be written there, a bad one
is an asynchronous GRAMMAR_BAD, and the first rejection that applies decides D and its WARN bit at once; a rule whose result is ready is
passed over, one that is evaluated has its payload and then its header stored, the last one gives D the number evaluated; a result that a
rule needs and that is not ready makes the unit wait; a GPOS descent goes left or right by the length of the left child; a finished
operation gives D, its WARN bit and its flags, and leaves the GR count. (That a step is one rule is log entry 38; that the unit's own
reads wait for the task's pushes, log entry 89.) The pieces of GMAP, GPOS and GEXP (R113, R114, R115), each of the operation at the head
of the queue, started and with a header that passes: GMAP stores one output per stored element or row and then its header; GPOS goes down
one level, with the part passed over combined from the results table, and ends at a terminal; GEXP enters a rule, or yields one element to
its buffer or its stream, and a 257th level is GRAMMAR_BAD. (That a step is one such piece is log entry 38; that a row of ROWDOT and its
vector are one access each, log entry 99; that GPOS has no limit of levels, log entry 100.) -/
def Obligations.MatrixAndRuleUnits : Prop := Sys2Proof.Part.MatrixUnit ∧ Sys2Proof.Part.RuleUnit ∧ Sys2Proof.Part.RuleSteps

/-- Streams and gathers behind issue (R67, R141, R149, R349): the transfer unit fetches the next element of an input pattern into a buffer
with room and writes the oldest pushed element of an output pattern; the oldest gather whose stream has room delivers one near element and
ends with its last, or stops at an element that is not near in the partition or whose word is uncorrectable, or at a place of its buffer
that is out of bounds. (The order of several gathers is log entry 41.) Fetches, walks and remote accesses (R7, R53, R120, R122, R125,
R188, R378): a quad's unit serves the waiting core of the lowest block, or the one that has waited longest once one has waited 8 cycles; a
block goes to every core of the quad that is next at it, and into the quad's cache, unless a word of it is uncorrectable or its MAC does
not match (R128, R244); a page walk fills the TLBs; a remote near write lands in the slice that owns it. (Log entries 12 and 74.) -/
def Obligations.StreamAndMemoryUnits : Prop := Sys2Proof.Part.StreamUnits ∧ Sys2Proof.Part.MemoryUnits

/-- Traps behind issue and the way home (R204, R207-R209, R238): a held fault of a running core is taken as a trap; a context that waited
for a migration slot goes to the lowest free one, or is held for the debugger, and while there is none its core stalls; an image without a
service task gets one, in service mode at priority 124 with the slot's address in x1, or is destroyed when its entry is 0; a context on
its way comes back behind those that came before; a held context whose counters are zero lets its service routine's load go on. (That the
slot is the lowest free one is log entry 20; that the mark of a service task bears the course of the context under service, log entry 28.)
The time slice (R11, R211): every running device with a tile in the lintel's quadrant, one after the other, is pre-empted and, since no
other device holds its tiles, switched in again; the other devices keep everything. A quiet core comes back as it was, its fetch block and
its stall aside. A device with a held context whose queued grammar operations still run waits for them (R238). (Log entry 57.) -/
def Obligations.TrapUnitsAndSlices : Prop := Sys2Proof.Part.TrapUnits ∧ Sys2Proof.Part.TimeSlices

/-- GBUILD and TLOAD (R177-R179, R183-R185): one chunk becomes one terminal, two equal chunks of 16 a pair over it; a buffer without room
for the first chunk ends OVERFLOW with nothing written, and a length that is no multiple of the element size ends FORMAT; TLOAD fills the
bank DST names with 256 entries and the KIND of FOUT, and waits while a core of a running device is inside a weight block that decodes
through that bank of its tile. (The COUNT of a TLOAD is log entry 48; that a job runs whole in one step is log entry 39.) Collectives
(R142-R144, R182): a participant's blocks travel quantised, one packet each; terms that differ, or an INDEX that has joined, end every
participant's job with COLL_MISMATCH; a block with every contribution is combined by the fixed tree, an odd last node passing up
unchanged, and delivered, converted to FOUT, to every participant or to the root's; after the last block the jobs end. (What a participant
that appears twice does, and how many cards a collective with differing NPART waits for, is log entry 83.) -/
def Obligations.BuildersAndCollectives : Prop := Sys2Proof.Part.BuildingJobs ∧ Sys2Proof.Part.Collectives

/-- Completion of a job (R26, R27, R51, R136, R139): the counter word grows by COUNT, or the bitmap word gets the bit of the XID; the
record gets COUNT and DONE with STATUS; the completion handler is queued at the posting core, or held for it while its run queue has no
place behind its pending signals or an older record is held; the job leaves its tile; and the JOB counter of the posting context falls, on
its core or in its migration slot. A counter or bitmap word that is uncorrectable is left as it is (log entry 97). A BARRIER completes
when nothing earlier is outstanding (R230, R232): its signal falls by 1, it is consumed, and the queue goes on. A COPY packet completes
with its job: its signal falls by 1, and a status other than OK goes into ERR with REASON 7; no signal of a FAULTED device falls (R208). -/
def Obligations.Completions : Prop := Sys2Proof.Part.JobCompletion ∧ Sys2Proof.Part.PacketCompletion

/-- MAC, MACZ and the k-blocks that follow (R173, R190, R191): a delta block's base block is checked before anything else; MACZ zeroes its
accumulators first, when its KB is 0, and they stay zeroed when a fetch of that k-block faults; a step that faults or waits keeps its
block current with its hints prefetched (R194). (That the header is read again for each k-block is log entry 52.) EMIT (R192): column
group KB is converted, through the table bank when MAP is set, and delivered; the last one of NOTIFY is followed by a release and a
message, and then SUCC is current. (That its stores happen at once is log entry 53.) -/
def Obligations.WeightBlocks : Prop := Sys2Proof.Part.WeightBlocks ∧ Sys2Proof.Part.EmitBlocks

/-- The other blocks (R189, R194-R196, R198): LINK sets the activation base (a nonzero BASE is illegal with a stream source, and where it
is not near), CALLB and RETB work the link stack, HINT only prefetches, SYNC stores its value or waits for it (its hints prefetched,
R194), EXIT leaves the mode with ROUTE in D, TRAPB is complete when it traps, and an unknown opcode or a header that fails its checks is
BLOCK_ILLEGAL. (That CALLB's BASE is a block's, 64-byte aligned, is log entry 52, that a SYNC stores at once is log entry 53, that TRAPB
has UNIT 1 is log entry 54.) The staging buffer (R193, R194, R278): the load pipe brings in header and payload of SUCC, of BASE for CALLB
or of the top of the link stack for RETB, nothing past EXIT and TRAPB; of a payload the pages that cannot be fetched are dropped (they are
fetched again when the block runs), and a LUT8 block marked EXP 0 reaches the load pipe expanded, through the bank as it stood at the
prefetch (R174); a hinted block whose page is not present becomes advice to the keystone; a hint is advice only (R171), so what the
current block and its base have staged stays as it is; an entry 65,536 cycles old is dropped, a younger one stays. (Log entry 52.) -/
def Obligations.OtherBlocks : Prop := Sys2Proof.Part.ControlBlocks ∧ Sys2Proof.Part.StagedBlocks

/-- The lease (R215, R216): who may write HLEASE and LPERIOD, what is counted, and the deadline. The lease commands and the reports
(R215-R217, R225, R233, R245). A renewal and a claim count from their arrival under the LPERIOD of that moment, and a renewal that a later
write of HLEASE has overtaken moves no deadline; CLAIM moves port, vectors and slots; RESYNC, ATTEST and HEALTH change nothing. (The
places of fields are log entry 36.) -/
def Obligations.LeasesAndReports : Prop := Sys2Proof.Part.Leases ∧ Sys2Proof.Part.LeaseAndReports

/-- BAR0 (R214, R218, R229): a NOTIFY of the last holder's port is remembered by its queue, any other is counted; MBDOOR takes a 1 only,
and the command is judged by the moment of that write and by LPERIOD as it then stands (R216, R217); the mailbox keeps its bytes while it
is not busy and ignores writes while it is; an unlisted offset is ignored. BAR2 (R234, R236): drive offset o is near address NVBASE + o;
an access that meets a closed byte or passes NVLEN is an Unsupported Request and changes no byte; the 64 interrupt bytes, which are no
memory, read as zero; a 4-byte MSI-X write at 4 × i becomes a message to interrupt route i, and any other write that touches them is
dropped and counted; both also hold while the device is EVICTED (R166) and after a thermal fault. (The sender 0 of its message is log
entry 55; that a read of an uncorrectable word gives free bytes there and no error, log entry 97.) -/
def Obligations.HostWindows : Prop := Sys2Proof.Part.HostRegisters ∧ Sys2Proof.Part.DriveWindow

/-- Commands refused (R20, R215-R220, R238): NOT_HOLDER, BAD_ARG for a must-be-zero byte, BAD_VD, BAD_STATE, DENIED, LEASE_HELD and
BAD_OPCODE; what is not OK has changed nothing but the count of refused renewals. No command is judged before capstone and lintels have
booted, and a pre-emption waits for the rule work of a held context. (The order in which these apply is log entry 36.) CREATE_VD and
SET_POLICY (R47, R121, R128, R177, R222-R224, R237, R379): a failure is answered with its status and has changed nothing; under the
conditions of R224 the device is made: the next number whose ASID is free, RUNNING, under new keys that seal its image and its page
tables, on the lowest free tiles, which start as new, with a slice of 8,000,000 cycles and queue i at lintel i mod 4; SET_POLICY under the
bound keys replaces the policy for a greater VERSION and a quota that covers the tiles. (The choice of tiles, queue numbers and statuses
is log entries 18, 34 and 36; what a SHARED extent that held sealed bytes gives, log entry 73.) -/
def Obligations.MailboxRefusals : Prop := Sys2Proof.Part.RefusedCommands ∧ Sys2Proof.Part.PolicyCommands

/-- Packets (R227-R232): SIGNAL subtracts VALUE from its signal and raises its queue's vector when IRQ is set; COPY posts its card on the
lintel's tile and is consumed, and waits while that tile's 64 entries are full; BARRIER holds the queue, and a queue that is held reads no
packet (its completion, once every earlier packet has completed, is O45); a packet that fails checks, a reserved TYPE among them, is
consumed without effect, with the lowest of their REASON codes in ERR. LAUNCH (R25, R26, R31-R34, R38, R48, R228, R230, R271): a course
with the descriptor's extents gets a number that no course of the device bears; its completion bitmap is cleared; the image's tag records
for the descriptor, which lies in the extent that mirrors the image (R379), stand in their cores' tables, priorities clamped, and an
enabled one leaves no record waiting; one tile-task record for each index leaves for the CORE the placement map names, in linear order,
with the descriptor's entry and argument, the coordinate, and the priority cut to the policy's and to 119; the quads of the placed cores
hold no line of the device (R249). A descriptor whose bitmap reaches a run-queue spill area in any of its pages is none. (Which number is
log entry 34.) -/
def Obligations.QueuePackets : Prop := Sys2Proof.Part.QueuePackets ∧ Sys2Proof.Part.LaunchPackets
end

