-- ==== Sys2Proof/Laws/Found.lean ====
section
/-! SUPPORT. What making room in the staging buffer leaves (R193, R194), and what number a new device gets (R224). -/

namespace Sys2Proof.Machine

/-- Making room leaves only entries that were there. -/
theorem mem_of_mem_stagingTrim {keep : Staged → Bool} {e : Staged} :
    ∀ {n : Nat} {es : List Staged}, e ∈ stagingTrim keep n es → e ∈ es
  | _, [], h => by simp [stagingTrim] at h
  | n, x :: xs, h => by
    unfold stagingTrim at h
    split at h
    · rcases List.mem_cons.mp h with rfl | h
      · exact .head _
      · exact .tail _ (mem_of_mem_stagingTrim h)
    · exact .tail _ (mem_of_mem_stagingTrim h)

/-- An entry that is kept stays. -/
theorem mem_stagingTrim_of_keep {keep : Staged → Bool} {e : Staged} (k : keep e = true) :
    ∀ {n : Nat} {es : List Staged}, e ∈ es → e ∈ stagingTrim keep n es
  | n, x :: xs, h => by
    unfold stagingTrim
    split
    · rcases List.mem_cons.mp h with rfl | h
      · exact .head _
      · exact .tail _ (mem_stagingTrim_of_keep k h)
    · next hx =>
      rcases List.mem_cons.mp h with rfl | h
      · simp [k] at hx
      · exact mem_stagingTrim_of_keep k h

/-- Where nothing is kept, room for `n` bytes is made, as far as there are entries. -/
theorem stagedBytes_stagingTrim {keep : Staged → Bool} (k : ∀ e, keep e = false) :
    ∀ (n : Nat) (es : List Staged), stagedBytes (stagingTrim keep n es) ≤ stagedBytes es - n
  | _, [] => by simp [stagingTrim, stagedBytes]
  | n, x :: xs => by
    unfold stagingTrim
    split
    · next h =>
      obtain rfl : n = 0 := by simpa [k] using h
      have := stagedBytes_stagingTrim k 0 xs
      simp only [stagedBytes, List.map_cons, List.sum_cons] at *
      omega
    · have := stagedBytes_stagingTrim k (n - x.bytes.length) xs
      simp only [stagedBytes, List.map_cons, List.sum_cons] at *
      omega

/-- The number found is no less than the one the search starts from, and every number passed over was in use. -/
theorem numberFrom_passed (used : List Nat) :
    ∀ k n, n ≤ numberFrom used k n ∧ ∀ j, n ≤ j → j < numberFrom used k n → j % 2 ^ 14 ∈ used
  | 0, n => ⟨Nat.le_refl _, fun j h h' => absurd h' (Nat.not_lt.mpr h)⟩
  | k + 1, n => by
    have ih := numberFrom_passed used k (n + 1)
    unfold numberFrom
    split
    · next h =>
      refine ⟨by omega, fun j hj hj' => ?_⟩
      rcases Nat.eq_or_lt_of_le hj with rfl | hj
      · simpa using h
      · exact ih.2 j hj hj'
    · exact ⟨Nat.le_refl _, fun j h h' => absurd h' (Nat.not_lt.mpr h)⟩

end Sys2Proof.Machine
end

