-- ==== Sys2Proof/Tests/Slice0.lean ====
section
/-! SUPPORT. The author's own tests: ill-formed terms refused, words of the manual decoded, single steps, and for each statement
with hypotheses a concrete state and operands that meet them (names witness_<statement>). Expected results are worked out from the
manual's words and examples. -/

namespace Sys2Proof.Tests

set_option maxRecDepth 100000
set_option Elab.async false

open Sys2Proof.Machine Sys2Proof.Say

/-! The small package the tests run on: device 0 on tile 0, core 0 in focus at the first byte of its slice. -/

def base : State := State.reset.withFetchWord 64 0
def withX (l : List (Nat × Word)) (s : State) : State :=
  s.mapCtx fun c => { c with x := l.foldl (fun v p => v.set! p.1 p.2) c.x }
def demo : State := withX [(1, 5), (2, 7)] base
def withStream (n : Fin 8) (t : Stream) (s : State) : State := s.mapCtx fun c => { c with streams := c.streams.set n t }
/-- A slice address of core 0 with room around it. -/
def spot : Word := 0x800008000
def plainM (b i : Opd) (sz : Fin 7) (o : AccOrd) : MArgs := { base := b, idx := i, sz := sz, ord := o, scope := .core, xs := 0, off := 0 }
def isNext (r : Host.Outcome State Fault Refusal) : Bool :=
  match r with
  | .next _ => true
  | _ => false
/-- What a property says of the next state; false where there is none. -/
def after (r : Host.Outcome State Fault Refusal) (p : State → Bool) : Bool :=
  match r with
  | .next t => p t
  | _ => false

/-- Device 0 with course 1, whose completion bitmap lies at `spot`. -/
def inCourse (s : State) : State :=
  let k : Course := { num := 1, vd := 0, dims := (4, 1, 1), bitmap := 0x800008000, ptab := 0, place := [0], undone := 1, span := .core }
  ({ s with devs := s.devs.map fun d => { d with courses := [k] } } : State).mapCtx fun c => { c with mark := 2 ^ 34 + 3 }

/-- What a property says of an operation's result; false where it stops. -/
def isOk {α : Type} (r : Except Stop (α × State)) (p : α → State → Bool) : Bool :=
  match r with
  | .ok (a, t) => p a t
  | .error _ => false
/-- What a property says of bytes that the rule unit reads. -/
def unitOk (ea : Word) (n : Nat) (s : State) (p : List Byte → State → Bool) : Bool := !pushPending s ea.toNat n && isOk (loadBytes ea n 2 s) p

def zeros64 : List Byte := List.replicate 64 0
theorem ok_unit {r : Except Stop (Unit × State)} (h : isOk r (fun _ _ => true) = true) : ∃ t, r = .ok ((), t) := by
  unfold isOk at h
  split at h
  · exact ⟨_, rfl⟩
  · cases h

theorem unpoisoned {s : State} (h : s.poison = []) (a n : Nat) : poisoned s a n = false := by simp [poisoned, h]
theorem unpoisoned_part {s : State} (h : s.poison = []) (a n : Nat) : partPoison s a n = false := by simp [partPoison, h]

theorem room {vec : Bool} {d : Opd} {s : State} (h : dstEnd vec d s = .ok ((), s)) : ∀ o ∈ [d], dstEnd vec o s = .ok ((), s) := fun o ho => by
  rw [List.mem_singleton.1 ho]; exact h
theorem room0 {vec : Bool} {s : State} : ∀ o ∈ ([] : List Opd), dstEnd vec o s = .ok ((), s) := nofun

/-- Core 1 of the tile as given, beside core 0. -/
def withCore (co : Core) (s : State := base) : State := { s with others := s.others ++ [co] }

/-! Witnesses: integer, floating point, operands, control. -/

theorem witness_IntegerTwoSource : ∃ s1 s2, Reads [.reg 1, .reg 2] [.reg 3] 0 (begun demo) true [5, 7] s1 ∧ Puts true (.reg 3) 12 s1 s2 :=
  ⟨_, _, ⟨rfl, rfl, fun _ => room rfl, rfl⟩, rfl⟩

/-- The same with the predicate bit 0: nothing is written. -/
theorem witness_IntegerTwoSource_off : ∃ s1 s2, Reads [.reg 1, .reg 2] [.reg 3] 1 (begun demo) false [5, 7] s1 ∧ Puts false (.reg 3) 12 s1 s2 :=
  ⟨_, _, ⟨rfl, rfl, fun _ => room rfl, rfl⟩, rfl⟩

theorem witness_Immediates :
    (∃ s1 s2, Takes [.reg 1] [.reg 3] (begun demo) [5] s1 ∧ writeOpd (.reg 3) 4 s1 = .ok ((), s2))
    ∧ (∃ s2, Reads [] [.reg 3] 0 (begun demo) true [] (begun demo) ∧ Puts true (.reg 3) 9 (begun demo) s2)
    ∧ (∃ s2, Takes [] [.reg 3] (begun demo) [] (begun demo) ∧ writeOpd (.reg 3) 9 (begun demo) = .ok ((), s2)) :=
  ⟨⟨_, _, ⟨rfl, room rfl, rfl⟩, rfl⟩, ⟨_, ⟨rfl, rfl, fun _ => room rfl, rfl⟩, rfl⟩, ⟨_, ⟨rfl, room rfl, rfl⟩, rfl⟩⟩

theorem witness_IntegerFieldsAndCounts :
    (∃ s1 s2, Reads [.reg 1, .reg 2, .reg 0] [.reg 3] 0 (begun demo) true [5, 7, 0] s1 ∧ readX 3 s1 = .ok (0, s1) ∧ Puts true (.reg 3) 7 s1 s2)
    ∧ (∃ s1 s2, Reads [.reg 1] [.reg 3] 0 (begun demo) true [5] s1 ∧ Puts true (.reg 3) 2 s1 s2) :=
  ⟨⟨_, _, ⟨rfl, rfl, fun _ => room rfl, rfl⟩, rfl, rfl⟩, ⟨_, _, ⟨rfl, rfl, fun _ => room rfl, rfl⟩, rfl⟩⟩

/-- BFI onto an output stream. -/
def outDemo : State := withStream 0 { bound := true, out := true, esz := 4, total := 8 } demo
theorem witness_IntegerFieldsAndCounts_stream : ∃ s1 s2,
    Reads [.reg 1, .reg 2, .reg 0] [.str 0] 0 (begun outDemo) true [5, 7, 0] s1 ∧ Puts true (.str 0) 7 s1 s2 :=
  ⟨_, _, ⟨rfl, rfl, fun _ => room rfl, rfl⟩, rfl⟩

theorem witness_ScalarFloatingPoint :
    (∃ s1 s2, Reads [.reg 1, .reg 2] [.reg 3] 0 (begun demo) true [5, 7] s1 ∧ Puts true (.reg 3) 0 s1 s2)
    ∧ (∃ s1 s2, Reads [.reg 1, .reg 2, .reg 1] [.reg 3] 0 (begun demo) true [5, 7, 5] s1 ∧ Puts true (.reg 3) 0 s1 s2)
    ∧ (∃ s1 s2, Reads [.reg 1] [.reg 3] 0 (begun demo) true [5] s1 ∧ Puts true (.reg 3) 0 s1 s2) :=
  ⟨⟨_, _, ⟨rfl, rfl, fun _ => room rfl, rfl⟩, rfl⟩, ⟨_, _, ⟨rfl, rfl, fun _ => room rfl, rfl⟩, rfl⟩, ⟨_, _, ⟨rfl, rfl, fun _ => room rfl, rfl⟩, rfl⟩⟩

theorem witness_ZeroRegisters : writeX 0 9 demo = .ok ((), demo) ∧ memWf demo.core.ctx.urs = true ∧ demo.core.ctx.pendingWrite 0x100 8 = false :=
  ⟨rfl, rfl, rfl⟩

def loading : State := demo.mapCtx fun c => { c with ld := 1, loads := [{ dst := .x 1, data := [0] }] }
def inStream (buf : List (List Byte)) (done total : Nat) : State :=
  withStream 2 { bound := true, esz := 4, total := total, moved := done + buf.length, done := done, buf := buf } demo
def outStream (n : Nat) : State :=
  withStream 2 { bound := true, out := true, esz := 4, total := 100, done := n, buf := List.replicate n [0, 0, 0, 0] } demo

theorem witness_RegisterOperands : demo.core.ctx.pendingX 1 = false ∧ loading.core.ctx.pendingX 1 = true := ⟨rfl, rfl⟩

def fed (k : StreamKind) (closed : Bool) (buf : List (List Byte)) (q : List Word) : State :=
  let s := withStream 2 { bound := true, kind := k, esz := 4, total := 8, done := 7, closed := closed, buf := buf } demo
  { s with core := { s.core with arrq := s.core.arrq.set 0 q } }
/-- An expander and a gather: ended, waiting, and with an element; a gather at its end; an arrival queue, empty and with an entry. -/
theorem witness_StreamOperands_kinds :
    (let t := (fed .expander true [] []).core.ctx.streams[(2 : Fin 8)]; t.kind = .expander ∧ t.buf = [] ∧ t.closed = true)
    ∧ (let t := (fed .gather false [] []).core.ctx.streams[(2 : Fin 8)]
       t.kind = .gather ∧ t.done + 1 ≤ t.total ∧ t.buf = [] ∧ t.closed = false ∧ t.held = none)
    ∧ (let t := (fed .expander false [[1, 0, 0, 0]] []).core.ctx.streams[(2 : Fin 8)]; t.kind = .expander ∧ t.buf = [1, 0, 0, 0] :: [])
    ∧ (let t := (withStream 2 { bound := true, kind := .gather, esz := 4, total := 8, done := 8 } demo).core.ctx.streams[(2 : Fin 8)]
       t.kind = .gather ∧ t.total < t.done + 1)
    ∧ (let s := fed .queue false [] []; let t := s.core.ctx.streams[(2 : Fin 8)]
       t.kind = .queue ∧ t.arg = (0 : Fin 8).val ∧ t.buf = [] ∧ s.core.arrq[(0 : Fin 8)] = [] ∧ t.held = none)
    ∧ (let s := fed .queue false [] [5, 6]; let t := s.core.ctx.streams[(2 : Fin 8)]
       t.kind = .queue ∧ t.arg = (0 : Fin 8).val ∧ t.buf = [] ∧ s.core.arrq[(0 : Fin 8)] = 5 :: [6]) := by
  decide

/-- Past the end; one element; nothing buffered; 63 and 64 elements of 4 bytes buffered, of 256 bytes. -/
theorem witness_StreamOperands :
    (let t := (inStream [] 2 2).core.ctx.streams[(2 : Fin 8)]; t.kind = .pattern ∧ t.total < t.done + 1)
    ∧ (let t := (inStream [[1, 0, 0, 0]] 1 2).core.ctx.streams[(2 : Fin 8)]; t.kind = .pattern ∧ t.done + 1 ≤ t.total ∧ t.buf = [[1, 0, 0, 0]])
    ∧ (let t := (inStream [] 1 2).core.ctx.streams[(2 : Fin 8)]; t.kind = .pattern ∧ t.done + 1 ≤ t.total ∧ t.buf = [] ∧ t.held = none)
    ∧ (let t := (outStream 63).core.ctx.streams[(2 : Fin 8)]; t.kind = .pattern ∧ t.done + 1 ≤ t.total ∧ (t.buf.length + 1) * t.esz ≤ 256)
    ∧ (let t := (outStream 64).core.ctx.streams[(2 : Fin 8)]; t.kind = .pattern ∧ t.done + 1 ≤ t.total ∧ 256 < (t.buf.length + 1) * t.esz) := by
  decide

theorem witness_StreamDirection :
    firstBad demo.core.ctx [] [.str 2] = some 2 ∧ firstBad demo.core.ctx [.str 2] [.reg 3] = some 2
    ∧ firstBad demo.core.ctx [.reg 1, .str 2] [.str 3] = some 2 ∧ firstBad (inStream [] 0 2).core.ctx [.reg 1, .str 2, .str 4] [.str 2] = some 4
    ∧ firstBad (inStream [] 0 2).core.ctx [.reg 1, .reg 0] [.str 2] = some 2 ∧ firstBad (outStream 0).core.ctx [.reg 1, .reg 0, .str 2] [] = some 2
    ∧ ((inStream [] 2 2).core.ctx.streams[(2 : Fin 8)]).ends 1 = true ∧ firstBad (inStream [] 2 2).core.ctx [.str 2, .reg 1] [.reg 3] = none
    ∧ firstBad (inStream [] 2 2).core.ctx [.reg 1, .str 2] [.reg 3] = none := by
  decide

theorem witness_Branches :
    (∃ s1, Takes [.reg 1, .reg 2] [] (begun demo) [5, 7] s1) ∧ (∃ s1, Takes [.reg 1, .reg 2] [] (warned true wCombo (begun demo)) [5, 7] s1)
    ∧ (∃ s1, Takes [.reg 1] [] (begun demo) [5] s1) ∧ (∃ s1, Takes [.reg 1] [] (warned true wCombo (begun demo)) [5] s1) :=
  ⟨⟨_, rfl, room0, rfl⟩, ⟨_, rfl, room0, rfl⟩, ⟨_, rfl, room0, rfl⟩, ⟨_, rfl, room0, rfl⟩⟩

theorem witness_Jumps :
    (∃ s1, Takes [.reg 1] [] (warned false wCombo (begun demo)) [5] s1)
    ∧ (∃ s2, Takes [] [.reg 3] (begun demo) [] (begun demo) ∧ writeOpd (.reg 3) (demo.core.ctx.pc + 8) (begun demo) = .ok ((), s2))
    ∧ (∃ s1 s2, Takes [.reg 1] [.reg 3] (begun demo) [5] s1 ∧ writeOpd (.reg 3) (demo.core.ctx.pc + 8) s1 = .ok ((), s2)) :=
  ⟨⟨_, rfl, room0, rfl⟩, ⟨_, ⟨rfl, room rfl, rfl⟩, rfl⟩, ⟨_, _, ⟨rfl, room rfl, rfl⟩, rfl⟩⟩

theorem witness_PlainControl : stepping (begun demo) = false := by decide
theorem witness_RepStarts : stepping (begun demo) = false := by decide

def passing (idx pass : Nat) : Ctx := { demo.core.ctx with rep := some { imm := 0x21, pass := pass, idx := idx, body := [], pcs := [0, 4] } }
/-- REP.n 2 with K = 3: inside a pass, at the end of a pass, at the end of the last pass. -/
theorem witness_RepPasses :
    (∃ r, (passing 0 0).rep = some r ∧ r.idx ≤ r.imm.toNat % 16 ∧ r.pass ≤ r.imm.toNat / 16 % 4096 ∧ r.idx < r.imm.toNat % 16)
    ∧ (∃ r, (passing 1 1).rep = some r ∧ r.idx = r.imm.toNat % 16 ∧ r.pass < r.imm.toNat / 16 % 4096 ∧ r.pcs = 0 :: [4])
    ∧ (∃ r, (passing 1 2).rep = some r ∧ r.idx = r.imm.toNat % 16 ∧ r.pass = r.imm.toNat / 16 % 4096) :=
  ⟨⟨_, rfl, by decide⟩, ⟨_, rfl, by decide⟩, ⟨_, rfl, by decide⟩⟩

theorem witness_EndTask : endReady demo.core.ctx = true ∧ endReady loading.core.ctx = false := by decide

theorem witness_EndSetsBitmap : let s := inCourse demo
    ∃ c, endReady s.core.ctx = true ∧ s.vd = some 0 ∧ s.courseOf 0 (markCourse s.core.ctx.mark) = some c
      ∧ markIsTile s.core.ctx.mark = true ∧ s.core.ctx.svc = false ∧ memWf s.near = true ∧ c.bitmap = 0x800008000
      ∧ (∀ k < 8, isObs (0x800008000 + k) = false) :=
  ⟨_, rfl, rfl, rfl, by decide⟩

theorem witness_TrapInstructions : demo.core.ctx.resumed = false ∧ (demo.mapCtx fun c => { c with resumed := true }).core.ctx.resumed = true :=
  ⟨rfl, rfl⟩

theorem witness_Privilege : demo.core.ctx.svc = false := rfl

theorem witness_TrapEntry : demo.core.ctx.svc = false ∧ isDebugStop demo .illegalOpc = false ∧ demo.vd = some 0
    ∧ freeSlot (demo.tileOf (coreTile demo.core.id)) = some 0 ∧ memWf demo.near = true ∧ (∀ c ∈ demo.core.ctx.urs, c.1 < 0x8000)
    ∧ demo.core.ctx.loads = [] ∧ demo.core.ctx.stores = [] ∧ demo.core.ctx.mxops = [] ∧ demo.core.ctx.gathers = [] := by
  decide

/-- The keystone's core serves slot 0, which holds an image of device 0. -/
def serving : State :=
  let s := (demo.focusOn 32).mapCtx fun c => { c with svc := true, under := some 0, prio := 124 }
  ({ s with core := { s.core with mode := .running } } : State).updTile 0 fun t => { t with slots := t.slots.set 0 (.image 0) }

theorem witness_ServiceTrap : ∃ d, serving.core.ctx.svc = true ∧ serving.vd = some 0 ∧ serving.devOf 0 = some d := ⟨_, rfl, rfl, rfl⟩

theorem witness_EretReturns : ∃ s1, serving.core.ctx.svc = true ∧ endReady serving.core.ctx = true
    ∧ releaseDrain .pkg (warned false wCombo (begun serving)) = .ok ((), s1) ∧ s1.core.ctx.under = some 0
    ∧ (s1.tileOf (coreTile s1.core.id)).slots[(0 : Fin 64)] = .image 0 ∧ slotPoison s1 (coreTile s1.core.id) 0 = [] :=
  ⟨_, rfl, by decide, rfl, rfl, by decide, rfl⟩

/-! Witnesses: memory. -/

/-- x1 holds an address, x2 a value. -/
def at_ (v : Word) (s : State := base) : State := withX [(1, v), (2, 0x1122334455667788)] s
def m8 : MArgs := plainM (.reg 1) (.reg 0) 3 .plain
def mOf (o : AccOrd) : MArgs := { m8 with ord := o }
/-- Far memory: one 1 GiB page from 0x10_0000_0000 on, with every right. -/
def farPage (rights : Nat) (s : State) : State :=
  { s with
    devs := s.devs.map fun d => { d with root := 0x100000 }
    quarry := memWrite (memWrite s.quarry 0x100000 (leBytes 8 0x101001)) 0x101200 (leBytes 8 (0x40000200 + rights)) }
def farSpot : Word := 0x1000000040
def farBase : State := farPage 0x3F base

theorem open_spot (s : State) (h : s = begun (at_ spot)) : NearOpen s spot 8 := by subst h; exact ⟨by decide, by decide, by decide, by decide, by decide⟩
theorem read_spot {s : State} (h : s = begun (at_ spot) ∨ s = at_ spot) : NearRead s spot 8 s := by
  rcases h with rfl | rfl <;> exact ⟨by decide, by decide, by decide, rfl, by decide, by decide⟩

theorem witness_NearLoads :
    Addressed m8 [] [.reg 3] false (begun (at_ spot)) spot 0 (begun (at_ spot)) ∧ ordIs15 (ordAfter true true false false .plain) = false
    ∧ effective m8 8 spot 0 = spot ∧ NearRead (noted (loadNotes true false m8) (begun (at_ spot))) spot 8 (begun (at_ spot))
    ∧ (∃ s2, writeOpd (.reg 3) 0 (begun (at_ spot)) = .ok ((), s2))
    ∧ Addressed m8 [] [.reg 3] true (at_ spot) spot 0 (at_ spot) ∧ ordIs15 (ordAfter true false false false .plain) = false
    ∧ NearRead (noted (loadNotes false false m8) (noted 0 (at_ spot))) spot 8 (at_ spot)
    ∧ (∃ s2, writeVec (.reg 3) (List.replicate 64 0) (flagged 0 (at_ spot)) = .ok ((), s2)) :=
  ⟨⟨rfl, room rfl, rfl⟩, rfl, by decide, read_spot (.inl rfl), ⟨_, rfl⟩, ⟨rfl, room rfl, rfl⟩, rfl, read_spot (.inr rfl), ⟨_, rfl⟩⟩

theorem witness_NearStores :
    Addressed m8 [.reg 2] [] false (begun (at_ spot)) spot 0 (begun (at_ spot)) ∧ readOpd (.reg 2) (begun (at_ spot)) = .ok (0x1122334455667788, begun (at_ spot))
    ∧ ordIs15 (ordAfter false true false false .plain) = false ∧ NearOpen (begun (at_ spot)) spot 8 ∧ partPoison (begun (at_ spot)) spot.toNat 8 = false
    ∧ Addressed m8 [.reg 2] [] true (at_ spot) spot 0 (at_ spot) ∧ (∃ v, readVec (.reg 2) (at_ spot) = .ok (v, at_ spot) ∧ (vecStore none 8 v).1.length = 8)
    ∧ ordIs15 (ordAfter false false false false .plain) = false ∧ NearOpen (at_ spot) spot 8 ∧ partPoison (at_ spot) spot.toNat 8 = false :=
  ⟨⟨rfl, room0, rfl⟩, rfl, rfl, open_spot _ rfl, by decide, ⟨rfl, room0, rfl⟩, ⟨_, rfl, by decide⟩, rfl, ⟨by decide, by decide, by decide, by decide, by decide⟩, by decide⟩

/-- A store that wraps at the end of its slot. -/
theorem witness_StoredBytes : memWf base.near = true ∧ ([1, 2, 3, 4] : List Byte).length ≤ 2 ^ 20
    ∧ (∀ i < 4, isObs (nearWrap 0x8000FFFFE i) = false) ∧ nearWrap 0x8000FFFFE 3 = 0x800000001 := by decide

/-- Byte 0 of the block, the first and last bytes of each field that software owns, and a byte of one that hardware owns. -/
theorem witness_ObservationStores : memWf base.near = true
    ∧ ((List.range 0x40).all fun off => isObs (nearAddr 0 35 0xFF000 + off)) = true
    ∧ ([0, 8, 15, 0x10, 0x17, 0x18, 0x1F, 0x20, 0x21, 0x27, 0x28, 0x2F, 0x30, 0x37, 0x38, 0x3F].all fun off =>
        keyByte (nearAddr 0 35 0xFF000 + off) - 0x3FF000 == off) = true := by
  decide

def isFarAt (ea : Nat) (p : Place) : Bool :=
  match p with
  | .far va _ => va == ea
  | .near _ _ => false

/-- The place of a far access of 8 bytes, with LD and ST below 63 and nothing outstanding on the register. -/
theorem witness_FarAccesses :
    Addressed m8 [] [.reg 3] false (begun (at_ farSpot farBase)) farSpot 0 (begun (at_ farSpot farBase))
    ∧ isOk (place farSpot 8 needR false 0 (noted (loadNotes true true m8) (begun (at_ farSpot farBase)))) (fun p t =>
        isFarAt farSpot.toNat p && t.core.ctx.ld != 63 && !t.core.ctx.pendingX 3 && t.core.ctx.stores.isEmpty
          && !t.core.ctx.pendingWrite (t.core.ctx.vOff 3) 64) = true
    ∧ Addressed m8 [.reg 2] [] false (begun (at_ farSpot farBase)) farSpot 0 (begun (at_ farSpot farBase))
    ∧ isOk (place farSpot 8 needW true 0 (noted (storeNotes true true m8) (begun (at_ farSpot farBase)))) (fun p t =>
        isFarAt farSpot.toNat p && t.core.ctx.st != 63) = true
    ∧ Addressed m8 [] [.reg 3] true (at_ farSpot farBase) farSpot 0 (at_ farSpot farBase)
    ∧ Addressed m8 [.reg 2] [] true (at_ farSpot farBase) farSpot 0 (at_ farSpot farBase)
    ∧ (∃ v, readVec (.reg 2) (at_ farSpot farBase) = .ok (v, at_ farSpot farBase))
    ∧ isOk (place farSpot 8 needW true 0 (noted (storeNotes false true m8) (flagged 0 (noted (vecNotes none (at_ farSpot farBase).core.ctx)
        (at_ farSpot farBase))))) (fun p t => isFarAt farSpot.toNat p && t.core.ctx.st != 63) = true
    ∧ isOk (place farSpot 8 needR false 0 (noted (loadNotes false true m8) (noted (vecNotes none (at_ farSpot farBase).core.ctx)
        (at_ farSpot farBase)))) (fun p t => isFarAt farSpot.toNat p && t.core.ctx.ld != 63 && t.core.ctx.stores.isEmpty
          && !t.core.ctx.pendingWrite (t.core.ctx.vOff 3) 64) = true
    ∧ m8.ord ≠ .acq ∧ m8.ord ≠ .acqrel ∧ m8.ord ≠ .rel :=
  ⟨⟨rfl, room rfl, rfl⟩, by decide, ⟨rfl, room0, rfl⟩, by decide, ⟨rfl, room rfl, rfl⟩, ⟨rfl, room0, rfl⟩, ⟨_, rfl⟩, by decide, by decide, by decide, by decide⟩

def storing : State := demo.mapCtx fun c => { c with st := 1, stores := [{ va := 0x1000002000, cells := [(0x2000, 1), (0x2001, 2)] }] }
def loading2 : State := demo.mapCtx fun c => { c with ld := 1, loads := [{ dst := .x 1, data := [0] }] }
theorem witness_FarWorkArrives :
    (loading2.coreOf 0).ctx.loads = { dst := .x 1, data := [0] } :: [] ∧ memWf loading2.core.ctx.urs = true ∧ (1 : Fin 32) ≠ 0
    ∧ (storing.coreOf 0).ctx.stores = { va := 0x1000002000, cells := [(0x2000, 1), (0x2001, 2)] } :: [] ∧ memWf storing.quarry = true
    ∧ (([(0x2000, 1), (0x2001, 2)] : List (Nat × Byte)).map (·.1)).Nodup := by decide

/-- An acquire-release load, a lock load, an unlock and a release store; the acquire and release forms. -/
theorem witness_OrderedAccesses :
    (Addressed (mOf .acqrel) [] [.reg 3] false (begun (at_ spot)) spot 0 (begun (at_ spot)) ∧ ordIs15 (ordAfter true true false false .acqrel) = true
      ∧ spot.toNat % 8 = 0 ∧ NearOpen (begun (at_ spot)) spot 8
      ∧ (∃ s2, Before .acqrel .core spot (noted (loadNotes true false (mOf .acqrel)) (begun (at_ spot))) s2 ∧ NearOpen s2 spot 8
          ∧ ∃ s3 s4, After .acqrel .core spot s2 s3 ∧ writeOpd (.reg 3) 0 s3 = .ok ((), s4)))
    ∧ (Addressed (mOf .rel) [.reg 2] [] false (begun (at_ spot)) spot 0 (begun (at_ spot)) ∧ ordIs15 (ordAfter false true false false .rel) = true
      ∧ (∃ s3, Before .rel .core spot (noted (storeNotes true false (mOf .rel)) (begun (at_ spot))) s3 ∧ NearOpen s3 spot 8
          ∧ partPoison s3 spot.toNat 8 = false ∧ ∃ s4, After .rel .core spot (stored spot [1, 0, 0, 0, 0, 0, 0, 0] s3) s4))
    ∧ (∃ s2, Before .lock .core spot (begun (at_ spot)) s2 ∧ NearOpen s2 spot 8)
    ∧ (∃ s4, After .unlock .core spot (begun (at_ spot)) s4)
    ∧ (∃ s2, writeOpd (.reg 3) 0 (acquired .core spot (warned false wCombo (begun (at_ spot)))) = .ok ((), s2))
    ∧ (∃ s3, releaseAt .core (warned false wCombo (begun (at_ spot))) = .ok ((), s3) ∧ NearOpen s3 spot 8 ∧ partPoison s3 spot.toNat 8 = false) :=
  ⟨⟨⟨rfl, room rfl, rfl⟩, rfl, by decide, open_spot _ rfl, ⟨_, rfl, ⟨by decide, by decide, by decide, by decide, by decide⟩, _, _, rfl, rfl⟩⟩,
   ⟨⟨rfl, room0, rfl⟩, rfl, ⟨_, rfl, ⟨by decide, by decide, by decide, by decide, by decide⟩, by decide, _, rfl⟩⟩, ⟨_, rfl, ⟨by decide, by decide, by decide, by decide, by decide⟩⟩, ⟨_, rfl⟩, ⟨_, rfl⟩,
   ⟨_, rfl, ⟨by decide, by decide, by decide, by decide, by decide⟩, by decide⟩⟩

def mapping : State := demo.mapCtx fun c => { c with gops := [{ major := 1, fn := 0, mod := 0, d := 0, a := 0, b := 0, bs := none, c := 0 }] }
theorem witness_Releases :
    (∃ g ∈ mapping.core.ctx.gops, g.major = 1 ∨ g.major = 3) ∧ (∃ t, releaseAt .die demo = .ok ((), t))
    ∧ (∀ g ∈ demo.core.ctx.gops, g.major ≠ 1 ∧ g.major ≠ 3)
    ∧ (∀ n : Fin 8, (demo.core.ctx.streams[n]).out = true → (demo.core.ctx.streams[n]).buf = []) :=
  ⟨by decide, ⟨_, rfl⟩, by decide, by decide⟩

def lockOf (c : CoreId) : Lock := { slice := lockSlice 0x800008000, bank := lockBank 0x800008000, bit := lockBit 0x800008000, holder := c, mark := 0 }
theorem witness_LockBits :
    lockHeld demo 0x800008000 = none ∧ lockHeld { demo with locks := [lockOf 0] } 0x800008000 = some (lockOf 0)
    ∧ (lockOf 0).holder = demo.core.id ∧ (lockOf 0).mark = demo.core.ctx.mark
    ∧ lockHeld { demo with locks := [lockOf 1] } 0x800008000 = some (lockOf 1) ∧ (lockOf 1).holder ≠ demo.core.id :=
  ⟨rfl, by simp [lockHeld, lockOf], rfl, rfl, by simp [lockHeld, lockOf], by decide⟩

/-- 2^48, the last null byte, the first spill byte of a slice, a slot that does not exist; an address one past a word. -/
theorem witness_AddressTraps :
    ([(0x1000000000000 : Word), 0x7FFFFFFFF, 0x8000E0000, 0x802400000, 0x800008001].all fun v =>
      isOk (checkDirs ([m8.base, m8.idx] ++ []) [.reg 3] [] (begun (at_ v))) (fun _ _ => true)
        && isOk (readOpds [m8.base, m8.idx] (begun (at_ v))) (fun r _ => r == [v, 0]) && effective m8 8 v 0 == v) = true
    ∧ 2 ^ 48 ≤ (0x1000000000000 : Word).toNat ∧ (0x7FFFFFFFF : Word).toNat < 2 ^ 35
    ∧ isNear 0x8000E0000 = true ∧ nearOk (begun (at_ 0x8000E0000)) 0x8000E0000 = false
    ∧ isNear 0x802400000 = true ∧ nearOk (begun (at_ 0x802400000)) 0x802400000 = false
    ∧ ordIs15 (ordAfter true true false true .plain) = false ∧ ordIs15 (ordAfter false true false true .plain) = false
    ∧ isNear 0x800008001 = true ∧ 0x800008001 % 8 ≠ 0 ∧ ordIs15 (ordAfter true true false false .acq) = true
    ∧ (∃ s1, Takes [.reg 1, .reg 2] [.reg 3] (warned false wCombo (begun (at_ 0x800008001))) [0x800008001, 0x1122334455667788] s1) := by
  refine ⟨by decide, by decide, by decide, by decide, by decide, by decide, by decide, by decide, by decide, by decide, by decide, by decide, ?_⟩
  exact ⟨_, rfl, room rfl, rfl⟩

/-- Tables at 0x1000, 0x2000, 0x3000 and 0x4000, the root at 0x1000; what each level's entry holds, and the group entry. -/
def tables (e1 e2 e3 g e4 : Nat) : Memory :=
  memWrite (memWrite (memWrite (memWrite (memWrite [] 0x1000 (leBytes 8 e1)) 0x2200 (leBytes 8 e2)) 0x3000 (leBytes 8 e3)) 0x4000 (leBytes 8 g)) 0x4008
    (leBytes 8 e4)
/-- va = 0x10_0000_1000: indices 0, 64, 0 and 1. -/
theorem witness_PageWalk :
    (let q := tables 0x2001 0x3001 0x4001 0 0x5003
     pteAt q 0x1000 = 0x2001 ∧ pteAt q 0x2200 = 0x3001 ∧ pteAt q 0x3000 = 0x4001 ∧ pteAt q 0x4008 = 0x5003 ∧ pteAt q 0x4000 = 0
       ∧ 0x1000 + 8 * (0x1000001000 / 2 ^ 39 % 512) = 0x1000 ∧ 0x2001 / 2 ^ 12 % 2 ^ 40 * 4096 + 8 * (0x1000001000 / 2 ^ 30 % 512) = 0x2200
       ∧ 0x4001 / 2 ^ 12 % 2 ^ 40 * 4096 + 8 * (0x1000001000 / 2 ^ 12 % 512) = 0x4008)
    ∧ pteAt (tables 0 0 0 0 0) 0x1000 % 2 = 0 ∧ (pteAt (tables 0x2201 0 0 0 0) 0x1000 % 2 = 1 ∧ pteAt (tables 0x2201 0 0 0 0) 0x1000 / 2 ^ 9 % 2 = 1)
    ∧ pteAt (tables 0x2001 0 0 0 0) 0x2200 % 2 = 0 ∧ pteAt (tables 0x2001 0x3001 0 0 0) 0x3000 % 2 = 0
    ∧ (let e := pteAt (tables 0x2001 0x40000203 0 0 0) 0x2200; e % 2 = 1 ∧ e / 2 ^ 52 = 0 ∧ e / 2 ^ 10 % 4 = 0 ∧ e / 2 ^ 12 % 2 ^ 40 * 4096 % 2 ^ 30 = 0 ∧ e / 2 ^ 9 % 2 = 1)
    ∧ (let e := pteAt (tables 0x2001 0x3001 0x200203 0 0) 0x3000; e % 2 = 1 ∧ e / 2 ^ 10 % 4 = 0 ∧ e / 2 ^ 12 % 2 ^ 40 * 4096 % 2 ^ 21 = 0 ∧ e / 2 ^ 9 % 2 = 1)
    ∧ (let g := pteAt (tables 0x2001 0x3001 0x4001 0x10203 0) 0x4000; g % 2 = 1 ∧ g / 2 ^ 10 % 4 = 0 ∧ g / 2 ^ 12 % 2 ^ 40 * 4096 % 65536 = 0 ∧ g / 2 ^ 9 % 2 = 1)
    ∧ pteAt (tables 0x2001 0x3001 0x4001 0 0) 0x4008 % 2 = 0 := by decide

/-- Rights that allow a user's read, and ones that do not. -/
theorem witness_Translation :
    (∃ d l, farBase.dev = some d ∧ tlbHit farBase.core.mtlb d.num d.root farSpot.toNat = none
      ∧ tlbHit (farBase.tileOf (coreTile farBase.core.id)).tlb d.num d.root farSpot.toNat = none ∧ walk farBase.quarry d.root farSpot.toNat = .ok l
      ∧ l.pte = 0x4000023F ∧ l.vpage = 0x1000000000 ∧ memWf farBase.quarry = true)
    ∧ (∃ d l, (farPage 0x3D base).dev = some d ∧ tlbHit (farPage 0x3D base).core.mtlb d.num d.root farSpot.toNat = none
      ∧ walk (farPage 0x3D base).quarry d.root farSpot.toNat = .ok l ∧ l.pte.getLsbD 1 = false) :=
  ⟨⟨_, _, rfl, rfl, rfl, rfl, rfl, rfl, by decide⟩, ⟨_, _, rfl, rfl, rfl, rfl⟩⟩

/-- An ordered add, a compare and swap that matches, and one on 4 bytes. -/
theorem witness_NearAtomics :
    (∃ s2 s3, Takes [.reg 1, .reg 2] [.reg 3] (warned false wCombo (begun (at_ spot))) [spot, 0x1122334455667788] (begun (at_ spot))
      ∧ spot.toNat % 8 = 0 ∧ nearSpanOk (begun (at_ spot)) spot.toNat 8 = true ∧ releaseAt .core (begun (at_ spot)) = .ok ((), s2) ∧ NearRead s2 spot 8 s2
      ∧ (∀ l, lockHeld s2 spot.toNat = some l → lockMine s2 l = true)
      ∧ writeOpd (.reg 3) 0 (acquired .core spot (flagged 0 (stored spot [1, 0, 0, 0, 0, 0, 0, 0] s2))) = .ok ((), s3))
    ∧ (∃ s3, Takes [.reg 1, .reg 2, .reg 0] [.reg 3] (warned false wCombo (begun (at_ spot))) [spot, 0x1122334455667788, 0] (begun (at_ spot))
      ∧ NearRead (begun (at_ spot)) spot 4 (begun (at_ spot))
      ∧ writeOpd (.reg 3) 0 (flagged 0 (stored spot [1, 0, 0, 0] (begun (at_ spot)))) = .ok ((), s3)) :=
  ⟨⟨_, _, ⟨rfl, room rfl, rfl⟩, by decide, by decide, rfl, read_spot (.inl rfl), fun l (h : (none : Option Lock) = some l) => (nomatch h), rfl⟩,
   ⟨_, ⟨rfl, room rfl, rfl⟩, ⟨by decide, by decide, by decide, rfl, by decide, by decide⟩, rfl⟩⟩

/-- Index lanes of v1 all 0, the base at `spot`, the predicate p0. -/
theorem witness_NearGatherScatter : elemIsScal .i32 = true ∧ elemIsScal .bfp = false
    ∧ checkDirs [.reg 1, .reg 1] [.reg 3] [true] (noted 0 (at_ spot)) = .ok ((), noted 0 (at_ spot))
    ∧ checkDirs [.reg 1, .reg 1, .reg 2] [] [true, false, true] (noted 0 (at_ spot)) = .ok ((), noted 0 (at_ spot))
    ∧ readP 0 (noted 0 (at_ spot)) = .ok (BitVec.allOnes 64, noted 0 (at_ spot))
    ∧ (∃ idx, readVec (.reg 1) (noted 0 (at_ spot)) = .ok (idx, noted 0 (at_ spot)) ∧ idx = List.replicate 64 0)
    ∧ readOpd (.reg 1) (noted 0 (at_ spot)) = .ok (spot, noted 0 (at_ spot))
    ∧ (∃ v, readVec (.reg 2) (noted 0 (at_ spot)) = .ok (v, noted 0 (at_ spot)) ∧ v.length = 64)
    ∧ (∀ i < lanes .i32, (laneAddr .i32 false spot (List.replicate 64 0) i) = spot)
    ∧ NearOpen (noted 0 (at_ spot)) spot 4 ∧ partPoison (noted 0 (at_ spot)) spot.toNat 4 = false
    ∧ (noted 0 (at_ spot)).core.ctx.pendingWrite ((noted 0 (at_ spot)).core.ctx.vOff 3) 64 = false :=
  ⟨rfl, rfl, rfl, rfl, rfl, ⟨_, rfl, rfl⟩, rfl, ⟨_, rfl, rfl⟩, by decide, ⟨by decide, by decide, by decide, by decide, by decide⟩, by decide, by decide⟩

/-- x1 = far address, index lanes of v1 all 0. -/
def fars : State := noted 0 (at_ farSpot farBase)
/-- Every lane has a far place. -/
def farAll (pls : List (Option Place)) : Bool := pls.all fun p => match p with | some (.far _ pas) => pas.length == 8 | _ => false
theorem witness_FarGatherScatter :
    isOk (checkDirs [.reg 1, .reg 1] [.reg 3] [true] fars) (fun _ _ => true) = true ∧ isOk (readP 0 fars) (fun v _ => v == BitVec.allOnes 64) = true
    ∧ isOk (readVec (.reg 1) fars) (fun v t => v == zeros64 && isOk (readOpd (.reg 1) t) (fun b u => b == farSpot
        && isOk (lanePlaces .i64 false farSpot needR false ((activeLanes (BitVec.allOnes 64) 8).zip (lanesOf 4 zeros64)) u) (fun pls w => farAll pls
          && isOk (mapM' (fun q => match q with | some pl => (do let bs ← readPlace pl; pure (leNat bs)) | none => pure 0) pls w)
            (fun vs k => vs.length == 8 && k.core.ctx.ld != 63 && !k.core.ctx.pendingWrite (k.core.ctx.vOff 3) 64)))) = true
    ∧ (activeLanes (BitVec.allOnes 64) 8).all id = true ∧ lanes .i64 = 8
    ∧ isOk (checkDirs [.reg 1, .reg 1, .reg 2] [] [true, false, true] fars) (fun _ _ => true) = true
    ∧ isOk (readVec (.reg 2) fars) (fun v t => v == zeros64
        && isOk (lanePlaces .i64 false farSpot needW true ((activeLanes (BitVec.allOnes 64) 8).zip (lanesOf 4 zeros64)) t) (fun pls w => farAll pls
          && w.core.ctx.st != 63)) = true := by
  decide +kernel

/-- Near, far, far without a page, and far with LD at 63. -/
theorem witness_Prefetch :
    Addressed m8 [] [] false (begun (at_ spot)) spot 0 (begun (at_ spot)) ∧ isFar spot.toNat = false
    ∧ Addressed m8 [] [] false (begun (at_ farSpot farBase)) farSpot 0 (begun (at_ farSpot farBase)) ∧ isFar farSpot.toNat = true
    ∧ isOk (prefetchWork farSpot.toNat 8 false (noted 0 (begun (at_ farSpot farBase)))) (fun _ t => t.core.ctx.ld != 63) = true
    ∧ (∃ e, prefetchWork farSpot.toNat 8 false (noted 0 (begun (at_ farSpot))) = .error e)
    ∧ Addressed m8 [] [] false (begun ((at_ farSpot farBase).mapCtx fun c => { c with ld := 63 })) farSpot 0
        (begun ((at_ farSpot farBase).mapCtx fun c => { c with ld := 63 })) :=
  ⟨⟨rfl, room0, rfl⟩, rfl, ⟨rfl, room0, rfl⟩, rfl, by decide, ⟨_, rfl⟩, ⟨rfl, room0, rfl⟩⟩

/-- The length 0, one byte, 2^36 and one more, with 0 or 16 entries in the table; sync words near, near and odd, far. -/
def bound16 : State := (withX [(1, spot), (2, farSpot), (3, 1)] base).mapCtx fun c => { c with binds := List.replicate 16 { sync := spot, base := farSpot, len := 64 } }
theorem witness_Bindings :
    ([(spot, (0 : Word)), (spot, 1), (spot, 0x1000000000), (spot, 0x1000000001), (spot + 4, 1), (farSpot, 1)].all fun p =>
      let s := noted 0 (noted 0 (begun (withX [(1, p.1), (2, farSpot), (3, p.2)] base)))
      isOk (checkDirs [.reg 1, .reg 2, .reg 3] [.reg 4] [] s) (fun _ _ => true)
        && isOk (readOpds [.reg 1, .reg 2, .reg 3] s) (fun r t => r == [p.1, farSpot, p.2] && t.core.ctx.binds.isEmpty
          && isOk (writeOpd (.reg 4) 1 t) (fun _ _ => true))) = true
    ∧ isNear spot.toNat = true ∧ spot.toNat % 8 = 0 ∧ (spot + 4).toNat % 8 ≠ 0 ∧ isNear farSpot.toNat = false
    ∧ (0x1000000000 : Word).toNat ≤ 2 ^ 36 ∧ 2 ^ 36 < (0x1000000001 : Word).toNat
    ∧ (∃ s1, Takes [.reg 1, .reg 2, .reg 3] [.reg 4] (noted 0 (noted 0 (begun bound16))) [spot, farSpot, 1] s1 ∧ 16 ≤ s1.core.ctx.binds.length) :=
  ⟨by decide, by decide, by decide, by decide, by decide, by decide, by decide, ⟨_, ⟨rfl, room rfl, rfl⟩, by decide⟩⟩

theorem witness_Fences : ∃ t, releaseDrain .die (begun demo) = .ok ((), t) := ⟨_, rfl⟩

/-- A tile task of a course whose span is TILE, before and after it arrived at barrier 0. -/
def atBarrier (arrived : List (Scope × Fin 4 × Bool)) (gen : Bool) : State :=
  let s := inCourse demo
  ({ s with devs := s.devs.map fun d => { d with
      courses := d.courses.map fun k => { k with span := .tile }
      barriers := [{ course := 1, vd := 0, scope := .tile, group := groupOf .tile 0, idx := 0, gen := gen, expect := 2 }] } } : State).mapCtx
    fun c => { c with arrived := arrived }
theorem witness_Barriers :
    (markIsTile (demo.mapCtx fun c => { c with mark := 2 ^ 33 }).core.ctx.mark = false)
    ∧ (∃ d co, let s := inCourse demo; markIsTile s.core.ctx.mark = true ∧ s.core.ctx.svc = false ∧ s.dev = some d
        ∧ s.courseOf d.num (markCourse s.core.ctx.mark) = some co ∧ co.span = .core)
    ∧ (∃ d co s1, let s := atBarrier [] false; markIsTile s.core.ctx.mark = true ∧ s.core.ctx.svc = false ∧ s.dev = some d
        ∧ s.courseOf d.num (markCourse s.core.ctx.mark) = some co ∧ co.span = .tile ∧ s.core.ctx.arrived = []
        ∧ releaseAt .tile (noted 0 (begun s)) = .ok ((), s1))
    ∧ (∃ d co, let s := atBarrier [(.tile, 0, false)] false; s.dev = some d ∧ s.courseOf d.num (markCourse s.core.ctx.mark) = some co
        ∧ (s.core.ctx.arrived.find? fun a => a.1 == .tile && a.2.1 == 0) = some (.tile, 0, false)
        ∧ (d.barrierAt co .tile s.core.id 0).gen = false)
    ∧ (∃ d co, let s := atBarrier [(.tile, 0, false)] true; s.dev = some d ∧ s.courseOf d.num (markCourse s.core.ctx.mark) = some co
        ∧ (s.core.ctx.arrived.find? fun a => a.1 == .tile && a.2.1 == 0) = some (.tile, 0, false)
        ∧ (d.barrierAt co .tile s.core.id 0).gen = true) :=
  ⟨by decide, ⟨_, _, rfl, rfl, rfl, rfl, rfl⟩, ⟨_, _, _, rfl, rfl, rfl, rfl, rfl, rfl, rfl⟩, ⟨_, _, rfl, rfl, rfl, rfl⟩, ⟨_, _, rfl, rfl, rfl, rfl⟩⟩

/-! Witnesses: tasks, messages, streams, control registers. -/

def someRec : TaskRec := { kind := .fork, prio := 9, entry := 0x800000000, mark := 2 ^ 33, arg0 := 0, arg1 := 0 }
/-- A deque of n records and a run queue of m. -/
def queues (n m : Nat) : State :=
  let s := atBarrier [] false
  { s with core := { s.core with deque := List.replicate n someRec, runq := List.replicate m someRec } }
/-- The deque one below full and full, the run queue one below full and full. -/
theorem witness_ForkPlaces :
    (∃ s1 s2, Takes [.reg 1, .reg 2, .reg 0] [.reg 3] (noted 0 (begun (queues 63 0))) [5, 7, 0] s1
      ∧ releaseAt s1.spanOfTask (noted 0 s1) = .ok ((), s2) ∧ (∃ s4, writeOpd (.reg 3) 0 s2 = .ok ((), s4)))
    ∧ (∃ s1 s2, Takes [.reg 1, .reg 2] [.reg 3] (noted 0 (begun (queues 64 4159))) [5, 7] s1 ∧ releaseAt s1.spanOfTask (noted 0 s1) = .ok ((), s2)
      ∧ s2.core.deque = List.replicate 64 someRec ∧ s2.core.runq = List.replicate 4159 someRec)
    ∧ (∃ s1 s2, Takes [.reg 1, .reg 2] [.reg 3] (noted 0 (begun (queues 64 4160))) [5, 7] s1 ∧ releaseAt s1.spanOfTask (noted 0 s1) = .ok ((), s2)
      ∧ s2.core.deque = List.replicate 64 someRec ∧ s2.core.runq = List.replicate 4160 someRec)
    ∧ (∀ n, (List.replicate n someRec).length = n) :=
  ⟨⟨_, _, ⟨rfl, room rfl, rfl⟩, rfl, _, rfl⟩, ⟨_, _, ⟨rfl, room rfl, rfl⟩, rfl, rfl, rfl⟩, ⟨_, _, ⟨rfl, room rfl, rfl⟩, rfl, rfl, rfl⟩, fun _ => List.length_replicate⟩

/-- A counter of 0, of 1 and of 2 at `spot`. -/
def counter (v : Word) : State := let s := at_ spot; { s with near := memWrite s.near 0x800008000 (wordBytes v) }
theorem witness_JoinCounts :
    ([(0 : Word), 1, 2].all fun v =>
      isOk (checkDirs [.reg 1, .reg 0] [.reg 3] [] (begun (counter v))) (fun _ _ => true)
      && isOk (readOpds [.reg 1, .reg 0] (begun (counter v))) (fun r t => r == [spot, 0] && nearPlain t spot.toNat
        && isOk (releaseAt .core (noted 0 t)) (fun _ u => bytesWord (u.nearRead spot.toNat 8) == v && isNear spot.toNat && nearOk u spot.toNat
          && !poisoned u spot.toNat 8 && !touchesWindow u spot.toNat && !partPoison u spot.toNat 8
          && isOk (writeOpd (.reg 3) v u) (fun _ _ => true)))) = true
    ∧ effective m8 8 spot 0 = spot ∧ spot.toNat % 8 = 0
    ∧ (base.coreOf (ownerCore 0x800008000)).runq.length + (base.coreOf (ownerCore 0x800008000)).signalsDue < 64 + 4096
    ∧ recordPoison base 0x800008000 = [] := by
  decide +kernel

/-- The last place for a block in slot 0's open bytes is 0xDFFD8; here at `spot`, with counts 0 and 3. -/
theorem witness_ContinuationBlock :
    ([(0 : Word), 3].all fun cnt =>
      let s := noted 0 (begun (withX [(1, spot), (2, cnt), (3, 8), (4, 9)] base))
      isOk (checkDirs [.reg 1, .reg 2, .reg 3] [] [] s) (fun _ _ => true)
      && isOk (readOpds [.reg 1, .reg 2, .reg 3, .reg 4] s) (fun r t => r == [spot, cnt, 8, 9] && nearPlain t spot.toNat
        && nearPlain t (nearWrap spot.toNat 39) && t.poison.isEmpty && !ownPending t spot.toNat 40
        && isOk (releaseAt (narrowest 0 (ownerCore spot.toNat)) (stored (spot + 32) (wordBytes 9) t)) (fun _ u => u.poison.isEmpty))) = true := by
  decide +kernel

/-- Core 31 of the tile, the keystone's number, a core of another tile. -/
theorem witness_SendsMessages :
    ([(31 : Word), 32, 64].all fun x =>
      let s := noted 0 (begun (withX [(1, x), (2, 9)] base))
      isOk (checkDirs [.reg 1, .reg 2] [] [] s) (fun _ _ => true) && isOk (readOpds [.reg 1, .reg 2] s) (fun r t => r == [x, 9]
        && isOk (releaseAt .tile (noted 0 (noted 0 t))) (fun _ u => !logFull u u.vdNum (BitVec.ofNat 15 x.toNat))
        && !logFull t t.vdNum (BitVec.ofNat 15 x.toNat)
        && (t.inPartition (coreTile (BitVec.ofNat 15 x.toNat)) && decide (x.toNat % 64 < 32)) == (x == 31))) = true := by
  decide +kernel

def tagged (g : Tag) : State := { demo with core := { demo.core with tags := demo.core.tags.set 3 g } }
/-- A message to core 0 of a paused device whose log of that core is full. -/
def fullLog : State :=
  let m : Msg := { src := 0, dst := 0, vd := 0, course := 0, body := .tag 3 0 }
  let s := noted 0 (begun (withX [(1, 0), (2, 9)] base))
  { s with devs := s.devs.map fun d => { d with state := .paused, saves := [{ core := { id := 0 }, locks := [], log := List.replicate 1024 m }] } }
theorem witness_SendsMessages_full : isOk (checkDirs [.reg 1, .reg 2] [] [] fullLog) (fun _ _ => true)
    && isOk (readOpds [.reg 1, .reg 2] fullLog) (fun r t => r == [0, 9]
      && isOk (releaseAt .tile (noted 0 (noted 0 t))) (fun _ u => logFull u u.vdNum 0 && u.inPartition 0)) = true := by
  decide +kernel

theorem witness_TagControl :
    (∃ s1, Takes [.reg 1] [.reg 3] (begun demo) [5] s1) ∧ checkDirs [] [.reg 3] [] (begun demo) = .ok ((), begun demo)
    ∧ dstEnd false (.reg 3) (begun demo) = .ok ((), begun demo) ∧ demo.core.tags[(3 : Fin 64)].handler = 0 ∧ demo.core.tags[(3 : Fin 64)].en = false
    ∧ (tagged { handler := 0x800000000, en := true }).core.tags[(3 : Fin 64)].handler ≠ 0
    ∧ (tagged { handler := 0x800000000, en := true }).core.tags[(3 : Fin 64)].en = true
    ∧ (∃ s2, writeOpd (.reg 3) 0 (begun demo) = .ok ((), s2)) := by
  refine ⟨⟨_, rfl, room rfl, rfl⟩, rfl, rfl, by decide, by decide, by decide, by decide, ⟨_, rfl⟩⟩

theorem witness_EnablingTags :
    (tagged {}).core.tags[(3 : Fin 64)].signal = false
    ∧ (tagged { signal := true }).core.tags[(3 : Fin 64)].signal = true ∧ (tagged { signal := true }).core.runq.length < 64 + 4096
    ∧ (let s := tagged { signal := true }
       ({ s with core := { s.core with runq := List.replicate 4160 someRec } } : State).core.runq.length = 64 + 4096) :=
  ⟨by decide, by decide, by decide, List.length_replicate⟩

def gathering : State := (inStream [] 0 2).mapCtx fun c => { c with ld := 1, gathers := [{ idx := [0], base := spot, size := 4, count := 1, dst := some 2 }] }
theorem witness_StreamUnbinding :
    ((outStream 1).core.ctx.streams[(2 : Fin 8)].bound = true ∧ (outStream 1).core.ctx.streams[(2 : Fin 8)].out = true
      ∧ (outStream 1).core.ctx.streams[(2 : Fin 8)].buf ≠ [])
    ∧ (∃ u, unbind 2 (ignoring 0 (inStream [] 0 2)) = .ok ((), u)) ∧ (inStream [] 0 2).core.ctx.gathers = []
    ∧ (∃ g ∈ gathering.core.ctx.gathers, g.dst = some 2) :=
  ⟨by decide, ⟨_, rfl⟩, rfl, ⟨_, List.mem_singleton.mpr rfl, rfl⟩⟩

/-- A descriptor at `spot`: D dimensions of 4-byte elements, each with the count and a stride of 4. -/
def described (dims cnt : Nat) : State :=
  let s := withX [(1, spot), (2, 0x800009000)] base
  { s with near := memWrite s.near 0x800008000 (leBytes 8 (dims + 16 * 2) ++ (List.replicate dims (leBytes 8 cnt ++ leBytes 8 4)).flatten) }
/-- 0, 1, 10 and 11 dimensions, and a count of 0. -/
theorem witness_StreamBinding :
    ([(0, 1), (1, 3), (10, 1), (11, 1), (1, 0)].all fun p =>
      let s := ignoring 0 (described p.1 p.2)
      isOk (checkDirs [.reg 1, .reg 2] [] [] s) (fun _ _ => true) && isOk (readOpds [.reg 1, .reg 2] s) (fun r t => r == [spot, 0x800009000]
        && descDims t spot == p.1 && descSize t spot == 4 && descCounts t spot p.1 == List.replicate p.1 p.2
        && ((List.range p.1).all fun k => let a := (spot + BitVec.ofNat 64 (8 + 16 * k)).toNat; isNear a && nearSpanOk t a 16 && !poisoned t a 16 && !touchesWindow t a)
        && isNear spot.toNat && nearSpanOk t spot.toNat 8 && !poisoned t spot.toNat 8 && !ownPending t spot.toNat (8 + 16 * p.1)
        && isOk (unbind 0 (noted 0 t)) (fun _ _ => true))) = true := by
  decide +kernel
def feeding (xid : Nat) : State :=
  demo.updTile 0 fun t => { t with jobs := [{ seq := 0, vd := 0, poster := some 0, mark := 0, card := leBytes 8 (7 + xid * 2 ^ 32), descs := [], reads := [], writes := [] }] }
theorem witness_StreamBinding_kinds :
    (∃ s1 s2, Takes [.reg 1] [] (ignoring 0 demo) [5] s1 ∧ unbind 0 (noted 0 s1) = .ok ((), s2) ∧ (s2.tileOf 0).jobs.find? (feeds s2 5) = none)
    ∧ (∃ s1 s2 j, Takes [.reg 1] [] (ignoring 0 (feeding 5)) [5] s1 ∧ unbind 0 (noted 0 s1) = .ok ((), s2)
      ∧ (s2.tileOf (coreTile s2.core.id)).jobs.find? (feeds s2 5) = some j)
    ∧ (let t : Stream := { counts := [2, 3], strides := [4, -16] }; t.counts.length = t.strides.length ∧ 0 ∉ t.counts) :=
  ⟨⟨_, _, ⟨rfl, room0, rfl⟩, rfl, rfl⟩, ⟨_, _, _, ⟨rfl, room0, rfl⟩, rfl, rfl⟩, by decide⟩

theorem witness_StreamStatus :
    checkDirs [] [.reg 3] [] (ignoring 0 (inStream [[1, 0, 0, 0]] 1 2)) = .ok ((), ignoring 0 (inStream [[1, 0, 0, 0]] 1 2))
    ∧ demo.core.ctx.streams[(2 : Fin 8)].bound = false
    ∧ (let t := (inStream [[1, 0, 0, 0]] 1 2).core.ctx.streams[(2 : Fin 8)]; t.bound = true ∧ 2 ^ 2 ≤ t.esz ∧ t.esz < 2 ^ 3 ∧ t.buf.length ≤ 256)
    ∧ (∀ q : Fin 8, ((inStream [[1, 0, 0, 0]] 1 2).core.arrq[q]).length ≤ 64) :=
  ⟨rfl, by decide, by decide, by decide⟩

/-- Sizes 0, 1, 8 and 9 for a stream, 0, 1, 4096 and 4097 for a buffer, counts 0 and 2; the size of 0 and the largest. -/
theorem witness_IndexedGathers :
    ([(0, 2), (1, 2), (8, 0), (8, 2), (9, 2), (4096, 2), (4096, 0), (4097, 2)].all fun p =>
      let x : Word := BitVec.ofNat 64 (p.2 + p.1 * 2 ^ 32)
      let s := ignoring 0 (withX [(1, spot), (2, spot), (3, x), (4, 0x800010000)] base)
      isOk (checkDirs [.reg 1, .reg 2, .reg 3] [] [] s) (fun _ _ => true)
      && isOk (readOpds [.reg 1, .reg 2, .reg 3] s) (fun r t => r == [spot, spot, x] && t.core.ctx.gathers.isEmpty && t.core.ctx.ld != 63
        && isNear spot.toNat && nearOk t spot.toNat && !poisoned t spot.toNat 8 && !touchesWindow t spot.toNat
        && isOk (unbind 0 t) (fun _ _ => true) && isOk (readX 4 t) (fun v _ => v == 0x800010000)
        && nearOk t 0x800010000 && isNear (0x800010000 + 4096 * 2 - 1) && nearOk t (0x800010000 + 4096 * 2 - 1))) = true
    ∧ spot.toNat % 4 = 0 ∧ 0x800010000 % 8 = 0 := by
  decide +kernel

/-- Values at the edges of each register's clause: what is refused, clamped and stored. -/
theorem witness_ControlRegisters :
    demo.core.ctx.svc = false ∧ checkDirs [] [.reg 3] [] (begun demo) = .ok ((), begun demo)
    ∧ (∃ s2, writeOpd (.reg 3) 0 (begun demo) = .ok ((), s2)) ∧ (∃ s1, Takes [.reg 1] [] (begun demo) [5] s1)
    ∧ (crwBad false 7 0x80000000 ∧ ¬ crwBad false 7 0x7FFF0000 ∧ crwBad false 25 2 ∧ ¬ crwBad false 25 1 ∧ crwBad true 21 0x2000000000000
      ∧ ¬ crwBad true 21 0x1000000000000 ∧ ¬ crwBad true 23 0xFFFFFFFFFFFF ∧ crwBad true 23 0x1000000000000)
    ∧ (crwStores false 18 119 = (some 119, 0) ∧ crwStores false 18 120 = (some 119, wCombo) ∧ crwStores false 21 0 = (none, wCombo)
      ∧ crwStores false 0 5 = (none, 0) ∧ crwStores false 25 1 = (some 1, 0) ∧ crwStores false 7 0x00400100 = (some 0x00400100, 0)
      ∧ crwStores false 7 0x00400000 = (some 0x00400100, wView))
    ∧ (begun demo).core.ctx.pendingWrite (viewBytesOf 7 0x00400100).1 (viewBytesOf 7 0x00400100).2 = false := by
  refine ⟨rfl, rfl, ⟨_, rfl⟩, ⟨_, rfl, room0, rfl⟩, ?_, ?_, ?_⟩
  · simp [crwBad]
  · decide
  · decide

theorem witness_StatusRegister : demo.core.ctx.svc = false ∧ checkDirs [] [.reg 3] [] (begun demo) = .ok ((), begun demo)
    ∧ (∃ s1, Takes [.reg 1] [] (begun demo) [5] s1) := ⟨rfl, rfl, ⟨_, rfl, room0, rfl⟩⟩

theorem witness_ServiceControlRegisters :
    serving.core.ctx.svc = true ∧ serving.core.ctx.under = some 0 ∧ windowSlots (serving.tileOf (coreTile serving.core.id)) = [] ∧ serving.poison = []
    ∧ checkDirs [] [.reg 3] [] (begun serving) = .ok ((), begun serving) ∧ dstEnd false (.reg 3) (begun serving) = .ok ((), begun serving) ∧ (∃ s2, writeOpd (.reg 3) 0 (begun serving) = .ok ((), s2))
    ∧ (∃ s1, Takes [.reg 1] [] (begun serving) [0] s1 ∧ s1.core.ctx.svc = true ∧ s1.core.ctx.under = some 0
      ∧ windowSlots (s1.tileOf (coreTile s1.core.id)) = [] ∧ s1.poison = [])
    ∧ ¬ crwBad false 3 0 ∧ crwStores false 3 0 = (some 0, 0) ∧ crwStores false 4 0 = (none, 0) := by
  refine ⟨rfl, rfl, by decide, rfl, rfl, rfl, ⟨_, rfl⟩, ⟨_, ⟨rfl, room0, rfl⟩, rfl, rfl, by decide, rfl⟩, ?_, by decide, by decide⟩
  simp [crwBad]
/-- A held context with a matrix operation on the tile view that the new VW.M would cover. -/
def heldMx : State :=
  let s := serving.updTile 0 fun t => { t with slots := t.slots.set 0 (.window 0) }
  let f := (s.focusOn 0).mapCtx fun c => { c with mx := 1, mxops := [.mma 0x3000 0 1 spot 0x800009000 .bf16 .bf16 0 64 64 []] }
  ({ f with core := { f.core with mode := .held 0 } } : State).focusOn 32
theorem witness_ServiceControlRegisters_held :
    (∃ s1, Takes [.reg 1] [] (begun heldMx) [0] s1 ∧ s1.core.ctx.svc = true ∧ s1.core.ctx.under = some 0
      ∧ (s1.tileOf (coreTile s1.core.id)).slots[(0 : Fin 64)] = .window 0 ∧ (s1.coreOf 0).id ≠ s1.core.id
      ∧ (∃ r ∈ [(s1.coreOf 0).ctx.vwA, 0x10003000], (s1.coreOf 0).ctx.pendingWrite (viewBytesOf 9 r).1 (viewBytesOf 9 r).2 = true))
    ∧ (crwStores false 9 0x10003000).1 = some 0x10003000 :=
  ⟨⟨_, ⟨rfl, room0, rfl⟩, rfl, rfl, by decide, by decide, ⟨_, .head _, by decide⟩⟩, by decide⟩
theorem witness_ServiceControlRegisters_accepted : ¬ crwBad false 9 0x10003000 := by simp [crwBad]

/-! Witnesses: vectors. -/

theorem takes_zero (d : Fin 32) (s : State) (h : s = demo) : VecTakes [.reg 1, .reg 2] [.reg d] 0 s (BitVec.allOnes 64) [zeros64, zeros64] s := by
  subst h; exact ⟨rfl, room rfl, rfl, rfl⟩

/-- Integer lanes of 8 bytes; each of the four shapes. -/
theorem witness_VectorLanes :
    VecTakes [.reg 1, .reg 2] [.reg 3] 0 demo (BitVec.allOnes 64) [zeros64, zeros64] demo
    ∧ (∃ s2, Mould .i64 (.reg 3) 2 (BitVec.allOnes 64) [zeros64, zeros64] (fun xs => ((lv .i64 (nth xs 0 0) + lv .i64 (nth xs 1 0)).toNat, 0)) demo s2)
    ∧ VecTakes [.reg 1] [.reg 3] 0 demo (BitVec.allOnes 64) [zeros64] demo
    ∧ (∃ s2, Mould .i64 (.reg 3) 1 (BitVec.allOnes 64) [zeros64] (fun xs => (nth xs 0 0, 0)) demo s2)
    ∧ VecTakes [.reg 1, .reg 2, .reg 1] [.reg 3] 0 demo (BitVec.allOnes 64) [zeros64, zeros64, zeros64] demo
    ∧ (∃ s2, Mould .i64 (.reg 3) 3 (BitVec.allOnes 64) [zeros64, zeros64, zeros64] (fun xs => (nth xs 2 0, 0)) demo s2)
    ∧ (checkDirs [.reg 1] [.reg 3] [] demo = .ok ((), demo) ∧ dstEnd true (.reg 3) demo = .ok ((), demo) ∧ readP 0 demo = .ok (BitVec.allOnes 64, demo) ∧ readOpd (.reg 1) demo = .ok (5, demo)
      ∧ ∃ s2, Mould .i64 (.reg 3) 1 (BitVec.allOnes 64) [((List.range (64 / 8)).map fun _ => leBytes 8 5).flatten] (fun xs => (nth xs 0 0, 0)) demo s2)
    ∧ elemIsScal .i64 = true ∧ elemIsScal .bfp = false :=
  ⟨takes_zero _ _ rfl, ok_unit (by decide +kernel), ⟨rfl, room rfl, rfl, rfl⟩, ok_unit (by decide +kernel), ⟨rfl, room rfl, rfl, rfl⟩, ok_unit (by decide +kernel),
   ⟨rfl, rfl, rfl, rfl, ok_unit (by decide +kernel)⟩, rfl, rfl⟩

/-- One lane of a byte, and 8 of 8 bytes. -/
theorem witness_LaneDestinations :
    demo.core.ctx.pendingWrite (demo.core.ctx.vOff 3) 64 = false
    ∧ ((1 : Nat) ∈ [1, 2, 4, 8] ∧ 1 * 1 ≤ 64 ∧ (∀ i < 1, (fun _ : Nat => 255) i < 2 ^ (8 * 1)))
    ∧ ((8 : Nat) ∈ [1, 2, 4, 8] ∧ 8 * 8 ≤ 64 ∧ (∀ i < 8, (fun i : Nat => i) i < 2 ^ (8 * 8))) := by decide

theorem witness_VectorCompare :
    comparable .lt .i64 = true ∧ comparable .unord .i64 = false ∧ VecTakes [.reg 1, .reg 2] [.reg 3] 0 demo (BitVec.allOnes 64) [zeros64, zeros64] demo
    ∧ (∃ s2, Mould .i64 (.reg 3) 2 (BitVec.allOnes 64) [zeros64, zeros64]
        (fun xs => let r := related .lt .i64 (nth xs 0 0) (nth xs 1 0); (if r.1 then 2 ^ lw .i64 - 1 else 0, r.2)) demo s2)
    ∧ VecTakes [.reg 1, .reg 2] [] 0 demo (BitVec.allOnes 64) [zeros64, zeros64] demo ∧ (∃ old, readP 1 demo = .ok (old, demo))
    ∧ (∃ s2, writeP 1 0 (flagged 0 (noted 0 demo)) = .ok ((), s2)) :=
  ⟨rfl, rfl, takes_zero _ _ rfl, ok_unit (by decide +kernel), ⟨rfl, room0, rfl, rfl⟩, ⟨_, rfl⟩, ⟨_, rfl⟩⟩

theorem witness_VectorReductions :
    combines .sum .i64 = true ∧ combines .xor .fp32 = false ∧ VecTakes [.reg 1] [.reg 3] 0 (plainTarget demo) (BitVec.allOnes 64) [zeros64] (plainTarget demo)
    ∧ (∃ s2, writeVec (.reg 3) (leBytes 8 0 ++ zeroBytes 56) (flagged 0 (plainTarget demo)) = .ok ((), s2))
    ∧ (∃ s2, writeLanes (.reg 3) 8 ((List.range 8).map (BitVec.allOnes 64).getLsbD) ((List.range 8).map fun _ => 0) (flagged 0 (plainTarget demo)) = .ok ((), s2)) :=
  ⟨rfl, rfl, ⟨rfl, room rfl, rfl, rfl⟩, ok_unit (by decide +kernel), ok_unit (by decide +kernel)⟩

theorem witness_VectorSelection :
    VecTakes [.reg 1, .reg 2, .reg 1] [.reg 3] 0 (plainTarget demo) (BitVec.allOnes 64) [zeros64, zeros64, zeros64] (plainTarget demo)
    ∧ (∃ s2, PutsLanes .i64 (.reg 3) (BitVec.allOnes 64) 8 (fun _ => (0, 0)) (plainTarget demo) s2)
    ∧ elemIsScal .i8 = true ∧ (0 : Fin 4).val * (64 / elemSize .i8) < 64 ∧ elemIsScal .i64 = true ∧ (3 : Fin 4).val * (64 / elemSize .i64) < 64
    ∧ VecTakes [.reg 1] [.reg 3] 0 (plainTarget demo) (BitVec.allOnes 64) [zeros64] (plainTarget demo)
    ∧ elemIsFp .fp32 = true ∧ (∃ s2, writeVec (.reg 3) ((List.range 16).map fun _ => leBytes 4 0).flatten (flagged 0 (plainTarget demo)) = .ok ((), s2))
    ∧ (∃ s2, writeVec (.reg 3) (wordBytes 0xFFFF ++ zeroBytes 56) (plainTarget demo) = .ok ((), s2)) ∧ elemIsScal .bfp = false :=
  ⟨⟨rfl, room rfl, rfl, rfl⟩, ok_unit (by decide +kernel), rfl, by decide, rfl, by decide, ⟨rfl, room rfl, rfl, rfl⟩, rfl, ok_unit (by decide +kernel), ok_unit (by decide +kernel), rfl⟩

/-! Witnesses: conversions, matrices, grammars, jobs, weight-driven mode, service. -/

/-- Scalar to scalar, block to scalar, scalar to block, block to block; with and without bit 0 of the predicate. -/
theorem witness_VectorConversions :
    (cvtFrom .i32 demo.core.ctx = .i32 ∧ cvtTo .fp32 demo.core.ctx = .fp32 ∧ elemIsScal .i32 = true ∧ elemIsScal .fp32 = true)
    ∧ (elemIsBlock .bfp = true ∧ small .i16 = true ∧ small .i32 = false ∧ elemIsBlock .e4m3 = true)
    ∧ (¬ (elemIsScal .bfp = true ∧ elemIsScal .e4m3 = true) ∧ ¬ (elemIsBlock .bfp = true ∧ small .e4m3 = true) ∧ ¬ (small .bfp = true ∧ elemIsBlock .e4m3 = true))
    ∧ (let t := noted (cvtNotes demo.core.ctx) demo
       checkDirs [.reg 1] [.reg 3] [true] t = .ok ((), t) ∧ readP 0 t = .ok (BitVec.allOnes 64, t) ∧ readP 1 t = .ok (0, t)
       ∧ readVec (.reg 1) t = .ok (zeros64, t) ∧ dstEnd true (.reg 3) t = .ok ((), t))
    ∧ (BitVec.allOnes 64 : Word).getLsbD 0 = true ∧ (0 : Word).getLsbD 0 = false
    ∧ (∃ s2, PutsLanes .fp32 (.reg 3) (BitVec.allOnes 64) 16 (fun _ => (0, 0)) demo s2)
    ∧ (∃ s2, writeVec (.reg 3) (((List.range 32).map fun _ => leBytes 2 0).flatten ++ zeroBytes 0) (flagged 0 demo) = .ok ((), s2))
    ∧ (∃ s2, writeVec (.reg 3) (BitVec.ofNat 8 0 :: leBytes 32 0 ++ zeroBytes 31) (flagged 0 demo) = .ok ((), s2)) :=
  ⟨⟨rfl, rfl, rfl, rfl⟩, ⟨rfl, rfl, rfl, rfl⟩, by decide, ⟨rfl, rfl, rfl, rfl, rfl⟩, rfl, rfl, ok_unit (by decide +kernel),
   ok_unit (by decide +kernel), ok_unit (by decide +kernel)⟩

theorem of_isOk {α : Type} {r : Except Stop (α × State)} {s : State} (h : isOk r (fun _ t => t == s) = true) : ∃ a, r = .ok (a, s) := by
  unfold isOk at h
  split at h
  · exact ⟨_, by rw [eq_of_beq h]⟩
  · cases h

/-- A and B of one BF16 k-block at `spot` and 4 KiB above; KC 0, 1, 256 and 257; MXPROG 0 and 1. -/
def mmaState (ctl : Word) : State := withX [(1, spot), (2, 0x800009000), (3, ctl)] base
theorem witness_MatrixInstructions_mma :
    coreSlot (mmaState 1).core.id < 32 ∧ typeA .bf16 = true ∧ typeB .bf16 = true ∧ typeA .fp32 = false
    ∧ ([(0 : Word), 1, 256, 257].all fun v => isOk (checkDirs [.reg 1, .reg 2, .reg 3] [] [] (noted 0 (noted 0 (mmaState v)))) (fun _ _ => true)
        && isOk (readOpds [.reg 1, .reg 2, .reg 3] (noted 0 (noted 0 (mmaState v)))) (fun r t => r == [spot, 0x800009000, v] && t.core.ctx.mx != 63
          && t.core.ctx.loads.isEmpty)) = true
    ∧ (∃ r, mmaOperands .bf16 .bf16 0 spot 0x800009000 64 64 [] 0 (noted 0 (noted 0 (mmaState 1))) = .ok (r, noted 0 (noted 0 (mmaState 1))))
    ∧ (mmaState 1).core.ctx.mxops = [] ∧ (mmaState 1).core.ctx.mxprog = 0
    ∧ ((mmaState 1).mapCtx fun c => { c with mxprog := 1 }).core.ctx.mxprog.toNat % 2 ^ 9 = 1 :=
  ⟨by decide, rfl, rfl, rfl, by decide +kernel, of_isOk (by decide +kernel), rfl, rfl, rfl⟩

/-- Two k-blocks of BF16 whose second A row block meets the spill area. -/
def mmaCut : State := noted 0 (noted 0 (withX [(1, 0x8000DF800), (2, 0x800009000), (3, 2)] base))
theorem applied_one {ops : Nat → M (List (List FV) × List (List FV))} {acc steps kb : Nat} {s : State}
    (h : (match judged (ops kb) s with | .ok (_, ts, _) => ts.isEmpty | .error _ => false) = true) : ∃ t, applied ops acc steps kb 1 s t := by
  split at h
  · next heq => rw [List.isEmpty_iff.1 h] at heq; exact ⟨_, _, _, heq, rfl⟩
  · cases h
theorem trap_of {α : Type} {r : Except Stop (α × State)} (h : (match r with | .error (.trap _) => true | _ => false) = true) : ∃ t, r = .error (.trap t) := by
  split at h
  · exact ⟨_, rfl⟩
  · cases h
theorem witness_MatrixInstructions_fault :
    mmaCut.core.ctx.mxops = [] ∧ mmaCut.core.ctx.loads = []
    ∧ reached (mmaAccesses .bf16 .bf16 6 0x8000DF800 0x800009000 64 64 []) 0 1 mmaCut mmaCut
    ∧ (∃ t, mmaCheck (mmaAccesses .bf16 .bf16 6 0x8000DF800 0x800009000 64 64 [] 1) mmaCut = .error (.trap t))
    ∧ (∃ t, applied (mmaOperands .bf16 .bf16 6 0x8000DF800 0x800009000 64 64 []) (mmaCut.core.ctx.aOff 0) (bitSteps .bf16 6) 0 1 mmaCut t) :=
  ⟨rfl, rfl, ⟨_, (of_isOk (by decide +kernel)).choose_spec, rfl⟩, trap_of (by decide +kernel), applied_one (by decide +kernel)⟩
theorem witness_MatrixInstructions_poison :
    (let s : State := { at_ spot with poison := [0x800008000] }
     Addressed m8 [] [] false s spot 0 s ∧ nearSpanOk s spot.toNat 1056 = true ∧ ownPending s spot.toNat 1056 = false
       ∧ poisoned (readsDone s spot.toNat 1056) spot.toNat 1056 = true) :=
  ⟨⟨rfl, room0, rfl⟩, by decide, by decide, by decide +kernel⟩

theorem witness_MatrixInstructions_views :
    (let s := at_ spot
     Addressed m8 [] [] false s spot 0 s ∧ NearRead s spot 1056 s ∧ coreSlot s.core.id < 32 ∧ spot.toNat % 32 = 0 ∧ NearOpen s spot 4096 ∧ partPoison s spot.toNat 4096 = false
       ∧ s.core.ctx.pendingWrite (s.core.ctx.mOff 0) 1056 = false ∧ s.core.ctx.pendingWrite (s.core.ctx.aOff 0) 4096 = false
       ∧ s.core.ctx.pendingRead (s.core.ctx.aOff 0) 4096 = false ∧ s.core.ctx.mx ≠ 63)
    ∧ 32 ≤ coreSlot serving.core.id :=
  ⟨⟨⟨rfl, room0, rfl⟩, ⟨by decide, by decide, by decide, rfl, unpoisoned rfl _ _, by decide⟩, by decide, by decide, ⟨by decide, by decide, unpoisoned rfl _ _, by decide, by decide⟩, unpoisoned_part rfl _ _, by decide, by decide, by decide, by decide⟩, by decide⟩

theorem witness_GrammarInstructions :
    (∃ s1, Takes [.reg 1, .reg 2, .reg 3] [] (grammarAt 0 false (withX [(1, spot), (2, 0x800009000), (3, 5)] base)) [spot, 0x800009000, 5] s1
      ∧ s1.core.ctx.gr ≠ 63)
    ∧ (∃ s1, Takes [.reg 1, .reg 2, .reg 3] [] (grammarAt 0 true (withX [(1, spot), (2, 0x800009000), (3, 5)] base)) [spot, 0x800009000, 5] s1)
    ∧ spot.toNat % 8 = 0 ∧ (0x800009000 : Word).toNat % 8 = 0 ∧ isNear (0x800009000 : Word).toNat = true
    ∧ (let s := grammarAt 0 false (withX [(1, spot), (3, 5)] outDemo)
       dirCheck [.reg 1, .reg 3] [.str 0] s = .ok ((), s) ∧ endCheck [(.reg 1, false), (.reg 3, false)] s = .ok ((), s) ∧ readOpds [.reg 1, .reg 3] s = .ok ([spot, 5], s)
         ∧ s.core.ctx.gr ≠ 63) :=
  ⟨⟨_, ⟨rfl, room0, rfl⟩, by decide⟩, ⟨_, rfl, room0, rfl⟩, by decide, by decide, by decide, ⟨rfl, rfl, rfl, by decide⟩⟩

/-- A COPY card, an unknown type and a card whose completion record is no near address. -/
def carded (w : Nat) : State := let s := at_ spot; { s with near := memWrite s.near 0x800008000 (leBytes 8 w) }
theorem witness_PostingJobs :
    ([(1, 0), (8, 1), (1 + 2 ^ 16, 4)].all fun p =>
      let s := begun (carded p.1)
      isOk (checkDirs [.reg 1, .reg 0] [.reg 3] [] s) (fun _ _ => true) && isOk (readOpds [.reg 1, .reg 0] s) (fun r t => r == [spot, 0]
        && isOk (releaseAt .core (noted 0 t)) (fun _ u => isNear spot.toNat && nearOk u spot.toNat && !poisoned u spot.toNat 64 && !touchesWindow u spot.toNat
          && u.core.ctx.job != 63
          && isOk (precise 0 (readDescs spot (jobOf u (u.nearRead spot.toNat 64) [])) u) (fun ds w => decide ((w.tileOf 0).jobs.length < 64) && w.dev.isSome
            && cardCode w 0 (jobOf u (u.nearRead spot.toNat 64) ds) == p.2 && isOk (writeOpd (.reg 3) 0 w) (fun _ _ => true))))) = true
    ∧ spot.toNat % 64 = 0 := by
  decide +kernel

/-- Each code's hypothesis at a boundary: types 0 and 8, flag bit 5, DECREL 2, TGEN 128, both counters, GATHER without descriptors, a record that is
8 bytes off. -/
def cardOf (w0 : Nat) (b28 : Nat) (rec : Nat) : List Byte := leBytes 28 w0 ++ leBytes 4 b28 ++ leBytes 32 rec
theorem witness_CardCodes :
    (let s := demo; let j (c : List Byte) : Job := { jobOf s c [] with seq := 0 }
     cardCode s 0 (j (cardOf 0 0 0)) = 1 ∧ cardCode s 0 (j (cardOf 8 0 0)) = 1 ∧ cardCode s 0 (j (cardOf (1 + 32 * 2 ^ 16) 0 0)) = 2
       ∧ cardCode s 0 (j (cardOf 1 (2 * 2 ^ 16) 0)) = 2 ∧ cardCode s 0 (j (cardOf 1 (128 * 2 ^ 24) 0)) = 2
       ∧ cardCode s 0 (j (cardOf (1 + 12 * 2 ^ 16) 0 0)) = 3 ∧ cardCode s 0 (j (cardOf 2 0 0)) = 3 ∧ cardCode s 0 (j (cardOf 1 1 0)) = 3
       ∧ cardCode s 0 (j (cardOf (1 + 2 ^ 16) 0 0x800008008)) = 4 ∧ cardCode s 0 (j (cardOf (1 + 2 ^ 16) 0 0x800008010)) = 0) := by
  decide +kernel
/-- Two descriptors: of one dimension with equal and differing totals, of 11 dimensions, and two with no dimension. -/
def pair (a b : List Byte) : Nat :=
  cardCode demo 0 { jobOf demo (cardOf (1 + 2 ^ 20) 0 0) (a ++ b) with seq := 0 }
def pat1 (n : Nat) : List Byte := leBytes 8 (1 + 16 * 2) ++ leBytes 8 n ++ leBytes 8 4
theorem witness_CardCodes_patterns :
    pair (pat1 3) (pat1 3) = 0 ∧ pair (pat1 3) (pat1 4) = 5 ∧ pair (leBytes 8 11) (pat1 3) = 5 ∧ pair (pat1 3) (leBytes 8 11) = 5
      ∧ pair (leBytes 8 0) (leBytes 8 0) = 0 ∧ pair (leBytes 8 10 ++ zeroBytes 160) (leBytes 8 0) = 0 := by
  decide +kernel

/-- A done record, a record with no job, a job that runs and one that waits. -/
def recorded (w : Nat) (st : Option JobState) : State :=
  let s := at_ spot
  let card := leBytes 32 (1 + 2 ^ 16) ++ leBytes 32 0x800008000
  let s := { s with near := memWrite s.near 0x800008000 (leBytes 8 w) }
  match st with
  | none => s
  | some k => s.updTile 0 fun t => { t with jobs := [{ seq := 0, vd := 0, poster := some 0, mark := 0, card := card, descs := [], reads := [], writes := [], state := k }] }
theorem witness_JobStatus :
    ([(2 ^ 63, (none : Option JobState)), (0, none), (0, some .running), (0, some .waiting)].all fun p =>
      let s := begun (recorded p.1 p.2)
      isOk (checkDirs [.reg 1, .reg 0] [.reg 3] [] s) (fun _ _ => true) && isOk (readOpds [.reg 1, .reg 0] s) (fun r t => r == [spot, 0]
        && isNear spot.toNat && nearOk t spot.toNat && !poisoned t spot.toNat 8 && !touchesWindow t spot.toNat
        && leNat (t.nearRead spot.toNat 8) / 2 ^ 63 == p.1 / 2 ^ 63
        && ((t.tileOf 0).jobs.find? fun j => some j.vd == t.vd && (cardField j.card 2 2).testBit 0 && cardField j.card 32 8 == spot.toNat).isSome == p.2.isSome
        && isOk (writeOpd (.reg 3) 0 t) (fun _ _ => true))) = true ∧ spot.toNat % 16 = 0 := by
  decide +kernel

/-- An address source and a stream source; an activation type that is none, and a base that is not near. -/
theorem witness_EnteringMode :
    (let s := withX [(1, 0x1000000000), (2, spot), (3, 2048)] (inStream [] 0 2)
     coreSlot s.core.id < 32 ∧ stepping s = false ∧ (0x1000000000 : Word).toNat % 64 = 0 ∧ elemOfCode (7 : BitVec 4).toNat = none
       ∧ readX 1 s = .ok (0x1000000000, s) ∧ readX 3 s = .ok (2048, s) ∧ s.core.ctx.mx = 0 ∧ readX 2 s = .ok (spot, s) ∧ isNear spot.toNat = true
       ∧ spot.toNat % 8 = 0 ∧ (s.core.ctx.streams[(2 : Fin 8)]).bound = true ∧ (s.core.ctx.streams[(2 : Fin 8)]).out = false
       ∧ ¬ (isNear (0x1000000000 : Word).toNat = true) ∧ (∃ s2, writeX 4 0x8000000000000002 (noted wCombo (ignoring 0 s)) = .ok ((), s2)))
    ∧ elemOfCode 7 = none ∧ (∃ t, elemOfCode (13 : BitVec 4).toNat = some t ∧ typeA t = true) ∧ ¬ ((13 : BitVec 4) = 13 ∧ (6 : BitVec 3) = 7) :=
  ⟨⟨by decide, by decide, by decide, rfl, rfl, rfl, rfl, rfl, by decide, by decide, by decide, by decide, by decide, ⟨_, rfl⟩⟩, rfl, ⟨_, rfl, rfl⟩, by decide⟩

/-- The image under service in and out of the mode. -/
def servingWd : State := { serving with near := memWrite serving.near 0x802008000 (leBytes 8 (2 ^ 33)) }
theorem witness_LeavingMode :
    readX 1 (ignoring 0 demo) = .ok (5, ignoring 0 demo) ∧ demo.core.ctx.svc = false
    ∧ isOk (readX 1 (ignoring 0 serving)) (fun _ t => t == ignoring 0 serving) = true
    ∧ serving.core.ctx.svc = true ∧ serving.core.ctx.under = some 0 ∧ windowSlots (serving.tileOf (coreTile serving.core.id)) = [] ∧ serving.poison = []
    ∧ memWf serving.near = true ∧ stepping serving = false ∧ slotAddr (coreTile serving.core.id) 0 = 0x802000000
    ∧ leNat (memRead serving.near (0x802000000 + 0x8000) 8) / 2 ^ 33 % 2 = 0 ∧ memWf servingWd.near = true
    ∧ leNat (memRead servingWd.near (0x802000000 + 0x8000) 8) / 2 ^ 33 % 2 = 1 :=
  ⟨rfl, rfl, by decide +kernel, rfl, rfl, by decide, rfl, by decide, by decide, by decide, by decide, by decide +kernel, by decide +kernel⟩

theorem witness_TlbInvalidation : ∃ s1 s2 d, serving.core.ctx.svc = true ∧ Takes [.reg 0] [] (ignoring 0 serving) [0] s1
    ∧ releaseDrain .pkg s1 = .ok ((), s2) ∧ s2.dev = some d ∧ stepping s2 = false :=
  ⟨_, _, _, rfl, ⟨rfl, room0, rfl⟩, rfl, rfl, rfl⟩

/-- The parking place at `spot`, slot 0 full; with its context under service and without one. -/
def parking (u : Option (Fin 64)) : State :=
  withX [(1, spot), (2, 0x802000000)] (serving.mapCtx fun c => { c with under := u })
def fullSlots (s : State) : State := s.updTile 0 fun t => { t with slots := Vector.replicate 64 (.image 0) }
theorem witness_ParkedContexts :
    (let s := parking (some 0)
     s.core.ctx.svc = true ∧ checkDirs [.reg 1, .reg 0, .reg 2] [] [] (begun s) = .ok ((), begun s) ∧ readOpds [.reg 1, .reg 0] (begun s) = .ok ([spot, 0], begun s)
       ∧ readOpd (.reg 2) (begun s) = .ok (0x802000000, begun s) ∧ effective m8 8 spot 0 = spot ∧ spot.toNat % 64 = 0 ∧ isNear spot.toNat = true
       ∧ ((List.range 704).all fun i => nearPlain (begun s) (nearWrap spot.toNat (64 * i))) = true ∧ (begun s).poison = []
       ∧ windowSlots ((begun s).tileOf (coreTile (begun s).core.id)) = [] ∧ (0x802000000 : Word).toNat = slotAddr (coreTile (begun s).core.id) 0
       ∧ ((begun s).tileOf (coreTile (begun s).core.id)).slots[(0 : Fin 64)] = .image 0 ∧ (begun s).vd = some 0
       ∧ leNat ((begun s).nearRead ((0x802000000 : Word).toNat + 0x80F8) 8) / 2 ^ 12 % 2 ^ 6 = 0
       ∧ ownPending (begun s) (0x802000000 : Word).toNat 0xB000 = false ∧ ownPending (begun s) spot.toNat 0xB000 = false)
    ∧ (let s := parking none
       Addressed m8 [] [.reg 3] false (begun s) spot 0 (begun s) ∧ freeSlot ((begun s).tileOf (coreTile (begun s).core.id)) = some 1 ∧ (begun s).vd = some 0
         ∧ (begun s).core.ctx.under = none ∧ (parking (some 0)).core.ctx.under ≠ none)
    ∧ (let s := fullSlots (parking none)
       Addressed m8 [] [.reg 3] false (begun s) spot 0 (begun s) ∧ freeSlot ((begun s).tileOf (coreTile (begun s).core.id)) = none
         ∧ (∃ s2, writeOpd (.reg 3) 0x8000000000000001 (noted 0 (begun s)) = .ok ((), s2))) :=
  ⟨⟨rfl, rfl, rfl, rfl, by decide, by decide, by decide, by decide +kernel, rfl, by decide, by decide, by decide, rfl, by decide +kernel, by decide, by decide⟩,
   ⟨⟨rfl, room rfl, rfl⟩, by decide, rfl, rfl, by decide⟩, ⟨⟨rfl, room rfl, rfl⟩, by decide +kernel, ⟨_, rfl⟩⟩⟩

/-! Witnesses: the task machinery and the units behind issue. -/

def ready : TaskRec := { someRec with kind := .handler, sscope := 2 }
def waitingRec : TaskRec := { ready with wait := true }
theorem witness_TaskSelection :
    (let s := withCore { id := 1, runq := [waitingRec, ready] }
     (s.coreOf 1).mode = .idle ∧ s.liveOn 1 = true ∧ bestOf (candidates (s.coreOf 1)) = some (.run 1) ∧ (s.coreOf 1).runq[1]? = some ready
       ∧ (s.coreOf 1).runq[0]? = some waitingRec ∧ waitingRec.wait = true)
    ∧ (let s := withCore { id := 1, deque := [ready] }; bestOf (candidates (s.coreOf 1)) = some .deque ∧ (s.coreOf 1).deque = ready :: [])
    ∧ (let s := withCore { id := 1, back := [{ prio := 5 }] }; bestOf (candidates (s.coreOf 1)) = some (.back 0) ∧ (s.coreOf 1).back[0]? = some { prio := 5 })
    ∧ (let s := withCore { id := 32, svcq := [{ prio := 124 }] }
       bestOf (candidates (s.coreOf 32)) = some (.svc 0) ∧ (s.coreOf 32).svcq[0]? = some { prio := 124 } ∧ s.liveOn 32 = true) := by
  decide +kernel

theorem witness_Steals : let s := withCore { id := 1, deque := [someRec, ready, someRec] }
    OneEach s ∧ (s.coreOf 2).mode = .idle ∧ s.liveOn 2 = true ∧ coreSlot 2 < 32 ∧ candidates (s.coreOf 2) = [] ∧ (1 : CoreId) ≠ 2
    ∧ s.vdOf 1 = s.vdOf 2 ∧ (s.coreOf 1).deque = [someRec] ++ ready :: [someRec] ∧ stealable 1 2 ready = true
    ∧ (∀ q ∈ [someRec], stealable 1 2 q = false) ∧ ¬ TakesLast s 1 := by
  simp only [OneEach, TakesLast]; decide +kernel
theorem witness_Steals_last : let s := withCore { id := 1, deque := [ready] }
    OneEach s ∧ TakesLast s 1 := by
  simp only [OneEach, TakesLast]; decide +kernel

def mail (b : MsgBody) (s : State := base) : State := { s with mortar := [{ src := 0, dst := 1, vd := 0, body := b }] }
def withState (st : VdState) (s : State) : State := { s with devs := s.devs.map fun d => { d with state := st, saves := [{ core := { id := 1 }, locks := [] }] } }
theorem witness_MessagesArrive :
    ([MsgBody.tag 3 7, .bounce 7, .queue 2 7, .tileTask someRec].all fun b =>
      let s := mail b
      match s.mortar[0]?, s.devOf 0 with
      | some m, some d => inOrder s.mortar 0 m && d.state == .running && m.body == b && decide ((s.coreOf m.dst).runq.length + ((s.coreOf m.dst).tags.toList.filter fun g => g.en && g.signal).length < 64 + 4096)
          && decide (((s.coreOf m.dst).arrq[(2 : Fin 8)]).length < 16)
      | _, _ => false) = true
    ∧ (let s := mail (.queue 2 7) (withCore { id := 1, arrq := (Vector.replicate 8 []).set 2 (List.replicate 16 0) })
       16 ≤ ((s.coreOf 1).arrq[(2 : Fin 8)]).length)
    ∧ (∃ m d r, let s := mail (.tag 3 7) (withState .paused base)
       s.mortar[0]? = some m ∧ inOrder s.mortar 0 m = true ∧ s.devOf m.vd = some d ∧ d.state = .paused
         ∧ (d.saves.find? fun k => k.core.id == m.dst) = some r ∧ r.log.length < 1024 ∧ m.body.isTask = false)
    ∧ (∃ m, let s := { mail (.tag 3 7) with devs := [] }; s.mortar[0]? = some m ∧ inOrder s.mortar 0 m = true ∧ s.devOf m.vd = none ∧ m.body = .tag 3 7)
    ∧ (∀ n, (List.replicate n someRec).length = n) :=
  ⟨by decide +kernel, by decide +kernel, ⟨_, _, _, rfl, rfl, rfl, rfl, rfl, by decide, rfl⟩, ⟨_, rfl, rfl, rfl, rfl⟩, fun _ => List.length_replicate⟩

/-- Barrier counts of 1 and 2 of 2; a course whose last tile task has ended, and one that has a task left. -/
def withBarrier (n : Nat) : State :=
  { base with devs := base.devs.map fun d => { d with barriers := [{ course := 1, vd := 0, scope := .tile, group := 0, idx := 0, count := n, expect := 2 }] } }
def withCourse (n : Nat) : State :=
  { base with devs := base.devs.map fun d => { d with courses := [{ num := 1, vd := 0, dims := (1, 1, 1), bitmap := 0, ptab := 0, place := [0], undone := n, span := .core }] } }
theorem witness_SignalsBarriersCourses :
    (let s := tagged { en := true, signal := true }
     s.vdOf 0 = some 0 ∧ s.liveOn 0 = true ∧ (s.coreOf 0).tags[(3 : Fin 64)].en = true ∧ (s.coreOf 0).tags[(3 : Fin 64)].signal = true
       ∧ (s.coreOf 0).runq.length < 64 + 4096)
    ∧ (∃ b, (withBarrier 2).barriers[0]? = some b ∧ 0 < b.expect ∧ b.expect ≤ b.count)
    ∧ (∃ b, (withBarrier 1).barriers[0]? = some b ∧ b.count < b.expect)
    ∧ (∃ c d, (withCourse 0).courses[0]? = some c ∧ (withCourse 0).devOf c.vd = some d ∧ d.state = .running ∧ courseBusy (withCourse 0) d c = false)
    ∧ (∃ c d, (withCourse 1).courses[0]? = some c ∧ (withCourse 1).devOf c.vd = some d ∧ courseBusy (withCourse 1) d c = true) :=
  ⟨by decide +kernel, ⟨_, rfl, by decide, by decide⟩, ⟨_, rfl, by decide⟩, ⟨_, _, rfl, rfl, rfl, by decide +kernel⟩, ⟨_, _, rfl, rfl, by decide +kernel⟩⟩

theorem of_judged {α : Type} {m : M α} {s : State}
    (h : (match judged m s with | .ok (_, ts, t) => ts.isEmpty && t == s | .error _ => false) = true) : ∃ r, judged m s = .ok (r, [], s) := by
  split at h
  · next r ts t heq =>
    rw [Bool.and_eq_true] at h
    rw [List.isEmpty_iff.1 h.1, eq_of_beq h.2] at heq
    exact ⟨r, heq⟩
  · cases h
theorem trap_judged {α : Type} {m : M α} {s : State} (h : (match judged m s with | .error (.trap _) => true | _ => false) = true) :
    ∃ t, judged m s = .error (.trap t) := by
  split at h
  · exact ⟨_, by assumption⟩
  · cases h
/-- One k-block of the operands of `mmaState`, the first of one and of two. -/
def inMx (kc : Nat) : State := (mmaState 1).mapCtx fun c => { c with mx := 1, mxops := [.mma 0x3000 0 kc spot 0x800009000 .bf16 .bf16 0 64 64 []] }
theorem witness_MatrixUnit :
    (((inMx 1).coreOf 0).ctx.mxops = .mma 0x3000 0 1 spot 0x800009000 .bf16 .bf16 0 64 64 [] :: [] ∧ 1 ≤ 0 + 1)
    ∧ ((inMx 2).coreOf 0).ctx.mxops = .mma 0x3000 0 2 spot 0x800009000 .bf16 .bf16 0 64 64 [] :: []
    ∧ (∃ r, judged (mmaOperands .bf16 .bf16 0 spot 0x800009000 64 64 [] 0) ((inMx 2).focusOn 0) = .ok (r, [], (inMx 2).focusOn 0))
    ∧ (inMx 2).core.id = 0 ∧ memWf ((inMx 2).coreOf 0).ctx.urs = true
    ∧ (∃ rest, ((demo.mapCtx fun c => { c with mx := 1, mxops := [.done 1] }).coreOf 0).ctx.mxops = .done 1 :: rest) :=
  ⟨⟨rfl, by decide⟩, rfl, of_judged (by decide +kernel), rfl, by decide, ⟨_, rfl⟩⟩
/-- A k-block that leaves the slot's open bytes, and one with an uncorrectable word in it. -/
theorem witness_MatrixUnit_breaks :
    (∃ tr, judged (mmaOperands .bf16 .bf16 0 0x8000DFFC0 0x800009000 64 64 [] 0) ((inMx 2).focusOn 0) = .error (.trap tr))
    ∧ (∃ q tr ts s1, judged (mmaOperands .bf16 .bf16 0 spot 0x800009000 64 64 [] 0) (({ inMx 2 with poison := [0x800008000] } : State).focusOn 0)
        = .ok (q, tr :: ts, s1)) := by
  refine ⟨trap_judged (by decide +kernel), ?_⟩
  have h : (match judged (mmaOperands .bf16 .bf16 0 spot 0x800009000 64 64 [] 0) (({ inMx 2 with poison := [0x800008000] } : State).focusOn 0) with
      | .ok (_, ts, _) => !ts.isEmpty | .error _ => false) = true := by decide +kernel
  split at h
  · next q ts s1 heq => cases ts with
    | nil => cases h
    | cons tr ts => exact ⟨q, tr, ts, s1, heq⟩
  · cases h

/-- The 64-byte header of an image at `spot`: 3 rules of width 4 and the element type given, the rule table and data behind it. -/
def header (et flags row : Nat) : List Byte :=
  leBytes 8 (0x47594B56 + 1 * 2 ^ 32 + et * 2 ^ 48 + 4 * 2 ^ 56) ++ leBytes 8 (3 + 8 * 2 ^ 32) ++ leBytes 8 (2 + flags * 2 ^ 32)
    ++ leBytes 8 64 ++ leBytes 8 112 ++ leBytes 8 row ++ zeroBytes 16
/-- Terminals of 4 and 3 elements, and their pair. -/
def ruleTable : List Byte :=
  leBytes 16 (0 + 0 * 2 ^ 32 + 4 * 2 ^ 64 + 4 * 2 ^ 96) ++ leBytes 16 (0 + 4 * 2 ^ 32 + 3 * 2 ^ 64 + 3 * 2 ^ 96)
    ++ leBytes 16 (1 + 0 * 2 ^ 32 + 1 * 2 ^ 64 + 7 * 2 ^ 96)
/-- A GRED of operator fn over rules first to last, or a GPOS of query fn at position pos. -/
def gop (major fn first last : Nat) (started : Bool) (cur pos : Nat) (result : Option (Word × BitVec 8)) : GOp :=
  { major := major, fn := fn, mod := 0, d := 5, a := spot, b := 0x800009000, bs := none, c := BitVec.ofNat 64 (last * 2 ^ 32 + first)
    started := started, cur := cur, pos := pos, result := result }
def ruling (hd : List Byte) (rrt : Nat) (g : GOp) : State :=
  { demo with near := memWrite (memWrite demo.near 0x800008000 (hd ++ ruleTable)) 0x800009000 (leBytes 8 rrt) }.mapCtx fun c => { c with gr := 1, gops := [g] }
def headed (s : State) (p : GHdr → Bool) : Bool :=
  unitOk spot 64 (s.focusOn 0) fun bs _ => match hdrOf spot bs with | some h => p h | none => false
theorem witness_RuleUnit :
    (∃ g rest r, ((ruling (header 4 0 0) 0 (gop 0 0 0 2 true 0 0 (some (3, 0)))).coreOf 0).ctx.gops = g :: rest ∧ g.result = some r)
    ∧ (∃ g rest, let s := ruling (header 4 0 0) 0 (gop 0 0 0 2 false 0 0 none)
        (s.coreOf 0).ctx.gops = g :: rest ∧ g.result = none ∧ (s.coreOf 0).ctx.asyncs = [] ∧ g.started = false ∧ g.major = 0)
    ∧ unitOk spot 64 ((ruling [] 0 (gop 0 0 0 2 false 0 0 none)).focusOn 0) (fun bs t => (hdrOf spot bs).isNone
        && t == (ruling [] 0 (gop 0 0 0 2 false 0 0 none)).focusOn 0) = true
    ∧ headed (ruling (header 4 1 2) 0 (gop 0 0 0 2 false 0 0 none)) (fun h => h.matrix) = true
    ∧ headed (ruling (header 4 0 0) 0 (gop 0 12 0 2 false 0 0 none)) (fun h => !h.matrix && opTakes 7 h.et && !opTakes 8 h.et && h.nrules == 3) = true
    ∧ headed (ruling (header 9 0 0) 0 (gop 0 0 0 2 false 0 0 none)) (fun h => !h.matrix && !opTakes 0 h.et && opTakes 11 h.et) = true
    ∧ unitOk (entryAddr 0x800009000 0 0) 8 ((ruling (header 4 0 0) (2 ^ 63) (gop 0 0 0 2 true 0 0 none)).focusOn 0)
        (fun hb _ => (leNat hb).testBit 63) = true
    ∧ unitOk spot 64 ((ruling (header 4 0 0) 0 (gop 2 2 0 0 true 2 3 none)).focusOn 0) (fun bs t => match hdrOf spot bs with
        | some h => isOk (readRule h 2 t) (fun q _ => q.kind == 1 && q.lenA == 4) | none => false) = true := by
  refine ⟨⟨_, _, _, rfl, rfl⟩, ⟨_, _, rfl, rfl, rfl, rfl, rfl⟩, by decide +kernel, by decide +kernel, by decide +kernel, by decide +kernel, by decide +kernel, by decide +kernel⟩

/-! Witnesses: streams, fetches, traps behind issue, jobs. -/

def stream2 (out : Bool) (buf : List (List Byte)) : State :=
  withStream 2 { bound := true, out := out, esz := 4, total := 2, base := spot, counts := [2], strides := [4], buf := buf, moved := if out then 0 else buf.length } demo
def gatherTo (dst : Option (Fin 8)) (count : Nat) : State :=
  (stream2 false []).mapCtx fun c => { c with ld := 1, gathers := [{ idx := List.replicate count 0, base := spot, size := 4, count := count, dst := dst, buf := 0x800010000 }] }
theorem witness_StreamUnits :
    (let s := stream2 false []; let p := (s.coreOf 0).ctx.streams[(2 : Fin 8)]
     p.bound = true ∧ p.kind = .pattern ∧ p.out = false ∧ p.moved < p.total ∧ (p.buf.length + 1) * p.esz ≤ 256 ∧ p.held = none ∧ (s.coreOf 0).ctx.wd = false
       ∧ p.addrOf p.moved = spot)
    ∧ NearOpen ((stream2 false []).focusOn 0) spot 4
    ∧ (let s := stream2 true [[1, 2, 3, 4]]; let p := (s.coreOf 0).ctx.streams[(2 : Fin 8)]
       p.bound = true ∧ p.kind = .pattern ∧ p.out = true ∧ p.buf = [1, 2, 3, 4] :: [] ∧ ([1, 2, 3, 4] : List Byte).length = p.esz ∧ p.addrOf p.moved = spot)
    ∧ (let f := (stream2 true [[1, 2, 3, 4]]).focusOn 0
       isNear spot.toNat = true ∧ nearSpanOk f spot.toNat 4 = true ∧ touchesWindow f spot.toNat = false ∧ partPoison f spot.toNat 4 = false)
    ∧ (let f := (gatherTo none 2).focusOn 0
       isNear 0x800010000 = true ∧ nearSpanOk f 0x800010000 4 = true ∧ touchesWindow f 0x800010000 = false ∧ partPoison f 0x800010000 4 = false
         ∧ nearSpanOk f 0x8000E0000 4 = false ∧ (gatherTo none 2).core.ctx.asyncs = [] ∧ poisoned { f with poison := [0x800008000] } spot.toNat 4 = true)
    ∧ (∃ g, ((gatherTo none 2).coreOf 0).ctx.gathers = [] ++ g :: [] ∧ g.next < g.count ∧ g.idx.length = g.count ∧ g.dst = none
      ∧ (g.base + BitVec.ofNat 64 (nth g.idx g.next 0 * g.size)) = spot)
    ∧ (∃ g, ((gatherTo (some 2) 1).coreOf 0).ctx.gathers = [] ++ g :: [] ∧ g.next + 1 = g.count ∧ g.idx.length = g.count ∧ g.dst = some 2
      ∧ ((((gatherTo (some 2) 1).coreOf 0).ctx.streams[(2 : Fin 8)]).buf.length + 1) * g.size ≤ 256)
    ∧ nearSpanOk ((gatherTo none 2).focusOn 0) spot.toNat 4 = true :=
  ⟨by decide, ⟨by decide, by decide, by decide, by decide, by decide⟩, by decide, by decide, by decide,
   ⟨_, rfl, by decide, rfl, rfl, by decide⟩, ⟨_, rfl, by decide, rfl, rfl, by decide⟩, by decide⟩

theorem witness_MemoryUnits :
    (let s := farBase.mapCtx fun c => { c with pc := farSpot }
     OneEach s ∧ (s.coreOf 0).mode = .running ∧ isFar (s.coreOf 0).ctx.pc.toNat = true
       ∧ ∃ pa s2, translate ((s.coreOf 0).ctx.pc.toNat / 32 * 32) { x := true } false (s.focusOn 0) = .ok (pa, s2))
    ∧ (∃ d l, (farBase.focusOn 0).dev = some d ∧ walkSealed (farBase.focusOn 0) d farSpot.toNat = false ∧ tlbHit (farBase.coreOf 0).mtlb d.num d.root farSpot.toNat = none
      ∧ tlbHit (farBase.tileOf (coreTile 0)).tlb d.num d.root farSpot.toNat = none ∧ walk farBase.quarry d.root farSpot.toNat = .ok l
      ∧ l.pte.getLsbD 5 = true ∧ leafPa l.vpage (pteTouched l.pte false) farSpot.toNat < 2 ^ 51 ∧ memWf farBase.quarry = true)
    ∧ isNear spot.toNat = true ∧ nearExists spot.toNat = true := by
  refine ⟨⟨by simp only [OneEach]; decide, by decide, by decide, ⟨_, _, rfl⟩⟩, ⟨_, _, rfl, by decide, rfl, rfl, rfl, by decide, by decide, by decide⟩, by decide, by decide⟩

/-- Slot 0 holds an unserviced image of device 0, whose service table at `spot` names an entry for cause 0. -/
def unserviced : State :=
  let s := (base.updTile 0 fun t => { t with slots := t.slots.set 0 (.image 0) })
  { s with devs := s.devs.map fun d => { d with svctab := 0x800008000 }, near := memWrite s.near 0x800008000 (leBytes 8 0x800000000) }
theorem witness_TrapUnits :
    (∃ tr rest, (demo.mapCtx fun c => { c with asyncs := [{ cause := .align, faddr := 0 }] }).core.ctx.asyncs = tr :: rest) ∧ demo.core.mode = .running
    ∧ (let s := { demo with core := { demo.core with mode := .trapped } }
       s.core.mode = .trapped ∧ isDebugStop s (causeOf (s.core.ctx.fault.toNat % 64)) = false ∧ s.vd = some 0
         ∧ freeSlot (s.tileOf (coreTile s.core.id)) = some 0 ∧ (∀ c ∈ s.core.ctx.urs, c.1 < 0x8000) ∧ memWf s.near = true)
    ∧ (∃ d, (unserviced.tileOf 0).slots[(0 : Fin 64)] = .image 0 ∧ serviced unserviced 0 0 = false ∧ (unserviced.tileOf 0).vd = some 0
      ∧ unserviced.devOf 0 = some d ∧ (serviceEntry unserviced d ((memWord unserviced.near (slotAddr 0 0 + 0x8070)).toNat % 64)).toNat % 2 ^ 48 / 4 ≠ 0)
    ∧ ({ demo with returning := [(0, base.core.ctx)] } : State).returning[0]? = some (0, base.core.ctx)
    ∧ (let s := withCore { id := 32, ctx := { stall := some .acquire } } { demo with core := { demo.core with mode := .held 3 } }
       (s.coreOf 0).mode = .held 3 ∧ (s.coreOf 0).ctx.ld = 0 ∧ (s.coreOf 0).ctx.gr = 0 ∧ (s.coreOf (keystoneOf (coreTile 0))).ctx.stall = some .acquire) :=
  ⟨⟨_, _, rfl⟩, rfl, by decide, ⟨_, rfl, by decide, rfl, rfl, by decide +kernel⟩, rfl, by decide⟩

/-- Device 0 lies in quadrant 0. -/
def resting : State := { base with core := { base.core with mode := .idle } }
theorem witness_TimeSlices :
    (∀ d ∈ base.devs, d.state = .running → ∀ t ∈ d.tiles, t.toNat / 128 ≠ (1 : Fin 4).val)
    ∧ (∃ d, resting.devs = [d] ∧ d.state = .running ∧ d.saves = [] ∧ resting.colls = [] ∧ (∃ t ∈ d.tiles, t.toNat / 128 = (0 : Fin 4).val) ∧ resting.returning = []
      ∧ (∀ t ∈ d.tiles, (resting.tileOf t).jobs = []) ∧ (∀ co ∈ resting.allCores, coreTile co.id ∈ d.tiles → co.mode = .idle ∧ co.ctx.asyncs = [])) :=
  ⟨by decide, ⟨_, rfl, rfl, rfl, rfl, by decide, rfl, by decide, by decide⟩⟩

/-- The 64 bytes of a card. -/
def aCard (type flags src dst param b28 rlen wlen : Nat) : List Byte :=
  leBytes 2 type ++ leBytes 2 flags ++ leBytes 4 0 ++ leBytes 8 src ++ leBytes 8 dst ++ leBytes 4 param ++ leBytes 4 b28 ++ zeroBytes 24
    ++ leBytes 4 rlen ++ leBytes 4 wlen
def aJob (card descs : List Byte) : Job := { seq := 0, vd := 0, poster := some 0, mark := 0, card := card, descs := descs, reads := [], writes := [] }
def withJob (j : Job) (s : State := demo) : State := s.updTile 0 fun t => { t with jobs := [j] }
def dev0 : Device := { num := 0, tiles := [0] }
def startsB (s : State) (type : Nat) (j : Job) : Bool :=
  (s.tileOf 0).job 0 == some j && s.devOf j.vd == some dev0 && cardField j.card 0 2 == type && mayStart (s.tileOf 0) j && j.stream == none && j.count == 0
    && memWf s.near
def feedsB (s : State) (j : Job) (a n : Nat) : Bool :=
  (List.range n).all (fun i => engOpen dev0 (a + i)) && decide (jobSrc j ≤ a ∧ a + n ≤ jobSrc j + cardField j.card 56 4) && s.poison.isEmpty
def sinksB (s : State) (j : Job) (a n : Nat) : Bool :=
  (List.range n).all (fun i => engOpen dev0 (a + i)) && decide (jobDst j ≤ a ∧ a + n ≤ jobDst j + cardField j.card 60 4) && s.poison.isEmpty
theorem starts_of {s : State} {type : Nat} {j : Job} (h : startsB s type j = true) : Starts s 0 0 type j dev0 := by
  simp only [startsB, Bool.and_eq_true, beq_iff_eq] at h
  obtain ⟨⟨⟨⟨⟨⟨h1, h2⟩, h3⟩, h4⟩, h5⟩, h6⟩, h7⟩ := h
  exact ⟨h1, h2, h3, h4, h5, h6, h7⟩
theorem feeds_of {s : State} {j : Job} {a n : Nat} (h : feedsB s j a n = true) : Feeds s dev0 j a n := by
  simp only [feedsB, Bool.and_eq_true, List.all_eq_true, List.mem_range, decide_eq_true_eq, List.isEmpty_iff] at h
  exact ⟨h.1.1, h.1.2, by simp [h.2]⟩
theorem sinks_of {s : State} {j : Job} {a n : Nat} (h : sinksB s j a n = true) : Sinks s dev0 j a n := by
  simp only [sinksB, Bool.and_eq_true, List.all_eq_true, List.mem_range, decide_eq_true_eq, List.isEmpty_iff] at h
  exact ⟨h.1.1, by simp [h.2], h.1.2⟩

def src0 : Nat := 0x800008000
def dst0 : Nat := 0x800010000
/-- A pattern of n elements of 4 bytes with the stride given. -/
def aPat (n stride : Nat) : List Byte := leBytes 8 (1 + 2 * 16) ++ leBytes 8 n ++ leBytes 8 stride
def copyJob : Job := aJob (aCard 1 0 src0 dst0 8 0 8 8) []
def patJob : Job := aJob (aCard 1 16 src0 dst0 64 0 64 64) (aPat 2 8 ++ aPat 2 4)
def gatherJob : Job := aJob (aCard 2 16 src0 dst0 64 0 8 8) (leBytes 8 0x800009000 ++ leBytes 4 2 ++ leBytes 4 4)
/-- CONVERT of two values from FP32 to BF16. -/
def convertJob : Job := aJob (aCard 4 0 src0 dst0 2 (10 + 8 * 256) 8 8) []
theorem witness_DataJobs :
    (Starts (withJob copyJob) 0 0 1 copyJob dev0 ∧ (cardField copyJob.card 2 2).testBit 4 = false ∧ Feeds (withJob copyJob) dev0 copyJob (jobSrc copyJob) (jobParam copyJob)
      ∧ Sinks (withJob copyJob) dev0 copyJob (jobDst copyJob) (jobParam copyJob))
    ∧ (Starts (withJob patJob) 0 0 1 patJob dev0 ∧ (cardField patJob.card 2 2).testBit 4 = true
      ∧ patJob.pats.1.total * patJob.pats.1.esz = patJob.pats.2.total * patJob.pats.2.esz ∧ patJob.pats.1.addrs src0 = [src0, src0 + 8]
      ∧ patJob.pats.2.addrs dst0 = [dst0, dst0 + 4] ∧ Feeds (withJob patJob) dev0 patJob src0 4 ∧ Feeds (withJob patJob) dev0 patJob (src0 + 8) 4
      ∧ Sinks (withJob patJob) dev0 patJob dst0 4 ∧ Sinks (withJob patJob) dev0 patJob (dst0 + 4) 4)
    ∧ (Starts (withJob gatherJob) 0 0 2 gatherJob dev0 ∧ gatherJob.descs.length = 16 ∧ (∀ i < 8, engOpen dev0 (0x800009000 + i) = true)
      ∧ Feeds (withJob gatherJob) dev0 gatherJob src0 4 ∧ Sinks (withJob gatherJob) dev0 gatherJob dst0 8)
    ∧ (Starts (withJob convertJob) 0 0 4 convertJob dev0 ∧ (cardField convertJob.card 2 2).testBit 4 = false ∧ cardIn convertJob = some .fp32
      ∧ cardOut convertJob = some .bf16 ∧ elemIsScal .fp32 = true ∧ Feeds (withJob convertJob) dev0 convertJob src0 8 ∧ Sinks (withJob convertJob) dev0 convertJob dst0 4) :=
  ⟨⟨starts_of (by decide +kernel), by decide, feeds_of (by decide +kernel), sinks_of (by decide +kernel)⟩,
   ⟨starts_of (by decide +kernel), by decide, by decide +kernel, by decide +kernel, by decide +kernel, feeds_of (by decide +kernel), feeds_of (by decide +kernel),
    sinks_of (by decide +kernel), sinks_of (by decide +kernel)⟩,
   ⟨starts_of (by decide +kernel), by decide, by decide +kernel, feeds_of (by decide +kernel), sinks_of (by decide +kernel)⟩,
   ⟨starts_of (by decide +kernel), by decide, by decide, by decide, rfl, feeds_of (by decide +kernel), sinks_of (by decide +kernel)⟩⟩

/-- An EXPAND job of one block with the first header word given, K = N = 32, and its payload length. -/
def expandJob : Job := aJob (aCard 7 0 src0 dst0 1 0 4096 4096) []
def expanding (w0 plen base : Nat) : State :=
  withJob expandJob { demo with near := memWrite demo.near src0 (leBytes 8 w0 ++ zeroBytes 8 ++ leBytes 8 base ++ zeroBytes 8 ++ leBytes 8 (32 * 65537) ++ leBytes 8 plen) }
theorem witness_DataJobs_expand :
    (let s := expanding (13 * 256) 288 0
     Starts s 0 0 7 expandJob dev0 ∧ jobParam expandJob = 1 ∧ weightOk (blockHdr src0 (memRead s.near src0 64)) = true
       ∧ (blockHdr src0 (memRead s.near src0 64)).delta = false ∧ Feeds s dev0 expandJob src0 (64 + 288) ∧ Sinks s dev0 expandJob dst0 (64 + 288))
    ∧ (let s := expanding (13 * 256 + 2 ^ 15) 288 0
       weightOk (blockHdr src0 (memRead s.near src0 64)) = true ∧ (blockHdr src0 (memRead s.near src0 64)).delta = true)
    ∧ (let s := expanding (14 * 256) 1024 0
       let h := blockHdr src0 (memRead s.near src0 64)
       weightOk h = true ∧ h.opc.toNat < 2 ∧ h.fmt = 14 ∧ h.exp.toNat < 2 ∧ Feeds s dev0 expandJob src0 (64 + 1024) ∧ Sinks s dev0 expandJob dst0 1120
         ∧ (expandedHeader (memRead s.near src0 64) h 6 ++ ((chunksOf 1024 (hdrK h / 32 * hdrG h) (memRead s.near (src0 + 64) 1024)).map
              (expandLut ((s.tileOf 0).xbank h.tgen))).flatten).length = 1120)
    ∧ plainOk (blockHdr src0 (leBytes 8 8 ++ zeroBytes 56)) = true
    ∧ (let q := { copyJob with writes := [{ near := true, lo := 0, len := 8 }] }
       let j := { copyJob with seq := 1, reads := [{ near := true, lo := 7, len := 8 }] }
       let s := base.updTile 0 fun t => { t with jobs := [q, j] }
       (s.tileOf 0).job 1 = some j ∧ j.state ≠ .running ∧ q ∈ (s.tileOf 0).jobs ∧ q.seq < j.seq
         ∧ Overlap { near := true, lo := 0, len := 8 } { near := true, lo := 7, len := 8 }) :=
  ⟨⟨starts_of (by decide +kernel), by decide, by decide +kernel, by decide +kernel, feeds_of (by decide +kernel), sinks_of (by decide +kernel)⟩,
   by decide +kernel,
   ⟨by decide +kernel, by decide +kernel, by decide +kernel, by decide +kernel, feeds_of (by decide +kernel), sinks_of (by decide +kernel), by decide +kernel⟩,
   by decide +kernel, ⟨by decide +kernel, by decide, by decide +kernel, by decide, ⟨rfl, by decide, by decide⟩⟩⟩

/-! Witnesses: builders, collectives, completions, blocks. -/

def buildJob (et n param : Nat) : Job := aJob (aCard 6 0 src0 dst0 param et n 4096) []
/-- Lengths 0, 3 of a two-byte type, 1 and 16 with room for 96 bytes, 16 without, and two equal chunks. -/
theorem witness_BuildingJobs_gbuild :
    (∀ p ∈ [(0, 0, 1000), (2, 3, 1000), (0, 1, 97), (0, 16, 112), (0, 16, 111), (0, 32, 176)],
      Starts (withJob (buildJob p.1 p.2.1 p.2.2)) 0 0 6 (buildJob p.1 p.2.1 p.2.2) dev0
        ∧ cardField (buildJob p.1 p.2.1 p.2.2).card 56 4 = p.2.1 ∧ jobParam (buildJob p.1 p.2.1 p.2.2) = p.2.2 ∧ cardIn (buildJob p.1 p.2.1 p.2.2) = elemOfCode p.1)
    ∧ elemOfCode 0 = some .i8 ∧ elemSize .i8 = 1 ∧ elemOfCode 2 = some .i16 ∧ elemSize .i16 = 2
    ∧ (97 - 1) / 8 * 8 = 96 ∧ (112 - 16) / 8 * 8 = 96 ∧ (111 - 16) / 8 * 8 < 96 ∧ (176 - 32) / 8 * 8 = 144
    ∧ Feeds (withJob (buildJob 0 32 176)) dev0 (buildJob 0 32 176) src0 32 ∧ Sinks (withJob (buildJob 0 32 176)) dev0 (buildJob 0 32 176) dst0 (144 + 16)
    ∧ (let bs := memRead (withJob (buildJob 0 32 176)).near src0 32; bs.drop 16 = bs.take 16) := by
  refine ⟨?_, rfl, rfl, rfl, rfl, by decide, by decide, by decide, by decide, feeds_of (by decide +kernel), sinks_of (by decide +kernel), by decide +kernel⟩
  intro p hp
  simp only [List.mem_cons, List.not_mem_nil, or_false] at hp
  rcases hp with rfl | rfl | rfl | rfl | rfl | rfl <;> exact ⟨starts_of (by decide +kernel), by decide +kernel, by decide +kernel, by decide +kernel⟩

def tloadJob (dst n : Nat) : Job := aJob (aCard 5 0 src0 dst 512 (8 * 256) n 0) []
theorem witness_BuildingJobs_tload :
    (Starts (withJob (tloadJob 0 511)) 0 0 5 (tloadJob 0 511) dev0 ∧ cardField (tloadJob 0 511).card 56 4 < 512)
    ∧ (Starts (withJob (tloadJob 0 512)) 0 0 5 (tloadJob 0 512) dev0 ∧ Feeds (withJob (tloadJob 0 512)) dev0 (tloadJob 0 512) src0 512 ∧ jobDst (tloadJob 0 512) = 0)
    ∧ (let j := tloadJob (nearAddr 0 31 0) 512
       Starts (withJob j) 0 0 5 j dev0 ∧ Feeds (withJob j) dev0 j src0 512 ∧ jobDst j = nearAddr 0 (31 : Fin 32).val 0) :=
  ⟨⟨starts_of (by decide +kernel), by decide⟩, ⟨starts_of (by decide +kernel), feeds_of (by decide +kernel), by decide⟩,
   ⟨starts_of (by decide +kernel), feeds_of (by decide +kernel), by decide⟩⟩

/-- One participant of one, 32 FP32 elements of group 5, delivered as BF16. -/
def collJob (mode : Nat) : Job :=
  aJob (aCard 3 16 src0 dst0 64 (10 + 8 * 256) 128 64) (leBytes 4 (mode * 256) ++ leBytes 4 5 ++ leBytes 4 1 ++ leBytes 4 0 ++ leBytes 4 32 ++ leBytes 4 0 ++ zeroBytes 8)
def oneLeaf : List Byte := nodePacket 5 0 0 0 (List.replicate 32 (unpack fp32 0))
def collAt (shape : List Byte) : Coll :=
  { group := 5, vd := 0, shape := shape, parts := [(0, 0, 0)], leaves := [oneLeaf], nparts := [1] }
theorem witness_Collectives_join :
    (Starts (withJob (collJob 0)) 0 0 3 (collJob 0) dev0 ∧ cardIn (collJob 0) = some .fp32 ∧ elemIsFp .fp32 = true ∧ (withJob (collJob 0)).colls.find? (sameColl (collJob 0)) = none
      ∧ collField (collJob 0) 16 4 = 32 ∧ Feeds (withJob (collJob 0)) dev0 (collJob 0) src0 128)
    ∧ (let s := { withJob (collJob 0) with colls := [collAt []] }
       Starts s 0 0 3 (collJob 0) dev0 ∧ s.colls.find? (sameColl (collJob 0)) = some (collAt []) ∧ (collAt []).shape ≠ collTerms (collJob 0)
         ∧ Feeds s dev0 (collJob 0) src0 128) :=
  ⟨⟨starts_of (by decide +kernel), by decide, rfl, rfl, by decide, feeds_of (by decide +kernel)⟩,
   ⟨starts_of (by decide +kernel), by decide +kernel, by decide +kernel, feeds_of (by decide +kernel)⟩⟩
/-- The only block of the collective, for every participant and for the root alone. -/
theorem witness_Collectives_deliver : ∀ mode ∈ [0, 1],
    (let c := collAt (collTerms (collJob mode))
     let s := { withJob (collJob mode) with colls := [c] }
     let part (i n : Nat) : Nat := leNat ((c.shape.drop i).take n)
     s.colls.find? (fun c => c.group == 5 && !c.mismatch && c.parts.length == leNat ((c.shape.drop 2).take 4)) = some c
       ∧ [oneLeaf].length = part 2 4
       ∧ (∀ i < 1, (c.leaves.find? fun p => packetNat p 4 == 0 && packetNat p 8 == i) = [oneLeaf][i]?) ∧ 0 < part 6 4 / 32 ∧ c.roots = []
       ∧ (if part 1 1 = 1 then c.parts.filter (·.1 == part 10 4) else c.parts) = [(0, 0, 0)] ∧ (s.tileOf 0).job 0 = some (collJob mode)
       ∧ s.devOf (collJob mode).vd = some dev0 ∧ cardOut (collJob mode) = some .bf16 ∧ (collJob mode).status = 0 ∧ memWf s.near = true
       ∧ (convOut .bf16 0 (carried (collTree (part 0 1 == 1) 17 1 [oneLeaf]))).length = 64
       ∧ Sinks s dev0 (collJob mode) (jobDst (collJob mode) + 0 * 32 * elemSize .bf16) 64) := by
  intro m hm
  simp only [List.mem_cons, List.not_mem_nil, or_false] at hm
  rcases hm with rfl | rfl <;>
    exact ⟨by decide +kernel, by decide +kernel, by decide +kernel, by decide +kernel, rfl, by decide +kernel, by decide +kernel, by decide +kernel, by decide +kernel,
      rfl, by decide +kernel, by decide +kernel, sinks_of (by decide +kernel)⟩

/-- An ended COPY of a poster that still runs, and of one whose image lies in slot 0 with JOB 1. -/
def endedJob (flags : Nat) : Job := { aJob (aCard 1 flags src0 dst0 8 0 8 8) [] with state := .ended }
def imaged : State :=
  let s := withJob (endedJob 0) resting
  { s.updTile 0 fun t => { t with slots := t.slots.set 0 (.image 0) } with near := memWrite s.near 0x8020080F8 (leBytes 8 0x1000) }
theorem witness_JobCompletion :
    (∀ flags ∈ [0, 1, 2, 4, 8], let j := endedJob flags; let s := withJob j
      (s.tileOf 0).job 0 = some j ∧ s.devOf j.vd = some dev0 ∧ j.state = .ended ∧ j.status ≠ 4 ∧ j.packet = none ∧ j.poster = some 0 ∧ memWf s.near = true
        ∧ (s.coreOf 0).traceBuf.length < 64 ∧ (∀ v ∈ (s.tileOf 0).slots.toList, v = .free) ∧ (s.coreOf 0).mode ≠ .idle ∧ (s.coreOf 0).ctx.mark = j.mark
        ∧ cardField j.card 2 2 % 16 = flags ∧ (s.coreOf 0).runq.length + (s.coreOf 0).signalsDue < 64 + 4096 ∧ heldRec s 0 = false)
    ∧ (let j := endedJob 0; let s := imaged
       (s.tileOf 0).job 0 = some j ∧ j.poster = some 0 ∧ memWf s.near = true ∧ nth (s.tileOf 0).slots.toList 0 .free = .image 0
         ∧ memWord s.near (slotAddr 0 0 + 0x8020) = j.mark ∧ memWord s.near (slotAddr 0 0 + 0x8030) = (0 : CoreId).setWidth 64
         ∧ ((List.range 64).all fun k => k == 0 || nth (s.tileOf 0).slots.toList k .free == .free) = true
         ∧ (memWord s.near (slotAddr 0 0 + 0x80F8)).toNat / 2 ^ 12 % 2 ^ 6 ≠ 0 ∧ poisoned s (slotAddr 0 0 + 0x80F8) 8 = false)
    ∧ (poisoned { withJob (endedJob 4) with poison := [0] } (cardField (endedJob 4).card 48 8) 8 = true) := by
  decide +kernel

/-! Blocks. -/

def wdState (w : WdState) : State := demo.mapCtx fun c => { c with wd := true, wdst := w }
def oneAcc : WdState := { exit := 0x800000100, dst := .reg 7, aet := 13, abw := 0, abase := 0, acnt := 1, src := none, base := 0x800010000, stride := 2048 }
/-- A header at `spot` with one K and one N block of 32. -/
def hdr (opc : BitVec 6) (fmt : BitVec 4) (plen : BitVec 32) (route : BitVec 16) (blk : BitVec 48) : BlockHdr :=
  { addr := 0x800008000, opc := opc, exp := 0, fmt := fmt, bw := 0, delta := false, tgen := false, route := route, succ := 0x800009000, base := blk, hintp := 0
    word4 := 0x200020, plen := plen, bad := false }
theorem enters_wd (h : BlockHdr) (w : WdState) (e : h.addr = 0x800008000) : Enters h (wdState w) := by
  refine ⟨rfl, .inr (.inr ?_)⟩
  rw [e]; exact (by decide : bkptMatch demo.core 0x800008000 = false)

theorem witness_WeightBlocks :
    MacFits (hdr 0 13 288 0 0) oneAcc ∧ MacFits (hdr 1 13 288 0 0) oneAcc ∧ memWf (wdState oneAcc).core.ctx.urs = true
    ∧ Enters (hdr 0 13 288 0 0) (wdState oneAcc) ∧ (blockAt (hdr 0 13 288 0 0) (wdState oneAcc)).core.ctx = { (wdState oneAcc).core.ctx with wdblk := 0x800008000 }
    ∧ (let h := hdr 0 13 288 0 0; let b := blockAt h (wdState oneAcc); let w := b.core.ctx.wdst
       elemOfCode w.aet.toNat = some .bfp ∧ b.core.ctx.mxprog.toNat % 512 < hdrK h / 32 ∧ b.core.ctx.loads = [] ∧ b.core.ctx.mxops = [] ∧ hdrG h = 1
         ∧ isOk (mapM' (weightImage h 0) (List.range 1) b) (fun imgs b1 => imgs.length == 1
             && isOk (actImage w .bfp 0 b1) (fun _ b2 => !stepping b2 && b2.core.ctx.urs == b.core.ctx.urs && b2.core.ctx.loads.isEmpty && b2.core.ctx.mxops.isEmpty)) = true) := by
  refine ⟨⟨by decide +kernel, by decide, by decide, by decide⟩, ⟨by decide +kernel, by decide, by decide, by decide⟩, by decide, enters_wd _ _ rfl, rfl, by decide +kernel⟩

/-- Two column groups of BF16 into near memory, the second with a message, and into stream 0. -/
def emitHdr (route : BitVec 16) : BlockHdr := { hdr 2 8 0 route 0x800010000 with word4 := 0x400020 }
def twoAcc (kb : Word) : State := (wdState { oneAcc with acnt := 2 }).mapCtx fun c => { c with mxprog := kb }
def emitStream (kb : Word) : State :=
  withStream 0 { bound := true, out := true, esz := 8, total := 4096, base := 0x800010000, counts := [4096], strides := [8] } (twoAcc kb)
theorem emits (h : BlockHdr) (kb : Word) (e : h.addr = 0x800008000) : Enters h (twoAcc kb) := by
  refine ⟨rfl, .inr (.inr ?_)⟩
  rw [e]; exact (by decide : bkptMatch demo.core 0x800008000 = false)
theorem witness_EmitBlocks :
    (∀ kb : Word, kb = 0 ∨ kb = 1 → Enters (emitHdr 0) (twoAcc kb) ∧ Enters (emitHdr 0x8003) (twoAcc kb) ∧ Enters (emitHdr 0x4000) (emitStream kb))
    ∧ emitOk (emitHdr 0) { oneAcc with acnt := 2 } = true ∧ emitOk (emitHdr 0x8003) { oneAcc with acnt := 2 } = true ∧ emitOk (emitHdr 0x4000) { oneAcc with acnt := 2 } = true
    ∧ (blockAt (emitHdr 0) (twoAcc 1)).core.ctx = { (twoAcc 1).core.ctx with wdblk := 0x800008000 } ∧ hdrG (emitHdr 0) = 2
    ∧ (let b := blockAt (emitHdr 0) (twoAcc 1)
       b.core.ctx.pendingRead (b.core.ctx.aOff 1) 4096 = false ∧ NearOpen b 0x800010800 2048 ∧ partPoison b 0x800010800 2048 = false
         ∧ (imageOut .bf16 0 (accRows (b.core.ctx.ursRead (b.core.ctx.aOff 1) 4096))).1.length = 2048)
    ∧ (∃ b1, releaseAt (blockAt (emitHdr 0x8003) (twoAcc 1)).spanOfTask (blockAt (emitHdr 0x8003) (twoAcc 1)) = .ok ((), b1)
      ∧ logFull b1 b1.vdNum (ownerCore 0x800010000) = false)
    ∧ dstDir (emitStream 0).core.ctx (.str 0) = none ∧ 2048 % (((emitStream 0).core.ctx.streams[(0 : Fin 8)]).esz) = 0
    ∧ ((emitStream 0).core.ctx.streams[(0 : Fin 8)]).done + 2048 / 8 ≤ ((emitStream 0).core.ctx.streams[(0 : Fin 8)]).total
    ∧ (∃ b2, pushImage 0 (chunksOf 8 256 (List.replicate 2048 0)) (blockAt (emitHdr 0x4000) (emitStream 0)) = .ok ((), b2)) := by
  refine ⟨?_, by decide +kernel, by decide +kernel, by decide +kernel, rfl, by decide,
    ⟨by decide, ⟨by decide, by decide, unpoisoned rfl _ _, by decide, by decide⟩, unpoisoned_part rfl _ _, by decide +kernel⟩,
    ⟨_, rfl, rfl⟩, by decide, by decide, by decide, ok_unit (by decide +kernel)⟩
  rintro kb (rfl | rfl) <;> exact ⟨emits _ _ rfl, emits _ _ rfl, ⟨rfl, .inr (.inr (by decide))⟩⟩

/-- The link stack with 0, 3 and 4 entries; a signalling and a waiting SYNC below, at and above the stored value. -/
def linked (n : Nat) : State := wdState { oneAcc with link := List.replicate n 0x800009000 }
theorem witness_ControlBlocks :
    Enters (hdr 3 0 0 0 0) (wdState oneAcc) ∧ (blockAt (hdr 3 0 0 0 0) (wdState oneAcc)).core.ctx = { (wdState oneAcc).core.ctx with wdblk := 0x800008000 }
    ∧ (∀ o : BitVec 6, o ∈ [3, 4, 5, 6, 7, 8, 9] → plainOk (hdr o 0 0 0 0) = true) ∧ isNear (0x800010000 : BitVec 48).toNat = true
    ∧ (linked 3).core.ctx.wdst.link.length < 4 ∧ 4 ≤ (linked 4).core.ctx.wdst.link.length ∧ (∃ a rest, (linked 3).core.ctx.wdst.link = a :: rest)
    ∧ (let h (r : BitVec 16) (v : BitVec 32) : BlockHdr := { hdr 7 0 0 r 0x800010000 with word4 := v }
       plainOk (h 1 0) = true ∧ (h 1 0).route.toNat / 32 = 0 ∧ (h 1 0).route.toNat % 4 = 1 ∧ (h 0 0).route.toNat % 4 = 0 ∧ syncScope (h 1 0) = some .core
         ∧ NearRead (blockAt (h 1 0) (wdState oneAcc)) 0x800010000 8 (blockAt (h 1 0) (wdState oneAcc))
         ∧ NearOpen (blockAt (h 0 5) (wdState oneAcc)) 0x800010000 8
         ∧ (h 1 0).word4.toNat ≤ leNat ((blockAt (h 1 0) (wdState oneAcc)).nearRead 0x800010000 8)
         ∧ leNat ((blockAt (h 1 1) (wdState oneAcc)).nearRead 0x800010000 8) < (h 1 1).word4.toNat
         ∧ ∃ b1, releaseAt .core (blockAt (h 0 5) (wdState oneAcc)) = .ok ((), b1) ∧ NearOpen b1 0x800010000 8 ∧ partPoison b1 0x800010000 8 = false)
    ∧ (∃ b1, oneAcc.dst = .reg 7 ∧ (wdState oneAcc).core.ctx.pendingX 7 = false ∧ settlePushes (blockAt (hdr 8 0 0 5 0) (wdState oneAcc)) = .ok ((), b1) ∧ stepping b1 = false
      ∧ b1.core.ctx.wdst = oneAcc)
    ∧ Enters (hdr 10 0 0 0 0) (wdState oneAcc) := by
  refine ⟨enters_wd _ _ rfl, rfl, by decide +kernel, by decide, by decide, by decide, ⟨_, _, rfl⟩,
    ⟨by decide +kernel, by decide, by decide, by decide, by decide, ⟨by decide, by decide, by decide, rfl, by decide, by decide⟩, ⟨by decide, by decide, by decide, by decide, by decide⟩, by decide, by decide,
      ⟨_, rfl, ⟨by decide, by decide, by decide, by decide, by decide⟩, by decide⟩⟩, ⟨_, rfl, rfl, rfl, by decide +kernel, by decide +kernel⟩, enters_wd _ _ rfl⟩

/-- The current block is a HINT in near memory whose SUCC is a block of the far page; an entry 65,535 and 65,536 cycles old. -/
def chained : State :=
  let s := farPage 0x3F (wdState oneAcc)
  { s with quarry := memWrite s.quarry 0x40000040 (leBytes 8 6)
           near := memWrite s.near 0x800008000 (leBytes 8 6 ++ leBytes 8 0x1000000040) }.mapCtx fun c => { c with wdblk := spot }
def aged (t : Word) : State := { demo with time := t, tiles := demo.tiles.map fun tl => { tl with staging := [{ vd := 0, addr := 0, bytes := [], at_ := 0 }] } }
theorem witness_StagedBlocks :
    (chained.coreOf 0).ctx.wd = true
    ∧ isOk (blkRead spot.toNat 0 64 (chained.focusOn 0)) (fun hb _ => let cur := blockHdr spot.toNat hb
        cur.opc != 4 && cur.opc != 5 && decide (cur.opc.toNat < 8) && cur.succ.toNat == 0x1000000040) = true
    ∧ isFar 0x1000000040 = true ∧ 0x1000000040 % 64 = 0 ∧ (chained.focusOn 0).staged 0x1000000040 = none
    ∧ isOk (blkFetch 0x1000000040 64 (chained.focusOn 0)) (fun nb s1 => let h := blockHdr 0x1000000040 nb
        let r := fetchPart 0x1000000040 (h.plen.toNat / 4096 + 2) 64 h.plen.toNat s1
        plainOk h && decide ((nb ++ r.1).length ≤ 262144) && r.2.2.vd == some 0 && s1.core.id == 0 && r.2.2.core.id == 0) = true
    ∧ (∃ e, ((aged 65536).tileOf 0).staging[0]? = some e ∧ 65536 ≤ ((aged 65536).time - e.at_).toNat)
    ∧ (∃ e, ((aged 65535).tileOf 0).staging[0]? = some e ∧ ((aged 65535).time - e.at_).toNat < 65536) :=
  ⟨rfl, by decide +kernel, by decide, by decide, by decide, by decide +kernel, ⟨_, rfl, by decide⟩, ⟨_, rfl, by decide⟩⟩
/-- A staged block of 64 + 8 KiB with its second page gone, and one with a table. -/
def holding (e : Staged) : State := { demo with tiles := demo.tiles.map fun tl => { tl with staging := [e] } }
def partStaged : Staged := { vd := 0, addr := 0x1000000040, bytes := zeroBytes 4160, at_ := 0, gone := [(4032, 128)] }
def lutStaged : Staged := { vd := 0, addr := 0x1000000040, bytes := zeroBytes 2112, at_ := 0, table := some {} }
theorem witness_StagedBlocks_parts :
    (holding partStaged).staged partStaged.addr = some partStaged ∧ partStaged.table = none
    ∧ 64 + 64 ≤ partStaged.bytes.length ∧ (∀ g ∈ partStaged.gone, g.1 + g.2 ≤ 64 ∨ 64 + 64 ≤ g.1)
    ∧ (∃ g ∈ partStaged.gone, 0 < g.2 ∧ g.1 < 4000 + 64 ∧ 4000 < g.1 + g.2)
    ∧ (holding lutStaged).staged lutStaged.addr = some lutStaged ∧ (∃ b, lutStaged.table = some b)
    ∧ (holding lutStaged).core.ctx.wdblk.toNat ≠ lutStaged.addr ∧ 64 + 1024 * (1 + 1) ≤ lutStaged.bytes.length ∧ (∀ g ∈ lutStaged.gone, False) :=
  ⟨by decide +kernel, rfl, by decide +kernel, by decide, ⟨_, .head _, by decide⟩, by decide +kernel, ⟨_, rfl⟩, by decide, by decide +kernel, nofun⟩
/-- Beyond what device 0 maps, a page is not present. -/
theorem witness_StagedBlocks_missing :
    (chained.focusOn 0).staged 0x1400000000 = none ∧ isFar 0x1400000000 = true ∧ 0x1400000000 % 64 = 0
    ∧ (match blkFetch 0x1400000000 64 (chained.focusOn 0) with | .error (.trap tr) => tr.cause == .pageNp | _ => false) = true
    ∧ isOk (blkFetch 0x1000000040 64 (chained.focusOn 0)) (fun _ _ => true) = true := by
  decide +kernel

/-! Witnesses: observation, soft errors, leases, the host's registers, the drive window. -/

/-- Tile 0 with the plumb and the trace ring at `spot`, 256 bytes long: the pulse at every 2^k cycles, PRHEAD, TRHEAD and the hidden place. -/
def ringed (k prhead trhead ppos : Nat) (t : Word) : State :=
  { demo with
      time := t
      near := memWrite demo.near (nearAddr 0 35 0xFF000)
        (leBytes 8 k ++ leBytes 8 0x800008000 ++ leBytes 8 256 ++ leBytes 8 prhead ++ leBytes 8 0 ++ leBytes 8 0x800008000 ++ leBytes 8 256 ++ leBytes 8 trhead)
      tiles := demo.tiles.map fun tl => { tl with ppos := ppos } }
def ringTakesB (s : State) (base len p n : Nat) : Bool :=
  decide (p + n ≤ len) && decide (0 < n) && (s.tileOf 0).vd == some 0
    && (match s.devOf 0 with
      | some d => (List.range n).all fun i => isNear (base + p + i) && nearExists (base + p + i) && d.tiles.contains (nearTile (base + p + i))
      | none => false)
    && (List.range n).all fun i => !isObs (base + p + i)
theorem ringTakes_of {s : State} {base len p n : Nat} (h : ringTakesB s base len p n = true) : RingTakes s 0 base len p n := by
  simp only [ringTakesB, Bool.and_eq_true, decide_eq_true_eq, beq_iff_eq] at h
  obtain ⟨⟨⟨⟨h1, h2⟩, h3⟩, h4⟩, h5⟩ := h
  split at h4
  · rename_i d hd
    refine ⟨h1, h2, ⟨0, d, h3, hd, fun b hb => ?_⟩, fun i hi => ?_⟩
    on_goal 2 =>
      have := List.all_eq_true.mp h5 i (List.mem_range.mpr hi)
      simpa using this
    have := List.all_eq_true.mp h4 b (List.mem_range.mpr hb)
    simp only [Bool.and_eq_true] at this
    exact ⟨this.1.1, this.1.2, this.2⟩
  · cases h4
/-- No pulse for K = 0 and between its instants; a pulse at PRHEAD 0, after the last record, and back at the base. -/
theorem witness_PlumbAndTrace_pulse :
    word (ringed 0 0 0 0 1024) (nearAddr 0 35 0xFF000) % 32 = 0
    ∧ (1025 : Word).toNat % 2 ^ (word (ringed 10 0 0 0 1025) (nearAddr 0 35 0xFF000) % 32) ≠ 0
    ∧ (∀ q ∈ [(0, 99, 0), (64, 48, 48), (256, 240, 0)], let s := ringed 10 q.1 0 q.2.1 1024
      let base := word s (nearAddr 0 35 0xFF008)
      let len := word s (nearAddr 0 35 0xFF010)
      let pos := if word s (nearAddr 0 35 0xFF018) = 0 then 0 else (s.tileOf 0).ppos
      let p := if pos + (plumbRecord s 0).length ≤ len then pos else 0
      p = q.2.2 ∧ s.time.toNat % 2 ^ (word s (nearAddr 0 35 0xFF000) % 32) = 0 ∧ memWf s.near = true
        ∧ ringTakesB s base len p (plumbRecord s 0).length = true) := by
  decide +kernel
theorem witness_PlumbAndTrace_idle : ∀ k < 32, (({ base with core := { base.core with mode := .idle } } : State).coreOf (mkCore 0 k)).mode = .idle
    ∧ migratedFrom ({ base with core := { base.core with mode := .idle } } : State) (mkCore 0 k) = false := by decide +kernel
/-- A running core, a core that waits for an operand, and trace records at the ring's start and at its end. -/
theorem witness_PlumbAndTrace_trace :
    (demo.coreOf 0).mode = .running ∧ (demo.coreOf 0).ctx.wd = false ∧ (demo.coreOf 0).ctx.stall = none
    ∧ (let s := demo.mapCtx fun c => { c with stall := some .acquire }
       (s.coreOf 0).mode = .running ∧ (s.coreOf 0).ctx.wd = false ∧ (s.coreOf 0).ctx.stall = some .acquire ∧ (s.coreOf 0).ctx.mxops = [])
    ∧ (∀ q ∈ [(0, 0), (224, 224), (240, 0)], let s := ringed 0 0 q.1 0 1024
      let base := word s (nearAddr 0 35 0xFF028)
      let len := word s (nearAddr 0 35 0xFF030)
      let pos := word s (nearAddr 0 35 0xFF038) % len
      let p := if pos + 32 ≤ len then pos else 0
      p = q.2 ∧ memWf s.near = true ∧ ringTakesB s base len p 32 = true)
    ∧ ∃ r, ((ringed 0 0 0 0 1024).updCore 0 fun co => { co with traceBuf := [{ time := 1, mark := 2, event := 3, data := 4 }] }).core.traceBuf = [r] :=
  ⟨rfl, rfl, rfl, ⟨rfl, rfl, rfl, rfl⟩, by decide +kernel, ⟨_, rfl⟩⟩
/-- The first and the last word of core 0's slice. -/
theorem witness_ErrorsAndPower : ∀ a ∈ [0x800000000, 0x8000FFFFF], isNear (a / 8 * 8) = true ∧ nearExists (a / 8 * 8) = true ∧ memWf base.near = true
    ∧ tileDie (nearTile (a / 8 * 8)) = (0 : Fin 8).val := by decide

/-! The lease. -/

def leased (l : LeaseState) (deadline : Word) (s : State := demo) : State :=
  { s with time := 800, host := { s.host with lease := l, port := 0, hostid := 7, deadline := deadline } }
/-- HOSTID 7 in the upper half. -/
def seven : Word := 0x700000000
/-- A write that takes, one with a set bit, one of host 0; vacant, held by the writer up to its deadline at microsecond 1, by another host or port, expired. -/
theorem witness_Leases :
    (let id (v : Word) : BitVec 32 := BitVec.ofNat 32 (v.toNat / 2 ^ 32)
     id seven ≠ 0 ∧ id seven = 7 ∧ seven.toNat % 2 = 0 ∧ id 6 = 0 ∧ (seven + 1).toNat % 2 = 1)
    ∧ leaseNow (leased .vacant 0) = .vacant ∧ leaseNow (leased .held 2) = .held ∧ (leased .held 2).host.port = (0 : Fin 2) ∧ (leased .held 2).host.hostid = 7
    ∧ (leased .held 2).host.port ≠ (1 : Fin 2) ∧ leaseNow (leased .held 1) = .expired ∧ leaseNow (leased .expired 9) = .expired := by
  decide
def withQueue (k : Queue) (s : State := demo) : State := { s with devs := s.devs.map fun d => { d with queues := [k] } }
def someQueue : Queue := { num := 5, lintel := 1, ring := 0x200000, log2 := 6 }
theorem witness_HostRegisters :
    (leased .vacant 0).host.lease = .vacant ∧ (leased .held 2).host.port ≠ (1 : Fin 2)
    ∧ (leased .held 2).host.lease ≠ .vacant ∧ (leased .held 2).queueOf 5 = none
    ∧ (∃ d, (withQueue someQueue (leased .held 2)).queueOf 5 = some (d, someQueue) ∧ (withQueue someQueue (leased .held 2)).devOf d.num = some d)
    ∧ bytesWord (leBytes 8 1) = 1 ∧ (demo.host.ports[(0 : Fin 2)]).busy = false ∧ memWf (demo.host.ports[(0 : Fin 2)]).mailbox = true
    ∧ 0x4000 ≤ 0x7FF8 ∧ 0x7FF8 + (leBytes 8 1).length ≤ 0x8000 ∧ 0x3FF8 + (leBytes 8 1).length ≤ 0x4000 ∧ 0x8000 + 8 * 1023 = 0x9FF8 :=
  ⟨rfl, by decide, by decide, rfl, ⟨_, rfl, rfl⟩, by decide, rfl, rfl, by decide, by decide, by decide, rfl⟩

/-! The drive window: 8 KiB at the start of core 0's slice, with a route to core 3. -/

def windowed (nvbase : Nat) : State :=
  { demo with devs := demo.devs.map fun d => { d with policy := { d.policy with nvbase := nvbase, nvlen := 8192, routes := [(3, 9)] } } }
/-- Bytes below the page and the last ones after it; bytes past the end, bytes of the spill area; an interrupt word, one that is
misaligned and one of 8 bytes; an evicted device; the first and the last entry of the page. -/
theorem witness_DriveWindow :
    (∃ d, (windowed 0x800000000).windowDev = some d ∧ (windowed 0x800000000).host.thermal = false ∧ 4096 ≤ d.policy.nvlen ∧ d.state ≠ .evicted
      ∧ (∀ i < 8, openByte d (4088 + i) = true ∧ ¬ (d.policy.nvlen - 4096 ≤ 4088 + i ∧ 4088 + i < d.policy.nvlen - 4096 + 64))
      ∧ (∀ i < 8, openByte d (8184 + i) = true ∧ ¬ (d.policy.nvlen - 4096 ≤ 8184 + i ∧ 8184 + i < d.policy.nvlen - 4096 + 64))
      ∧ (openByte d 8192 = false ∧ ¬ (8192 < d.policy.nvlen - 4096 + 64))
      ∧ (∀ i < 8, openByte d (4092 + i) = true ∨ (d.policy.nvlen - 4096 ≤ 4092 + i ∧ 4092 + i < d.policy.nvlen - 4096 + 64))
      ∧ (4096 = d.policy.nvlen - 4096 + 4 * 0 ∧ ∃ b0 b1 b2 b3 : Byte, leBytes 4 9 = [b0, b1, b2, b3])
      ∧ ¬ ((leBytes 4 9).length = 4 ∧ (4098 - (d.policy.nvlen - 4096)) % 4 = 0) ∧ (leBytes 8 9).length ≠ 4
      ∧ d.policy.routes[0]? = some (3, 9) ∧ d.policy.routes.length ≤ 1)
    ∧ (∃ d, (windowed (nearAddr 0 35 0xFE000)).windowDev = some d ∧ (∀ i < 8, openByte d (4096 + 64 + i) = false))
    ∧ (∃ d, ({ windowed 0x800000000 with devs := (windowed 0x800000000).devs.map fun d => { d with state := .evicted } } : State).windowDev = some d
      ∧ d.state = .evicted) :=
  ⟨⟨_, rfl, rfl, by decide, by decide, by decide, by decide, by decide, by decide, ⟨by decide, _, _, _, _, rfl⟩, by decide, by decide, rfl, by decide⟩,
   ⟨_, rfl, by decide⟩, ⟨_, rfl, rfl⟩⟩

/-! Witnesses: the mailbox. A VDID is opaque, so the mailbox names device 0 by the model's own function. -/

/-- A command's bytes without its VDID. -/
def plainBox (op mbz plen : Nat) (args : List Byte) : Memory := memWrite [] 0 (leBytes 2 op ++ leBytes 2 mbz ++ leBytes 4 0 ++ leBytes 4 plen ++ leBytes 4 0 ++ args)
def vdidBytes : List Byte := leBytes 4 (vdidOf 0).toNat
/-- The command waits on port 0, naming device 0. -/
def asked (op mbz plen : Nat) (args : List Byte) (s : State) : State :=
  let k : Port := { mailbox := memWrite (plainBox op mbz plen args) 4 vdidBytes, busy := true, arrived := s.time, holder := s.host.lease == .held }
  { s with host := { s.host with ports := s.host.ports.set 0 k } }

theorem plainBox_wf (op mbz plen : Nat) (args : List Byte) : memWf (plainBox op mbz plen args) = true := memWrite_wf rfl _ _
theorem asked_out (op mbz plen : Nat) (args : List Byte) (s : State) (off n : Nat) (h : off + n ≤ 4 ∨ 8 ≤ off) :
    mbNat (asked op mbz plen args s) 0 off n = leNat (memRead (plainBox op mbz plen args) off n) := by
  have e : (asked op mbz plen args s).host.ports[(0 : Fin 2)].mailbox = memWrite (plainBox op mbz plen args) 4 vdidBytes := by simp [asked]
  unfold mbNat
  rw [e]
  congr 1
  apply List.ext_getElem
  · simp only [memRead_length]
  · intro i h1 h2
    rw [memRead_length] at h1
    rw [memRead_get _ _ _ _ h1, memRead_get _ _ _ _ h1]
    have : vdidBytes.length = 4 := leBytes_length _ _
    exact memGet_memWrite_out (plainBox_wf _ _ _ _) _ _ _ (by omega)
theorem asked_vdid (op mbz plen : Nat) (args : List Byte) (s : State) :
    BitVec.ofNat 32 (mbNat (asked op mbz plen args s) 0 4 4) = vdidOf 0 := by
  have e : (asked op mbz plen args s).host.ports[(0 : Fin 2)].mailbox = memWrite (plainBox op mbz plen args) 4 vdidBytes := by simp [asked]
  unfold mbNat
  rw [e, show (4 : Nat) = vdidBytes.length from (leBytes_length _ _).symm, show vdidBytes.length = 4 from leBytes_length _ _]
  have r := memRead_memWrite (plainBox_wf op mbz plen args) 4 vdidBytes
  rw [show vdidBytes.length = 4 from leBytes_length _ _] at r
  rw [r, vdidBytes, leNat_leBytes]
  apply BitVec.eq_of_toNat_eq
  have := (vdidOf 0).isLt
  simp only [BitVec.toNat_ofNat]
  omega

/-- What is left to evaluate of a command's header. -/
def plainWaits (op mbz plen : Nat) (args : List Byte) : Bool := leNat (memRead (plainBox op mbz plen args) 0 2) == op
def plainOkB (op mbz plen used : Nat) (args : List Byte) : Bool :=
  let f (off n : Nat) : Nat := leNat (memRead (plainBox op mbz plen args) off n)
  f 2 2 == 0 && f 12 4 == 0 && f (16 + used) (48 - used) == 0 && decide (f 8 4 ≤ 16320)
theorem waits_of {op mbz plen : Nat} {args : List Byte} (s : State) (h : plainWaits op mbz plen args = true)
    (b : s.host.capReady = true ∧ s.host.lintelsReady = true := by exact ⟨rfl, rfl⟩) : Waits (asked op mbz plen args s) 0 op :=
  ⟨by simp [asked], b, by rw [asked_out _ _ _ _ _ _ _ (.inl (by decide))]; exact beq_iff_eq.mp h⟩
theorem header_iff (op mbz plen used : Nat) (args : List Byte) (s : State) :
    HeaderOk (asked op mbz plen args s) 0 used ↔ plainOkB op mbz plen used args = true := by
  simp only [HeaderOk, plainOkB, asked_out _ _ _ _ _ 2 2 (.inl (by decide)), asked_out _ _ _ _ _ 12 4 (.inr (by decide)),
    asked_out _ _ _ _ _ (16 + used) (48 - used) (.inr (by omega)), asked_out _ _ _ _ _ 8 4 (.inr (by decide)), Bool.and_eq_true, beq_iff_eq, decide_eq_true_eq, and_assoc]
/-- Device 0 in a state, under a lease of port 0 that has not ended. -/
def ruled (st : VdState) (cmds : Word) (saves : List SaveRec) : State :=
  leased .held 9 { demo with devs := demo.devs.map fun d => { d with state := st, saves := saves, policy := { d.policy with cmds := cmds, handles := [(0x100000, 4096, 0x0F)] }
                                                                     queues := [someQueue] } }
def ruledDev (st : VdState) (cmds : Word) (saves : List SaveRec) : Device := nth (ruled st cmds saves).devs 0 { num := 0, tiles := [] }
theorem holds_asked (op mbz plen : Nat) (args : List Byte) (st : VdState) (cmds : Word) (saves : List SaveRec) :
    Holds (asked op mbz plen args (ruled st cmds saves)) 0 := by simp [Holds, asked, ruled, leased]
theorem named_asked (op mbz plen : Nat) (args : List Byte) (st : VdState) (cmds : Word) (saves : List SaveRec) :
    named (asked op mbz plen args (ruled st cmds saves)) 0 = some (ruledDev st cmds saves) := by
  have e : (asked op mbz plen args (ruled st cmds saves)).devs = [ruledDev st cmds saves] := rfl
  have n : (ruledDev st cmds saves).num = 0 := rfl
  simp [named, e, n, asked_vdid]
theorem accepted_of {op used : Nat} {args : List Byte} (st : VdState) (saves : List SaveRec) (h1 : plainWaits op 0 0 args = true)
    (h2 : plainOkB op 0 0 used args = true) (h3 : (0xFFFFFFFFFFFFFFFF : Word).toNat.testBit op = true) :
    Accepted (asked op 0 0 args (ruled st 0xFFFFFFFFFFFFFFFF saves)) 0 op used (ruledDev st 0xFFFFFFFFFFFFFFFF saves) :=
  ⟨waits_of _ h1, (header_iff _ _ _ _ _ _).mpr h2, .inr (holds_asked _ _ _ _ _ _ _), named_asked _ _ _ _ _ _ _, h3⟩

/-- Each command without the lease; with a set must-be-zero byte; of no device; of a faulted one; denied; in a state it is not valid in. -/
theorem witness_RefusedCommands :
    (∀ op ∈ [1, 2, 3, 4, 5, 6, 7, 8, 9, 12, 13, 10, 0, 15], Waits (asked op 0 0 [] (ruled .running 0 [])) 0 op)
    ∧ (∀ op ∈ [2, 3, 13], Waits (asked op 1 0 [] (ruled .running 0 [])) 0 op ∧ ∀ used ∈ [0, 24], ¬ HeaderOk (asked op 1 0 [] (ruled .running 0 [])) 0 used)
    ∧ (∀ op s, ¬ Holds (asked op 0 0 [] (leased .expired 9 s)) 0) ∧ leaseNow (asked 10 0 0 [] (ruled .running 0 [])) = .held
    ∧ (∀ op ∈ [2, 5, 13], HeaderOk (asked op 0 0 [] (ruled .running 0 [])) 0 0) ∧ HeaderOk (asked 10 0 0 [] (ruled .running 0 [])) 0 4
    ∧ (∀ op, named (asked op 0 0 [] State.reset) 0 = none)
    ∧ (ruledDev .faulted 0 []).state = .faulted ∧ (ruledDev .running 0 []).policy.cmds.toNat.testBit 2 = false
    ∧ (ruledDev .paused 0xFFFFFFFFFFFFFFFF []).policy.cmds.toNat.testBit 5 = true ∧ VdState.paused ∉ [VdState.running] := by
  refine ⟨?_, ?_, ?_, by decide, ?_, (header_iff _ _ _ _ _ _).mpr (by decide), fun _ => rfl, rfl, by decide, by decide, by decide⟩
  · intro op h
    simp only [List.mem_cons, List.not_mem_nil, or_false] at h
    rcases h with rfl | rfl | rfl | rfl | rfl | rfl | rfl | rfl | rfl | rfl | rfl | rfl | rfl | rfl <;> exact waits_of _ (by decide)
  · intro op h
    simp only [List.mem_cons, List.not_mem_nil, or_false] at h
    rcases h with rfl | rfl | rfl <;> refine ⟨waits_of _ (by decide), fun u hu => ?_⟩ <;> simp only [List.mem_cons, List.not_mem_nil, or_false] at hu <;>
      rcases hu with rfl | rfl <;> rw [header_iff] <;> decide
  · intro op s h
    simp [Holds, asked, leased] at h
  · intro op h
    simp only [List.mem_cons, List.not_mem_nil, or_false] at h
    rcases h with rfl | rfl | rfl <;> rw [header_iff] <;> decide

/-- Entry 0, rights R and W, all 4,096 bytes; queue 0 at lintel 3 and a slice of 1. -/
def mapArgs : List Byte := [0, 3] ++ zeroBytes 6 ++ leBytes 8 0 ++ leBytes 8 4096
def schedArgs : List Byte := [3] ++ zeroBytes 15 ++ leBytes 8 1
theorem quiet_ruled (op : Nat) : Quiet (asked op 0 0 [] (ruled .running 0xFFFFFFFFFFFFFFFF [])) (ruledDev .running 0xFFFFFFFFFFFFFFFF []) := by
  refine ⟨rfl, ?_, fun _ h => absurd h List.not_mem_nil, rfl, ?_, ?_, ?_⟩
  · intro t h; have : t = 0 := List.mem_singleton.mp h
    subst this; exact (by decide : (demo.tileOf 0).jobs = [])
  · intro t h; have : t = 0 := List.mem_singleton.mp h
    subst this; exact (by decide : (memWord demo.near (nearAddr 0 35 0xFF020)).getLsbD 7 = false)
  · intro co h _
    have : co = demo.core := List.mem_singleton.mp h
    subst this
    exact .inr ⟨rfl, rfl, rfl, rfl, rfl, rfl⟩
  · exact (by simp only [OneEach]; decide : OneEach demo)
/-- Records of core 1 and of the keystone, with a byte of core 1's slice. -/
def twoSaves : List SaveRec := [{ core := { id := 1 }, locks := [], slice := [(0x800100000, 9)] }, { core := { id := 32 }, locks := [] }]
theorem witness_DeviceCommands :
    Accepted (asked 2 0 0 [] (ruled .running 0xFFFFFFFFFFFFFFFF [])) 0 2 0 (ruledDev .running 0xFFFFFFFFFFFFFFFF [])
    ∧ (let s := asked 3 0 0 mapArgs (ruled .running 0xFFFFFFFFFFFFFFFF []); let d := ruledDev .running 0xFFFFFFFFFFFFFFFF []
       Accepted s 0 3 24 d ∧ d.policy.handles[mbNat s 0 16 1]? = some (0x100000, 4096, 0x0F) ∧ mbNat s 0 18 6 = 0 ∧ BitVec.ofNat 8 (mbNat s 0 17 1) &&& ~~~ (0x0F : BitVec 8) = 0
         ∧ mbNat s 0 24 8 + mbNat s 0 32 8 ≤ 4096 ∧ mbNat s 0 32 8 ≤ 2 ^ 40 ∧ ((s.devs.map fun d => d.handles.map Handle.val).flatten).length < 2 ^ 24 - 3)
    ∧ (let s := asked 4 0 0 schedArgs (ruled .paused 0xFFFFFFFFFFFFFFFF []); let d := ruledDev .paused 0xFFFFFFFFFFFFFFFF []
       Accepted s 0 4 24 d ∧ (∀ i < 16, mbNat s 0 (16 + i) 1 < 4 ∧ (d.queues.length ≤ i → mbNat s 0 (16 + i) 1 = 0)) ∧ 0 < mbNat s 0 32 8)
    ∧ Accepted (asked 5 0 0 [] (ruled .running 0xFFFFFFFFFFFFFFFF [])) 0 5 0 (ruledDev .running 0xFFFFFFFFFFFFFFFF [])
    ∧ Quiet (asked 5 0 0 [] (ruled .running 0xFFFFFFFFFFFFFFFF [])) (ruledDev .running 0xFFFFFFFFFFFFFFFF [])
    ∧ (∀ op ∈ [6, 7], Accepted (asked op 0 0 [] (ruled .paused 0xFFFFFFFFFFFFFFFF twoSaves)) 0 op 0 (ruledDev .paused 0xFFFFFFFFFFFFFFFF twoSaves))
    ∧ (twoSaves.map (·.core.id)).Nodup ∧ OneEach demo ∧ (ruledDev .paused 0xFFFFFFFFFFFFFFFF twoSaves).courses = []
    ∧ (let s := asked 8 0 0 [] (ruled .evicted 0xFFFFFFFFFFFFFFFF twoSaves); let d := ruledDev .evicted 0xFFFFFFFFFFFFFFFF twoSaves
       Accepted s 0 8 0 d ∧ s.host.thermal = false ∧ memWf s.near = true ∧ (∀ t ∈ d.tiles, t.toNat % 64 < 48 ∧ ∀ k ∈ s.devs, t ∈ k.tiles → k.state = .evicted)
         ∧ (∀ r ∈ d.saves, coreTile r.core.id ∈ d.tiles ∧ coreSlot r.core.id ≤ 32 ∧ memWf r.slice = true
           ∧ ∀ c ∈ r.slice, (sliceOf r.core.id).1 ≤ c.1 ∧ c.1 < (sliceOf r.core.id).1 + (sliceOf r.core.id).2)) := by
  refine ⟨accepted_of _ _ (by decide) (by decide) (by decide), ?_, ?_, accepted_of _ _ (by decide) (by decide) (by decide), quiet_ruled _, ?_,
    by decide, by simp only [OneEach]; decide, rfl, accepted_of _ _ (by decide) (by decide) (by decide), rfl, rfl, by decide, by decide⟩
  · refine ⟨accepted_of _ _ (by decide) (by decide) (by decide), ?_⟩
    simp only [asked_out _ _ _ _ _ 16 1 (.inr (by decide)), asked_out _ _ _ _ _ 18 6 (.inr (by decide)), asked_out _ _ _ _ _ 17 1 (.inr (by decide)),
      asked_out _ _ _ _ _ 24 8 (.inr (by decide)), asked_out _ _ _ _ _ 32 8 (.inr (by decide))]
    decide
  · refine ⟨accepted_of _ _ (by decide) (by decide) (by decide), fun i hi => ?_, ?_⟩
    · rw [asked_out _ _ _ _ _ (16 + i) 1 (.inr (by omega))]
      revert i; decide
    · rw [asked_out _ _ _ _ _ 32 8 (.inr (by decide))]; decide
  · intro op h
    simp only [List.mem_cons, List.not_mem_nil, or_false] at h
    rcases h with rfl | rfl <;> exact accepted_of _ _ (by decide) (by decide) (by decide)

/-- Host 7 renews; host 7 claims an expired lease; the reports. -/
theorem witness_LeaseAndReports :
    (let s := asked 9 0 0 [7] (ruled .running 0 [])
     Waits s 0 9 ∧ HeaderOk s 0 4 ∧ Holds s 0 ∧ BitVec.ofNat 32 (mbNat s 0 16 4) = 7 ∧ s.host.hostid = 7)
    ∧ (let s := asked 10 0 0 [7] (leased .expired 1)
       Waits s 0 10 ∧ HeaderOk s 0 4 ∧ leaseNow s = .expired ∧ s.host.deadline.toNat ≤ s.host.ports[(0 : Fin 2)].arrived.toNat / 800 ∧ BitVec.ofNat 32 (mbNat s 0 16 4) = 7)
    ∧ (let s := asked 14 0 0 [] demo; Waits s 0 14 ∧ HeaderOk s 0 0)
    ∧ (let s := asked 11 0 0 [] demo; Waits s 0 11 ∧ HeaderOk s 0 4 ∧ ∃ d, s.devs = [d] ∧ mbNat s 0 16 4 = 0)
    ∧ Accepted (asked 12 0 0 (leBytes 8 5) (ruled .paused 0xFFFFFFFFFFFFFFFF [])) 0 12 32 (ruledDev .paused 0xFFFFFFFFFFFFFFFF []) := by
  refine ⟨⟨waits_of _ (by decide), (header_iff _ _ _ _ _ _).mpr (by decide), holds_asked _ _ _ _ _ _ _, ?_, rfl⟩,
    ⟨waits_of _ (by decide), (header_iff _ _ _ _ _ _).mpr (by decide), by decide +kernel, by simp [asked, leased], ?_⟩,
    ⟨waits_of _ (by decide), (header_iff _ _ _ _ _ _).mpr (by decide)⟩, ⟨waits_of _ (by decide), (header_iff _ _ _ _ _ _).mpr (by decide), _, rfl, ?_⟩,
    accepted_of _ _ (by decide) (by decide) (by decide)⟩ <;> rw [asked_out _ _ _ _ _ 16 4 (.inr (by decide))] <;> decide
theorem witness_PolicyCommands :
    (let s := asked 1 0 0 [] (ruled .running 0 []); Waits s 0 1 ∧ HeaderOk s 0 2 ∧ Holds s 0)
    ∧ Accepted (asked 13 0 0 [] (ruled .running 0xFFFFFFFFFFFFFFFF [])) 0 13 0 (ruledDev .running 0xFFFFFFFFFFFFFFFF []) :=
  ⟨⟨waits_of _ (by decide), (header_iff _ _ _ _ _ _).mpr (by decide), holds_asked _ _ _ _ _ _ _⟩, accepted_of _ _ (by decide) (by decide) (by decide)⟩

/-! Witnesses: packets, and the statements over the whole machine. -/

/-- Queue 5 of device 0 with its ring at 0x200000, notified, with room for two packets; a handle over 4,096 bytes at 0x300000; the packet in
the slot HEAD names. -/
def ringQueue (head : Word) : Queue := { num := 5, lintel := 1, ring := 0x200000, log2 := 1, head := head, notified := true }
def ringHandle : Handle := { val := 9, entry := 0, base := 0x300000, len := 4096, r := true, w := true, shared := true, launch := true }
def ringDev (cmds : Word) (head : Word) : Device :=
  let d := nth demo.devs 0 { num := 0, tiles := [] }
  { d with queues := [ringQueue head], handles := [ringHandle], policy := { d.policy with cmds := cmds, maxprio := 127 } }
def packet (hdr csig desc value : Nat) : List Byte := leBytes 8 (hdr + 0x1234 * 65536) ++ leBytes 8 desc ++ leBytes 8 csig ++ leBytes 8 value
def ringing (cmds head : Word) (pkt : List Byte) (s : State := leased .held 9) : State :=
  { s with devs := [ringDev cmds head], host := { s.host with lintelsReady := true }
           quarry := memWrite s.quarry (slotOf (ringQueue head)) pkt }
/-- Engine address of the handle's byte n. -/
def ea (n : Nat) : Nat := 9 * 2 ^ 40 + n
def allCmds : Word := 0xFFFFFFFFFFFFFFFF
def readingB (s : State) (k : Queue) : Bool := hdrField s k 0 1 % 2 == 1 && memWf s.quarry
theorem reading_of {cmds head : Word} {pkt : List Byte} {s0 : State} (h : readingB (ringing cmds head pkt s0) (ringQueue head) = true) :
    Reading (ringing cmds head pkt s0) 5 (ringDev cmds head) (ringQueue head) := by
  simp only [readingB, Bool.and_eq_true, beq_iff_eq] at h
  exact ⟨rfl, rfl, rfl, rfl, rfl, rfl, rfl, h.1, h.2⟩
/-- The packets that are carried out or refused, in the first and the second slot; a completion signal at the handle's bytes 8-15. -/
theorem witness_QueuePackets :
    (∀ head ∈ [(0 : Word), 1], ∀ hdr ∈ [7, 23],
      let s := ringing allCmds head (packet hdr (ea 8) 0 3); let k := ringQueue head; let d := ringDev allCmds head
      Reading s 5 d k ∧ csigAt s d k = some 0x300008 ∧ clearOf k 0x300008 8 ∧ typeOf s k = 3 ∧ packetReason s d k (packetOf (memRead s.quarry (slotOf k) 64)) = 0)
    ∧ (let s := ringing allCmds 0 (packet 5 (ea 8) 0 0); let k := ringQueue 0; let d := ringDev allCmds 0
       Reading s 5 d k ∧ typeOf s k = 2 ∧ packetReason s d k (packetOf (memRead s.quarry (slotOf k) 64)) = 0)
    ∧ (∀ hdr ∈ [9, 15], let s := ringing allCmds 0 (packet hdr 0 0 0); Reading s 5 (ringDev allCmds 0) (ringQueue 0) ∧ 4 ≤ typeOf s (ringQueue 0))
    ∧ (let s := ringing allCmds 0 (packet 7 (ea 4095) 0 3); let k := ringQueue 0; let d := ringDev allCmds 0
       Reading s 5 d k ∧ typeOf s k = 3 ∧ packetReason s d k (packetOf (memRead s.quarry (slotOf k) 64)) = 3)
    ∧ (let s := ringing allCmds 0 (packet 39 0 0 3); let k := ringQueue 0; let d := ringDev allCmds 0
       Reading s 5 d k ∧ typeOf s k = 3 ∧ packetReason s d k (packetOf (memRead s.quarry (slotOf k) 64)) = 4) := by
  refine ⟨?_, ⟨reading_of (by decide +kernel), by decide +kernel⟩, ?_, ⟨reading_of (by decide +kernel), by decide +kernel⟩,
    ⟨reading_of (by decide +kernel), by decide +kernel⟩⟩
  · intro head h hdr h'
    simp only [List.mem_cons, List.not_mem_nil, or_false] at h h'
    rcases h with rfl | rfl <;> rcases h' with rfl | rfl <;>
      exact ⟨reading_of (by decide +kernel), by decide +kernel, ⟨by decide, by decide⟩, by decide +kernel, by decide +kernel⟩
  · intro hdr h
    simp only [List.mem_cons, List.not_mem_nil, or_false] at h
    rcases h with rfl | rfl <;> exact ⟨reading_of (by decide +kernel), by decide +kernel⟩
/-- A COPY of 8 bytes of core 0's slice by a card at the handle's byte 64. -/
def copying : State :=
  let s := ringing allCmds 0 (packet 3 (ea 8) (ea 64) 0)
  { s with quarry := memWrite s.quarry 0x300040 (aCard 1 0 src0 dst0 8 0 8 8) }
theorem witness_QueuePackets_copy :
    Reading copying 5 (ringDev allCmds 0) (ringQueue 0) ∧ typeOf copying (ringQueue 0) = 1
    ∧ packetReason copying (ringDev allCmds 0) (ringQueue 0) (packetOf (memRead copying.quarry (slotOf (ringQueue 0)) 64)) = 0
    ∧ (∃ j, Sys2Proof.Machine.cardOf copying (ringDev allCmds 0) (hdrField copying (ringQueue 0) 8 8) = some j)
    ∧ (copying.tileOf (copyTile (ringDev allCmds 0) (ringQueue 0))).jobs.length < 64 ∧ csigAt copying (ringDev allCmds 0) (ringQueue 0) = some 0x300008 := by
  refine ⟨⟨rfl, rfl, rfl, rfl, rfl, rfl, rfl, by decide +kernel, by decide +kernel⟩, by decide +kernel, by decide +kernel,
    Option.isSome_iff_exists.mp (by decide +kernel), by decide +kernel, by decide +kernel⟩
/-- A BARRIER in the queue with and without an earlier packet outstanding; an ended job of a COPY packet, OK and not OK. -/
def barred (pending : List Nat) : State :=
  let s := ringing allCmds 0 (packet 5 (ea 8) 0 0)
  { s with devs := s.devs.map fun d => { d with queues := d.queues.map fun k =>
      { k with pending := pending, barrier := some { queue := 5, num := 0, seq := 0x1234, csig := ea 8, irq := false } } } }
def copied (status : BitVec 32) : State :=
  withJob { endedJob 0 with poster := none, status := status, packet := some { queue := 5, num := 0, seq := 0x1234, csig := ea 8, irq := false } } (ringing allCmds 0 [])
theorem witness_PacketCompletion :
    (∀ ps ∈ [[], [7]], ∃ d k p, (barred ps).queueOf 5 = some (d, k) ∧ k.num = 5 ∧ (barred ps).devOf d.num = some d ∧ k.barrier = some p ∧ p.queue = 5 ∧ d.state = .running
      ∧ memWf (barred ps).quarry = true ∧ k.pending = ps ∧ p.csig ≠ 0 ∧ extent d p.csig 8 = some ringHandle ∧ clearOf k (ringHandle.base + p.csig % 2 ^ 40) 8)
    ∧ (∀ st ∈ [(0 : BitVec 32), 3], ∃ j d p k, ((copied st).tileOf 0).job 0 = some j ∧ (copied st).devOf j.vd = some d ∧ j.state = .ended ∧ j.poster = none ∧ j.packet = some p
      ∧ cardField j.card 2 2 = 0 ∧ (d.queues.find? fun x => x.num == p.queue) = some k ∧ p.csig ≠ 0 ∧ extent d p.csig 8 = some ringHandle ∧ j.status = st
      ∧ k.ring + 16 ≤ ringHandle.base + p.csig % 2 ^ 40 ∧ memWf (copied st).quarry = true) := by
  refine ⟨?_, ?_⟩
  · intro ps h
    simp only [List.mem_cons, List.not_mem_nil, or_false] at h
    rcases h with rfl | rfl <;> exact ⟨_, _, _, rfl, rfl, rfl, rfl, rfl, rfl, by decide +kernel, rfl, by decide, by decide, ⟨by decide, by decide⟩⟩
  · intro st h
    simp only [List.mem_cons, List.not_mem_nil, or_false] at h
    rcases h with rfl | rfl <;> exact ⟨_, _, _, _, rfl, rfl, rfl, rfl, rfl, by decide, rfl, by decide, by decide, rfl, by decide, by decide +kernel⟩
/-- A launch of two tasks on core 0, its descriptor at the handle's byte 64, its placement map at `spot`. -/
def launching : State :=
  let s := ringing allCmds 0 (packet 1 (ea 8) (ea 64) 0)
  { s with quarry := memWrite s.quarry 0x300040 (leBytes 8 0x800000100 ++ leBytes 8 77 ++ leBytes 2 1 ++ leBytes 2 0 ++ leBytes 2 0 ++ [3, 0]
             ++ leBytes 8 0x800008000 ++ leBytes 8 0 ++ leBytes 8 0x800009000) }
theorem witness_LaunchPackets :
    Reading launching 5 (ringDev allCmds 0) (ringQueue 0) ∧ typeOf launching (ringQueue 0) = 0
    ∧ packetReason launching (ringDev allCmds 0) (ringQueue 0) (packetOf (memRead launching.quarry (slotOf (ringQueue 0)) 64)) = 0
    ∧ (∃ l, launchOf launching (ringDev allCmds 0) (hdrField launching (ringQueue 0) 8 8) = some l)
    ∧ extent (ringDev allCmds 0) (hdrField launching (ringQueue 0) 8 8) 64 = some ringHandle ∧ (ringDev allCmds 0).courses.length < 65536
    ∧ ((List.range' 0x800009000 8).all fun a => !isSpill a) = true := by
  refine ⟨⟨rfl, rfl, rfl, rfl, rfl, rfl, rfl, by decide +kernel, by decide +kernel⟩, by decide +kernel, by decide +kernel,
    Option.isSome_iff_exists.mp (by decide +kernel), by decide +kernel, by decide, by decide +kernel⟩

/-- Registers x1 to x4 under p0, and under a predicate p1 of zero. -/
theorem witness_RegisterFrame : Ready demo [3, 1, 2, 4] ∧ Ready demo [0, 0, 31, 31] ∧ predBit 0 (begun demo) = .ok (true, begun demo)
    ∧ predBit 1 (begun demo) = .ok (false, begun demo) := by
  refine ⟨⟨by decide, by decide⟩, ⟨by decide, by decide⟩, rfl, rfl⟩
/-- ADD x3, x1, 1 in the delivered block of core 0, in near memory at a keystone's PC and in far memory, as a staggered body word and in a
first pass; a SKIP_WORD; a core that has not been given its block. -/
def addWord : Nat := 0x0000000040010C44
def addOne : Instr := .addImm ⟨0, false⟩ (.reg 3) (.reg 1) 1
def coded (w : Nat) (s : State := State.reset) : State := withX [(1, 5)] (s.withFetchWord 64 w)
def keystoneCoded : State := coded addWord (State.reset.focusOn 32)
def farCoded : State :=
  let s := farPage 0x3F keystoneCoded
  { s with quarry := memWrite s.quarry 0x40000040 (leBytes 8 addWord) }.mapCtx fun c => { c with pc := farSpot }
def repeating (body : List (BitVec 128)) : State :=
  (coded addWord).mapCtx fun c => { c with rep := some { imm := 0x10, pass := 0, idx := 0, body := body, pcs := [] } }
def issues (s : State) : Bool :=
  s.powered && s.pulseWaits == none && s.agenda == [] && decide (s.turn < turnLen) && canIssue s.tick && !s.core.ctx.wd
def fetchesB (s : State) (i : Instr) : Bool :=
  match fetched s with
  | some bs => (let v := leNat bs
      decide (lenOf v ≤ 32 - s.core.ctx.pc.toNat % 32) && decodeBits (v % 2 ^ (8 * lenOf v)) == .ok i && (v % 4 != 3 || v % 2 ^ 32 == 0x3FF)
        && (v % 4 == 3 || !bkptMatch s.core s.core.ctx.pc.toNat))
  | none => false
theorem witness_StepRunsDecoded :
    ([(coded addWord, addOne), (coded 0x3FF, .skipWord), (keystoneCoded, addOne)].all fun p => issues p.1 && p.1.core.ctx.rep == none && fetchesB p.1 p.2) = true
    ∧ (let s := farCoded
       issues s = true ∧ s.core.ctx.rep = none ∧ 32 ≤ coreSlot s.core.id ∧ isFar s.core.ctx.pc.toNat = true
         ∧ (match translate s.core.ctx.pc.toNat { x := true } false s with | .ok (pa, _) => decide (pa + 16 ≤ quarryHi) | .error _ => false) = true
         ∧ decodeBits (leNat (memRead s.quarry 0x40000040 16) % 2 ^ 64) = .ok addOne)
    ∧ (∃ r w, (repeating [BitVec.ofNat 128 addWord]).core.ctx.rep = some r ∧ r.body[r.idx]? = some w
      ∧ decodeBits (stagger r.imm.toNat r.pass w.toNat % 2 ^ 64) = .ok addOne)
    ∧ (∃ r, (repeating []).core.ctx.rep = some r ∧ r.body[r.idx]? = none ∧ issues (repeating []) = true ∧ fetchesB (repeating []) addOne = true)
    ∧ (let s := { coded addWord with core := { (coded addWord).core with fblock := none } }
       issues s = true ∧ coreSlot s.core.id < 32 ∧ isNear s.core.ctx.pc.toNat = true ∧ nearOk s s.core.ctx.pc.toNat = true
         ∧ poisoned s (s.core.ctx.pc.toNat / 32 * 32) 32 = false ∧ ∀ line, s.core.fblock ≠ some (s.core.ctx.pc.toNat / 32, line)) := by
  refine ⟨by decide +kernel, by decide +kernel, ⟨_, _, rfl, rfl, by decide +kernel⟩, ⟨_, rfl, rfl, by decide +kernel, by decide +kernel⟩,
    by decide +kernel, by decide, by decide, by decide, by decide, fun _ h => nomatch h⟩
theorem witness_EncodeDecode : (Instr.addImm ⟨0, false⟩ (.reg 3) (.reg 1) 1).wf = true ∧ encode (.addImm ⟨0, false⟩ (.reg 3) (.reg 1) 1) = some (addWord, 8) := by
  decide +kernel
theorem witness_MemoryForm : demo.memOk ∧ ∃ t, step demo = .next t := ⟨⟨by decide +kernel, by decide +kernel⟩, _, rfl⟩

/-! Decoding: one word for every instruction with an encoding, laid out by the formats of R250 and the fields of its own entry; numbers written
out whole are the manual's worked examples. Operands are distinct, so that no two fields can be swapped unseen. -/

/-- Formats R and V (their MOD fields start at bits 42 and 46), I, M, B; X and L put their immediate at bit 64. -/
def wR (maj d a b c fn mod pg : Nat) : Nat := maj * 2 ^ 2 + d * 2 ^ 10 + a * 2 ^ 16 + b * 2 ^ 22 + c * 2 ^ 28 + fn * 2 ^ 34 + mod * 2 ^ 42 + pg * 2 ^ 50
def wV (maj d a b c fn et mod pg : Nat) : Nat := maj * 2 ^ 2 + d * 2 ^ 10 + a * 2 ^ 16 + b * 2 ^ 22 + c * 2 ^ 28 + fn * 2 ^ 34 + et * 2 ^ 42 + mod * 2 ^ 46 + pg * 2 ^ 50
def wI (maj d a fn mod imm : Nat) : Nat := maj * 2 ^ 2 + d * 2 ^ 10 + a * 2 ^ 16 + fn * 2 ^ 22 + mod * 2 ^ 26 + imm * 2 ^ 30
def wM (maj d a x sz ord scope xs off : Nat) : Nat :=
  maj * 2 ^ 2 + d * 2 ^ 10 + a * 2 ^ 16 + x * 2 ^ 22 + sz * 2 ^ 28 + ord * 2 ^ 31 + scope * 2 ^ 34 + xs * 2 ^ 37 + off * 2 ^ 39
def wB (maj a b cond bt hint off : Nat) : Nat := maj * 2 ^ 2 + a * 2 ^ 10 + b * 2 ^ 16 + cond * 2 ^ 22 + bt * 2 ^ 26 + hint * 2 ^ 28 + off * 2 ^ 30
def wX (w imm : Nat) : Nat := w + 1 + imm * 2 ^ 64
def wL (w imm : Nat) : Nat := w + 2 + imm * 2 ^ 64
def x (n : Fin 32) : Opd := .reg n
/-- Base x8, index x9 times 64, 4 bytes, acquire at DIE, offset -16. -/
def wArgs : MArgs := { base := .reg 8, idx := .reg 9, sz := 2, ord := .acq, scope := .die, xs := 2, off := 0x1FFFFF0 }
def wMem (maj d : Nat) : Nat := wM maj d 8 9 2 1 3 2 0x1FFFFF0
def decodes (l : List (Nat × Instr)) : Bool := l.all fun p => match decodeBits p.1 with | .ok i => i == p.2 | .error _ => false

theorem test_decode_control : decodes [(0x3FF, .skipWord), (0x4, .nop 0), (wR 1 0 0 0 0 0 0 5, .nop 5), (0x40 * 2 ^ 64 + 0x409, .pbr 0 1 false (x 0) 0x40),
    (wX (wR 2 3 7 0 0 0 1 2) 0xFFFFFFFC, .pbr 2 3 true (x 7) 0xFFFFFFFC), (wB 3 4 5 2 3 1 0, .br .lt 1 3 (x 4) (x 5)),
    (wB 4 4 5 11 0 2 0x3FFFFFFFF, .bri .sne 2 0 (x 4) (x 5) 0x3FFFFFFFF), (wR 5 0 9 0 0 0 0 3, .jmpr 3 (x 9)),
    (0x0000001000007C18, .call false (x 31) (x 0) 64), (wI 6 30 9 0 1 0x200000001, .call true (x 30) (x 9) 0x200000001), (0x00000000001F001C, .ret 0 (x 31)),
    (0x0008C00840000020, .rep 2 3 2 1), (wR 9 0 0 0 0 0 0 1, .endTask 1), (wI 10 0 0 0 0 0x2AAAAAAAA, .brk 0x2AAAAAAAA), (0x00000048C000002C, .trap 0x123),
    (0x30, .eret 0), (0x000023FFC0000034, .fmt 0x8FFF), (0x00000000C0000038, .phase 3),
    (wI 15 0 0 0 0 (1 + 2 * 2 ^ 6 + 3 * 2 ^ 12 + 4 * 2 ^ 18 + 5 * 2 ^ 24), .wait 1 2 3 4 5), (0x0FFF03FFC000003C, .wait 63 63 0 63 63)] = true := by decide +kernel

/-- IALU: MOD 4 is N, MOD 1:0 the width; PG 6. -/
theorem test_decode_integer : let m : IMod := ⟨1, true⟩
    decodes [(wR 16 3 4 5 0 0 5 6, .add m 6 (x 3) (x 4) (x 5)), (wR 16 3 4 5 0 1 5 6, .sub m 6 (x 3) (x 4) (x 5)), (wR 16 3 4 5 0 2 5 6, .mul m 6 (x 3) (x 4) (x 5)),
      (wR 16 3 4 5 0 3 5 6, .mulh m 6 (x 3) (x 4) (x 5)), (0x0000141001C61440, .div m 0 (x 5) (x 6) (x 7)), (wR 16 3 4 5 0 5 5 6, .rem m 6 (x 3) (x 4) (x 5)),
      (wR 16 3 4 5 0 6 5 6, .and m 6 (x 3) (x 4) (x 5)), (wR 16 3 4 5 0 7 5 6, .or m 6 (x 3) (x 4) (x 5)), (wR 16 3 4 5 0 8 5 6, .xor m 6 (x 3) (x 4) (x 5)),
      (wR 16 3 4 5 0 9 5 6, .andn m 6 (x 3) (x 4) (x 5)), (wR 16 3 4 5 0 10 5 6, .shl m 6 (x 3) (x 4) (x 5)), (wR 16 3 4 5 0 11 5 6, .shr m 6 (x 3) (x 4) (x 5)),
      (wR 16 3 4 5 0 12 5 6, .rot m 6 (x 3) (x 4) (x 5)), (wR 16 3 4 5 0 13 5 6, .min m 6 (x 3) (x 4) (x 5)), (wR 16 3 4 5 0 14 5 6, .max m 6 (x 3) (x 4) (x 5)),
      (wR 16 3 4 5 0 15 5 6, .cmp m 6 (x 3) (x 4) (x 5)), (wR 16 3 4 5 7 16 5 6, .sel m 6 (x 3) (x 4) (x 5) (x 7)), (wR 16 3 4 0 0 17 5 6, .clz m 6 (x 3) (x 4)),
      (wR 16 3 4 0 0 18 5 6, .popc m 6 (x 3) (x 4)), (wR 16 3 4 5 7 19 5 6, .bfx m 6 (x 3) (x 4) (x 5) (x 7)), (wR 16 3 4 5 7 20 5 6, .bfi m 6 (x 3) (x 4) (x 5) (x 7)),
      (0x000000546144 * 2 ^ 16 + 0x0C40, .madd ⟨0, false⟩ 0 (x 3) (x 4) (x 5) (x 6)), (wR 16 3 4 5 7 22 5 6, .lea m 6 (x 3) (x 4) (x 5) (x 7))] = true := by decide +kernel
theorem test_decode_integer_immediate : let m : IMod := ⟨2, true⟩
    decodes [(wI 17 3 4 0 6 9, .addImm m (x 3) (x 4) 9), (wI 17 3 4 1 6 9, .andImm m (x 3) (x 4) 9), (wI 17 3 4 2 6 9, .orImm m (x 3) (x 4) 9),
      (0xFFFFFFFFC0C61444, .xorImm ⟨0, false⟩ (x 5) (x 6) 0x3FFFFFFFF), (wI 17 3 4 4 6 9, .shlImm m (x 3) (x 4) 9), (0x0000000181545444, .shrImm ⟨0, false⟩ (x 21) (x 20) 6),
      (0x00000000DD861444, .rotImm ⟨3, true⟩ (x 5) (x 6) 3), (0xFFFFFFFFD1C40C44, .cmpImm ⟨0, true⟩ (x 3) (x 4) 0x3FFFFFFFF), (wI 17 3 4 8 6 9, .minImm m (x 3) (x 4) 9),
      (wI 17 3 4 9 6 9, .maxImm m (x 3) (x 4) 9), (wI 17 3 0 10 6 9, .leaImm m (x 3) 9), (0xFFFFFFFE0000000000001C49, .li 0 (x 7) 0xFFFFFFFE),
      (wL (wR 18 7 0 0 0 0 0 3) 0x8000000000000001, .liLong 3 (x 7) 0x8000000000000001)] = true := by decide +kernel
theorem test_decode_float : decodes [(wR 20 3 4 5 0 0 8 6, .fadd .bf16 6 (x 3) (x 4) (x 5)), (wR 20 3 4 5 0 1 9 6, .fsub .fp16 6 (x 3) (x 4) (x 5)),
    (wR 20 3 4 5 0 2 10 6, .fmul .fp32 6 (x 3) (x 4) (x 5)), (wR 20 3 4 5 7 3 10 6, .ffma .fp32 6 (x 3) (x 4) (x 5) (x 7)), (wR 20 3 4 5 0 4 10 6, .fdiv .fp32 6 (x 3) (x 4) (x 5)),
    (wR 20 3 4 0 0 5 10 6, .fsqrt .fp32 6 (x 3) (x 4)), (wR 20 3 4 5 0 6 10 6, .fmin .fp32 6 (x 3) (x 4) (x 5)), (wR 20 3 4 5 0 7 10 6, .fmax .fp32 6 (x 3) (x 4) (x 5)),
    (wR 20 3 4 5 0 8 10 6, .fcmp .fp32 6 (x 3) (x 4) (x 5)), (0x0001282400040C50, .fcvt .i32 .fp32 0 (x 3) (x 4))] = true := by decide +kernel
/-- LD.acq.TILE x7, [x8 + 16] of R249 first. -/
theorem test_decode_memory : decodes [(0x00000808B0081C60, .ld (x 7) { base := x 8, idx := x 0, sz := 3, ord := .acq, scope := .tile, xs := 0, off := 16 }), (wMem 24 3, .ld (x 3) wArgs),
    (wMem 25 3, .st (x 3) wArgs), (wMem 26 3, .ldv (x 3) wArgs), (wMem 27 3, .stv (x 3) wArgs), (0x0004280001030870, .ldg .fp32 false 1 (x 2) (x 3) (x 4)),
    (wV 29 2 3 4 0 0 10 1 1, .sts .fp32 true 1 (x 2) (x 3) (x 4)), (wMem 30 0, .pref wArgs), (wR 31 3 4 5 6 9 (1 + 2 * 4 + 32) 7, .atom .cas true .acq .tile 7 (x 3) (x 4) (x 5) (x 6)),
    (wR 31 3 4 5 0 0 (2 + 3 * 4) 0, .atom .add false .rel .die 0 (x 3) (x 4) (x 5) (x 0)), (0x0000040C20081C80, .acq (x 7) { base := x 8, idx := x 0, sz := 2, ord := .plain, scope := .die, xs := 0, off := 8 }),
    (wMem 33 3, .rel (x 3) wArgs), (wR 34 3 4 5 6 0 2 1, .bind 2 1 (x 3) (x 4) (x 5) (x 6)), (0x00000004C000008C, .fence .ar .pkg), (0x0000000100000090, .bar .quad 0)] = true := by decide +kernel
theorem test_decode_tasks : decodes [(0x80 * 2 ^ 64 + 0x0000280001440CA1, .fork true .tile 0 (x 3) (x 4) (x 5) (x 0) 0x80), (wX (wR 40 3 4 5 6 0 3 1) 0xFFFFFF80, .fork false .die 1 (x 3) (x 4) (x 5) (x 6) 0xFFFFFF80),
    (wMem 41 3, .join (x 3) wArgs), (wR 42 63 4 5 0 0 (2 + 3 * 4) 1, .send false true .die 63 1 (x 4) (x 5)), (wX (wR 42 7 4 0 0 0 1 0) 0x89ABCDEF, .sendImm true false .core 7 0 (x 4) 0x89ABCDEF),
    (0x00000001440000AC, .tagctl .setEn (x 0) (x 0) 5 0), (0x0000028140040CAC, .tagctl .config (x 3) (x 4) 5 40), (0x40 * 2 ^ 64 + 0x0000000081C614B1, .cont 0 (x 5) (x 6) (x 7) (x 8) 0x40),
    (0x00000000014480C0, .sbind .pattern false 0 0 0 (x 4) (x 5)), (0x00006400000680C0, .sbind .queue false 3 0 0 (x 6) (x 0)), (wR 48 33 4 0 0 0 (2 + 4 + 1 * 8) 0, .sbind .expander true 1 0 1 (x 4) (x 0)),
    (0x8CC4, .sunb 0 3), (0x0000000000201CC8, .sstat 0 (x 7) 0), (wI 52 3 0 0 0 25, .crr (x 3) 25), (0x00000002400500D4, .crw 9 (x 5))] = true := by decide +kernel
theorem test_decode_vector : decodes [(wV 64 3 4 5 0 0 10 0 2, .vadd .fp32 2 (x 3) (x 4) (x 5)), (wV 64 3 4 5 0 1 10 0 2, .vsub .fp32 2 (x 3) (x 4) (x 5)), (wV 64 3 4 5 0 2 10 0 2, .vmul .fp32 2 (x 3) (x 4) (x 5)),
    (wV 64 3 4 5 6 3 10 0 2, .vfma .fp32 2 (x 3) (x 4) (x 5) (x 6)), (wV 64 3 4 5 0 4 10 0 2, .vmin .fp32 2 (x 3) (x 4) (x 5)), (wV 64 3 4 5 0 5 10 0 2, .vmax .fp32 2 (x 3) (x 4) (x 5)),
    (wV 64 3 4 5 0 6 5 0 2, .vand .n32 2 (x 3) (x 4) (x 5)), (wV 64 3 4 5 0 7 5 0 2, .vor .n32 2 (x 3) (x 4) (x 5)), (0x0000182000000100, .vxor .i64 0 (x 0) (x 0) (x 0)),
    (wV 64 3 4 5 0 9 0 0 2, .vshl .i8 2 (x 3) (x 4) (x 5)), (wV 64 3 4 5 0 10 1 0 2, .vshr .n8 2 (x 3) (x 4) (x 5)), (0x0001682C01440D00, .vcmp .lt .fp32 0 (.pred 3) (x 4) (x 5)),
    (wV 64 3 4 5 0 11 8 12 2, .vcmp .unord .bf16 2 (.vec (x 3)) (x 4) (x 5)), (wV 64 3 4 5 6 12 2 0 2, .vsel .i16 2 (x 3) (x 4) (x 5) (x 6)), (wV 64 3 4 0 0 13 9 0 2, .vabs .fp16 2 (x 3) (x 4)),
    (wV 64 3 4 0 0 14 9 0 2, .vneg .fp16 2 (x 3) (x 4)), (wV 64 3 4 5 0 15 3 0 2, .vsadd .n16 2 (x 3) (x 4) (x 5)), (wV 64 3 4 0 0 16 10 0 2, .vrcp .fp32 2 (x 3) (x 4)),
    (wV 64 3 4 0 0 17 10 0 2, .vexp2 .fp32 2 (x 3) (x 4)), (wV 64 34 39 0 0 18 4 0 2, .vmov .i32 2 (.str 2) (.str 7)), (wV 64 3 4 0 0 19 4 0 2, .vbcast .i32 2 (x 3) (x 4))] = true := by decide +kernel
theorem test_decode_cross_lane : decodes [(0x0000280000020504, .vred .sum .fp32 0 (x 1) (x 2)), (wV 65 3 4 0 0 1 6 5 2, .vscan .xor .i64 2 (x 3) (x 4)), (wV 65 3 4 5 6 2 10 0 2, .vperm .fp32 2 (x 3) (x 4) (x 5) (x 6)),
    (0x0002340C00020504, .vcvt .bf16 .bfp 0 (x 1) (x 2)), (0x0000601000071904, .vlut .bf16 1 0 (x 6) (x 7)), (wV 65 3 4 5 6 5 8 0 2, .vsrp (.proj (x 5) (x 6)) .bf16 2 (x 3) (x 4)),
    (wV 65 3 4 0 0 5 8 1 2, .vsrp .bucket .bf16 2 (x 3) (x 4))] = true := by decide +kernel
theorem test_decode_matrix_grammar : decodes [(0x0000004000000040 * 2 ^ 64 + 0x00022001C5540122, .mma .bf16 .bf16 0 0 (x 20) (x 21) (x 28) 64 64), (wMem 73 3, .mxst 3 wArgs), (wMem 74 7, .mxld 7 wArgs),
    (0x92C, .mxz 0 2), (0x0000000081C61540, .gred 0 0 0 (x 5) (x 6) (x 7) (x 8)), (0x0000280081C61544, .gmap .cvt 10 0 (x 5) (x 6) (x 7) (x 8)),
    (wR 82 5 6 7 8 1 11 3, .gpos .scan 11 3 (x 5) (x 6) (x 7) (x 8)), (wR 83 5 6 33 8 1 2 0, .gexp true 2 0 (x 5) (x 6) (.str 1) (x 8))] = true := by decide +kernel
theorem test_decode_jobs_service : decodes [(0x0000000130084560, .post (x 17) { base := x 8, idx := x 0, sz := 3, ord := .rel, scope := .core, xs := 0, off := 0 }),
    (0x0000000061448564, .rgath 0 (.str 1) (x 4) (x 5) (x 6)), (wMem 90 3, .jstat (x 3) wArgs), (0x0008001000000200 * 2 ^ 64 + 0x0000100008042582, .wdenter 0 1 0 (x 9) (x 4) (.str 0) (x 0) 0x1000000200 8 0),
    (wR 97 0 5 0 0 0 0 0, .wdexit 0 (x 5)), (0x00001000000301C0, .tlbi .page true 0 (x 3)), (wMem 113 3, .ctxsv (x 3) wArgs), (wMem 114 3, .ctxld (x 3) wArgs)] = true := by decide +kernel

/-- What encodes nothing (R246, R252, R253, R260): MAJ 0, an unlisted MAJ, a LEN a MAJ does not admit, FN past the list, operand code 40, a must-be-zero bit
of each kind, FMT with a reserved code, GRED operator 15, a word with LEN 11. -/
theorem test_decode_refuses :
    [0x0, wR 0x13 0 0 0 0 0 0 0, wR 1 0 0 0 0 0 0 0 + 1, wR 16 3 4 5 0 23 0 0, wR 16 40 4 5 0 0 0 0, wI 13 0 0 0 0 0xFFF7, wR 0x50 1 2 3 4 15 0 0, wM 24 3 4 5 7 0 0 0 0].map decodeBits
      = List.replicate 8 (.error .illegalOpc)
    ∧ [wR 16 3 4 5 0 0 0 0 + 2 ^ 53, wR 16 3 4 5 6 0 0 0, wR 16 3 4 5 0 0 8 0, wI 6 1 2 0 0 0, wX (wR 2 1 0 0 0 0 0 0) 1].map decodeBits = List.replicate 5 (.error .reservedBits)
    ∧ decodeBits 0x7FF = .error .illegalLen := by decide +kernel

/-! Terms that have no encoding: one for each check of Instr.wf, which refuses it. -/

theorem test_wf_refuses : ([.pbr 0 1 false (x 0) 2, .pbr 0 1 false (x 3) 4, .call false (x 1) (x 2) 0, .fmt 7, .fmt 0x7000, .fmt 0x70000, .fadd .i32 0 (x 1) (x 2) (x 3),
      .fsub .e4m3 0 (x 1) (x 2) (x 3), .fmul .bfp 0 (x 1) (x 2) (x 3), .ffma .i8 0 (x 1) (x 2) (x 3) (x 4), .fdiv .lut8 0 (x 1) (x 2) (x 3), .fsqrt .i64 0 (x 1) (x 2),
      .fmin .n8 0 (x 1) (x 2) (x 3), .fmax .n16 0 (x 1) (x 2) (x 3), .fcmp .n32 0 (x 1) (x 2) (x 3), .fcvt .e4m3 .fp32 0 (x 1) (x 2), .fcvt .fp32 .bfp 0 (x 1) (x 2),
      .atom .add false .none .core 0 (x 1) (x 2) (x 3) (x 4), .atom .fadd true .none .core 0 (x 1) (x 2) (x 3) (x 0), .atom .add false .none .tile 0 (x 1) (x 2) (x 3) (x 0),
      .fork false .core 0 (x 1) (x 2) (x 3) (x 4) 2, .fork true .core 0 (x 1) (x 2) (x 3) (x 4) 4, .send true false .core 8 0 (x 1) (x 2), .sendImm true false .core 8 0 (x 1) 2,
      .tagctl .setEn (x 0) (x 1) 5 0, .tagctl .clrPend (x 0) (x 0) 5 1, .cont 0 (x 1) (x 2) (x 3) (x 4) 1, .sbind .queue false 0 0 1 (x 1) (x 2), .sbind .expander false 0 0 1 (x 1) (x 2),
      .gpos .prefixSum 15 0 (x 1) (x 2) (x 3) (x 4), .gexp true 15 0 (x 1) (x 2) (x 3) (x 4), .wdenter 0 0 0 (x 1) (x 2) (x 3) (x 4) 1 8 0] : List Instr).all (fun i => !i.wf) = true := by
  decide +kernel

/-! Single steps. -/

/-- The step that runs one word at the first byte of core 0's slice, with x1 = 5 and x2 = 7. -/
def runs (w : Nat) (p : Ctx → Bool) : Bool :=
  after (step (withX [(1, 5), (2, 7)] (State.reset.withFetchWord (8 * lenOf w) w))) fun t => p t.core.ctx
theorem test_step_add : runs (wR 16 3 1 2 0 0 0 0) (fun c => c.getX 3 == 12 && c.pc == 0x800000008) = true := by decide +kernel
/-- 5 - 7 at 8 bits unsigned is 254. -/
theorem test_step_sub_narrow : runs (wR 16 3 1 2 0 1 7 0) (fun c => c.getX 3 == 254) = true := by decide +kernel
/-- R282: CMP.n of x1 with all ones. -/
theorem test_step_cmp : runs (wI 17 3 1 7 4 0x3FFFFFFFF) (fun c => c.getX 3 == 0xFFFFFFFFFFFFFFFF) = true := by decide +kernel
/-- x0 discards a write (R59). -/
theorem test_step_x0 : runs (wI 17 0 1 0 0 1) (fun c => c.getX 0 == 0 && c.getX 1 == 5) = true := by decide +kernel
/-- R248. -/
theorem test_step_skip : runs 0x3FF (fun c => c.pc == 0x800000004) = true := by decide +kernel
theorem test_step_branch : runs (wB 4 1 2 2 0 0 4) (fun c => c.pc == 0x800000010) = true ∧ runs (wB 4 1 2 3 0 0 4) (fun c => c.pc == 0x800000008) = true := by decide +kernel
theorem test_step_li_long : runs (wL (wR 18 7 0 0 0 0 0 0) 0x8000000000000001) (fun c => c.getX 7 == 0x8000000000000001 && c.pc == 0x800000010) = true := by decide +kernel
/-- FMT leaves its prefix pending, and WARN alone. -/
theorem test_step_fmt : runs 0x000023FFC0000034 (fun c => c.pfx && c.pfxv == 0x8FFF && c.warn == 0) = true := by decide +kernel
/-- Each opcode-table row's word is read by the table's own numbering of bits. -/
theorem test_table_word : decodeTableWord 96 (0x40 * 2 ^ 64 + 0x409) = some (.pbr 0 1 false (x 0) 0x40) ∧ decodeTableWord 64 0x0 = some (.illegalOpc .opc) := by decide +kernel

/-! The manual's worked results of single instructions. -/

/-- The step that runs one word with given registers; D is x5 unless said otherwise. -/
def runsWith (l : List (Nat × Word)) (w : Nat) (p : Ctx → Bool) : Bool :=
  after (step (withX l (State.reset.withFetchWord (8 * lenOf w) w))) fun t => p t.core.ctx
theorem test_and_w32 : runsWith [(6, 0x123456789ABCDEF0), (7, 0xFFFFFFFFF0F0F0F0)] 0x0000041801C61440 (fun c => c.getX 5 == 0xFFFFFFFF90B0D0F0) = true := by decide +kernel
theorem test_bfx : runsWith [(6, 0xABCD), (7, 4), (8, 8)] (wR 16 5 6 7 8 19 4 0) (fun c => c.getX 5 == 0xBC) = true
    ∧ runsWith [(6, 0xABCD), (7, 4), (8, 8)] (wR 16 5 6 7 8 19 0 0) (fun c => c.getX 5 == 0xFFFFFFFFFFFFFFBC) = true := by decide +kernel
theorem test_div : runsWith [(6, 0x80), (7, 0xFF)] (wR 16 5 6 7 0 4 3 0) (fun c => c.getX 5 == 0xFFFFFFFFFFFFFF80) = true
    ∧ runsWith [(6, -7), (7, 2)] (wR 16 5 6 7 0 4 0 0) (fun c => c.getX 5 == -3) = true := by decide +kernel
theorem test_rem : runsWith [(6, -7), (7, 2)] (wR 16 5 6 7 0 5 0 0) (fun c => c.getX 5 == -1) = true
    ∧ runsWith [(6, -7), (7, 0)] (wR 16 5 6 7 0 5 0 0) (fun c => c.getX 5 == -7) = true := by decide +kernel
theorem test_mulh : runsWith [(6, 0x8000000000000000), (7, 4)] 0x0000000C01C61440 (fun c => c.getX 5 == 0xFFFFFFFFFFFFFFFE) = true
    ∧ runsWith [(6, 0x8000000000000000), (7, 4)] (wR 16 5 6 7 0 3 4 0) (fun c => c.getX 5 == 2) = true := by decide +kernel
theorem test_rot_w8 : runsWith [(6, 0x96)] 0x00000000DD861444 (fun c => c.getX 5 == 0xB4) = true := by decide +kernel
theorem test_shr_w8 : runsWith [(6, 0xF0)] (wI 17 5 6 5 3 2) (fun c => c.getX 5 == 0xFFFFFFFFFFFFFFFC) = true
    ∧ runsWith [(6, 0xF0)] (wI 17 5 6 5 7 2) (fun c => c.getX 5 == 0x3C) = true := by decide +kernel
theorem test_shl_w8_past_width : runsWith [(6, 0xF0)] (wI 17 5 6 4 3 9) (fun c => c.getX 5 == 0) = true := by decide +kernel
theorem test_xor_w8 : runsWith [(6, 0xF0)] (wI 17 5 6 3 7 0x3FFFFFFFF) (fun c => c.getX 5 == 0x0F) = true := by decide +kernel
theorem test_lea : runsWith [(4, 1000), (5, 7), (6, 3)] (wR 16 3 4 5 6 22 0 0) (fun c => c.getX 3 == 1056) = true := by decide +kernel
theorem test_fadd_tie : runsWith [(4, 0x3F800000), (5, 0x33800000)] (wR 20 3 4 5 0 0 10 0) (fun c => c.getX 3 == 0x3F800000 && c.fpf != 0) = true := by decide +kernel
theorem test_fcvt : runsWith [(4, 0x40490FDB)] 0x0001282400040C50 (fun c => c.getX 3 == 3 && c.fpf != 0) = true
    ∧ runsWith [(4, 0xC06CCCCD)] (wR 20 3 4 0 0 9 (10 + 1 * 16) 0) (fun c => c.getX 3 == 0 && c.fpf != 0) = true := by decide +kernel
/-- 2^24, 1, 1, -2^24 in the tree of R94 are 1, with inexact; the rest of v1 is zero (R372). v n lies at URS byte 0x0100 + 64 n (R58). -/
theorem test_vred_sum :
    after (step ((State.reset.withFetchWord 64 0x0000280000020504).mapCtx fun c =>
        c.ursWrite (0x0100 + 64 * 2) (leBytes 4 0x4B800000 ++ leBytes 4 0x3F800000 ++ leBytes 4 0x3F800000 ++ leBytes 4 0xCB800000)))
      (fun t => t.core.ctx.ursRead (0x0100 + 64) 64 == leBytes 4 0x3F800000 ++ zeroBytes 60 && t.core.ctx.fpf != 0) = true := by decide +kernel

/-! Witnesses: the further clauses and premises of statements shown above. -/

/-- An output stream with room and one at its end, beside a far address and a near one. -/
def toStream (done : Nat) (s : State) : State :=
  withStream 2 { bound := true, out := true, esz := 8, total := 4, done := done, base := 0x800010000, counts := [4], strides := [8] } s
theorem witness_FarAccesses_stream :
    Addressed m8 [] [.str 2] false (begun (toStream 0 (at_ farSpot farBase))) farSpot 0 (begun (toStream 0 (at_ farSpot farBase)))
    ∧ isOk (place farSpot 8 needR false 0 (noted (loadNotes true true m8) (begun (toStream 0 (at_ farSpot farBase))))) (fun p t => match p with
        | .far va pas => va == farSpot.toNat && t.core.ctx.ld != 63 && !ownPending t farSpot.toNat 8 && t.core.ctx.stores.isEmpty
            && isOk (writeOpd (.str 2) (bytesWord (farRead t pas true).1) (sealChecked t farSpot pas (farRead t pas true).2)) (fun _ _ => true)
        | .near .. => false) = true
    ∧ isOk (place farSpot 8 needW true 0 (noted (storeNotes true true m8) (begun (at_ farSpot farBase)))) (fun _ t => !ownPending t farSpot.toNat 8) = true
    ∧ isOk (place farSpot 8 needR false 0 (begun (at_ farSpot farBase))) (fun _ t => !ownPending t farSpot.toNat 8) = true :=
  ⟨⟨rfl, room rfl, rfl⟩, by decide +kernel, by decide +kernel, by decide +kernel⟩
/-- A store of two bytes of a granule that another key has sealed. -/
theorem witness_FarWorkArrives_sealed :
    (let s := { storing with sealed := [{ lo := 0x20, n := 1, key := 5 }] }
     (s.coreOf 0).ctx.stores = { va := 0x1000002000, cells := [(0x2000, 1), (0x2001, 2)] } :: [] ∧ memWf s.quarry = true
       ∧ partFails (s.focusOn 0) (s.focusOn 0).key [0x2000, 0x2001] = [0x20])
    ∧ ((demo.mapCtx fun c => { c with loads := [{ dst := .urs 0x400, data := [1], fl := 2 }] }).coreOf 0).ctx.loads = { dst := .urs 0x400, data := [1], fl := 2 } :: [] := by
  decide +kernel
/-- An access that starts below a spill area and ends in it, one that ends before it, and one that runs past its slot's end. -/
theorem witness_AddressTraps_spans :
    (isNear 0x8000DFFFC = true ∧ nearOk (begun (at_ 0x8000DFFFC)) 0x8000DFFFC = true ∧ nearSpanOk (begun (at_ 0x8000DFFFC)) 0x8000DFFFC 8 = false
      ∧ nearSpanOk (begun (at_ 0x8000DFFFC)) 0x8000DFFFC 4 = true)
    ∧ (checkDirs [m8.base, m8.idx] [.str 2] [] (begun (toStream 4 (at_ spot))) = .ok ((), begun (toStream 4 (at_ spot)))
      ∧ dstEnd false (.str 2) (begun (toStream 4 (at_ spot))) = .error (.trap (exhTrap 2)) ∧ (toStream 4 (at_ spot)).core.ctx.streams[(2 : Fin 8)].total < (toStream 4 (at_ spot)).core.ctx.streams[(2 : Fin 8)].done + 1)
    ∧ dstEnd false (.reg 3) (begun (at_ spot)) = .ok ((), begun (at_ spot)) :=
  ⟨by decide +kernel, ⟨rfl, rfl, by decide⟩, rfl⟩
/-- Tables in a peer window at each level below the root. -/
theorem witness_PageWalk_peer : ∀ e ∈ [pteAt (tables 0x8000000000001 0 0 0 0) 0x1000, pteAt (tables 0x2001 0x8000000000001 0 0 0) 0x2200,
    pteAt (tables 0x2001 0x3001 0x8000000000001 0 0) 0x3000], e % 2 = 1 ∧ e / 2 ^ 9 % 2 = 0 ∧ e / 2 ^ 52 = 0 ∧ e / 2 ^ 10 % 4 = 0 ∧ 2 ^ 51 ≤ e / 2 ^ 12 % 2 ^ 40 * 4096 := by
  decide
theorem witness_FarGatherScatter_own :
    isOk (lanePlaces .i64 false farSpot needR false ((activeLanes (BitVec.allOnes 64) 8).zip (lanesOf 4 zeros64)) fars) (fun _ t =>
      ((activeLanes (BitVec.allOnes 64) 8).zip (lanesOf 4 zeros64)).all fun l => !ownPending t (gsAddr .i64 false farSpot l.2).toNat 8) = true
    ∧ isOk (lanePlaces .i64 false farSpot needW true ((activeLanes (BitVec.allOnes 64) 8).zip (lanesOf 4 zeros64)) fars) (fun _ t =>
      ((activeLanes (BitVec.allOnes 64) 8).zip (lanesOf 4 zeros64)).all fun l => !ownPending t (gsAddr .i64 false farSpot l.2).toNat 8) = true := by
  decide +kernel
/-- A drain as BAR's first issue makes it, from the state before the issue and from the one within. -/
theorem witness_Barriers_release : (∃ t, releaseAt .tile (noted 0 (begun (atBarrier [] false))) = .ok ((), t)) ∧ (∃ t, releaseAt .tile (atBarrier [] false) = .ok ((), t))
    ∧ heldRec base (ownerCore 0x800008000) = false := ⟨⟨_, rfl⟩, ⟨_, rfl⟩, rfl⟩
/-- The header alone, and with one and ten dimensions: no write of the task's own is to come. -/
theorem witness_StreamBinding_descriptor :
    ([(0, 1), (1, 3), (10, 1), (11, 1), (1, 0)].all fun p =>
      isOk (unbind 0 (noted 0 (ignoring 0 (described p.1 p.2)))) (fun _ t => descDims t spot == p.1 && nearSpanOk t spot.toNat 8
        && !ownPending t spot.toNat (8 + 16 * descDims t spot)
        && (List.range (descDims t spot)).all fun k => let a := (spot + BitVec.ofNat 64 (8 + 16 * k)).toNat
          isNear a && nearSpanOk t a 16 && !ownPending t a 16 && !poisoned t a 16 && !touchesWindow t a)) = true ∧ spot.toNat % 8 = 0 := by
  decide +kernel
theorem witness_IndexedGathers_list : ([2, 0].all fun n =>
    let s := ignoring 0 (withX [(1, spot), (2, spot), (3, BitVec.ofNat 64 n), (4, 0x800010000)] base)
    !ownPending s spot.toNat (4 * n) && nearSpanOk s spot.toNat (4 * n)) = true := by decide +kernel
/-- Operands in reach for k-blocks 0 and 1, and a B address that is null. -/
theorem witness_MatrixInstructions_scan :
    (∀ kb < 2, isOk (mmaCheck (mmaAccesses .bf16 .bf16 0 spot 0x800009000 64 64 [] kb) (mmaState 2)) (fun _ t => t == mmaState 2) = true)
    ∧ (mmaState 2).core.ctx.loads = [] ∧ (mmaState 2).core.ctx.mxops = []
    ∧ (∃ t, mmaCheck (mmaAccesses .bf16 .bf16 0 spot 64 64 64 [] 0) (mmaState 1) = .error (.trap t)) :=
  ⟨by decide +kernel, rfl, rfl, ⟨_, rfl⟩⟩
theorem witness_GrammarInstructions_loads : ∀ l ∈ (grammarAt 0 false (withX [(1, spot)] loading2)).core.ctx.loads, l.dst ≠ .x 5 := by decide
/-- A near card's descriptors raise no fault that is held. -/
theorem witness_PostingJobs_held : ([1, 8, 1 + 2 ^ 16].all fun w => let s := begun (carded w)
    isOk (readDescs spot (jobOf s (s.nearRead spot.toNat 64) []) s) (fun _ t => t.core.ctx.asyncs.length == s.core.ctx.asyncs.length)) = true := by decide +kernel
/-- No grammar operation and no output stream; with a translation, a staged block and a code line. -/
theorem witness_TlbInvalidation_more :
    serving.core.ctx.gops = [] ∧ (∀ n : Fin 8, (serving.core.ctx.streams[n]).out = false)
    ∧ (∃ d, (drainStores serving.core.ctx.stores.length serving).dev = some d) ∧ ({ serving with devs := [] } : State).dev = none
    ∧ codeGone .page 0x1000000000 0x103FFFFFFF ∧ ¬ codeGone .page 0x1000000000 0x1040000000 ∧ codeGone .asid 0 5 := by
  refine ⟨rfl, by decide, ⟨_, rfl⟩, rfl, ?_, ?_, trivial⟩ <;> simp [codeGone]
theorem readPlace_clean {s : State} {a n : Nat} (h : s.poison = []) (hw : touchesWindow s a = false) :
    readPlace (.near a n) true 0 s = .ok (s.nearRead a n, s) ∧ (s.nearRead a n).length = n := by
  have hp : poisoned s a n = false := unpoisoned h a n
  constructor
  · change (if poisoned s a n = true then _ else (pure ((if touchesWindow s a = true then windowsOut (nearTile a) s else s).nearRead a n) : M (List Byte))) s = _
    rw [hp, hw]; rfl
  · have : ∀ n, (nearSpan a n).length = n := fun n => by induction n with | zero => rfl | succ n ih => simp [nearSpan, ih]
    simp [State.nearRead, this]
/-- A place whose last block reaches a spill area, a far place; JOB at 1; the image of slot 0 loaded from `spot`. -/
theorem witness_ParkedContexts_more :
    (let s := parking none
     ((List.range 704).all fun i => parkOk (begun s) (nearWrap spot.toNat (64 * i))) = true
       ∧ (704 - 1) * 64 + 0x8000D5040 = 0x8000E0000 ∧ parkOk (begun s) 0x8000E0000 = false ∧ isNear (0x8000D5040 : Word).toNat = true ∧ isNear farSpot.toNat = false
       ∧ (begun s).core.ctx.st ≠ 63 ∧ (begun s).core.ctx.ld ≠ 63 ∧ occupiedSlot (begun s) 0x802000040 = none ∧ ownPending (begun s) spot.toNat 0xB000 = false
       ∧ windowSlots ((begun s).tileOf (coreTile (begun s).core.id)) = [])
    ∧ partPoison (begun (parking none)) spot.toNat 0xB000 = false
    ∧ (∃ img, readPlace (.near spot.toNat 0xB000) true 0 (begun (parking none)) = .ok (img, begun (parking none)) ∧ img.length = 0xB000)
    ∧ (let s := { parking (some 0) with near := memWrite (parking (some 0)).near 0x8020080F8 (leBytes 8 0x1000) }
       leNat (memRead s.near (0x802000000 + 0x80F8) 8) / 2 ^ 12 % 2 ^ 6 ≠ 0)
    ∧ dstEnd false (.reg 3) (begun (parking none)) = .ok ((), begun (parking none)) :=
  ⟨by decide +kernel, unpoisoned_part rfl _ _, ⟨_, readPlace_clean rfl (by decide)⟩, by decide +kernel, rfl⟩

/-! Witnesses: further clauses of the statements about units, blocks and the host. -/

/-- A core that rests: no candidate, and no other core has a record to give. -/
theorem witness_TaskSelection_resting :
    (let s := withCore { id := 1 }
     OneEach s ∧ (s.coreOf 1).mode = .idle ∧ s.liveOn 1 = true ∧ candidates (s.coreOf 1) = [] ∧ coreSlot 1 < 32 ∧ (s.coreOf 1).resting = false
       ∧ ∀ v, (s.coreOf v).deque = []) := by
  refine ⟨by simp only [OneEach]; decide, by decide, by decide, by decide, by decide, by decide, fun v => ?_⟩
  have h : ∀ co ∈ (withCore { id := 1 }).allCores, co.deque = [] := by decide
  unfold State.coreOf
  split
  · exact h _ (List.mem_cons_self ..)
  · cases e : (withCore { id := 1 }).others.find? (·.id == v) with
    | none => rfl
    | some co => exact h _ (List.mem_cons_of_mem _ (List.mem_of_find?_eq_some e))
/-- A thief with a record of its own, and a victim whose only record may not be taken. -/
theorem witness_Steals_none :
    (let s := withCore { id := 1, runq := [ready] }; OneEach s ∧ candidates (s.coreOf 1) ≠ [])
    ∧ (let s := withCore { id := 1, deque := [someRec] }; OneEach s ∧ ∀ r ∈ (s.coreOf 1).deque, stealable 1 2 r = false) := by
  simp only [OneEach]; decide
/-- Room with a signal that is not due; none with one that is; a record held for its core; a faulted device. -/
theorem witness_MessagesArrive_room :
    ((base.coreOf 1).tags.toList.all fun g => !(g.en && g.signal)) = true
    ∧ ((tagged { en := true, signal := true }).core.tags.toList.any fun g => g.en && g.signal) = true
    ∧ ((tagged { en := false, signal := true }).core.tags.toList.all fun g => !(g.en && g.signal)) = true
    ∧ (let s := mail (.record ready); s.mortar[0]?.map (·.body) = some (.record ready) ∧ (MsgBody.record ready).isTask = false)
    ∧ (∃ m d, let s := mail (.tag 3 7) (withState .faulted base); s.mortar[0]? = some m ∧ inOrder s.mortar 0 m = true ∧ s.devOf m.vd = some d ∧ d.state = .faulted
        ∧ m.body.isTask = false) ∧ (MsgBody.tag 3 7).isRecord = false :=
  ⟨by decide, by decide, by decide, ⟨rfl, rfl⟩, ⟨_, _, rfl, rfl, rfl, rfl, rfl⟩, rfl⟩
/-- B at a null address. -/
theorem witness_MatrixUnit_fault : ∃ tr, mmaOperands .bf16 .bf16 0 spot 64 64 64 [] 0 ((inMx 1).focusOn 0) = .error (.trap tr) := ⟨_, rfl⟩
/-- A rule to evaluate, and a pair whose first child has no result yet. -/
theorem witness_RuleUnit_rules :
    (let g := gop 0 0 0 2 true 0 0 none; let s := ruling (header 4 0 0) 0 g; let f := s.focusOn 0; let ea := entryAddr 0x800009000 0 0
     headed s (fun h => unitOk ea 8 f (fun hb t => t == f && !(leNat hb).testBit 63)
       && isOk (evalRule 0 h 0x800009000 0 (refreshed f ea)) (fun r t => t.core.ctx == f.core.ctx && t.core.id == 0 && t.near == f.near && t.poison.isEmpty
         && nearSpanOk t ea.toNat 8 && nearSpanOk t (ea + 8).toNat (entryBytes 0 r.1).length && (windowSlots (t.tileOf 0)).isEmpty)) = true
       ∧ isNear ea.toNat = true ∧ isNear (ea + 8).toNat = true ∧ f.core.ctx.stores = [] ∧ (f.core.ctx.streams.toList.all fun p => p.buf.isEmpty) = true)
    ∧ (let s := ruling (header 4 0 0) 0 (gop 0 0 0 2 true 2 0 none); let f := s.focusOn 0; let ea := entryAddr 0x800009000 0 2
       headed s (fun h => unitOk ea 8 f (fun hb t => t == f && !(leNat hb).testBit 63)
         && match evalRule 0 h 0x800009000 2 (refreshed f ea) with | .error (.stall .acquire) => true | _ => false) = true) := by
  decide +kernel
/-- The second gather delivers while the first one's stream is full; an element in a spill area. -/
theorem witness_StreamUnits_gathers :
    (let s := (stream2 false (List.replicate 64 [0, 0, 0, 0])).mapCtx fun c => { c with
       ld := 2, gathers := [{ idx := [0], base := spot, size := 4, count := 1, dst := some 2 }, { idx := [0], base := spot, size := 4, count := 1, dst := none, buf := 0x800010000 }] }
     let x := (s.coreOf 0).ctx
     x.gathers.length = 2 ∧ 256 < ((x.streams[(2 : Fin 8)]).buf.length + 1) * 4)
    ∧ (let s := (gatherTo none 1).mapCtx fun c => { c with gathers := [{ idx := [0], base := 0x8000E0000, size := 4, count := 1, dst := none }] }
       nearSpanOk (s.focusOn 0) 0x8000E0000 4 = false ∧ (s.coreOf 0).ctx.asyncs = []) := by
  decide
/-- Core 0 waits for its block, which core 1 is next at as well; the block in the cache, in near and in far memory. -/
def asking (at_ : Word) (s : State := base) : State :=
  { s with core := { s.core with asked := some 0, fblock := none, ctx := { s.core.ctx with pc := at_ } }
           others := [{ id := 1, mode := .running, ctx := { pc := at_ } }] }
theorem witness_MemoryUnits_fetch :
    (∃ k bs s2, quadTurn (asking spot) 0 = some k ∧ k.id = 0 ∧ blockBytes ((asking spot).focusOn 0) = .ok (bs, s2)) ∧ OneEach (asking spot)
    ∧ nextThere (asking spot) 0 1
    ∧ (codeFind (asking spot) 0 (spot.toNat / 32) = none ∧ isNear (spot.toNat / 32 * 32) = true ∧ (asking spot).vd ≠ none)
    ∧ (∃ l, codeFind { asking spot with tiles := (asking spot).tiles.map fun t => { t with icache := [{ quad := 0, vd := 0, block := spot.toNat / 32, bytes := [] }] } } 0
        (spot.toNat / 32) = some l)
    ∧ (∃ pa s1, codeFind (asking farSpot farBase) 0 (farSpot.toNat / 32) = none ∧ isNear (farSpot.toNat / 32 * 32) = false
        ∧ translate (farSpot.toNat / 32 * 32) { x := true } false (asking farSpot farBase) = .ok (pa, s1) ∧ pa + 32 ≤ 2 ^ 51) :=
  ⟨⟨_, _, _, rfl, rfl, rfl⟩, by simp only [OneEach]; decide, ⟨by decide, by decide, by decide, by decide, by decide⟩, by decide, ⟨_, rfl⟩,
   ⟨_, _, by decide, by decide, rfl, by decide⟩⟩
/-- A trapped core without a free slot; an image whose entry is 0, and one that is under service. -/
theorem witness_TrapUnits_more :
    demo.liveOn 0 = true
    ∧ (let s := fullSlots { demo with core := { demo.core with mode := .trapped } }; s.core.mode = .trapped ∧ s.liveOn s.core.id = true
        ∧ freeSlot (s.tileOf (coreTile s.core.id)) = none)
    ∧ (∃ d, let s := { unserviced with near := memSet unserviced.near 0x800008004 0 }
       (s.tileOf 0).slots[(0 : Fin 64)] = .image 0 ∧ serviced s 0 0 = false ∧ (s.tileOf 0).vd = some 0 ∧ s.devOf 0 = some d
         ∧ (serviceEntry s d ((memWord s.near (slotAddr 0 0 + 0x8070)).toNat % 64)).toNat % 2 ^ 48 / 4 = 0)
    ∧ (let s := withCore { id := 32, svcq := [{ svc := true, under := some 0 }] } unserviced; serviced s 0 0 = true)
    ∧ demo.returning[0]? = none ∧ demo.core.mode ≠ .trapped := by
  refine ⟨by decide, by decide +kernel, ⟨_, by decide, by decide +kernel, rfl, rfl, by decide +kernel⟩, by decide +kernel, rfl, by decide⟩
/-- A running core without anything outstanding; a held context with a queued grammar operation. -/
theorem witness_TimeSlices_more :
    (∀ co ∈ base.allCores, QuietCore co) ∧ base.colls = [] ∧ OneEach base
    ∧ (let s := { mapping with core := { mapping.core with mode := .held 0 } }; ∀ d ∈ s.devs, heldBusy s d = true) := by
  refine ⟨fun co h => ?_, rfl, by simp only [OneEach]; decide, by decide⟩
  have : co = base.core := List.mem_singleton.mp h
  subst this
  exact ⟨.inr rfl, rfl, rfl, rfl, rfl, rfl⟩
/-- Two copies under way, and a third that waits; one expansion and another. -/
theorem witness_DataJobs_engines :
    (let r := { copyJob with state := .running }; let j := { copyJob with seq := 2 }
     let s := base.updTile 0 fun t => { t with jobs := [r, { r with seq := 1 }, j] }
     (s.tileOf 0).job 2 = some j ∧ j.state ≠ .running ∧ cardField j.card 0 2 ≤ 3 ∧ ((s.tileOf 0).jobs.filter fun q => q.state == .running).length = 2)
    ∧ (let r := { expandJob with state := .running }; let j := { expandJob with seq := 1 }
       let s := base.updTile 0 fun t => { t with jobs := [r, j] }
       (s.tileOf 0).job 1 = some j ∧ ¬ cardField j.card 0 2 ≤ 3 ∧ ((s.tileOf 0).jobs.filter fun q => q.state == .running).length = 1) := by
  decide +kernel
/-- A chain in a LUT8 block after its first k-block, beside a TLOAD. -/
theorem witness_BuildingJobs_busy :
    (let s := (withJob (tloadJob 0 512) { wdState oneAcc with near := memWrite demo.near 0x800008000 (leBytes 8 (14 * 256)) }).mapCtx fun c =>
       { c with wdblk := spot, mxprog := 1, wdst := { c.wdst with table := some { block := spot, gen := false, bank := {} } } }
     startsB s 5 (tloadJob 0 512) = true ∧ jobDst (tloadJob 0 512) = 0 ∧ (s.allCores.any fun co => coreTile co.id == 0 && midLut (s.focusOn co.id) false) = true) := by
  decide +kernel
/-- An INDEX that has joined, a mismatch found before, and no element at all. -/
def emptyColl : Job :=
  aJob (aCard 3 16 src0 dst0 64 (10 + 8 * 256) 128 64) (leBytes 4 0 ++ leBytes 4 5 ++ leBytes 4 1 ++ leBytes 4 0 ++ leBytes 4 0 ++ leBytes 4 0 ++ zeroBytes 8)
theorem witness_Collectives_more :
    ((collAt (collTerms (collJob 0))).shape = collTerms (collJob 0) ∧ (∃ p ∈ (collAt []).parts, p.1 = collField (collJob 0) 12 4))
    ∧ ({ collAt [] with mismatch := true } : Coll).mismatch = true
    ∧ (startsB (withJob emptyColl) 3 emptyColl = true ∧ collField emptyColl 16 4 = 0 ∧ leNat (((collTerms emptyColl).drop 2).take 4) = 1
      ∧ feedsB (withJob emptyColl) emptyColl src0 0 = true) := by
  decide +kernel
/-- A completion handler behind a full run queue, and behind a record held before it. -/
theorem witness_JobCompletion_held :
    (let s := withJob (endedJob 2); ({ s with core := { s.core with runq := List.replicate 4160 someRec } } : State).core.runq.length = 4160)
    ∧ heldRec (mail (.record ready) (withJob (endedJob 2))) 1 = true ∧ heldRec (withJob (endedJob 2)) 0 = false
    ∧ cardField (endedJob 2).card 2 2 % 16 = 2 := by
  refine ⟨List.length_replicate, by decide, by decide, by decide⟩
/-- A delta block whose base block in near memory has its extents, and one whose base has other extents. -/
def deltaHdr : BlockHdr := { hdr 0 13 288 0 0x800010000 with delta := true }
def withBase (kn : Nat) : State :=
  { wdState oneAcc with near := memWrite demo.near 0x800010000 (leBytes 8 (13 * 256) ++ zeroBytes 24 ++ leBytes 8 kn ++ leBytes 8 288) }
theorem witness_WeightBlocks_base :
    isOk (blkStored 0x800010000 0 64 (blockAt deltaHdr (withBase (32 * 65537)))) (fun hb _ => baseOk deltaHdr (blockHdr 0x800010000 hb)) = true
    ∧ isOk (blkStored 0x800010000 0 64 (blockAt deltaHdr (withBase (64 * 65537)))) (fun hb _ => !baseOk deltaHdr (blockHdr 0x800010000 hb)) = true
    ∧ Enters deltaHdr (withBase (32 * 65537)) := by
  refine ⟨by decide +kernel, by decide +kernel, rfl, .inr (.inr ?_)⟩
  exact (by decide : bkptMatch demo.core 0x800008000 = false)
theorem witness_ControlBlocks_base :
    (hdr 4 0 0 0 0x800010000).base.toNat % 64 = 0 ∧ (hdr 4 0 0 0 0x800010008).base.toNat % 64 ≠ 0 ∧ plainOk (hdr 4 0 0 0 0x800010008) = true
    ∧ (hdr 7 0 0 1 0x800010004).base.toNat % 8 ≠ 0 ∧ plainOk (hdr 7 0 0 1 0x800010004) = true ∧ syncScope (hdr 7 0 0 1 0x800010004) = some .core := by
  decide +kernel
/-- A page that stands in no table, and one without the right. -/
theorem witness_StagedBlocks_hint :
    (∃ tr, blkFetch 0x1000000040 64 demo = .error (.trap tr) ∧ tr.cause = .pageNp) ∧ demo.staged 0x1000000040 = none
    ∧ (∃ tr, blkFetch 0x1000000040 64 (farPage 0x2F base) = .error (.trap tr) ∧ tr.cause ≠ .pageNp)
    ∧ isOk (blkFetch 0x1000000040 64 (farPage 0x3F base)) (fun bs _ => bs.length == 64) = true :=
  ⟨⟨_, rfl, rfl⟩, rfl, ⟨_, rfl, by decide⟩, by decide +kernel⟩
/-- A pulse that waits; cores that are trapped, held, in the mode, and short of power. -/
theorem witness_PlumbAndTrace_more :
    ((ringed 10 0 0 0 1024).powered = true ∧ (ringed 10 0 0 0 1024).pulseWaits = some 0 ∧ (ringed 10 0 0 0 1025).pulseWaits = none)
    ∧ (({ demo with core := { demo.core with mode := .trapped } } : State).coreOf 0).mode = .trapped
    ∧ (({ demo with core := { demo.core with mode := .held 1 } } : State).coreOf 0).mode = .held 1
    ∧ (((wdState oneAcc).coreOf 0).mode = .running ∧ ((wdState oneAcc).coreOf 0).ctx.wd = true)
    ∧ (let s := { inMx 1 with throttle := [0] }.mapCtx fun c => { c with stall := some .counter }
       (s.coreOf 0).mode = .running ∧ (s.coreOf 0).ctx.stall = some .counter ∧ (s.coreOf 0).ctx.mxops ≠ [] ∧ Fin.ofNat 8 (coreDie 0) ∈ s.throttle) := by
  decide +kernel
/-- An idle core and a running one; a poisoned word read, and covered in part; a die over its share. -/
theorem witness_ErrorsAndPower_more :
    ((withCore { id := 1 }).coreOf 1).mode = .idle ∧ (demo.coreOf 0).mode ≠ .idle
    ∧ (let s := { demo with poison := [0x800008000] }
       poisoned s 0x800008004 8 = true ∧ partPoison s 0x800008004 8 = true ∧ partPoison s 0x800008000 8 = false ∧ touchesWindow s 0x800008004 = false)
    ∧ (Fin.ofNat 8 (coreDie demo.core.id) ∉ demo.throttle ∧ Fin.ofNat 8 (coreDie demo.core.id) ∈ ({ demo with throttle := [0] } : State).throttle) := by
  decide +kernel
/-- A renewal by nobody and by another host; claims of a lease that is held, vacant or ended after the claim came; no boot; rule work of a held context. -/
theorem witness_RefusedCommands_more :
    (∀ id ∈ [0, 8], let s := asked 9 0 0 [BitVec.ofNat 8 id] (ruled .running 0 [])
      Waits s 0 9 ∧ Holds s 0 ∧ HeaderOk s 0 4 ∧ mbNat s 0 16 4 = id ∧ id ≠ s.host.hostid.toNat)
    ∧ ¬ HeaderOk (asked 9 1 0 [7] (ruled .running 0 [])) 0 4
    ∧ (let s := asked 10 0 0 [0] (leased .expired 1)
       Waits s 0 10 ∧ HeaderOk s 0 4 ∧ leaseNow s = .expired ∧ ¬ (s.host.ports[(0 : Fin 2)].arrived.toNat / 800 < s.host.deadline.toNat) ∧ mbNat s 0 16 4 = 0)
    ∧ leaseNow (asked 10 0 0 [7] (leased .vacant 1)) = .vacant
    ∧ (let s := asked 10 0 0 [7] (leased .expired 9); leaseNow s = .expired ∧ s.host.ports[(0 : Fin 2)].arrived.toNat / 800 < s.host.deadline.toNat)
    ∧ (let s := asked 5 0 0 [] { ruled .running 0 [] with host := { (ruled .running 0 []).host with lintelsReady := false } }
       ¬ (s.host.capReady = true ∧ s.host.lintelsReady = true))
    ∧ (let s := asked 5 0 0 [] { ruled .running 0 [] with core := { mapping.core with mode := .held 0 } }
       Waits s 0 5 ∧ HeldUp s 0) := by
  refine ⟨fun id h => ?_, ?_, ⟨waits_of _ (by decide), (header_iff _ _ _ _ _ _).mpr (by decide), by decide +kernel, by simp [asked, leased], ?_⟩,
    by decide +kernel, ⟨by decide +kernel, by simp [asked, leased]⟩, by decide, waits_of _ (by decide), ?_⟩
  · simp only [List.mem_cons, List.not_mem_nil, or_false] at h
    rcases h with rfl | rfl <;> refine ⟨waits_of _ (by decide), holds_asked _ _ _ _ _ _ _, (header_iff _ _ _ _ _ _).mpr (by decide), ?_, by decide⟩ <;>
      rw [asked_out _ _ _ _ _ 16 4 (.inr (by decide))] <;> decide
  · rw [header_iff]; decide
  · rw [asked_out _ _ _ _ _ 16 4 (.inr (by decide))]; decide
  · refine ⟨ruledDev .running 0 [], ?_, rfl, by decide⟩
    have n : (ruledDev .running 0 []).num = 0 := rfl
    simp only [named, asked_vdid]
    exact (by rw [List.find?_cons_of_pos]; exact beq_iff_eq.mpr (congrArg vdidOf n) :
      ([ruledDev .running 0 []].find? fun d => vdidOf d.num == vdidOf 0) = some (ruledDev .running 0 []))
/-- A tile whose 64 entries are full; a faulted device's ended job. -/
theorem witness_Packets_more :
    (let s := copying.updTile (copyTile (ringDev allCmds 0) (ringQueue 0)) fun t => { t with jobs := List.replicate 64 copyJob }
     (s.tileOf (copyTile (ringDev allCmds 0) (ringQueue 0))).jobs.length = 64)
    ∧ (let s := copied 3; ∃ d, ({ s with devs := s.devs.map fun d => { d with state := .faulted } } : State).devOf 0 = some d ∧ d.state = .faulted) :=
  ⟨by decide +kernel, ⟨_, rfl, rfl⟩⟩
/-- A tag record of the launched descriptor, for a tag with a waiting record. -/
theorem witness_LaunchPackets_tags :
    (let r : TagRec := { desc := 0x40, core := 0, tag := 3, prio := 127, en := true, handler := 0x800000100 }
     let s := { launching with core := { launching.core with runq := [{ waitingRec with tag := 3 }] }
                               devs := launching.devs.map fun d => { d with tagRecs := [r], lbase := 0x300000, vbase := 0, policy := { d.policy with handles := [(0x300000, 4096, 8)] } } }
     ∃ d, s.devs = [d] ∧ (ringHandle.base + hdrField s (ringQueue 0) 8 8 % 2 ^ 40 < d.lbase + ((d.policy.handles.find? fun e => e.2.2.getLsbD 3 && e.1 == d.lbase).map (·.2.1)).getD 0) ∧ r ∈ d.tagRecs ∧ r.desc + d.lbase = d.vbase + (ringHandle.base + hdrField s (ringQueue 0) 8 8 % 2 ^ 40)
       ∧ d.lbase ≤ ringHandle.base + hdrField s (ringQueue 0) 8 8 % 2 ^ 40 ∧ (s.coreOf r.core).tags[r.tag].en = false
       ∧ ∃ w ∈ (s.coreOf r.core).runq, w.wait = true ∧ w.tag.toNat = r.tag.val) :=
  ⟨_, rfl, by decide +kernel, by simp, by decide +kernel, by decide +kernel, by decide +kernel, ⟨_, List.mem_singleton.mpr rfl, rfl, rfl⟩⟩

/-! Witnesses: clauses on far atomics, page tables, rule steps, the mode, blocks and CREATE_VD. -/

/-- An ATOM.ADD of x2 on a far word, plain and with an acquire. -/
theorem witness_FarAtomics :
    Takes [.reg 1, .reg 2] [.reg 3] (warned false wCombo (begun (at_ farSpot farBase))) [farSpot, 0x1122334455667788] (begun (at_ farSpot farBase))
    ∧ isNear farSpot.toNat = false ∧ farSpot.toNat % 8 = 0
    ∧ isOk (place farSpot 8 needRW true 0 (begun (at_ farSpot farBase))) (fun p t => match p with
        | .far va pas => va == farSpot.toNat && t.core.ctx.ld != 63 && !ownPending t farSpot.toNat 8 && (readsDone t farSpot.toNat 8).core.ctx.stores.isEmpty
            && !(granulesOf pas).any (sealFails (readsDone t farSpot.toNat 8) (readsDone t farSpot.toNat 8).key) && !t.core.ctx.pendingX 3
            && isOk (writeOpd (.reg 3) 0 t) (fun _ _ => true)
        | .near .. => false) = true :=
  ⟨⟨rfl, room rfl, rfl⟩, by decide, by decide, by decide +kernel⟩
/-- Reserved bits in entries of every level, leaves whose frames are not aligned, a level-4 leaf bit outside a group entry and a bad group entry. -/
theorem witness_PageWalk_bad :
    (∀ e ∈ [pteAt (tables 0x0010000000002001 0 0 0 0) 0x1000, pteAt (tables 0x2001 0x3401 0 0 0) 0x2200, pteAt (tables 0x2001 0x3001 0x4801 0 0) 0x3000,
      pteAt (tables 0x2001 0x3001 0x4001 0x10603 0) 0x4000, pteAt (tables 0x2001 0x3001 0x4001 0 0x5C03) 0x4008], e % 2 = 1 ∧ (e / 2 ^ 52 ≠ 0 ∨ e / 2 ^ 10 % 4 ≠ 0))
    ∧ (let e := pteAt (tables 0x2001 0x201203 0 0 0) 0x2200; e % 2 = 1 ∧ e / 2 ^ 9 % 2 = 1 ∧ e / 2 ^ 12 % 2 ^ 40 * 4096 % 2 ^ 30 ≠ 0)
    ∧ (let e := pteAt (tables 0x2001 0x3001 0x5203 0 0) 0x3000; e % 2 = 1 ∧ e / 2 ^ 9 % 2 = 1 ∧ e / 2 ^ 12 % 2 ^ 40 * 4096 % 2 ^ 21 ≠ 0)
    ∧ (let e := pteAt (tables 0x2001 0x3001 0x4001 0x1203 0) 0x4000; e % 2 = 1 ∧ e / 2 ^ 9 % 2 = 1 ∧ e / 2 ^ 12 % 2 ^ 40 * 4096 % 65536 ≠ 0)
    ∧ (let q := tables 0x2001 0x3001 0x4001 0 0x5203
       pteAt q 0x4008 % 2 = 1 ∧ pteAt q 0x4008 / 2 ^ 9 % 2 = 1 ∧ ¬ (pteAt q 0x4000 % 2 = 1 ∧ pteAt q 0x4000 / 2 ^ 9 % 2 = 1)) := by decide
/-- A table under another key than the device's. -/
theorem witness_Translation_sealed : ∃ d, ({ farBase with sealed := [{ lo := 0x1000, n := 16, key := 99 }] } : State).dev = some d
    ∧ walkSealed { farBase with sealed := [{ lo := 0x1000, n := 16, key := 99 }] } d farSpot.toNat = true := ⟨_, rfl, by decide⟩
/-- The fields of WDENTER as streams, and an address that is not a block's. -/
theorem witness_EnteringMode_traps :
    (¬ ((demo.core.ctx.streams[(2 : Fin 8)]).bound = true ∧ (demo.core.ctx.streams[(2 : Fin 8)]).out = false)) ∧ coreSlot demo.core.id < 32
    ∧ srcDir (inStream [] 0 2).core.ctx (.str 2) = none ∧ srcDir demo.core.ctx (.reg 2) = none
    ∧ (let s := withX [(1, 0x1000000020)] demo
       readX 1 s = .ok (0x1000000020, s) ∧ readX 2 s = .ok (7, s) ∧ readOpd (.reg 3) s = .ok (0, s) ∧ (0x1000000020 : Word).toNat % 64 ≠ 0) := by
  refine ⟨by decide, by decide, by decide, rfl, rfl, rfl, rfl, by decide⟩
/-- A MAC whose payload lies past the page it may read. -/
theorem witness_WeightBlocks_faults :
    (∃ t, elemOfCode (blockAt { hdr 0 13 288 0 0 with addr := 0x8000DFF80 } (wdState oneAcc)).core.ctx.wdst.aet.toNat = some t)
    ∧ (∃ tr, mapM' (weightImage { hdr 0 13 288 0 0 with addr := 0x8000DFF80 } 0) (List.range 1)
        (blockAt { hdr 0 13 288 0 0 with addr := 0x8000DFF80 } (wdState oneAcc)) = .error (.trap tr)) :=
  ⟨⟨_, rfl⟩, trap_of (by decide +kernel)⟩
/-- A third participant's card agrees on NPART with the second's, and not with the first's. -/
theorem witness_Collectives_nparts :
    ({ group := 5, vd := 0, shape := [], parts := [], nparts := [2, 3, 3] } : Coll).expected = 3
    ∧ ({ group := 5, vd := 0, shape := [], parts := [], nparts := [5, 3, 3] } : Coll).expected = 3
    ∧ (collAt []).mismatch = false := by decide

/-! Rule steps. -/

/-- Terminals of 4 and 3 elements, and three times the first. -/
def repTable : List Byte := ruleTable.take 32 ++ leBytes 16 (2 + 0 * 2 ^ 32 + 3 * 2 ^ 64 + 12 * 2 ^ 96)
def stepping_ (tab hd : List Byte) (rrt : Nat) (g : GOp) : State :=
  { demo with near := memWrite (memWrite demo.near 0x800008000 (hd ++ tab)) 0x800009000 (leBytes 8 rrt) }.mapCtx fun c => { c with gr := 1, gops := [g] }
theorem grammarAt_of {s : State} {g : GOp} {p : GHdr → Bool}
    (h : unitOk g.a 64 s (fun bs t => t == s && match hdrOf g.a bs with | some h => p h | none => false) = true) :
    ∃ h, GrammarAt s g h ∧ p h = true := by
  unfold unitOk isOk at h
  rw [Bool.and_eq_true, Bool.not_eq_true'] at h
  obtain ⟨h0, h⟩ := h
  split at h
  · next bs t heq =>
    rw [Bool.and_eq_true] at h
    obtain ⟨h1, h2⟩ := h
    rw [eq_of_beq h1] at heq
    split at h2
    · next k hk => exact ⟨k, ⟨bs, ⟨h0, heq⟩, hk⟩, h2⟩
    · cases h2
  · cases h
def query (fn cur pos : Nat) (mod : Nat := 0) : GOp := { gop 2 fn 0 0 true cur pos none with mod := mod }
/-- Element 3 of GMAP.CVT, a row of ROWDOT and the header that ends a map. -/
theorem witness_RuleSteps_map :
    (∃ h, GrammarAt ((ruling (header 10 0 0) 0 (gop 1 0 0 0 true 3 0 none)).focusOn 0) (gop 1 0 0 0 true 3 0 none) h ∧
      (h.nterm == 8 && unitOk (h.data + BitVec.ofNat 64 (3 * 4)) 4 ((ruling (header 10 0 0) 0 (gop 1 0 0 0 true 3 0 none)).focusOn 0)
        (fun _ t => t == (ruling (header 10 0 0) 0 (gop 1 0 0 0 true 3 0 none)).focusOn 0
          && isNear (0x800009000 + 64 + 12) && nearSpanOk t (0x800009000 + 64 + 12) 4 && (windowSlots (t.tileOf 0)).isEmpty)) = true)
    ∧ (∃ h, GrammarAt ((ruling (header 10 1 2) 0 (gop 1 4 0 0 true 1 0 none)).focusOn 0) (gop 1 4 0 0 true 1 0 none) h ∧
      (h.rowlen == 2 && decide (1 < h.nterm) && unitOk (h.data + BitVec.ofNat 64 (1 * 2 * 4)) (2 * 4) ((ruling (header 10 1 2) 0 (gop 1 4 0 0 true 1 0 none)).focusOn 0)
        (fun _ t => t == (ruling (header 10 1 2) 0 (gop 1 4 0 0 true 1 0 none)).focusOn 0)) = true)
    ∧ (∃ h, GrammarAt ((ruling (header 10 0 0) 0 (gop 1 0 0 0 true 8 0 none)).focusOn 0) (gop 1 0 0 0 true 8 0 none) h ∧ decide (h.nterm ≤ 8) = true) :=
  ⟨grammarAt_of (by decide +kernel), grammarAt_of (by decide +kernel), grammarAt_of (by decide +kernel)⟩
/-- A query at position 0; at a pair, left of it, past its first child with and without that child's result; at a repeat; at a terminal. -/
def asked_ (tab : List Byte) (rrt : Nat) (g : GOp) (p : GHdr → Rule → State → Bool) : Bool :=
  let s := (stepping_ tab (header 4 0 0) rrt g).focusOn 0
  unitOk g.a 64 s fun bs t => t == s && match hdrOf g.a bs with
    | some h => isOk (readRule h g.cur s) fun q u => u == s && p h q s
    | none => false
def waits_ (g : GOp) (a : Nat) (s : State) : Bool := match readRes g.b g.mod a s with | .error (.stall .acquire) => true | _ => false
def gives_ (g : GOp) (a : Nat) (s : State) : Bool := isOk (readRes g.b g.mod a s) fun _ t =>
  t.core.ctx == s.core.ctx && t.core.id == 0 && t.near == s.near && t.quarry == s.quarry
theorem witness_RuleSteps_query :
    asked_ ruleTable 0 (query 1 2 3) (fun _ q _ => q.kind == 1 && decide (3 < q.lenA)) = true
    ∧ asked_ ruleTable 0 (query 1 2 5) (fun _ q s => q.kind == 1 && decide (q.lenA ≤ 5) && waits_ (query 1 2 5) q.a s) = true
    ∧ asked_ ruleTable (2 ^ 63) (query 1 2 5) (fun _ q s => q.kind == 1 && decide (q.lenA ≤ 5) && gives_ (query 1 2 5) q.a s) = true
    ∧ asked_ repTable 0 (query 1 2 5) (fun _ q s => q.kind == 2 && waits_ (query 1 2 5) q.a s) = true
    ∧ asked_ repTable (2 ^ 63) (query 0 2 5) (fun _ q s => q.kind == 2 && gives_ (query 0 2 5) q.a s) = true
    ∧ asked_ ruleTable 0 (query 1 0 2) (fun h q s => q.kind == 0 && isOk (foldElems 0 h { v := 0, fl := 0 } 0 q.a 3 s) (fun _ t => t == s)) = true
    ∧ asked_ ruleTable 0 (query 2 0 2) (fun h q s => q.kind == 0 && unitOk (h.data + BitVec.ofNat 64 ((q.a + 2) * 4)) 4 s (fun _ t => t == s)) = true
    ∧ asked_ repTable 0 (query 2 2 5) (fun _ q _ => q.kind == 2) = true := by
  decide +kernel
/-- GEXP at its next rule, after its last one, inside a pair, at an element with a buffer and with a stream, and 256 levels down. -/
def expand_ (stack : List (Nat × Nat)) (cur last : Nat) (bs : Option (Fin 8)) : GOp := { gop 3 0 0 last true cur 0 none with stack := stack, bs := bs }
theorem witness_RuleSteps_expand :
    (dropDone (expand_ [] 0 2 none).stack = [] ∧ 0 ≤ (expand_ [] 0 2 none).c.toNat / 2 ^ 32 ∧ (expand_ [] 3 2 none).c.toNat / 2 ^ 32 < 3)
    ∧ dropDone [(2, 0), (1, 3)] = (1, 3) :: []
    ∧ asked_ ruleTable 0 (expand_ [(2, 1)] 2 2 none) (fun _ q _ => q.kind == 1) = true
    ∧ asked_ ruleTable 0 (expand_ [(0, 4)] 0 2 none) (fun h q s => q.kind == 0 && unitOk (h.data + BitVec.ofNat 64 ((q.a + q.b - 4) * 1 + 0) * 4) 4 s (fun _ t => t == s)
        && nearSpanOk s 0x800009000 4 && (windowSlots (s.tileOf 0)).isEmpty) = true
    ∧ (let t := (outStream 0).core.ctx.streams[(2 : Fin 8)]; t.bound = true ∧ t.out = true)
    ∧ (∀ n, 256 ≤ n → 256 ≤ (List.replicate n ((2 : Nat), (1 : Nat))).length) :=
  ⟨by decide, rfl, by decide +kernel, by decide +kernel, by decide, fun n h => by rw [List.length_replicate]; exact h⟩

/-! CREATE_VD. Signatures, the decryption of an image and the extents of the package are opaque, so the witness is for any functions
that accept this payload: a policy that permits CREATE_VD and DESTROY_VD of one tile, and an executable without segments. -/

def boxAll (l : List (Nat × List Byte)) : Memory := l.foldl (fun m p => memWrite m p.1 p.2) []
def createBox : Memory := boxAll [(0, leBytes 2 1), (8, leBytes 4 8456), (16, leBytes 2 1), (64, leBytes 4 0x504B5956), (64 + 1992, leBytes 8 6), (64 + 2002, leBytes 2 1)]
def creating : State :=
  let s := leased .held 9
  { s with host := { s.host with ports := s.host.ports.set 0 { mailbox := createBox, busy := true, holder := true } } }
/-- An ELF header, one section header at 64 for the signature block of 3,392 bytes at 128. -/
def aSection : List Byte := leBytes 4 0 ++ leBytes 4 0x70000003 ++ zeroBytes 16 ++ leBytes 8 128 ++ leBytes 8 3392 ++ zeroBytes 24
def elfHead : List Byte := leBytes 4 0x464C457F ++ [2, 1] ++ zeroBytes 12 ++ leBytes 2 0xF3D1 ++ zeroBytes 20 ++ leBytes 8 64 ++ zeroBytes 10 ++ leBytes 2 64 ++ leBytes 2 1 ++ zeroBytes 2
def anExe : List Byte := elfHead ++ aSection ++ zeroBytes 3392
def anImage : Image := { segs := [], svctab := 0, tags := [] }
theorem anExe_elf : elfOk anExe = true := by
  simp only [elfOk, Bool.and_eq_true, decide_eq_true_eq]
  refine ⟨by decide +kernel, ?_⟩
  rw [show fld anExe 48 4 = 0 from by decide +kernel]
  exact Nat.zero_le _
theorem anExe_image (tiles : List TileId) : readImage tiles anExe = some anImage := by
  unfold readImage
  simp only [anExe_elf, show (elfPhdrs anExe) = [] from by decide +kernel,
    show ((elfSects anExe).filter fun x => x.typ == 0x70000004) = [] from by decide +kernel,
    show ((elfSects anExe).filter fun x => x.typ == 0x70000002) = [] from by decide +kernel,
    show elfRelas anExe = [] from by decide +kernel, show elfSegs anExe = [] from by decide +kernel, relocateAll]
  rfl
theorem creating_accepts : Waits creating 0 1 ∧ HeaderOk creating 0 2 ∧ Holds creating 0 :=
  ⟨⟨rfl, ⟨rfl, rfl⟩, by decide +kernel⟩, by unfold HeaderOk; decide +kernel, rfl⟩
theorem witness_PolicyCommands_makes (sig : ∀ a b c d, Config.signaturesVerify a b c d = true)
    (ext : Config.extentOf (zeroBytes 16) = some (0x300000, 8192)) (dec : ∀ a b c, Config.decryptImage a b c = some anExe) :
    ∃ q, Makes creating 0 q anImage := by
  have l : locate creating (mbBytes creating 0 8488 32) = some [] := by
    unfold locate
    rw [show (mbBytes creating 0 8488 32).take 16 = zeroBytes 16 from by decide +kernel, ext]
    exact (by decide +kernel : (if fld (mbBytes creating 0 8488 32) 16 8 + fld (mbBytes creating 0 8488 32) 24 8 ≤ 8192 then
      some (memRead creating.quarry (0x300000 + fld (mbBytes creating 0 8488 32) 16 8) (fld (mbBytes creating 0 8488 32) 24 8)) else none) = some [])
  have v (blk : List Byte) (h : (blk.length == 3392 && fld blk 0 8 == 0 && fld blk 3381 11 == 0) = true) (a b c : List Byte) :
      blockVerifies a b c blk = true := by simp only [blockVerifies, sig, h, Bool.and_true]
  obtain ⟨q, hq⟩ := Option.isSome_iff_exists.mp
    (by decide +kernel : (bindPolicy (mbBytes creating 0 64 7336) ((freeTiles (asJudged creating)).take (mbNat creating 0 16 2))).isSome = true)
  refine ⟨q, ?_, hq, ⟨[], anExe, l, dec .., anExe_image _⟩, by decide +kernel, Nat.zero_le _⟩
  unfold createFailure
  simp only [l, dec, anExe_elf, v ((mbBytes creating 0 64 7336).drop 3944) (by decide +kernel), v (anExe.drop (anExe.length - 3392)) (by decide +kernel)]
  decide +kernel

/-! Witnesses: the clauses on waiting pushes, rejections, due signals, overtaken renewals and packets that are refused. -/

/-- The image of the tests, its rules at 64 and its data at 112. -/
def plainHdr : GHdr := { et := .i32, w := 4, nrules := 3, nterm := 8, start := 2, matrix := false, rowlen := 0, rules := spot + 64, data := spot + 112 }
def gramAt (g : GOp) : State := (ruling (header 4 0 0) 0 g).focusOn 0
/-- A rejection of each kind by GMAP, GPOS and GEXP; one of each that is not rejected; START's LEN beside positions on both sides of it. -/
theorem witness_RuleUnit_first :
    Rejection plainHdr (gop 1 4 0 0 false 0 0 none) 0x8000000000000002 wCombo
    ∧ Rejection plainHdr { gop 1 0 0 0 false 0 0 none with mod := 7 } 0x8000000000000002 wCombo
    ∧ Rejection plainHdr { gop 2 0 3 0 false 0 0 none with mod := 12 } 0x8000000000000001 wLift
    ∧ Rejection plainHdr { gop 2 1 3 0 false 0 0 none with mod := 8 } 0x8000000000000002 wCombo
    ∧ Rejection plainHdr { gop 3 1 0 9 false 0 0 none with mod := 8 } 0x8000000000000002 wCombo
    ∧ Rejection plainHdr (gop 3 0 0 3 false 0 0 none) 0x8000000000000003 wCombo
    ∧ (∀ g ∈ [gop 1 3 0 0 false 0 0 none, gop 2 0 7 0 false 0 0 none, gop 3 0 0 2 false 0 0 none], ∀ v w, ¬ Rejection plainHdr g v w)
    ∧ (∀ g ∈ [gop 1 3 0 0 false 0 0 none, gop 2 0 7 0 false 0 0 none, gop 3 0 0 2 false 0 0 none],
        unitOk spot 64 (gramAt g) (fun bs t => t == gramAt g && hdrOf spot bs == some plainHdr) = true)
    ∧ unitOk (plainHdr.rules + BitVec.ofNat 64 (16 * plainHdr.start + 12)) 4 (gramAt (gop 2 0 7 0 false 0 0 none))
        (fun lb t => t == gramAt (gop 2 0 7 0 false 0 0 none) && leNat lb == 7) = true := by
  have h : ∀ g ∈ [gop 1 3 0 0 false 0 0 none, gop 2 0 7 0 false 0 0 none, gop 3 0 0 2 false 0 0 none], ∀ v w, ¬ Rejection plainHdr g v w := by
    intro g h v w
    simp only [List.mem_cons, List.not_mem_nil, or_false] at h
    rcases h with rfl | rfl | rfl <;> simp [Rejection, gop, plainHdr, elemIsInt, opTakes]
  refine ⟨by simp [Rejection, gop, plainHdr], by simp [Rejection, gop, plainHdr], by simp [Rejection, gop, plainHdr],
    by simp [Rejection, gop, plainHdr, opTakes, elemIsFp], by simp [Rejection, gop, plainHdr, opTakes, elemIsFp], by simp [Rejection, gop, plainHdr], h,
    by decide +kernel, by decide +kernel⟩
/-- The rule unit's header meets an element that the task has pushed and that is still to be written. -/
theorem witness_RuleUnit_pushed :
    (let t : Stream := { bound := true, out := true, kind := .pattern, esz := 8, base := spot, counts := [1], total := 1, done := 1, buf := [zeroBytes 8] }
     let s := (gramAt (gop 1 3 0 0 false 0 0 none)).mapCtx fun c => { c with streams := c.streams.set 2 t }
     pushPending s spot.toNat 64 = true) := by
  decide +kernel
/-- A full run queue whose first record is the one to run, with signals due for tags 3 and 9. -/
def signalled : Core :=
  { id := 1, runq := ready :: List.replicate 4159 waitingRec
    tags := ((Vector.replicate 64 ({} : Tag)).set 3 { en := true, signal := true }).set 9 { en := true, signal := true } }
theorem witness_TaskSelection_signals :
    signalled.runq.length = 64 + 4096 ∧ DueSignal signalled 3 = true ∧ (∀ k : Fin 64, k < 3 → DueSignal signalled k = false)
    ∧ (∀ g : Fin 64, DueSignal { id := 1, runq := [ready] } g = false) :=
  ⟨by simp [signalled], by decide, by decide, by decide⟩
/-- A current EXIT and a current TRAPB; entries of the current block and of the base block of a delta block. -/
theorem witness_StagedBlocks_last :
    (∀ o ∈ [8, 9], (let s := { wdState oneAcc with near := memWrite demo.near 0x800008000 (leBytes 8 o) }.mapCtx fun c => { c with wdblk := spot }
      (s.coreOf 0).ctx.wd = true ∧ isOk (blkRead spot.toNat 0 64 (s.focusOn 0)) (fun hb _ => (blockHdr spot.toNat hb).opc.toNat == o) = true))
    ∧ (∃ e ∈ ((holding lutStaged).tileOf 0).staging, some e.vd = (holding lutStaged).vd ∧ e.addr = { hdr 0 14 288 0 0 with addr := 0x1000000040 }.addr)
    ∧ (deltaHdr.opc.toNat < 2 ∧ deltaHdr.delta = true ∧ 0x800010000 = deltaHdr.base.toNat ∧ 0x1000000040 ≠ deltaHdr.addr ∧ 0x1000000040 ≠ deltaHdr.base.toNat) :=
  ⟨by decide +kernel, ⟨_, .head _, rfl, rfl⟩, by decide⟩
/-- LINK with a BASE that is not near, and with a near one while a stream is the source. -/
theorem witness_ControlBlocks_link :
    (hdr 3 0 0 0 0x1000000040).base ≠ 0 ∧ isNear (hdr 3 0 0 0 0x1000000040).base.toNat = false ∧ plainOk (hdr 3 0 0 0 0x1000000040) = true
    ∧ ((wdState { oneAcc with src := some 2 }).core.ctx.wdst.src ≠ none ∧ isNear (hdr 3 0 0 0 0x800010000).base.toNat = true) := by
  decide +kernel
/-- A renewal that arrived at microsecond 1 and waits at the deadline, microsecond 2; the lease taken before it, at the same time and after it. -/
def renewing (taken time : Word) : State :=
  let s := asked 9 0 0 [7] (leased .held 2)
  { s with time := time, host := { s.host with taken := taken, ports := s.host.ports.set 0 { s.host.ports[(0 : Fin 2)] with opcode := 9 } } }
theorem witness_Leases_renewal :
    RenewalWaits (renewing 800 1600).host ∧ Over (renewing 800 1600) (renewing 800 1600).host
    ∧ ¬ RenewalWaits (renewing 801 1600).host ∧ ¬ Over (renewing 0 1599) (renewing 0 1599).host := by
  have e (t u : Word) (off n : Nat) (h : off + n ≤ 4 ∨ 8 ≤ off) : leNat (memRead (renewing t u).host.ports[(renewing t u).host.port].mailbox off n)
      = leNat (memRead (plainBox 9 0 0 [7]) off n) := asked_out 9 0 0 [7] (leased .held 2) off n h
  have k (t u : Word) : (renewing t u).host.taken = t := rfl
  refine ⟨⟨?_, ?_, ?_, ?_, ?_, ?_, rfl, ?_, rfl, by decide +kernel, by decide +kernel⟩, by decide +kernel, ?_, by decide +kernel⟩
  · beta_reduce; rw [e _ _ _ _ (.inl (by decide))]; decide +kernel
  · beta_reduce; rw [e _ _ _ _ (.inr (by decide))]; decide +kernel
  · beta_reduce; rw [e _ _ _ _ (.inr (by decide))]; decide +kernel
  · beta_reduce; rw [e _ _ _ _ (.inr (by decide))]; decide +kernel
  · beta_reduce; rw [e _ _ _ _ (.inr (by decide))]; decide +kernel
  · beta_reduce; rw [e _ _ _ _ (.inr (by decide))]; decide +kernel
  · decide +kernel
  · intro h; exact absurd h.2.2.2.2.2.2.2.2.2.2 (by rw [k]; decide +kernel)
theorem witness_LeaseAndReports_overtaken :
    (let h := now (renewing 800 800); h.lease = .held ∧ h.port = 0 ∧ h.taken.toNat ≤ h.ports[(0 : Fin 2)].arrived.toNat)
    ∧ (let h := now (renewing 801 801); h.lease = .held ∧ h.ports[(0 : Fin 2)].arrived.toNat < h.taken.toNat) := by
  decide +kernel
/-- The window after a thermal fault; bytes of the interrupt page alone; an uncorrectable word in it. -/
theorem witness_DriveWindow_more :
    (let s := windowed 0x800000000
     ∃ d, ({ s with host := { s.host with thermal := true } } : State).windowDev = some d ∧ 4096 ≤ d.policy.nvlen
       ∧ (∀ i < 8, d.policy.nvlen - 4096 ≤ 4152 + i ∧ 4152 + i < d.policy.nvlen - 4096 + 64) ∧ ¬ (d.policy.nvlen - 4096 ≤ 4095))
    ∧ (let s := { windowed 0x800000000 with poison := [0x800000008] }
       0x80000000C / 8 * 8 ∈ s.poison ∧ ∀ i < 8, (0x800000010 + i) / 8 * 8 ∉ s.poison) :=
  ⟨⟨_, rfl, by decide, by decide, by decide⟩, by decide⟩
/-- A queue that a BARRIER holds; a LAUNCH, a COPY and a BARRIER that fail a check, each the lowest of those that fail. -/
theorem witness_QueuePackets_refused :
    (∃ d k, (barred []).queueOf 5 = some (d, k) ∧ k.barrier ≠ none)
    ∧ (∀ x ∈ [(1, 0, 2), (3, 1, 2), (37, 2, 4)], (let s := ringing allCmds 0 (packet x.1 0 0 1); let k := ringQueue 0; let d := ringDev allCmds 0
        Reading s 5 d k ∧ typeOf s k = x.2.1 ∧ packetReason s d k (packetOf (memRead s.quarry (slotOf k) 64)) = x.2.2)) := by
  refine ⟨⟨_, _, rfl, nofun⟩, fun x h => ?_⟩
  simp only [List.mem_cons, List.not_mem_nil, or_false] at h
  rcases h with rfl | rfl | rfl <;> exact ⟨reading_of (by decide +kernel), by decide +kernel, by decide +kernel⟩
/-- A gathered element and its place, outside every window. -/
theorem witness_StreamUnits_window : touchesWindow (demo.focusOn 0) 0x800008000 = false := by decide

end Sys2Proof.Tests
end

section
/-! The register space (R59) and the SR word (R76, R77): what reading operands leaves of a context, the bits of SR, and CRR
and CRW by a task that is not in service mode. -/

namespace Sys2Proof.RegisterSpace

open Sys2Proof.Machine Sys2Proof.Say

/-! Operands. -/

/-- x0 never waits: no outstanding work writes it (R59, R63). -/
@[simp] theorem pendingX_zero (c : Ctx) : c.pendingX 0 = false := rfl

/-- Dropping staged blocks reaches no core. -/
@[simp] theorem dropStaged_core (s : State) : (dropStaged s).core = s.core := by
  unfold dropStaged; split <;> rfl

/-- One context is another up to its streams. -/
def SameButStreams (c d : Ctx) : Prop := d = { c with streams := d.streams }

theorem SameButStreams.refl (c : Ctx) : SameButStreams c c := rfl
theorem SameButStreams.trans {c d e : Ctx} (h : SameButStreams c d) (k : SameButStreams d e) : SameButStreams c e := by
  unfold SameButStreams at *; rw [k, h]
theorem SameButStreams.svc_eq {c d : Ctx} (h : SameButStreams c d) : d.svc = c.svc := by rw [h]

/-- A pop moves elements of streams and nothing else of the context, an arrival queue's acquire included (R65, R66, R162). -/
theorem popN_sameButStreams {n : Fin 8} {k : Nat} {s s1 : State} {es : List (List Byte)} (h : popN n k s = .ok (es, s1)) :
    SameButStreams s.core.ctx s1.core.ctx := by
  unfold popN at h
  rw [M.bind_ok (getS_run s)] at h
  dsimp only at h
  by_cases hend : (s.core.ctx.streams[n]).ends k = true
  · rw [if_pos hend] at h; cases h
  rw [if_neg hend] at h
  by_cases hfew : s.core.available s.core.ctx.streams[n] < k
  · rw [if_pos hfew] at h
    cases hheld : (s.core.ctx.streams[n]).held <;> rw [hheld] at h <;> cases h
  rw [if_neg hfew] at h
  cases hkind : (s.core.ctx.streams[n]).kind <;> rw [hkind] at h
  case queue =>
    simp only [M.bind_eq_ok, modS_run, modStream, modC_run, M.pure_run] at h
    obtain ⟨_, _, hq, _, _, hs, _, _, hd, hr⟩ := h
    cases hq; cases hs; cases hd; cases hr
    simp [SameButStreams]
  all_goals
    simp only [M.bind_eq_ok, modStream, modC_run, M.pure_run] at h
    obtain ⟨_, _, hs, hr⟩ := h
    cases hs; cases hr
    rfl

theorem readX_eq_ok {n : Fin 32} {s s1 : State} {v : Word} (h : readX n s = .ok (v, s1)) : s1 = s := by
  unfold readX at h
  rw [M.bind_ok (getC_run s)] at h
  split at h <;> cases h
  rfl

theorem readOpd_sameButStreams {o : Opd} {s s1 : State} {v : Word} (h : readOpd o s = .ok (v, s1)) :
    SameButStreams s.core.ctx s1.core.ctx := by
  cases o with
  | reg n => rw [readX_eq_ok h]; exact .refl _
  | str n =>
    obtain ⟨es, u, hp, hr⟩ := M.bind_eq_ok.mp h
    cases hr
    exact popN_sameButStreams hp

theorem readOpds_sameButStreams {os : List Opd} {s s1 : State} {vs : List Word} (h : readOpds os s = .ok (vs, s1)) :
    SameButStreams s.core.ctx s1.core.ctx := by
  induction os generalizing s vs with
  | nil => cases h; exact .refl _
  | cons o os ih =>
    obtain ⟨v, u, ho, h⟩ := M.bind_eq_ok.mp h
    obtain ⟨ws, t, hs, hr⟩ := M.bind_eq_ok.mp h
    cases hr
    exact (readOpd_sameButStreams ho).trans (ih hs)

/-- Taking one operand is reading it. -/
theorem readOpds_singleton {o : Opd} {s s1 : State} {v : Word} (h : readOpds [o] s = .ok ([v], s1)) :
    readOpd o s = .ok (v, s1) := by
  obtain ⟨w, u, ho, h⟩ := M.bind_eq_ok.mp h
  cases h
  exact ho

/-- Register-space bytes that no outstanding work reaches are written at once, whatever view they belong to (R60, R63). -/
theorem writeUrs_ok {s : State} {off : Nat} {bs : List Byte} (h : s.core.ctx.pendingWrite off bs.length = false) :
    writeUrs off bs s = .ok ((), s.mapCtx (·.ursWrite off bs)) := by
  unfold writeUrs
  rw [M.bind_ok (getC_run s), h]
  rfl

/-- Settles O5: x0 and p0 never wait, their reads and writes are constant, and a write of register-space bytes does not look at
p0's place. -/
theorem zeroRegisters : Obligations.ZeroRegisters := by
  refine ⟨fun s => rfl, fun s t v h => ?_, fun s => rfl, fun s v => rfl, fun s off bs hm hp => ?_⟩
  · have hw : writeX 0 v s = .ok ((), s) := rfl
    cases hw.symm.trans h
    rfl
  · exact ⟨_, writeUrs_ok hp, memRead_memWrite hm off bs⟩

/-! The bits of SR (R77). -/

theorem b2n_lt_two (b : Bool) : b2n b < 2 := by cases b <;> decide

/-- The fields of SR do not overlap, so that its number is their sum (R77). -/
theorem sr_toNat (c : Ctx) : c.sr.toNat = c.mark.toNat / 2 ^ 50 % 2 ^ 14 * 2 ^ 50 + c.prio.toNat * 2 ^ 43 + b2n c.svc * 2 ^ 34
    + b2n c.wd * 2 ^ 33 + b2n c.pfx * 2 ^ 32 + c.pfxv.toNat := by
  have := b2n_lt_two c.svc
  have := b2n_lt_two c.wd
  have := b2n_lt_two c.pfx
  simp only [Ctx.sr, bitsAt, BitVec.toNat_ofNat]
  omega

/-- A bit of a word from its number. -/
theorem getLsbD_of_div_mod {v : Word} {i : Nat} {b : Bool} (h : v.toNat / 2 ^ i % 2 = b2n b) : v.getLsbD i = b := by
  rw [BitVec.getLsbD, Nat.testBit_eq_decide_div_mod_eq, h]
  cases b <;> rfl

/-- A field of a word from its number. -/
theorem extractLsb'_of_div_mod {v : Word} {i n : Nat} {f : BitVec n} (h : v.toNat / 2 ^ i % 2 ^ n = f.toNat) :
    v.extractLsb' i n = f := by
  apply BitVec.eq_of_toNat_eq
  rw [BitVec.extractLsb'_toNat, Nat.shiftRight_eq_div_pow, h]

theorem statusWord_sr (c : Ctx) : StatusWord c c.sr := by
  have hsr := sr_toNat c
  have := b2n_lt_two c.svc
  have := b2n_lt_two c.wd
  have := b2n_lt_two c.pfx
  constructor
  case asid =>
    apply extractLsb'_of_div_mod
    rw [BitVec.extractLsb'_toNat, Nat.shiftRight_eq_div_pow]
    omega
  case prio => exact extractLsb'_of_div_mod (by omega)
  case zero => exact extractLsb'_of_div_mod (show _ = 0 by omega)
  case svc => exact getLsbD_of_div_mod (by omega)
  case wd => exact getLsbD_of_div_mod (by omega)
  case pfx => exact getLsbD_of_div_mod (by omega)
  case pfxv =>
    apply BitVec.eq_of_toNat_eq
    rw [BitVec.toNat_setWidth]
    omega

/-- After a discarded prefix SR reads the other fields as they stood, and PFX as 0 (R74, R77). -/
theorem statusWord_sr_dropPrefix (c : Ctx) : StatusWord { c with pfx := false } c.dropPrefix.sr := by
  have h := statusWord_sr c.dropPrefix
  constructor
  case asid => simpa using h.asid
  case prio => simpa using h.prio
  case zero => exact h.zero
  case svc => simpa using h.svc
  case wd => simpa using h.wd
  case pfx => simpa using h.pfx
  case pfxv => simpa using h.pfxv

/-! CRR and CRW outside service mode (R76, R301, R302). -/

@[simp] theorem begun_svc (s : State) : (begun s).core.ctx.svc = s.core.ctx.svc := by simp [begun]

/-- Outside service mode no image stands for the registers (R208). -/
theorem serviceReg_of_not_svc {s : State} (h : s.core.ctx.svc = false) (n : Nat) : serviceReg s n = none := by
  simp [serviceReg, h]

/-- A CRR outside service mode puts the register of the core's own context into D. -/
theorem exec_crr_of_not_svc {s s2 : State} {d : Opd} {n : Fin 26} (hsvc : s.core.ctx.svc = false)
    (hdir : checkDirs [] [d] [] (begun s) = .ok ((), begun s)) (hend : dstEnd false d (begun s) = .ok ((), begun s))
    (hput : writeOpd d (crValue (begun s).time (begun s).core (begun s).core.ctx n.val) (begun s) = .ok ((), s2)) :
    exec (.crr d n) s = .next (retired 8 s2) := by
  refine issue_ok ?_
  rw [← begun, M.bind_ok hdir, M.bind_ok hend, M.bind_ok (getS_run _)]
  have hown : serviceReg (begun s) n.val = none := serviceReg_of_not_svc (by simpa using hsvc) _
  rw [hown]
  exact hput

/-- No WARN bit set leaves the state. -/
theorem mapCtx_warnOr_zero (s : State) : s.mapCtx (·.warnOr 0) = s := by
  have h : s.core.ctx.warnOr 0 = s.core.ctx := by simp [Ctx.warnOr]
  change { s with core := { s.core with ctx := s.core.ctx.warnOr 0 } } = s
  rw [h]

/-- A CRW outside service mode of a register that it may not store, whatever the policy and SR, only takes its operand. -/
theorem exec_crw_of_ignored {s s1 : State} {n : Fin 26} {a : Opd} {v : Word} (hsvc : s.core.ctx.svc = false)
    (ht : Takes [a] [] (begun s) [v] s1) (heff : ∀ dbg sr, crwEffect false dbg sr n.val v = (some [], 0)) :
    exec (.crw n a) s = .next (retired 8 s1) := by
  have hsvc1 : s1.core.ctx.svc = false := by
    rw [(readOpds_sameButStreams ht.vals).svc_eq, begun_svc, hsvc]
  refine issue_ok ?_
  rw [← begun, M.bind_ok ht.dirs, M.bind_ok (readOpds_singleton ht.vals), M.bind_ok (getS_run _), serviceReg_of_not_svc hsvc1]
  dsimp only
  rw [M.bind_ok (M.pure_run _ _), hsvc1, heff]
  exact congrArg (fun t => Except.ok ((), t)) (mapCtx_warnOr_zero s1)

/-- Settles O29, from the number of the SR word and the rules of CRR and CRW outside service mode. -/
theorem statusRegister : Obligations.StatusRegister := by
  refine ⟨fun s => statusWord_sr _, fun d s hsvc hdir hend => ?_, fun a v s s1 hsvc ht => ?_⟩
  · exact ⟨_, statusWord_sr_dropPrefix _, fun s2 hput => exec_crr_of_not_svc hsvc hdir hend hput⟩
  · exact exec_crw_of_ignored hsvc ht fun _ _ => rfl

end Sys2Proof.RegisterSpace
end
